-- ==== Sys2Proof/Word.lean ====
section
/-! DEFINITION. The word types of the block and their plainest arithmetic (spec/00_scope.md R10, R11). -/

namespace Sys2Proof

/-- One byte: BUF entries, wire bytes, operands A and B (spec/00_scope.md R10, spec/30_encoding.md R70). -/
abbrev Byte := BitVec 8

/-- A 16-bit value: location codes, extra values, averaged voltages (spec/10_state.md R18, R31). -/
abbrev Half := BitVec 16

/-- A 32-bit command word (spec/30_encoding.md R70). -/
abbrev Word := BitVec 32

/-- `zext_16` of a byte (spec/00_scope.md R11). -/
abbrev zext16 (b : Byte) : Half := b.setWidth 16

end Sys2Proof
end

