-- ==== Sys2Proof/Syntax.lean ====
section
/-! DEFINITION. The syntax of the command port: the probe groups and one constructor for each command of
spec/opcode_table.json (spec/30_encoding.md R71). -/

namespace Sys2Proof

/-- A probe group g: group 0 is probes 0-7 on T[0], group 1 is probes 8-15 on T[1]
(spec/00_scope.md R9, R15). -/
inductive Group where
  | g0
  | g1
deriving DecidableEq, Repr, Inhabited

/-- The other probe group. -/
def Group.other : Group → Group
  | .g0 => .g1
  | .g1 => .g0

/-- The commands of the command port, operands as decoded from fields A, B and G of the command word
(spec/30_encoding.md R71). Which operand values are legal is `Instr.wf`. -/
inductive Instr where
  /-- BUF_LOAD index, value (spec/42_crc8.md R135). -/
  | bufLoad (index value : Byte)
  /-- CRC_COMPUTE length (spec/42_crc8.md R136). -/
  | crcCompute (length : Byte)
  /-- CRC_VALIDATE payload_len (spec/42_crc8.md R137). -/
  | crcValidate (payloadLen : Byte)
  /-- SET_LOGGING flag (spec/60_exceptions.md R206). -/
  | setLogging (flag : Byte)
  /-- BR_SEND g, cmd1, cmd2 (spec/40_bridge.md R100). -/
  | brSend (g : Group) (cmd1 cmd2 : Byte)
  /-- BR_RESET_CFG g, force (spec/40_bridge.md R105). -/
  | brResetCfg (g : Group) (force : Byte)
  /-- BR_SELECT g, write_code, verify_code (spec/40_bridge.md R104). -/
  | brSelect (g : Group) (writeCode verifyCode : Byte)
  /-- BR_1W_RESET g (spec/40_bridge.md R101). -/
  | br1wReset (g : Group)
  /-- BR_WRITE_BYTE g, byte (spec/40_bridge.md R102). -/
  | brWriteByte (g : Group) (byte : Byte)
  /-- BR_READ_BYTE g (spec/40_bridge.md R103). -/
  | brReadByte (g : Group)
  /-- BR_READ_ROM g (spec/41_bridge_sequences.md R120). -/
  | brReadRom (g : Group)
  /-- BR_CONFIG_PROBE g, resolution_bits (spec/41_bridge_sequences.md R121). -/
  | brConfigProbe (g : Group) (resolutionBits : Byte)
  /-- BR_TRIGGER_CONV g (spec/41_bridge_sequences.md R123). -/
  | brTriggerConv (g : Group)
  /-- BR_RETRIEVE_SP g (spec/41_bridge_sequences.md R124). -/
  | brRetrieveSp (g : Group)
  /-- TD_DECODE res_index (spec/43_temperature.md R145). -/
  | tdDecode (resIndex : Byte)
  /-- TD_C_TO_F whole, tenths with its sign, true for negative (spec/43_temperature.md R152). -/
  | tdCToF (sign : Bool) (whole tenths : Byte)
  /-- PM_INITIATE_ALL (spec/44_probe_manager.md R166). -/
  | pmInitiateAll
  /-- PM_GET_ALL (spec/44_probe_manager.md R169). -/
  | pmGetAll
  /-- PM_SET_RESOLUTION index (spec/44_probe_manager.md R174). -/
  | pmSetResolution (index : Byte)
  /-- ADC_PASS (spec/45_adc.md R185). -/
  | adcPass
deriving DecidableEq, Repr

end Sys2Proof
end

