-- ==== Sys2Proof/WellFormed.lean ====
section
/-! DEFINITION. The legal operand values of each command (column "legal operand values" of
spec/30_encoding.md R71). -/

namespace Sys2Proof

/-- The operands of a command are within the legal values its row of spec/30_encoding.md R71 gives.
A row that admits any byte, or has no operand, is always legal. -/
def Instr.wf : Instr → Bool
  | .bufLoad index _ => decide (index.toNat ≤ 8)
  | .crcCompute length => decide (1 ≤ length.toNat) && decide (length.toNat ≤ 9)
  | .crcValidate payloadLen => payloadLen == 7 || payloadLen == 8
  | .setLogging flag => flag == 0 || flag == 1
  | .brSend _ _ _ => true
  | .brResetCfg _ force => force == 0 || force == 1
  | .brSelect _ _ _ => true
  | .br1wReset _ => true
  | .brWriteByte _ _ => true
  | .brReadByte _ => true
  | .brReadRom _ => true
  | .brConfigProbe _ bits => decide (9 ≤ bits.toNat) && decide (bits.toNat ≤ 12)
  | .brTriggerConv _ => true
  | .brRetrieveSp _ => true
  | .tdDecode resIndex => decide (resIndex.toNat ≤ 3)
  | .tdCToF _ whole tenths => decide (whole.toNat ≤ 127) && decide (tenths.toNat ≤ 9)
  | .pmInitiateAll => true
  | .pmGetAll => true
  | .pmSetResolution _ => true
  | .adcPass => true

end Sys2Proof
end

