-- ==== Sys2Proof/Decode.lean ====
section
/-! DEFINITION. Decoding of command words (spec/30_encoding.md R70 to R73) and, after it, the encoder
(spec/30_encoding.md R74). -/

namespace Sys2Proof

/-- Why a command word is illegal (spec/30_encoding.md R73). Every reason has the same effect, the failure
IllegalCommand; the names only say which test of R72 the word failed. -/
inductive DecodeReject where
  /-- The opcode is no row of R71. -/
  | reservedOpcode (op : Byte)
  /-- The reserved field Z is not 0. -/
  | reservedBits
  /-- A field the row marks 0 or "-" is not 0. -/
  | nonzeroField
  /-- An operand is outside the row's legal values. -/
  | operandRange
deriving DecidableEq, Repr

/-- Field OP, bits 31..24 (R70). -/
def opField (w : Word) : Byte := w.extractLsb' 24 8

/-- Field A, bits 23..16 (R70). -/
def aField (w : Word) : Byte := w.extractLsb' 16 8

/-- Field B, bits 15..8 (R70). -/
def bField (w : Word) : Byte := w.extractLsb' 8 8

/-- Field Z, bits 7..1 (R70). -/
def zField (w : Word) : BitVec 7 := w.extractLsb' 1 7

/-- Field G, bit 0 (R70). -/
def gField (w : Word) : BitVec 1 := w.extractLsb' 0 1

/-- The group that G selects (R70). -/
def groupOf (g : BitVec 1) : Group := if g = 0 then .g0 else .g1

/-- The command a word stands for when its operands are legal (R72). -/
def checkOperands (i : Instr) : Except DecodeReject Instr :=
  if i.wf then .ok i else .error .operandRange

/-- The command a word stands for when the fields its row marks 0 are 0 and its operands are legal (R72). -/
def checkRow (zeroFields : Bool) (i : Instr) : Except DecodeReject Instr :=
  if zeroFields then checkOperands i else .error .nonzeroField

/-- The row of spec/30_encoding.md R71 that the opcode selects, applied to fields A, B and G. -/
def decodeRow (op a b : Byte) (g : BitVec 1) : Except DecodeReject Instr :=
  match op with
  | 0x01 => checkRow (g == 0) (.bufLoad a b)
  | 0x02 => checkRow (b == 0 && g == 0) (.crcCompute a)
  | 0x03 => checkRow (b == 0 && g == 0) (.crcValidate a)
  | 0x04 => checkRow (b == 0 && g == 0) (.setLogging a)
  | 0x10 => checkRow true (.brSend (groupOf g) a b)
  | 0x11 => checkRow (b == 0) (.brResetCfg (groupOf g) a)
  | 0x12 => checkRow true (.brSelect (groupOf g) a b)
  | 0x13 => checkRow (a == 0 && b == 0) (.br1wReset (groupOf g))
  | 0x14 => checkRow (b == 0) (.brWriteByte (groupOf g) a)
  | 0x15 => checkRow (a == 0 && b == 0) (.brReadByte (groupOf g))
  | 0x18 => checkRow (a == 0 && b == 0) (.brReadRom (groupOf g))
  | 0x19 => checkRow (b == 0) (.brConfigProbe (groupOf g) a)
  | 0x1A => checkRow (a == 0 && b == 0) (.brTriggerConv (groupOf g))
  | 0x1B => checkRow (a == 0 && b == 0) (.brRetrieveSp (groupOf g))
  | 0x20 => checkRow (b == 0 && g == 0) (.tdDecode a)
  | 0x21 => checkRow true (.tdCToF (g == 1) a b)
  | 0x30 => checkRow (a == 0 && b == 0 && g == 0) .pmInitiateAll
  | 0x31 => checkRow (a == 0 && b == 0 && g == 0) .pmGetAll
  | 0x32 => checkRow (b == 0 && g == 0) (.pmSetResolution a)
  | 0x40 => checkRow (a == 0 && b == 0 && g == 0) .adcPass
  | _ => .error (.reservedOpcode op)

/-- Decode of a command word (spec/30_encoding.md R72): total, every illegal word rejected by name (R73). -/
def decode (w : Word) : Except DecodeReject Instr :=
  if zField w = 0 then decodeRow (opField w) (aField w) (bField w) (gField w)
  else .error .reservedBits

/-- The instruction the decoder reads from a word whose bits are `w`, numbered as spec/opcode_table.json
numbers them; bits at `nbits` and above are 0. Every command is one 32-bit word (R70). -/
def decodeTableWord (nbits w : Nat) : Option Instr :=
  match decode (BitVec.ofNat 32 (w % 2 ^ nbits)) with
  | .ok i => some i
  | .error _ => none

/-- The opcode of each command (spec/30_encoding.md R71). -/
def opcode : Instr → Byte
  | .bufLoad _ _ => 0x01
  | .crcCompute _ => 0x02
  | .crcValidate _ => 0x03
  | .setLogging _ => 0x04
  | .brSend _ _ _ => 0x10
  | .brResetCfg _ _ => 0x11
  | .brSelect _ _ _ => 0x12
  | .br1wReset _ => 0x13
  | .brWriteByte _ _ => 0x14
  | .brReadByte _ => 0x15
  | .brReadRom _ => 0x18
  | .brConfigProbe _ _ => 0x19
  | .brTriggerConv _ => 0x1A
  | .brRetrieveSp _ => 0x1B
  | .tdDecode _ => 0x20
  | .tdCToF _ _ _ => 0x21
  | .pmInitiateAll => 0x30
  | .pmGetAll => 0x31
  | .pmSetResolution _ => 0x32
  | .adcPass => 0x40

/-- The value of G that selects a group (R70). -/
def groupBit : Group → BitVec 1
  | .g0 => 0
  | .g1 => 1

/-- `CMD = OP<<24 | A<<16 | B<<8 | G` (R74), written as the concatenation of the fields of R70. -/
def packWord (op a b : Byte) (g : BitVec 1) : Word :=
  op ++ a ++ b ++ (0 : BitVec 7) ++ g

/-- The command word of a command (spec/30_encoding.md R71, R74). -/
def encode : Instr → Word
  | .bufLoad index value => packWord 0x01 index value 0
  | .crcCompute length => packWord 0x02 length 0 0
  | .crcValidate payloadLen => packWord 0x03 payloadLen 0 0
  | .setLogging flag => packWord 0x04 flag 0 0
  | .brSend g cmd1 cmd2 => packWord 0x10 cmd1 cmd2 (groupBit g)
  | .brResetCfg g force => packWord 0x11 force 0 (groupBit g)
  | .brSelect g w v => packWord 0x12 w v (groupBit g)
  | .br1wReset g => packWord 0x13 0 0 (groupBit g)
  | .brWriteByte g b => packWord 0x14 b 0 (groupBit g)
  | .brReadByte g => packWord 0x15 0 0 (groupBit g)
  | .brReadRom g => packWord 0x18 0 0 (groupBit g)
  | .brConfigProbe g bits => packWord 0x19 bits 0 (groupBit g)
  | .brTriggerConv g => packWord 0x1A 0 0 (groupBit g)
  | .brRetrieveSp g => packWord 0x1B 0 0 (groupBit g)
  | .tdDecode resIndex => packWord 0x20 resIndex 0 0
  | .tdCToF sign whole tenths => packWord 0x21 whole tenths (if sign then 1 else 0)
  | .pmInitiateAll => packWord 0x30 0 0 0
  | .pmGetAll => packWord 0x31 0 0 0
  | .pmSetResolution index => packWord 0x32 index 0 0
  | .adcPass => packWord 0x40 0 0 0

end Sys2Proof
end

