-- ==== Sys2Proof/Config.lean ====
section
/-! DEFINITION. What is fixed for the machine or left open by the spec: the transport identifiers and answers,
the configuration record of spec/00_scope.md R9, and the free values, opaque constants without a body. -/

namespace Sys2Proof

/-- A transport instance: T[0] and T[1] serve the probe groups, T[ADC] the ADC chip (spec/20_memory.md R51). -/
inductive TransportId where
  | grp (g : Group)
  | adc
deriving DecidableEq, Repr

/-- The answer of one transaction (spec/20_memory.md R52): success, or failure with a transport-specific 16-bit
error code. A success carries two bytes, of which a transaction takes the first `rcount`, at most two
(spec/20_memory.md R58), so that every answer answers every transaction. DESIGN CHOICE, log entry 4, safe. -/
inductive Answer where
  | ok (b0 b1 : Byte)
  | err (code : Half)
deriving DecidableEq, Repr, Inhabited

/-- One value for each probe group (spec/10_state.md section 3: "one copy per group g in (0,1)"). -/
structure PerGroup (α : Type) where
  g0 : α
  g1 : α
deriving DecidableEq, Repr

/-- How negative temperatures are decoded, parameter NEG_MODE (spec/43_temperature.md R149). The source defines
only ONES_COMPLEMENT; `other` stands for any other setting, under which a decode is refused. -/
inductive NegMode where
  | onesComplement
  | other
deriving DecidableEq, Repr

/-- The arithmetic of the Fahrenheit conversion, parameter F_ARITH (spec/00_scope.md R9,
spec/93_implementation_defined.md X5): the spec's EXACT, the two float builds that decision D21 counts the differences
of, or any other float width and rounding, whose results are free values (log entry 13). -/
inductive FArith where
  | exact
  | binary64
  | binary32
  | other
deriving DecidableEq, Repr

/-- The configuration record (spec/00_scope.md R9). No command writes it (spec/10_state.md R33). ADC_SAMPLES is
held as its excess over 3 and each trigger byte as its excess over 1, so that the illegal values of
spec/93_implementation_defined.md X14 and the zero trigger bytes of X15 cannot be configured (log entry 10). -/
structure Config where
  /-- BR_ADDR[g], the bridge's endpoint address on T[g] (spec/20_memory.md R54). -/
  brAddr : PerGroup (BitVec 7)
  /-- BR_ST_BUSY (spec/30_encoding.md R80). -/
  stBusy : Byte
  /-- BR_ST_PPD (R80). -/
  stPpd : Byte
  /-- BR_ST_SD (R80). -/
  stSd : Byte
  /-- BR_CMD_DEVICE_RESET (spec/30_encoding.md R81). -/
  cmdDeviceReset : Byte
  /-- BR_CMD_SET_READ_PTR (R81). -/
  cmdSetReadPtr : Byte
  /-- BR_CMD_WRITE_CONFIG (R81). -/
  cmdWriteConfig : Byte
  /-- BR_CMD_CHANNEL_SELECT (R81). -/
  cmdChannelSelect : Byte
  /-- BR_CMD_1W_RESET (R81). -/
  cmd1wReset : Byte
  /-- BR_CMD_1W_WRITE_BYTE (R81). -/
  cmd1wWriteByte : Byte
  /-- BR_CMD_1W_READ_BYTE (R81). -/
  cmd1wReadByte : Byte
  /-- BR_PTR_STATUS (spec/30_encoding.md R82; written by no rule). -/
  ptrStatus : Byte
  /-- BR_PTR_DATA (R82). -/
  ptrData : Byte
  /-- BR_PTR_CHANNEL (R82; written by no rule). -/
  ptrChannel : Byte
  /-- BR_PTR_CONFIG (R82; written by no rule). -/
  ptrConfig : Byte
  /-- BR_CONFIG (spec/30_encoding.md R83). -/
  brConfig : Byte
  /-- CH_WRITE[0..7] (spec/30_encoding.md R85). -/
  chWrite : Vector Byte 8
  /-- CH_VERIFY[0..7] (R85). -/
  chVerify : Vector Byte 8
  /-- OW_READ_ROM (spec/30_encoding.md R86). -/
  owReadRom : Byte
  /-- OW_SKIP_ROM (R86). -/
  owSkipRom : Byte
  /-- OW_WRITE_SCRATCHPAD (R86). -/
  owWriteScratchpad : Byte
  /-- OW_COPY_SCRATCHPAD (R86). -/
  owCopyScratchpad : Byte
  /-- OW_CONVERT_T (R86). -/
  owConvertT : Byte
  /-- OW_READ_SCRATCHPAD (R86). -/
  owReadScratchpad : Byte
  /-- RES_CFG[0..3] (spec/30_encoding.md R87). -/
  resCfg : Vector Byte 4
  /-- RES_MASK[0..3] (R87). -/
  resMask : Vector Byte 4
  /-- CONV_LATENCY[0..3] in milliseconds (R87); the host's wait, read by no command (spec/44_probe_manager.md R175). -/
  convLatency : Vector Nat 4
  /-- POS_FRACTION_TABLE, entries 0..9 (spec/30_encoding.md R88). -/
  posFraction : Vector (Fin 10) 16
  /-- NEG_FRACTION_TABLE, entries 0..9 (R88). -/
  negFraction : Vector (Fin 10) 16
  /-- NEG_MODE (spec/43_temperature.md R149). -/
  negMode : NegMode
  /-- F_ARITH (spec/43_temperature.md R150, spec/93_implementation_defined.md X5). -/
  fArith : FArith
  /-- POLL_DELAY, OPEN (decision D13). -/
  pollDelay : Nat
  /-- EEPROM_WRITE_LATENCY, OPEN (decision D14). -/
  eepromWriteLatency : Nat
  /-- PROBE_TRIGGER_BYTES[0] less 1, OPEN (decision D12, X15). -/
  trigger0Less1 : Fin 255
  /-- PROBE_TRIGGER_BYTES[1] less 1, OPEN (decision D12, X15). -/
  trigger1Less1 : Fin 255
  /-- ADC_ADDR, OPEN (decision D31). -/
  adcAddr : BitVec 7
  /-- ADC_SEL[0..7], OPEN (spec/10_state.md R30, decision D31). -/
  adcSel : Vector Byte 8
  /-- ADC_SAMPLES less 3, OPEN (decision D31, X14): 3 ≤ ADC_SAMPLES ≤ 65535. -/
  adcSamplesLess3 : Fin 65533
deriving DecidableEq, Repr

/-- FREE VALUE. What transport t answers to the n-th transaction it serves after the answers listed in the state
are used up (spec/20_memory.md R52: "The model puts no law on the draw"). Log entry 3, safe. -/
opaque Config.freeAnswer : TransportId → Nat → Answer

/-- FREE VALUE. The n-th 8-bit value stored for a Fahrenheit whole part above 255
(spec/43_temperature.md R151, X4). Log entry 12, safe. -/
opaque Config.freeFahrenheitWhole : Nat → Byte

/-- FREE VALUE. Sign, whole part and tenths of the Fahrenheit value of a sign, a Celsius whole part and tenths, under an
F_ARITH that is neither exact nor one of the two float builds (spec/93_implementation_defined.md X5). The tenths are
in 0..9 (spec/43_temperature.md R153 b). Log entry 13, safe. -/
opaque Config.freeFahrenheit : Bool → Nat → Nat → Bool × Nat × Fin 10

/-- FREE VALUE. The message text of the sink record emitted as the n-th port event
(spec/60_exceptions.md R205, X9). Log entry 14, safe. -/
opaque Config.freeMessage : Nat → String

/-- OPEN parameter POLL_DELAY (decision D13). Log entry 9, safe. -/
opaque Config.openPollDelay : Nat

/-- OPEN parameter EEPROM_WRITE_LATENCY (decision D14). Log entry 9, safe. -/
opaque Config.openEepromWriteLatency : Nat

/-- OPEN parameter PROBE_TRIGGER_BYTES[0], less 1 (decision D12). Log entry 9, safe. -/
opaque Config.openTrigger0Less1 : Fin 255

/-- OPEN parameter PROBE_TRIGGER_BYTES[1], less 1 (decision D12). Log entry 9, safe. -/
opaque Config.openTrigger1Less1 : Fin 255

/-- OPEN parameter ADC_ADDR (decision D31). Log entry 9, safe. -/
opaque Config.openAdcAddr : BitVec 7

/-- OPEN parameter ADC_SEL[0..7] (decision D31). Log entry 9, safe. -/
opaque Config.openAdcSel : Vector Byte 8

/-- OPEN parameter ADC_SAMPLES, less 3 (decision D31). Log entry 9, safe. -/
opaque Config.openAdcSamplesLess3 : Fin 65533

end Sys2Proof
end

