-- ==== Sys2Proof/Machine/Params.lean ====
section
/-! DEFINITION. The parameters of spec/00_scope.md R9: the source's constants, the values derived from the
configuration record, the default record, and the legality test of spec/93_implementation_defined.md X15. -/

namespace Sys2Proof

/-- BUSY_POLL_LIMIT (R9, spec/40_bridge.md R100). -/
def Config.busyPollLimit : Nat := 600

/-- COPY_POLL_LIMIT (R9, spec/41_bridge_sequences.md R122). -/
def Config.copyPollLimit : Nat := 10000

/-- DEFAULT_RES, the reset value of ACTIVE_RES (R9, spec/10_state.md R20). -/
def Config.defaultRes : BitVec 2 := 0

/-- COPY_SETTLE_DELAY = 2 x EEPROM_WRITE_LATENCY (R9, decision D14). -/
def Config.copySettleDelay (c : Config) : Nat := 2 * c.eepromWriteLatency

/-- PROBE_TRIGGER_BYTES[0] (R9, decision D12). -/
def Config.triggerByte0 (c : Config) : Byte := BitVec.ofNat 8 (c.trigger0Less1.val + 1)

/-- PROBE_TRIGGER_BYTES[1] (R9, decision D12). -/
def Config.triggerByte1 (c : Config) : Byte := BitVec.ofNat 8 (c.trigger1Less1.val + 1)

/-- ADC_SAMPLES (R9, decision D31). -/
def Config.adcSamples (c : Config) : Nat := c.adcSamplesLess3.val + 3

/-- BR_ADDR[g] (R9, spec/20_memory.md R54). -/
def Config.brAddrOf (c : Config) : Group → BitVec 7
  | .g0 => c.brAddr.g0
  | .g1 => c.brAddr.g1

/-- The seven BR_CMD_* bytes (spec/30_encoding.md R81). -/
def Config.bridgeCommands (c : Config) : List Byte :=
  [c.cmdDeviceReset, c.cmdSetReadPtr, c.cmdWriteConfig, c.cmdChannelSelect, c.cmd1wReset, c.cmd1wWriteByte,
    c.cmd1wReadByte]

/-- A byte with exactly one bit set (decision D7: "Each must be a single bit"). -/
def isSingleBit (b : Byte) : Bool :=
  [(0x01 : Byte), 0x02, 0x04, 0x08, 0x10, 0x20, 0x40, 0x80].contains b

/-- The bytes that must not be 0x00 because `send_command` would drop them
(spec/93_implementation_defined.md X15, spec/70_reset_and_hazards.md R230). -/
def Config.nonzeroBytes (c : Config) : List Byte :=
  [c.brConfig, c.ptrData] ++ c.chWrite.toList ++ c.resCfg.toList

/-- The configuration is legal: the bridge command bytes are nonzero and pairwise distinct, the status bits are
single and distinct, and no byte that goes out as a parameter is 0x00 (spec/93_implementation_defined.md X15). -/
def Config.legal (c : Config) : Bool :=
  decide (c.bridgeCommands.Nodup) && !c.bridgeCommands.contains 0 &&
    isSingleBit c.stBusy && isSingleBit c.stPpd && isSingleBit c.stSd &&
    decide ([c.stBusy, c.stPpd, c.stSd].Nodup) && !c.nonzeroBytes.contains 0

/-- The default configuration record (spec/00_scope.md R9): the source's values, the spec's general-knowledge
defaults (PRESUMED, log entry 8, unsafe) and the opaque constants of the OPEN parameters (log entry 9, safe). -/
def Config.default : Config where
  brAddr := ⟨0x18, 0x18⟩
  stBusy := 0x01
  stPpd := 0x02
  stSd := 0x04
  cmdDeviceReset := 0xF0
  cmdSetReadPtr := 0xE1
  cmdWriteConfig := 0xD2
  cmdChannelSelect := 0xC3
  cmd1wReset := 0xB4
  cmd1wWriteByte := 0xA5
  cmd1wReadByte := 0x96
  ptrStatus := 0xF0
  ptrData := 0xE1
  ptrChannel := 0xD2
  ptrConfig := 0xC3
  brConfig := 0xE1
  chWrite := #v[0xF0, 0xE1, 0xD2, 0xC3, 0xB4, 0xA5, 0x96, 0x87]
  chVerify := #v[0xB8, 0xB1, 0xAA, 0xA3, 0x9C, 0x95, 0x8E, 0x87]
  owReadRom := 0x33
  owSkipRom := 0xCC
  owWriteScratchpad := 0x4E
  owCopyScratchpad := 0x48
  owConvertT := 0x44
  owReadScratchpad := 0xBE
  resCfg := #v[0x1F, 0x3F, 0x5F, 0x7F]
  resMask := #v[0x08, 0x0C, 0x0E, 0x0F]
  convLatency := #v[94, 188, 375, 750]
  posFraction := #v[0, 1, 1, 2, 3, 3, 4, 4, 5, 6, 6, 7, 8, 8, 9, 9]
  negFraction := #v[9, 9, 8, 7, 7, 6, 6, 5, 4, 4, 3, 3, 2, 1, 1, 0]
  negMode := .onesComplement
  fArith := .exact
  pollDelay := Config.openPollDelay
  eepromWriteLatency := Config.openEepromWriteLatency
  trigger0Less1 := Config.openTrigger0Less1
  trigger1Less1 := Config.openTrigger1Less1
  adcAddr := Config.openAdcAddr
  adcSel := Config.openAdcSel
  adcSamplesLess3 := Config.openAdcSamplesLess3

end Sys2Proof
end

