-- ==== Sys2Proof/Machine/State.lean ====
section
/-! DEFINITION. The state of the block as plain data (spec/10_state.md), the reasons a step can stop, and the state
after reset (spec/70_reset_and_hazards.md R225). -/

namespace Sys2Proof.Machine

/-- `CP_STATE` (spec/10_state.md R16). -/
inductive CpState where
  | idle
  | running
deriving DecidableEq, Repr

/-- ErrorKind, in the order of its numeric codes 0 to 11 (spec/60_exceptions.md R200). -/
inductive ErrorKind where
  | none
  | transportFailure
  | busyTimeout
  | noPresencePulse
  | shortDetected
  | channelVerifyFailed
  | configVerifyFailed
  | checksumMismatch
  | resolutionMismatch
  | scratchpadCorrupt
  | copyNotConfirmed
  | illegalCommand
deriving DecidableEq, Repr

/-- Which cycle set a probe's `last_error` (spec/10_state.md R25, decision D25). -/
inductive ErrorOrigin where
  | none
  | init
  | get
deriving DecidableEq, Repr

/-- `ProbePhase` (spec/10_state.md R27). -/
inductive ProbePhase where
  | uninitialized
  | chipReady
  | channelSelected
  | romKnown
  | configured
  | converting
  | readingReady
  | errored
deriving DecidableEq, Repr

/-- The result registers (spec/10_state.md R18). -/
structure ResultRegs where
  /-- RES_KIND, 4 bits. -/
  kind : BitVec 4
  /-- RES_LOC. -/
  loc : Half
  /-- RES_EXTRA. -/
  extra : Half
  /-- RES_VALUE. -/
  value : Byte
deriving DecidableEq, Repr

/-- One bridge controller's state (spec/10_state.md R22, R23, spec/40_bridge.md R106). -/
structure Bridge where
  /-- BR_STATUS[g]. -/
  status : Byte
  /-- BR_POLLS[g]. -/
  polls : Nat
deriving DecidableEq, Repr

/-- ProbeState (spec/10_state.md R25). -/
structure Probe where
  resolutionBits : Nat
  romKnown : Bool
  rom : Vector Byte 8
  configured : Bool
  lastError : ErrorKind
  errorOrigin : ErrorOrigin
  phase : ProbePhase
  celsiusWhole : Byte
  celsiusFractionTenths : Byte
  celsiusSign : Bool
  fahrenheitWhole : Byte
  fahrenheitFractionTenths : Byte
  fahrenheitSign : Bool
deriving DecidableEq, Repr

/-- The temperature decoder's result registers (spec/10_state.md R28). -/
structure TdRegs where
  /-- TD_C_SIGN. -/
  cSign : Bool
  /-- TD_C_WHOLE. -/
  cWhole : Byte
  /-- TD_C_FRAC, 4 bits. -/
  cFrac : BitVec 4
  /-- TD_F_SIGN. -/
  fSign : Bool
  /-- TD_F_WHOLE. -/
  fWhole : Byte
  /-- TD_F_FRAC, 4 bits. -/
  fFrac : BitVec 4
deriving DecidableEq, Repr

/-- ADC_ACC[c], the accumulators of a sampling pass (spec/10_state.md R29). -/
structure AdcAcc where
  low : BitVec 12
  high : BitVec 12
  sum : BitVec 32
  count : Nat
deriving DecidableEq, Repr

/-- The ADC sampler's state (spec/10_state.md R29, R31, R32) and the place of a pass in progress. -/
structure Adc where
  /-- ADC_ACC[0..7]. -/
  acc : Vector AdcAcc 8
  /-- ADC_AVG[0..7]. -/
  avg : Vector Half 8
  /-- DISH_H[0..3]. -/
  dishH : Vector Half 4
  /-- DISH_V[0..3]. -/
  dishV : Vector Half 4
  /-- H_DIFF, signed. -/
  hDiff : Half
  /-- V_DIFF, signed. -/
  vDiff : Half
  /-- The channel a pass in progress is sampling, none outside a pass (implied by spec/45_adc.md R185, R189).
  DESIGN CHOICE, log entry 18, safe. -/
  channel : Option (Fin 8)
deriving DecidableEq, Repr

/-- A telemetry-sink record (spec/60_exceptions.md R205): location, kind, extra, free message text, and the probe
index for the records raised inside a cycle command. -/
structure SinkRecord where
  loc : Half
  kind : ErrorKind
  extra : Half
  msg : String
  probe : Option (Fin 16)
deriving DecidableEq, Repr

/-- A port event (spec/00_scope.md R7, R12). -/
inductive Event where
  /-- `Transact(t, addr, wbytes, rcount)` and its answer (spec/20_memory.md R50, R52). -/
  | transact (t : TransportId) (addr : BitVec 7) (wbytes : List Byte) (rcount : Nat) (answer : Answer)
  /-- `Delay(d)` (spec/20_memory.md R64). -/
  | delay (d : Nat)
  /-- `Report(loc, kind, extra, msg)` (spec/60_exceptions.md R205). -/
  | report (r : SinkRecord)
deriving DecidableEq, Repr

/-- What a transport will answer: the listed answers in order, then free ones (spec/20_memory.md R52).
DESIGN CHOICE, log entry 3, safe. -/
structure Transport where
  /-- The answers of its next transactions, the next one first. -/
  answers : List Answer
  /-- How many free answers it has given. -/
  draws : Nat
deriving DecidableEq, Repr

/-- The three transport instances (spec/20_memory.md R51). -/
structure Transports where
  t0 : Transport
  t1 : Transport
  tadc : Transport
deriving DecidableEq, Repr

/-- The reset input (spec/70_reset_and_hazards.md R227): no reset, a reset before anything else happens, or a reset
inside a command, right after the given number of further port events. DESIGN CHOICE, log entry 6. -/
inductive ResetRequest where
  | none
  | now
  | within (events : Nat)
deriving DecidableEq, Repr

/-- What is outside the block: inputs it has yet to take and the events it has caused. The MODEL's own fields
(log entries 3, 5, 6, 12, 15). -/
structure Env where
  /-- The command words the host has yet to write to the command port, the next one first (spec/30_encoding.md
  R70). DESIGN CHOICE, log entry 5, safe. -/
  hostWrites : List Word
  /-- The reset input (spec/70_reset_and_hazards.md R227). DESIGN CHOICE, log entry 6. -/
  resetRequest : ResetRequest
  /-- The transports. -/
  transports : Transports
  /-- The port events so far, the newest first. DESIGN CHOICE, log entry 15, safe. -/
  events : List Event
  /-- How many free Fahrenheit whole parts have been drawn. DESIGN CHOICE, log entry 12, safe. -/
  freeDraws : Nat
deriving DecidableEq, Repr

/-- The state of the block (spec/10_state.md), its configuration (spec/00_scope.md R9) and what surrounds it. -/
structure State where
  /-- The configuration record; no command writes it (spec/10_state.md R33). -/
  cfg : Config
  /-- CP_STATE. -/
  cpState : CpState
  /-- CMD. -/
  cmd : Word
  /-- RES_KIND, RES_LOC, RES_EXTRA, RES_VALUE. -/
  res : ResultRegs
  /-- BUF[0..8]. -/
  buf : Vector Byte 9
  /-- ACTIVE_RES. -/
  activeRes : BitVec 2
  /-- LOG_VERBOSE. -/
  logVerbose : Bool
  /-- BR_STATUS[g], BR_POLLS[g]. -/
  bridges : PerGroup Bridge
  /-- PROBE[0..15]. -/
  probes : Vector Probe 16
  /-- TD_*. -/
  td : TdRegs
  /-- ADC_ACC, ADC_AVG, DISH_H, DISH_V, H_DIFF, V_DIFF. -/
  adc : Adc
  /-- The host's and the transports' inputs and the event record. -/
  env : Env
deriving DecidableEq, Repr

/-- The reasons a step stops with a fault. There are none: the block has no traps, and every failure ends the command
in its result registers (spec/60_exceptions.md, preamble and R203). -/
inductive Fault where
deriving DecidableEq, Repr

/-- The reasons a step is refused. -/
inductive Refusal where
  /-- Raised by an arm of `exec` for a command that has no meaning yet. Safe: nothing is claimed of it. -/
  | notModelled (mnemonic : String)
  /-- Raised by `step` when a command would start under a configuration that spec/93_implementation_defined.md X15
  says a model refuses. Safe: no claim can be made of such a machine (log entry 10). -/
  | illegalConfiguration
  /-- Raised by TD_DECODE, and by PM_GET_ALL when it reaches a decode, under a NEG_MODE other than ONES_COMPLEMENT
  (spec/43_temperature.md R149, X8). Safe: the source defines no effect (log entry 11). -/
  | negModeUndefined
deriving DecidableEq, Repr

/-- A probe at reset (R225). -/
def Probe.reset : Probe where
  resolutionBits := 9
  romKnown := false
  rom := Vector.replicate 8 0
  configured := false
  lastError := .none
  errorOrigin := .none
  phase := .uninitialized
  celsiusWhole := 0
  celsiusFractionTenths := 0
  celsiusSign := false
  fahrenheitWhole := 0
  fahrenheitFractionTenths := 0
  fahrenheitSign := false

/-- ADC_ACC[c] at reset, and at the start of channel c in a pass (spec/10_state.md R29, spec/45_adc.md R185). -/
def AdcAcc.start : AdcAcc where
  low := 0xFFF
  high := 0
  sum := 0
  count := 0

/-- The ADC sampler at reset (R225). -/
def Adc.reset : Adc where
  acc := Vector.replicate 8 AdcAcc.start
  avg := Vector.replicate 8 0
  dishH := Vector.replicate 4 0
  dishV := Vector.replicate 4 0
  hDiff := 0
  vDiff := 0
  channel := none

/-- Nothing written by the host, nothing answered and nothing recorded yet: the model's own fields at reset
(log entries 3, 5, 6, 12, 15). -/
def Env.reset : Env where
  hostWrites := []
  resetRequest := .none
  transports := ⟨⟨[], 0⟩, ⟨[], 0⟩, ⟨[], 0⟩⟩
  events := []
  freeDraws := 0

/-- The machine right after reset (spec/70_reset_and_hazards.md R225). -/
def State.reset : State where
  cfg := Config.default
  cpState := .idle
  cmd := 0
  res := ⟨0, 0, 0, 0⟩
  buf := Vector.replicate 9 0
  activeRes := Config.defaultRes
  logVerbose := false
  bridges := ⟨⟨0, 0⟩, ⟨0, 0⟩⟩
  probes := Vector.replicate 16 Probe.reset
  td := ⟨false, 0, 0, false, 0, 0⟩
  adc := Adc.reset
  env := Env.reset

end Sys2Proof.Machine
end

