-- ==== Sys2Proof/Machine/Ops.lean ====
section
/-! DEFINITION. The shared operations: access to every piece of state, the port primitives of spec/00_scope.md R12,
raising and catching a failure, the end of a command (spec/60_exceptions.md R203), reset, and accepting a command
word (spec/30_encoding.md R72, R73). -/

namespace Sys2Proof

/-- Entry g of a per-group item. -/
def PerGroup.get {α : Type} (p : PerGroup α) : Group → α
  | .g0 => p.g0
  | .g1 => p.g1

/-- Entry g of a per-group item replaced. -/
def PerGroup.set {α : Type} (p : PerGroup α) : Group → α → PerGroup α
  | .g0, x => { p with g0 := x }
  | .g1, x => { p with g1 := x }

namespace Machine

/-! ### Reading and writing the state -/

/-- The numeric code of an ErrorKind (spec/60_exceptions.md R200). -/
def ErrorKind.code : ErrorKind → BitVec 4
  | .none => 0
  | .transportFailure => 1
  | .busyTimeout => 2
  | .noPresencePulse => 3
  | .shortDetected => 4
  | .channelVerifyFailed => 5
  | .configVerifyFailed => 6
  | .checksumMismatch => 7
  | .resolutionMismatch => 8
  | .scratchpadCorrupt => 9
  | .copyNotConfirmed => 10
  | .illegalCommand => 11

/-- Transport t of the three (spec/20_memory.md R51). -/
def Transports.get (ts : Transports) : TransportId → Transport
  | .grp .g0 => ts.t0
  | .grp .g1 => ts.t1
  | .adc => ts.tadc

/-- Transport t of the three replaced. -/
def Transports.set (ts : Transports) : TransportId → Transport → Transports
  | .grp .g0, x => { ts with t0 := x }
  | .grp .g1, x => { ts with t1 := x }
  | .adc, x => { ts with tadc := x }

/-- Transport t of the state. -/
def State.transport (s : State) (t : TransportId) : Transport := s.env.transports.get t

/-- Transport t of the state replaced. -/
def State.setTransport (s : State) (t : TransportId) (x : Transport) : State :=
  { s with env := { s.env with transports := s.env.transports.set t x } }

/-- One more port event (spec/00_scope.md R7). -/
def State.emit (s : State) (e : Event) : State :=
  { s with env := { s.env with events := e :: s.env.events } }

/-- `RES_VALUE <- v` (spec/10_state.md R18). -/
def State.setResValue (s : State) (v : Byte) : State := { s with res := { s.res with value := v } }

/-- `BUF[k] <- v` (spec/10_state.md R19). -/
def State.setBuf (s : State) (k : Fin 9) (v : Byte) : State := { s with buf := s.buf.set k v }

/-- `LOG_VERBOSE <- f` (spec/10_state.md R21). -/
def State.setLogVerbose (s : State) (f : Bool) : State := { s with logVerbose := f }

/-- `ACTIVE_RES <- r` (spec/10_state.md R20). -/
def State.setActiveRes (s : State) (r : BitVec 2) : State := { s with activeRes := r }

/-- BR_STATUS[g] and BR_POLLS[g] (spec/10_state.md R22, R23). -/
def State.bridge (s : State) (g : Group) : Bridge := s.bridges.get g

/-- BR_STATUS[g] and BR_POLLS[g] written. -/
def State.setBridge (s : State) (g : Group) (b : Bridge) : State := { s with bridges := s.bridges.set g b }

/-- PROBE[i] (spec/10_state.md R25). -/
def State.probe (s : State) (i : Fin 16) : Probe := s.probes[i]

/-- PROBE[i] written. -/
def State.setProbe (s : State) (i : Fin 16) (p : Probe) : State := { s with probes := s.probes.set i p }

/-- TD_* written (spec/10_state.md R28). -/
def State.setTd (s : State) (r : TdRegs) : State := { s with td := r }

/-- The ADC sampler's state written (spec/10_state.md R29, R31, R32). -/
def State.setAdc (s : State) (a : Adc) : State := { s with adc := a }

/-- ADC_ACC[c] (spec/10_state.md R29). -/
def State.adcAcc (s : State) (c : Fin 8) : AdcAcc := s.adc.acc[c]

/-- ADC_ACC[c] written. -/
def State.setAdcAcc (s : State) (c : Fin 8) (a : AdcAcc) : State :=
  s.setAdc { s.adc with acc := s.adc.acc.set c a }

/-! ### Results and failures (spec/00_scope.md R13, spec/60_exceptions.md) -/

/-- A failure: kind, location code and extra value (R13). -/
structure Failure where
  kind : ErrorKind
  loc : Half
  extra : Half
deriving DecidableEq, Repr

/-- An operation: it ends with `Ok(value)` or `Err(kind, loc, extra)`, and with the state its writes left
(R13, R203: nothing is rolled back). `>>=` is the `try` of R12: a failure ends the caller with the same failure. -/
abbrev Op (α : Type) := ExceptT Failure (StateM State) α

/-- The location code `L(op, s) = (op << 8) | s` (spec/60_exceptions.md R201). -/
def locCode (op step : Byte) : Half := op ++ step

/-- An operation run from a state. -/
def Op.run {α : Type} (x : Op α) (s : State) : Except Failure α × State := x s

/-- Reads the state. -/
def Op.read {α : Type} (f : State → α) : Op α := fun s => (.ok (f s), s)

/-- Writes the state. -/
def Op.modify (f : State → State) : Op Unit := fun s => (.ok (), f s)

/-- Ends with a failure that has been reported before (spec/60_exceptions.md R205: "none when a failure propagates"). -/
def Op.propagate {α : Type} (f : Failure) : Op α := fun s => (.error f, s)

/-- Catches the failure of an operation (spec/60_exceptions.md R204). -/
def Op.attempt {α : Type} (x : Op α) : Op (Except Failure α) := fun s => (.ok (x.run s).1, (x.run s).2)

/-- Emits `Report(loc, kind, extra, msg)` (spec/60_exceptions.md R205). The message text is free (log entry 14). -/
def State.report (s : State) (ctx : Option (Fin 16)) (kind : ErrorKind) (loc extra : Half) : State :=
  s.emit (.report ⟨loc, kind, extra, Config.freeMessage s.env.events.length, ctx⟩)

/-- `raise Kind(loc, extra)` (spec/00_scope.md R12): the operation ends with the failure, and exactly one failure
record is emitted at that moment (spec/60_exceptions.md R205). `ctx` is the probe index inside a cycle command. -/
def raise {α : Type} (ctx : Option (Fin 16)) (kind : ErrorKind) (loc extra : Half) : Op α :=
  fun s => (.error ⟨kind, loc, extra⟩, s.report ctx kind loc extra)

/-! ### The port primitives (spec/00_scope.md R12) -/

/-- The next answer of transport t: the next listed one, else a free one (spec/20_memory.md R52, log entry 3). -/
def Transport.draw (t : TransportId) (x : Transport) : Answer × Transport :=
  match x.answers with
  | a :: rest => (a, { x with answers := rest })
  | [] => (Config.freeAnswer t x.draws, { x with draws := x.draws + 1 })

/-- `Transact(t, addr, wbytes, rcount)` (spec/20_memory.md R50): one event, one answer. -/
def transact (t : TransportId) (addr : BitVec 7) (wbytes : List Byte) (rcount : Nat) : Op Answer := fun s =>
  let r := Transport.draw t (s.transport t)
  (.ok r.1, (s.setTransport t r.2).emit (.transact t addr wbytes rcount r.1))

/-- `Delay(d)`: an event and nothing else (spec/20_memory.md R64). -/
def delay (d : Nat) : Op Unit := Op.modify fun s => s.emit (.delay d)

/-- A write-only transaction with bridge g; a transport error raises TransportFailure at `loc` with the
transport's code (spec/60_exceptions.md R202). -/
def bridgeWrite (ctx : Option (Fin 16)) (g : Group) (loc : Half) (wbytes : List Byte) : Op Unit := do
  let addr ← Op.read fun s => s.cfg.brAddrOf g
  match ← transact (.grp g) addr wbytes 0 with
  | .ok _ _ => pure ()
  | .err code => raise ctx .transportFailure loc code

/-- A one-byte read-only transaction with bridge g; a transport error raises TransportFailure at `loc`
(spec/20_memory.md R50, R58). -/
def bridgeRead (ctx : Option (Fin 16)) (g : Group) (loc : Half) : Op Byte := do
  let addr ← Op.read fun s => s.cfg.brAddrOf g
  match ← transact (.grp g) addr [] 1 with
  | .ok b _ => pure b
  | .err code => raise ctx .transportFailure loc code

/-! ### The end of a command: the block's exception entry (spec/60_exceptions.md R203) -/

/-- `end_of_command(result)` (R203): success writes 0, 0 and the given extra (0, or the mask of
spec/44_probe_manager.md R165); a failure writes its kind, location and extra. RES_VALUE is the command's own.
The port returns to IDLE. There is no other entry, no handler and no return (R203, R208). -/
def endCommand (r : Except Failure Half) (s : State) : State :=
  match r with
  | .ok extra => { s with res := ⟨0, 0, extra, s.res.value⟩, cpState := .idle }
  | .error f => { s with res := ⟨f.kind.code, f.loc, f.extra, s.res.value⟩, cpState := .idle }

/-- A command that runs an operation and ends with RES_EXTRA = 0 on success (R203). -/
def runCommand (x : Op Unit) (s : State) : State :=
  match x.run s with
  | (.ok _, s') => endCommand (.ok 0) s'
  | (.error f, s') => endCommand (.error f) s'

/-- An illegal command word does not run (spec/30_encoding.md R73): failure IllegalCommand at `0xFF00 | OP` with
extra `CMD[15:0]`, one failure record, and the port returns to IDLE. OP and the extra are read from CMD. -/
def illegalCommand (s : State) : State :=
  runCommand (raise none .illegalCommand (locCode 0xFF (opField s.cmd)) (s.cmd.setWidth 16)) s

/-- A command whose operands are within their legal values runs; any other term is the illegal command of
spec/30_encoding.md R73. `decode` only answers legal ones (log entry 17). -/
def ifLegal (i : Instr) (s : State) (t : Host.Outcome State Fault Refusal) : Host.Outcome State Fault Refusal :=
  if i.wf then t else .next (illegalCommand s)

/-! ### Reset (spec/70_reset_and_hazards.md R225, R227) -/

/-- A reset: every state item takes its reset value, a running command ends at once with no end-of-command write.
The configuration and what is outside the block stay, and the request is taken (log entry 6). -/
def applyReset (s : State) : State :=
  { State.reset with cfg := s.cfg, env := { s.env with resetRequest := .none } }

/-- The event is a transaction on transport t. -/
def Event.onTransport (t : TransportId) : Event → Bool
  | .transact t' _ _ _ _ => t' == t
  | .delay _ => false
  | .report _ => false

/-- A transport that has served n more transactions: `Transport.draw` done n times. -/
def Transport.served (n : Nat) (x : Transport) : Transport where
  answers := x.answers.drop n
  draws := x.draws + (n - x.answers.length)

/-- The transports after the transactions among some events. -/
def Transports.served (evs : List Event) (ts : Transports) : Transports where
  t0 := ts.t0.served (evs.countP (Event.onTransport (.grp .g0)))
  t1 := ts.t1.served (evs.countP (Event.onTransport (.grp .g1)))
  tadc := ts.tadc.served (evs.countP (Event.onTransport .adc))

/-- A reset that cuts what would go from `s` to `t` after the events `done`, newest first: those events have happened
and their transactions have been served, there is no end-of-command write, and the block is reset
(spec/70_reset_and_hazards.md R227, log entry 6). -/
def cutByReset (s t : State) (done : List Event) : State :=
  applyReset { t with
    env := { t.env with transports := s.env.transports.served done, events := done ++ s.env.events } }

/-- What goes from `s` to `t` under the reset input: a reset due within its port events cuts it, one due later comes
that much nearer (R227, log entry 6). -/
def landReset (n : Nat) (s t : State) : State :=
  let new := t.env.events.take (t.env.events.length - s.env.events.length)
  if n ≤ new.length then cutByReset s t (new.drop (new.length - n))
  else { t with env := { t.env with resetRequest := .within (n - new.length) } }

/-- A command, or a round of a running pass, that starts in `s`, under the reset input (R227, log entry 6). -/
def underReset (s : State) (o : Host.Outcome State Fault Refusal) : Host.Outcome State Fault Refusal :=
  match s.env.resetRequest, o with
  | .within n, .next t => .next (landReset n s t)
  | .within _, o => o
  | .none, o => o
  | .now, o => o

/-! ### Accepting a command word (spec/30_encoding.md R70, R72, spec/60_exceptions.md R207) -/

/-- The port takes the host's next word into CMD and runs (spec/10_state.md R16, R17). -/
def latchWord (w : Word) (s : State) : State :=
  { s with cmd := w, cpState := .running, env := { s.env with hostWrites := s.env.hostWrites.drop 1 } }

/-- The trace record of an accepted legal command, emitted while LOG_VERBOSE = 1, before its first event (R207):
location `OP << 8`, kind NONE, extra `CMD[15:0]`. -/
def traceCommand (s : State) : State :=
  if s.logVerbose then s.report none .none (locCode (opField s.cmd) 0) (s.cmd.setWidth 16) else s

/-- A legal command word accepted: latched and traced. -/
def acceptCommand (w : Word) (s : State) : State := traceCommand (latchWord w s)

/-- What the port finds to do in a state. -/
inductive Fetched where
  /-- A reset is asked for. -/
  | reset
  /-- A command is running. -/
  | running
  /-- IDLE, and the host has written no command. -/
  | waiting
  /-- IDLE with a command word, under a configuration that a model refuses. -/
  | badConfiguration
  /-- IDLE with a legal command word. -/
  | command (w : Word) (i : Instr)
  /-- IDLE with an illegal command word. -/
  | illegal (w : Word)
deriving DecidableEq, Repr

/-- The port's next action: a reset first; while RUNNING no word is taken (spec/10_state.md R16); in IDLE the host's
next word is decoded (spec/30_encoding.md R72). -/
def fetch (s : State) : Fetched :=
  if s.env.resetRequest = .now then .reset
  else
    match s.cpState with
    | .running => .running
    | .idle =>
      match s.env.hostWrites with
      | [] => .waiting
      | w :: _ =>
        if s.cfg.legal then
          match decode w with
          | .ok i => .command w i
          | .error _ => .illegal w
        else .badConfiguration

/-- The state in which the port is IDLE, no reset is asked for and the host's next word is `w` (log entry 5). -/
def placeWord (w : Word) (s : State) : State :=
  { s with cpState := .idle, env := { s.env with hostWrites := w :: s.env.hostWrites, resetRequest := .none } }

end Machine

end Sys2Proof
end

