-- ==== Sys2Proof/Machine/Flags.lean ====
section
/-! DEFINITION. The block's flag computations: the tests on a bridge status byte and on a configuration read-back,
the immediate commands, a probe's eligibility and the mask of errored probes. -/

namespace Sys2Proof

/-- The busy bit of a status byte is set (spec/30_encoding.md R80). -/
def Config.busy (c : Config) (st : Byte) : Bool := (st &&& c.stBusy) != 0

/-- The presence-pulse-detected bit of a status byte is set (R80). -/
def Config.presence (c : Config) (st : Byte) : Bool := (st &&& c.stPpd) != 0

/-- The short-detected bit of a status byte is set (R80). -/
def Config.short (c : Config) (st : Byte) : Bool := (st &&& c.stSd) != 0

/-- `cmd1 in IMMEDIATE`: set-read-pointer, write-configuration, channel-select (spec/30_encoding.md R92). -/
def Config.immediate (c : Config) (cmd1 : Byte) : Bool :=
  cmd1 == c.cmdSetReadPtr || cmd1 == c.cmdWriteConfig || cmd1 == c.cmdChannelSelect

/-- The configuration read-back returns the same low nibble (spec/30_encoding.md R83). -/
def Config.sameNibble (c : Config) (rb : Byte) : Bool := (rb &&& 0x0F) == (c.brConfig &&& 0x0F)

namespace Machine

/-- `eligible(i)`: last_error = NONE or error_origin = GET (spec/44_probe_manager.md R169). -/
def Probe.eligible (p : Probe) : Bool := p.lastError == .none || p.errorOrigin == .get

/-- The 16-bit mask whose bit i is set when probe i has `last_error != NONE` (spec/44_probe_manager.md R165). -/
def errorMask (s : State) : Half :=
  BitVec.ofFnLE fun i => (s.probe i).lastError != .none

end Machine

end Sys2Proof
end

