-- ==== Sys2Proof/Machine/Operands.lean ====
section
/-! DEFINITION. Operand forms: buffer indices, resolution indices, and the bus routing table
(spec/30_encoding.md R71, R84, R87). -/

namespace Sys2Proof.Machine

/-- Operand A of BUF_LOAD as an index of BUF (spec/42_crc8.md R135). -/
def bufIndex (a : Byte) : Fin 9 := Fin.ofNat 9 a.toNat

/-- The resolution index of a number of bits: `r = bits - 9` (spec/41_bridge_sequences.md R121, decision D41). -/
def resIndexOfBits (bits : Nat) : Fin 4 := Fin.ofNat 4 (bits - 9)

/-- Operand A of TD_DECODE as a resolution index (spec/43_temperature.md R145). -/
def resIndexOfByte (a : Byte) : Fin 4 := Fin.ofNat 4 a.toNat

/-- The active resolution index (spec/10_state.md R20). -/
def State.activeIndex (s : State) : Fin 4 := Fin.ofNat 4 s.activeRes.toNat

/-- The number of bits of the active resolution, `9 + ACTIVE_RES` (spec/44_probe_manager.md R166). -/
def State.activeBits (s : State) : Nat := 9 + s.activeRes.toNat

/-- The group of probe i, `i div 8` (spec/30_encoding.md R84, decision D42). -/
def probeGroup (i : Fin 16) : Group := if i.val / 8 = 0 then .g0 else .g1

/-- The channel of probe i, `i mod 8` (R84, decision D42). -/
def probeChannel (i : Fin 16) : Fin 8 := Fin.ofNat 8 (i.val % 8)

/-- The leaders, probes 0 and 8 (spec/00_scope.md R9, GROUP_LEADERS). -/
def isLeader (i : Fin 16) : Bool := i == 0 || i == 8

/-- The probes in index order 0 to 15 (spec/44_probe_manager.md R165). -/
def probeIndices : List (Fin 16) := [0, 1, 2, 3, 4, 5, 6, 7, 8, 9, 10, 11, 12, 13, 14, 15]

/-- BUF[0..n-1] as a byte sequence (spec/42_crc8.md R136). -/
def bufPrefix (s : State) (n : Nat) : List Byte := s.buf.toList.take n

end Sys2Proof.Machine
end

