-- ==== Sys2Proof/Machine/Adc.lean ====
section
/-! DEFINITION. The ADC sampler and averager: ADC_PASS (spec/45_adc.md). A pass may never end (R189), so its retry
loop is cut into sample attempts: `exec` plays the attempts that T[ADC]'s listed answers serve, and while the port
stays RUNNING each later step plays one more (log entry 2). -/

namespace Sys2Proof.Machine

/-- `adc_code(b0, b1)`, the 12-bit code of a sample (spec/30_encoding.md R91, spec/45_adc.md R185). -/
def adcCode (b0 b1 : Byte) : BitVec 12 :=
  (((b0 ++ b1 : Half) &&& 0xFFF0) >>> 4).setWidth 12

/-- A sample added to the accumulators of its channel (spec/45_adc.md R185). -/
def AdcAcc.add (a : AdcAcc) (x : BitVec 12) : AdcAcc where
  low := if x.toNat < a.low.toNat then x else a.low
  high := if a.high.toNat < x.toNat then x else a.high
  sum := a.sum + x.setWidth 32
  count := a.count + 1

/-- One sample attempt on channel c: the select write, then the two-byte read; a transport error of either is
reported and nothing is counted (spec/45_adc.md R185, decision D31). -/
def adcSample (c : Fin 8) : Op Unit := do
  let cfg ← Op.read State.cfg
  match ← transact .adc cfg.adcAddr [cfg.adcSel[c]] 0 with
  | .err code => Op.modify fun s => s.report none .transportFailure (locCode 0x40 1) code
  | .ok _ _ =>
    match ← transact .adc cfg.adcAddr [] 2 with
    | .err code => Op.modify fun s => s.report none .transportFailure (locCode 0x40 2) code
    | .ok b0 b1 => Op.modify fun s => s.setAdcAcc c ((s.adcAcc c).add (adcCode b0 b1))

/-- The trimmed average `(sum - low - high) div (ADC_SAMPLES - 2)` (spec/45_adc.md R186). -/
def trimmedAverage (samples : Nat) (a : AdcAcc) : Half :=
  BitVec.ofNat 16 ((a.sum.toNat - a.low.toNat - a.high.toNat) / (samples - 2))

/-- `(x0 + x2) - (x1 + x3)`, signed and exact, in 16 bits (spec/45_adc.md R187). -/
def differential (v : Vector Half 4) : Half :=
  BitVec.ofInt 16 ((v[0].toNat + v[2].toNat : Int) - (v[1].toNat + v[3].toNat))

/-- `publish()` (spec/45_adc.md R187). -/
def publish (s : State) : State :=
  let h : Vector Half 4 := #v[s.adc.avg[0], s.adc.avg[1], s.adc.avg[2], s.adc.avg[3]]
  let v : Vector Half 4 := #v[s.adc.avg[4], s.adc.avg[5], s.adc.avg[6], s.adc.avg[7]]
  s.setAdc { s.adc with dishH := h, dishV := v, hDiff := differential h, vDiff := differential v }

/-- Channel c begins: its accumulators start afresh (spec/45_adc.md R185, R188). -/
def adcBegin (c : Fin 8) (s : State) : State :=
  s.setAdc { s.adc with acc := s.adc.acc.set c AdcAcc.start, channel := some c }

/-- The pass ends: publication and the end of the command (spec/45_adc.md R185, R187). -/
def adcFinish (s : State) : State :=
  endCommand (.ok 0) (publish (s.setAdc { s.adc with channel := none }))

/-- Channel c is complete: its average is written, and the next channel begins or the pass ends
(spec/45_adc.md R185, R186). -/
def adcClose (c : Fin 8) (s : State) : State :=
  let s' := s.setAdc { s.adc with avg := s.adc.avg.set c (trimmedAverage s.cfg.adcSamples (s.adcAcc c)) }
  if h : c.val + 1 < 8 then adcBegin ⟨c.val + 1, h⟩ s' else adcFinish s'

/-- One round of the sampling loop of channel c: an attempt while `count < ADC_SAMPLES`, then the channel is closed
if the count is reached (spec/45_adc.md R185). -/
def adcRound (c : Fin 8) (s : State) : State :=
  let s' := if (s.adcAcc c).count < s.cfg.adcSamples then ((adcSample c).run s).2 else s
  if (s'.adcAcc c).count < s.cfg.adcSamples then s' else adcClose c s'

/-- A running command goes on: the pass in progress makes one round. A port that is RUNNING with no pass in progress
has nothing to do and stays RUNNING (log entry 19). -/
def continueCommand (s : State) : State :=
  match s.adc.channel with
  | some c => adcRound c s
  | none => s

/-- The rounds that T[ADC]'s listed answers serve: as long as one is listed and the pass is not over, at most `n`
rounds (log entry 2). -/
def adcPlay : (n : Nat) → State → State
  | 0, s => s
  | n + 1, s =>
    match s.adc.channel, s.env.transports.tadc.answers with
    | some c, _ :: _ => adcPlay n (adcRound c s)
    | _, _ => s

/-- ADC_PASS (spec/45_adc.md R185): the pass begins at channel 0 and plays the rounds that T[ADC]'s listed answers
serve; each round uses at least one. A pass not over then stays RUNNING (R189). -/
def execAdcPass (s : State) : Host.Outcome State Fault Refusal :=
  .next (adcPlay s.env.transports.tadc.answers.length (adcBegin 0 { s with cpState := .running }))

end Sys2Proof.Machine
end

