-- ==== Sys2Proof/Machine/Bridge.lean ====
section
/-! DEFINITION. The bridge controller primitives: BR_SEND, BR_1W_RESET, BR_WRITE_BYTE, BR_READ_BYTE, BR_SELECT,
BR_RESET_CFG (spec/40_bridge.md). `ctx` is the probe a cycle command is processing, none elsewhere. -/

namespace Sys2Proof.Machine

/-- States POLL(i) and WAIT(i) of the busy poll (spec/40_bridge.md R100): `left` polls may still be made, the next is
poll i. BusyTimeout follows the last busy poll and its delay. -/
def pollLoop (ctx : Option (Fin 16)) (g : Group) (cmd1 : Byte) : (left i : Nat) → Op Unit
  | 0, _ => do
    let st ← Op.read fun s => (s.bridge g).status
    raise ctx .busyTimeout (locCode 0x10 4) (zext16 st)
  | left + 1, i => do
    let st ← bridgeRead ctx g (locCode 0x10 2)
    Op.modify fun s => s.setBridge g ⟨st, i⟩
    let cfg ← Op.read State.cfg
    if cfg.busy st then do
      delay cfg.pollDelay
      pollLoop ctx g cmd1 left (i + 1)
    else if cmd1 == cfg.cmd1wReset && !cfg.presence st then
      raise ctx .noPresencePulse (locCode 0x10 3) (zext16 st)
    else pure ()

/-- The bytes `send_command` writes: cmd2 is omitted when it is 0 (spec/40_bridge.md R100). -/
def commandBytes (cmd1 cmd2 : Byte) : List Byte := if cmd2 = 0 then [cmd1] else [cmd1, cmd2]

/-- `send_command(g, cmd1, cmd2)` (spec/40_bridge.md R100). -/
def sendCommand (ctx : Option (Fin 16)) (g : Group) (cmd1 cmd2 : Byte) : Op Unit := do
  bridgeWrite ctx g (locCode 0x10 1) (commandBytes cmd1 cmd2)
  let cfg ← Op.read State.cfg
  if cfg.immediate cmd1 then pure ()
  else do
    Op.modify fun s => s.setBridge g { s.bridge g with polls := 0 }
    pollLoop ctx g cmd1 Config.busyPollLimit 1

/-- `one_wire_reset(g)` (spec/40_bridge.md R101). -/
def oneWireReset (ctx : Option (Fin 16)) (g : Group) : Op Unit := do
  let cfg ← Op.read State.cfg
  sendCommand ctx g cfg.cmd1wReset 0

/-- `write_byte(g, b)` (spec/40_bridge.md R102). -/
def writeByte (ctx : Option (Fin 16)) (g : Group) (b : Byte) : Op Unit := do
  let cfg ← Op.read State.cfg
  sendCommand ctx g cfg.cmd1wWriteByte b

/-- `read_byte(g)` (spec/40_bridge.md R103). -/
def readByte (ctx : Option (Fin 16)) (g : Group) : Op Byte := do
  let cfg ← Op.read State.cfg
  sendCommand ctx g cfg.cmd1wReadByte 0
  sendCommand ctx g cfg.cmdSetReadPtr cfg.ptrData
  bridgeRead ctx g (locCode 0x15 3)

/-- `select_channel(g, w, v)` (spec/40_bridge.md R104). -/
def selectChannel (ctx : Option (Fin 16)) (g : Group) (w v : Byte) : Op Unit := do
  let cfg ← Op.read State.cfg
  sendCommand ctx g cfg.cmdChannelSelect w
  let rb ← bridgeRead ctx g (locCode 0x12 2)
  if rb = v then pure ()
  else raise ctx .channelVerifyFailed (locCode 0x12 3) (zext16 rb)

/-- `reset_and_configure(g, force)` (spec/40_bridge.md R105): no transaction at all when force is false. -/
def resetAndConfigure (ctx : Option (Fin 16)) (g : Group) (force : Bool) : Op Unit :=
  if force then do
    let cfg ← Op.read State.cfg
    sendCommand ctx g cfg.cmdDeviceReset 0
    sendCommand ctx g cfg.cmdWriteConfig cfg.brConfig
    let rb ← bridgeRead ctx g (locCode 0x11 3)
    if cfg.sameNibble rb then pure ()
    else raise ctx .configVerifyFailed (locCode 0x11 4) (zext16 rb)
  else pure ()

/-- BR_SEND g, cmd1, cmd2 (spec/40_bridge.md R100). -/
def execBrSend (g : Group) (cmd1 cmd2 : Byte) (s : State) : Host.Outcome State Fault Refusal :=
  .next (runCommand (sendCommand none g cmd1 cmd2) s)

/-- BR_RESET_CFG g, force (spec/40_bridge.md R105). -/
def execBrResetCfg (g : Group) (force : Byte) (s : State) : Host.Outcome State Fault Refusal :=
  ifLegal (.brResetCfg g force) s <| .next <| runCommand (resetAndConfigure none g (force == 1)) s

/-- BR_SELECT g, write_code, verify_code (spec/40_bridge.md R104). -/
def execBrSelect (g : Group) (w v : Byte) (s : State) : Host.Outcome State Fault Refusal :=
  .next (runCommand (selectChannel none g w v) s)

/-- BR_1W_RESET g (spec/40_bridge.md R101). -/
def execBr1wReset (g : Group) (s : State) : Host.Outcome State Fault Refusal :=
  .next (runCommand (oneWireReset none g) s)

/-- BR_WRITE_BYTE g, byte (spec/40_bridge.md R102). -/
def execBrWriteByte (g : Group) (b : Byte) (s : State) : Host.Outcome State Fault Refusal :=
  .next (runCommand (writeByte none g b) s)

/-- BR_READ_BYTE g: the byte read goes to RES_VALUE, only on success (spec/40_bridge.md R103). -/
def execBrReadByte (g : Group) (s : State) : Host.Outcome State Fault Refusal :=
  .next (runCommand (readByte none g >>= fun b => Op.modify fun s => s.setResValue b) s)

end Sys2Proof.Machine
end

