-- ==== Sys2Proof/Machine/Crc.lean ====
section
/-! DEFINITION. The CRC-8 validator, the byte buffer and the logging flag: BUF_LOAD, CRC_COMPUTE, CRC_VALIDATE
(spec/42_crc8.md) and SET_LOGGING (spec/60_exceptions.md R206). -/

namespace Sys2Proof.Machine

/-- One bit of the CRC: shift right, and XOR with 0x8C when `(reg ^ bit) & 1` (spec/42_crc8.md R136). -/
def crcBit (reg : Byte) (bit : Bool) : Byte :=
  if (reg.getLsbD 0 ^^ bit) then (reg >>> 1) ^^^ 0x8C else reg >>> 1

/-- One byte of the CRC, its bits LSB first (R136). -/
def crcByte (reg b : Byte) : Byte :=
  [0, 1, 2, 3, 4, 5, 6, 7].foldl (fun r i => crcBit r (b.getLsbD i)) reg

/-- `crc8(bytes)`, from the initial value 0x00 (R136). -/
def crc8 (bytes : List Byte) : Byte := bytes.foldl crcByte 0x00

/-- The extra value of a ChecksumMismatch, `computed << 8 | received` (spec/60_exceptions.md R202). -/
def checksumExtra (computed received : Byte) : Half := computed ++ received

/-- `validate(bytes, payload_len)` on BUF (spec/42_crc8.md R137). -/
def crcValidate (p : Nat) : Op Unit := do
  let c ← Op.read fun s => crc8 (bufPrefix s p)
  let received ← Op.read fun s => s.buf[Fin.ofNat 9 p]
  Op.modify fun s => s.setResValue c
  if c = received then pure ()
  else raise none .checksumMismatch (locCode 0x03 1) (checksumExtra c received)

/-- BUF_LOAD k, v (spec/42_crc8.md R135). -/
def execBufLoad (index value : Byte) (s : State) : Host.Outcome State Fault Refusal :=
  ifLegal (.bufLoad index value) s <| .next <|
    runCommand (Op.modify fun s => s.setBuf (bufIndex index) value) s

/-- CRC_COMPUTE n (spec/42_crc8.md R136). -/
def execCrcCompute (length : Byte) (s : State) : Host.Outcome State Fault Refusal :=
  ifLegal (.crcCompute length) s <| .next <|
    runCommand (Op.modify fun s => s.setResValue (crc8 (bufPrefix s length.toNat))) s

/-- CRC_VALIDATE p (spec/42_crc8.md R137). -/
def execCrcValidate (payloadLen : Byte) (s : State) : Host.Outcome State Fault Refusal :=
  ifLegal (.crcValidate payloadLen) s <| .next <| runCommand (crcValidate payloadLen.toNat) s

/-- SET_LOGGING f (spec/60_exceptions.md R206). -/
def execSetLogging (flag : Byte) (s : State) : Host.Outcome State Fault Refusal :=
  ifLegal (.setLogging flag) s <| .next <|
    runCommand (Op.modify fun s => s.setLogVerbose (flag == 1)) s

end Sys2Proof.Machine
end

