-- ==== Sys2Proof/Machine/Sequences.lean ====
section
/-! DEFINITION. The bridge probe sequences: BR_READ_ROM, BR_CONFIG_PROBE, BR_TRIGGER_CONV, BR_RETRIEVE_SP
(spec/41_bridge_sequences.md). -/

namespace Sys2Proof.Machine

/-- `for k: b := try read_byte(g); BUF[k] <- b` (spec/41_bridge_sequences.md R120 step 3, R124 step 5): each byte is
written as it is read. -/
def readIntoBuf (ctx : Option (Fin 16)) (g : Group) : List (Fin 9) → Op Unit
  | [] => pure ()
  | k :: ks => do
    let b ← readByte ctx g
    Op.modify fun s => s.setBuf k b
    readIntoBuf ctx g ks

/-- The indices 0..7 that `read_rom` fills (R120). -/
def romIndices : List (Fin 9) := [0, 1, 2, 3, 4, 5, 6, 7]

/-- The indices 0..8 that `retrieve_scratchpad` fills (R124). -/
def scratchpadIndices : List (Fin 9) := [0, 1, 2, 3, 4, 5, 6, 7, 8]

/-- The CRC test that ends a read sequence: crc8 of BUF[0..n-1] against BUF[n], else ChecksumMismatch at `loc`
(R120 step 4, R124 step 6). -/
def checkBufCrc (ctx : Option (Fin 16)) (n : Nat) (loc : Half) : Op Unit := do
  let c ← Op.read fun s => crc8 (bufPrefix s n)
  let received ← Op.read fun s => s.buf[Fin.ofNat 9 n]
  if c = received then pure ()
  else raise ctx .checksumMismatch loc (checksumExtra c received)

/-- BUF[0..7] as eight bytes (spec/44_probe_manager.md R168). -/
def romBytes (s : State) : Vector Byte 8 :=
  #v[s.buf[0], s.buf[1], s.buf[2], s.buf[3], s.buf[4], s.buf[5], s.buf[6], s.buf[7]]

/-- `read_rom(g)` (spec/41_bridge_sequences.md R120). -/
def readRom (ctx : Option (Fin 16)) (g : Group) : Op (Vector Byte 8) := do
  let cfg ← Op.read State.cfg
  oneWireReset ctx g
  writeByte ctx g cfg.owReadRom
  readIntoBuf ctx g romIndices
  checkBufCrc ctx 7 (locCode 0x18 4)
  Op.read romBytes

/-- The copy confirmation poll (spec/41_bridge_sequences.md R122): `left` iterations may still be made. -/
def copyPoll (ctx : Option (Fin 16)) (g : Group) : (left : Nat) → Op Unit
  | 0 => raise ctx .copyNotConfirmed (locCode 0x19 13) 0
  | left + 1 => do
    let b ← readByte ctx g
    if b = 0 then copyPoll ctx g left else pure ()

/-- `configure_probe(g, bits)` (spec/41_bridge_sequences.md R121). -/
def configureProbe (ctx : Option (Fin 16)) (g : Group) (bits : Nat) : Op Unit := do
  let cfg ← Op.read State.cfg
  oneWireReset ctx g
  writeByte ctx g cfg.owSkipRom
  writeByte ctx g cfg.owWriteScratchpad
  writeByte ctx g cfg.triggerByte0
  writeByte ctx g cfg.triggerByte1
  writeByte ctx g cfg.resCfg[resIndexOfBits bits]
  oneWireReset ctx g
  writeByte ctx g cfg.owSkipRom
  writeByte ctx g cfg.owCopyScratchpad
  delay cfg.copySettleDelay
  oneWireReset ctx g
  copyPoll ctx g Config.copyPollLimit

/-- `trigger_conversion(g)` (spec/41_bridge_sequences.md R123). -/
def triggerConversion (ctx : Option (Fin 16)) (g : Group) : Op Unit := do
  let cfg ← Op.read State.cfg
  oneWireReset ctx g
  writeByte ctx g cfg.owSkipRom
  writeByte ctx g cfg.owConvertT

/-- The short check on the status byte that ended the reset's busy poll (spec/41_bridge_sequences.md R124 step 2). -/
def checkShort (ctx : Option (Fin 16)) (g : Group) : Op Unit := do
  let cfg ← Op.read State.cfg
  let st ← Op.read fun s => (s.bridge g).status
  if cfg.short st then raise ctx .shortDetected (locCode 0x1B 2) (zext16 st) else pure ()

/-- `retrieve_scratchpad(g)` (spec/41_bridge_sequences.md R124). -/
def retrieveScratchpad (ctx : Option (Fin 16)) (g : Group) : Op (Vector Byte 9) := do
  let cfg ← Op.read State.cfg
  oneWireReset ctx g
  checkShort ctx g
  writeByte ctx g cfg.owSkipRom
  writeByte ctx g cfg.owReadScratchpad
  readIntoBuf ctx g scratchpadIndices
  checkBufCrc ctx 8 (locCode 0x1B 6)
  Op.read State.buf

/-- BR_READ_ROM g (spec/41_bridge_sequences.md R120). -/
def execBrReadRom (g : Group) (s : State) : Host.Outcome State Fault Refusal :=
  .next (runCommand (readRom none g >>= fun _ => pure ()) s)

/-- BR_CONFIG_PROBE g, bits (spec/41_bridge_sequences.md R121). -/
def execBrConfigProbe (g : Group) (bits : Byte) (s : State) : Host.Outcome State Fault Refusal :=
  ifLegal (.brConfigProbe g bits) s <| .next <| runCommand (configureProbe none g bits.toNat) s

/-- BR_TRIGGER_CONV g (spec/41_bridge_sequences.md R123). -/
def execBrTriggerConv (g : Group) (s : State) : Host.Outcome State Fault Refusal :=
  .next (runCommand (triggerConversion none g) s)

/-- BR_RETRIEVE_SP g (spec/41_bridge_sequences.md R124). -/
def execBrRetrieveSp (g : Group) (s : State) : Host.Outcome State Fault Refusal :=
  .next (runCommand (retrieveScratchpad none g >>= fun _ => pure ()) s)

end Sys2Proof.Machine
end

