-- ==== Sys2Proof/Machine/Temperature.lean ====
section
/-! DEFINITION. The temperature decoder and the Fahrenheit converter: TD_DECODE, TD_C_TO_F
(spec/43_temperature.md). -/

namespace Sys2Proof.Machine

/-- A Fahrenheit value, its whole part exact (spec/43_temperature.md R150, before R151 narrows it). -/
structure Fahrenheit where
  sign : Bool
  whole : Nat
  frac : BitVec 4
deriving DecidableEq, Repr

/-- A decoded reading: the six values of TD_* (spec/43_temperature.md R145). -/
abbrev Reading := TdRegs

/-- Celsius in tenths, `c10` (spec/43_temperature.md R150). -/
def celsiusTenths (cs : Bool) (cw cf : Nat) : Int :=
  if cs then -(10 * (cw : Int) + cf) else 10 * (cw : Int) + cf

/-- `fahrenheit(cs, cw, cf)` in exact arithmetic: F = n / 50 with n = 9*c10 + 1600 (spec/43_temperature.md R150,
F_ARITH = EXACT). -/
def exactFahrenheit (cs : Bool) (cw cf : Nat) : Fahrenheit :=
  let n : Int := 9 * celsiusTenths cs cw cf + 1600
  { sign := decide (n < 0)
    whole := n.natAbs / 50
    frac := BitVec.ofNat 4 (n.natAbs % 50 / 5) }

/-- Binary floats are held as multiples of 2^-128. -/
def floatOne : Nat := 2 ^ 128

/-- num / den, rounded to an integer, a half to the even one. -/
def roundHalfEven (num den : Nat) : Nat :=
  let q := num / den
  let r := num % den
  if 2 * r < den ∨ (2 * r = den ∧ q % 2 = 0) then q else q + 1

/-- num / den rounded to the nearest float of `p` significant bits, a half to the even one, as a multiple of 2^-128
(PRESUMED: the rounding of IEEE 754, log entry 13). No value of the conversion is small enough to need more places. -/
def roundFloat (p num den : Nat) : Nat :=
  let unit := 2 ^ (Nat.log2 (num * floatOne / den) + 1 - p)
  unit * roundHalfEven (num * floatOne) (den * unit)

/-- `C x 1.8 + 32` on the signed value `±(whole + fraction/10)`, every operation rounded to `p` significant bits; whole
and tenths of the result truncated (spec/43_temperature.md R150, source §4.3 step 6; log entry 13). -/
def floatFahrenheit (p : Nat) (cs : Bool) (cw cf : Nat) : Fahrenheit :=
  let c := roundFloat p (cw * floatOne + roundFloat p cf 10) floatOne
  let scaled := roundFloat p (c * roundFloat p 9 5) (floatOne * floatOne)
  let n : Int := (if cs then -(scaled : Int) else (scaled : Int)) + ((32 * floatOne : Nat) : Int)
  let f := roundFloat p n.natAbs floatOne
  { sign := decide (n < 0)
    whole := f / floatOne
    frac := BitVec.ofNat 4 (min 9 (roundFloat p (10 * (f % floatOne)) floatOne / floatOne)) }

/-- A free Fahrenheit value, under an F_ARITH without a rule (spec/93_implementation_defined.md X5, log entry 13). -/
def otherFahrenheit (cs : Bool) (cw cf : Nat) : Fahrenheit :=
  let v := Config.freeFahrenheit cs cw cf
  { sign := v.1
    whole := v.2.1
    frac := BitVec.ofNat 4 v.2.2.val }

/-- `fahrenheit(cs, cw, cf)` under the F_ARITH of the configuration (spec/43_temperature.md R150,
spec/93_implementation_defined.md X5, log entry 13). -/
def fahrenheit (c : Config) (cs : Bool) (cw cf : Nat) : Fahrenheit :=
  match c.fArith with
  | .exact => exactFahrenheit cs cw cf
  | .binary64 => floatFahrenheit 53 cs cw cf
  | .binary32 => floatFahrenheit 24 cs cw cf
  | .other => otherFahrenheit cs cw cf

/-- The 8-bit value stored for a Fahrenheit whole part: exact up to 255, a free value above it
(spec/43_temperature.md R151, X4, log entry 12). -/
def storedWhole (whole : Nat) : Op Byte := fun s =>
  if whole ≤ 255 then (.ok (BitVec.ofNat 8 whole), s)
  else (.ok (Config.freeFahrenheitWhole s.env.freeDraws),
    { s with env := { s.env with freeDraws := s.env.freeDraws + 1 } })

/-- Step 3: the fraction index, `sp[0] & RES_MASK[r]`, in 0..15 (spec/43_temperature.md R146). -/
def fractionIndex (c : Config) (sp : Vector Byte 9) (r : Fin 4) : BitVec 4 :=
  (sp[0] &&& c.resMask[r]).setWidth 4

/-- Step 4: the whole-number byte, `trunc_8((sp[0] >> 4) | (sp[1] << 4))` (spec/43_temperature.md R147). -/
def wholeByte (sp : Vector Byte 9) : Byte := (sp[0] >>> 4) ||| (sp[1] <<< 4)

/-- An entry of a fraction table (spec/30_encoding.md R88). -/
def tableEntry (t : Vector (Fin 10) 16) (fi : BitVec 4) : BitVec 4 :=
  BitVec.ofNat 4 (t[fi.toFin]).val

/-- Step 5: sign, whole and fraction under NEG_MODE = ONES_COMPLEMENT (spec/43_temperature.md R148): with the sign
bit set the whole is the bitwise complement and the fraction comes from NEG_FRACTION_TABLE. -/
def celsiusOf (c : Config) (sp : Vector Byte 9) (r : Fin 4) : Bool × Byte × BitVec 4 :=
  let w := wholeByte sp
  let fi := fractionIndex c sp r
  if w.getLsbD 7 then (true, ~~~w, tableEntry c.negFraction fi)
  else (false, w, tableEntry c.posFraction fi)

/-- Steps 3 to 6 of `decode` (spec/43_temperature.md R145). -/
def readingOf (c : Config) (sp : Vector Byte 9) (r : Fin 4) : Op Reading := do
  let v := celsiusOf c sp r
  let f := fahrenheit c v.1 v.2.1.toNat v.2.2.toNat
  let fw ← storedWhole f.whole
  pure { cSign := v.1, cWhole := v.2.1, cFrac := v.2.2, fSign := f.sign, fWhole := fw, fFrac := f.frac }

/-- `decode(sp, r)` (spec/43_temperature.md R145): the echo test before the reserved-byte test, then the reading.
It is called only under NEG_MODE = ONES_COMPLEMENT (R149). -/
def decodeScratchpad (ctx : Option (Fin 16)) (sp : Vector Byte 9) (r : Fin 4) : Op Reading := do
  let cfg ← Op.read State.cfg
  if sp[4] ≠ cfg.resCfg[r] then
    raise ctx .resolutionMismatch (locCode 0x20 1) (sp[4] ++ cfg.resCfg[r])
  else if sp[5] ≠ 0xFF ∨ sp[7] ≠ 0x10 then
    raise ctx .scratchpadCorrupt (locCode 0x20 2) (sp[5] ++ sp[7])
  else readingOf cfg sp r

/-- TD_DECODE on BUF: the six TD_* registers, all together and only on success (R145). -/
def tdDecode (r : Fin 4) : Op Unit := do
  let sp ← Op.read State.buf
  let v ← decodeScratchpad none sp r
  Op.modify fun s => s.setTd v

/-- TD_C_TO_F: the three TD_F_* registers (spec/43_temperature.md R152). -/
def tdCToF (sign : Bool) (whole tenths : Nat) : Op Unit := do
  let cfg ← Op.read State.cfg
  let f := fahrenheit cfg sign whole tenths
  let fw ← storedWhole f.whole
  Op.modify fun s => s.setTd { s.td with fSign := f.sign, fWhole := fw, fFrac := f.frac }

/-- TD_DECODE r (spec/43_temperature.md R145); refused under a NEG_MODE other than ONES_COMPLEMENT (R149). -/
def execTdDecode (resIndex : Byte) (s : State) : Host.Outcome State Fault Refusal :=
  ifLegal (.tdDecode resIndex) s <|
    match s.cfg.negMode with
    | .onesComplement => .next (runCommand (tdDecode (resIndexOfByte resIndex)) s)
    | .other => .refused .negModeUndefined

/-- TD_C_TO_F whole, tenths with its sign (spec/43_temperature.md R152). -/
def execTdCToF (sign : Bool) (whole tenths : Byte) (s : State) : Host.Outcome State Fault Refusal :=
  ifLegal (.tdCToF sign whole tenths) s <| .next <|
    runCommand (tdCToF sign whole.toNat tenths.toNat) s

end Sys2Proof.Machine
end

