-- ==== Sys2Proof/Machine/Probes.lean ====
section
/-! DEFINITION. The probe sequencer: PM_INITIATE_ALL, PM_GET_ALL, PM_SET_RESOLUTION (spec/44_probe_manager.md). -/

namespace Sys2Proof.Machine

/-- Some fields of PROBE[i] written. -/
def State.updateProbe (s : State) (i : Fin 16) (f : Probe → Probe) : State := s.setProbe i (f (s.probe i))

/-- `PROBE[i].phase <- p` (spec/10_state.md R27). -/
def setPhase (i : Fin 16) (p : ProbePhase) : Op Unit :=
  Op.modify fun s => s.updateProbe i fun q => { q with phase := p }

/-- `init_fail(i, k)` and `get_fail(i, k)`: the failure recorded in PROBE[i] (spec/44_probe_manager.md R166, R169). -/
def recordFailure (i : Fin 16) (k : ErrorKind) (o : ErrorOrigin) (s : State) : State :=
  s.updateProbe i fun p => { p with lastError := k, errorOrigin := o, phase := .errored }

/-- "reset telemetry" (spec/44_probe_manager.md R166, decision D26): the error status and the phase, not the decoded
fields. -/
def resetTelemetry (i : Fin 16) : Op Unit :=
  Op.modify fun s => s.updateProbe i fun p =>
    { p with lastError := .none, errorOrigin := .none, phase := .uninitialized }

/-- Step 3 of `initiate_all`: the ROM, if not known; a failure is caught and recorded nowhere
(spec/44_probe_manager.md R166, R168). -/
def identifyProbe (i : Fin 16) : Op Unit := do
  let known ← Op.read fun s => (s.probe i).romKnown
  if known then setPhase i .romKnown
  else
    match ← Op.attempt (readRom (some i) (probeGroup i)) with
    | .ok bytes => do
      Op.modify fun s => s.updateProbe i fun p => { p with rom := bytes, romKnown := true }
      setPhase i .romKnown
    | .error _ => pure ()

/-- Step 4 of `initiate_all`: the configuration, if not configured (spec/44_probe_manager.md R166, R167). -/
def configureStep (i : Fin 16) : Op Unit := do
  let done ← Op.read fun s => (s.probe i).configured
  if done then pure ()
  else do
    let bits ← Op.read State.activeBits
    match ← Op.attempt (configureProbe (some i) (probeGroup i) bits) with
    | .ok _ => Op.modify fun s => s.updateProbe i fun p => { p with configured := true, resolutionBits := bits }
    | .error f => do
      Op.modify fun s => s.updateProbe i fun p => { p with configured := false }
      Op.propagate f

/-- The steps of `initiate_all` for probe i (spec/44_probe_manager.md R166). -/
def initiateSteps (i : Fin 16) : Op Unit := do
  resetTelemetry i
  resetAndConfigure (some i) (probeGroup i) (isLeader i)
  setPhase i .chipReady
  let cfg ← Op.read State.cfg
  selectChannel (some i) (probeGroup i) cfg.chWrite[probeChannel i] cfg.chVerify[probeChannel i]
  setPhase i .channelSelected
  identifyProbe i
  configureStep i
  setPhase i .configured
  triggerConversion (some i) (probeGroup i)
  setPhase i .converting

/-- Probe i in `initiate_all`: a failure ends its steps and is recorded with origin INIT, and the cycle goes on
(spec/44_probe_manager.md R165, R166). -/
def initiateProbe (s : State) (i : Fin 16) : State :=
  match (initiateSteps i).run s with
  | (.ok _, s') => s'
  | (.error f, s') => recordFailure i f.kind .init s'

/-- Steps 1 and 2 of `get_all` for probe i (spec/44_probe_manager.md R169). -/
def fetchScratchpad (i : Fin 16) : Op (Vector Byte 9) := do
  let cfg ← Op.read State.cfg
  selectChannel (some i) (probeGroup i) cfg.chWrite[probeChannel i] cfg.chVerify[probeChannel i]
  retrieveScratchpad (some i) (probeGroup i)

/-- `store(i, v)` (spec/44_probe_manager.md R170), the only write of the decoded fields. -/
def storeReading (i : Fin 16) (v : Reading) (s : State) : State :=
  s.updateProbe i fun p =>
    { p with
      celsiusSign := v.cSign
      celsiusWhole := v.cWhole
      celsiusFractionTenths := v.cFrac.setWidth 8
      fahrenheitSign := v.fSign
      fahrenheitWhole := v.fWhole
      fahrenheitFractionTenths := v.fFrac.setWidth 8
      lastError := .none
      errorOrigin := .none
      phase := .readingReady }

/-- Step 3 of `get_all` for probe i: the decode at the active resolution, then `store` (R169, R170). -/
def decodeStep (i : Fin 16) (sp : Vector Byte 9) (s : State) : State :=
  match (decodeScratchpad (some i) sp s.activeIndex).run s with
  | (.ok v, s') => storeReading i v s'
  | (.error f, s') => recordFailure i f.kind .get s'

/-- Probe i in `get_all` (spec/44_probe_manager.md R169): the state after it, and whether its decode was called. -/
def getProbe (s : State) (i : Fin 16) : State × Bool :=
  if (s.probe i).eligible then
    match (fetchScratchpad i).run s with
    | (.ok sp, s') => (decodeStep i sp s', true)
    | (.error f, s') => (recordFailure i f.kind .get s', false)
  else (s, false)

/-- `get_all` over some probes in order: the state after them, and whether a decode was called. -/
def getProbes (s : State) : List (Fin 16) → State × Bool
  | [] => (s, false)
  | i :: is => ((getProbes (getProbe s i).1 is).1, (getProbe s i).2 || (getProbes (getProbe s i).1 is).2)

/-- The end of a cycle command: success, with the mask of errored probes (spec/44_probe_manager.md R165). -/
def endCycle (s : State) : State := endCommand (.ok (errorMask s)) s

/-- `set_resolution(x)` (spec/44_probe_manager.md R174): the raw request is compared before it is clamped (D29). -/
def setResolution (x : Byte) : Op Unit := do
  let active ← Op.read State.activeRes
  if x.toNat = active.toNat then pure ()
  else do
    Op.modify fun s =>
      if 3 < x.toNat then s.report none .none (locCode 0x32 1) (zext16 x) else s
    Op.modify fun s => s.setActiveRes (if 3 < x.toNat then 0 else x.setWidth 2)
    Op.modify fun s => { s with probes := s.probes.map fun p => { p with configured := false } }

/-- PM_INITIATE_ALL (spec/44_probe_manager.md R166). -/
def execPmInitiateAll (s : State) : Host.Outcome State Fault Refusal :=
  .next (endCycle (probeIndices.foldl initiateProbe s))

/-- PM_GET_ALL (spec/44_probe_manager.md R169); refused when a decode is called under a NEG_MODE other than
ONES_COMPLEMENT (spec/43_temperature.md R149). -/
def execPmGetAll (s : State) : Host.Outcome State Fault Refusal :=
  match s.cfg.negMode with
  | .onesComplement => .next (endCycle (getProbes s probeIndices).1)
  | .other =>
    if (getProbes s probeIndices).2 then .refused .negModeUndefined
    else .next (endCycle (getProbes s probeIndices).1)

/-- PM_SET_RESOLUTION x (spec/44_probe_manager.md R174). -/
def execPmSetResolution (index : Byte) (s : State) : Host.Outcome State Fault Refusal :=
  .next (runCommand (setResolution index) s)

end Sys2Proof.Machine
end

