-- ==== Sys2Proof/Machine/Dispatch.lean ====
section
/-! DEFINITION. One arm per command: the effect of each command of spec/opcode_table.json. -/

namespace Sys2Proof.Machine

def exec (i : Instr) (s : State) : Host.Outcome State Fault Refusal :=
  match i with
  | .bufLoad index value => Sys2Proof.Machine.execBufLoad index value s
  | .crcCompute length => Sys2Proof.Machine.execCrcCompute length s
  | .crcValidate payloadLen => Sys2Proof.Machine.execCrcValidate payloadLen s
  | .setLogging flag => Sys2Proof.Machine.execSetLogging flag s
  | .brSend g cmd1 cmd2 => Sys2Proof.Machine.execBrSend g cmd1 cmd2 s
  | .brResetCfg g force => Sys2Proof.Machine.execBrResetCfg g force s
  | .brSelect g w v => Sys2Proof.Machine.execBrSelect g w v s
  | .br1wReset g => Sys2Proof.Machine.execBr1wReset g s
  | .brWriteByte g b => Sys2Proof.Machine.execBrWriteByte g b s
  | .brReadByte g => Sys2Proof.Machine.execBrReadByte g s
  | .brReadRom g => Sys2Proof.Machine.execBrReadRom g s
  | .brConfigProbe g bits => Sys2Proof.Machine.execBrConfigProbe g bits s
  | .brTriggerConv g => Sys2Proof.Machine.execBrTriggerConv g s
  | .brRetrieveSp g => Sys2Proof.Machine.execBrRetrieveSp g s
  | .tdDecode resIndex => Sys2Proof.Machine.execTdDecode resIndex s
  | .tdCToF sign whole tenths => Sys2Proof.Machine.execTdCToF sign whole tenths s
  | .pmInitiateAll => Sys2Proof.Machine.execPmInitiateAll s
  | .pmGetAll => Sys2Proof.Machine.execPmGetAll s
  | .pmSetResolution index => Sys2Proof.Machine.execPmSetResolution index s
  | .adcPass => Sys2Proof.Machine.execAdcPass s

end Sys2Proof.Machine
end

