-- ==== Sys2Proof/Machine/Step.lean ====
section
/-! DEFINITION. One step of the block: the port's next action (`fetch`) and its effect. -/

namespace Sys2Proof.Machine

/-- One step: a reset, one more round of a running pass, waiting, or one whole command, which a reset may cut
(spec/00_scope.md R7, spec/10_state.md R16, spec/70_reset_and_hazards.md R225, R227). -/
def step (s : State) : Host.Outcome State Fault Refusal :=
  match fetch s with
  | .reset => .next (applyReset s)
  | .running => underReset s (.next (continueCommand s))
  | .waiting => .next s
  | .badConfiguration => .refused .illegalConfiguration
  | .command w i => underReset s (exec i (acceptCommand w s))
  | .illegal w => underReset s (.next (illegalCommand (latchWord w s)))

/-- The state with the word whose bits are `w` (bits at `nbits` and above 0) as the host's next word, so that the
next step takes exactly it (log entry 5). -/
def State.withFetchWord (s : State) (nbits w : Nat) : State :=
  placeWord (BitVec.ofNat 32 (w % 2 ^ nbits)) s

end Sys2Proof.Machine
end

