-- ==== Sys2Proof/Safety.lean ====
section
/-! DEFINITION. What the claims about the block speak of: the invariant of its states, what a bridge operation may
change, the scripts of transport answers, and the counts of port events. -/

namespace Sys2Proof.Machine

/-! ### The invariant -/

/-- The ranges of a probe's fields (spec/10_state.md R25), the two signs of an error (its kind and its phase,
R25 to R27), and the CRC of a ROM identity (R25: "ROM identity has been read and CRC-validated"). -/
abbrev Probe.WellFormed (active : BitVec 2) (p : Probe) : Prop :=
  (9 ≤ p.resolutionBits ∧ p.resolutionBits ≤ 12) ∧
  (p.celsiusWhole.toNat ≤ 127 ∧ p.celsiusFractionTenths.toNat ≤ 9 ∧ p.fahrenheitFractionTenths.toNat ≤ 9) ∧
  (p.lastError = .none ↔ p.errorOrigin = .none) ∧
  (p.lastError = .none ↔ p.phase ≠ .errored) ∧
  (p.configured = true → p.resolutionBits = 9 + active.toNat) ∧
  crc8 (p.rom.toList.take 7) = p.rom[7]

/-- The accumulators of a channel after `count` samples of at most 4095 each (spec/10_state.md R29, spec/45_adc.md
R185, R186). -/
abbrev AdcAcc.WellFormed (samples : Nat) (a : AdcAcc) : Prop :=
  a.count ≤ samples ∧
  a.sum.toNat ≤ 4095 * a.count ∧
  (a.count = 0 → a = AdcAcc.start) ∧
  (1 ≤ a.count → a.low.toNat ≤ a.high.toNat) ∧
  (a.count = 1 → a.sum.toNat = a.low.toNat ∧ a.sum.toNat = a.high.toNat) ∧
  (2 ≤ a.count → a.low.toNat + a.high.toNat ≤ a.sum.toNat ∧
    a.sum.toNat ≤ a.low.toNat + a.high.toNat + 4095 * (a.count - 2))

/-- The ADC sampler's registers hold 12-bit voltages, the differentials are those of the published voltages
(spec/10_state.md R31, R32), and a channel in progress still needs samples (spec/45_adc.md R185). -/
abbrev Adc.WellFormed (samples : Nat) (a : Adc) : Prop :=
  (∀ c : Fin 8, (a.acc[c]).WellFormed samples) ∧
  (∀ c : Fin 8, (a.avg[c]).toNat ≤ 4095) ∧
  (∀ j : Fin 4, (a.dishH[j]).toNat ≤ 4095 ∧ (a.dishV[j]).toNat ≤ 4095) ∧
  (a.hDiff = differential a.dishH ∧ a.vDiff = differential a.dishV) ∧
  (∀ c : Fin 8, a.channel = some c → (a.acc[c]).count < samples)

/-- The invariant of the registers: every register is in the range its rule of spec/10_state.md gives. -/
abbrev State.RegistersWellFormed (s : State) : Prop :=
  s.res.kind.toNat ≤ 11 ∧
  ((s.bridge .g0).polls ≤ Config.busyPollLimit ∧ (s.bridge .g1).polls ≤ Config.busyPollLimit) ∧
  (∀ i : Fin 16, (s.probe i).WellFormed s.activeRes) ∧
  (s.td.cWhole.toNat ≤ 127 ∧ s.td.cFrac.toNat ≤ 9 ∧ s.td.fFrac.toNat ≤ 9) ∧
  s.adc.WellFormed s.cfg.adcSamples

/-- The invariant between steps: the registers are well formed, and the port is RUNNING exactly while an ADC pass is
in progress (spec/10_state.md R16, spec/45_adc.md R189). -/
abbrev State.Inv (s : State) : Prop :=
  s.RegistersWellFormed ∧ (s.cpState = .running ↔ s.adc.channel.isSome = true)

/-! ### What an operation may change -/

/-- A bridge operation on group g may change only BUF, BR_STATUS[g] and BR_POLLS[g], transport T[g] and the event
record (spec/40_bridge.md, spec/41_bridge_sequences.md: "State written" of each rule). -/
def BridgeFrame (g : Group) (s t : State) : Prop :=
  t = { s with
    buf := t.buf
    bridges := s.bridges.set g (t.bridges.get g)
    env := { s.env with
      transports := s.env.transports.set (.grp g) (t.env.transports.get (.grp g))
      events := t.env.events } }

/-- A bridge command on group g may besides change the result registers, and it ends IDLE. -/
def BridgeCommandFrame (g : Group) (s t : State) : Prop :=
  t = { s with
    cpState := .idle
    res := t.res
    buf := t.buf
    bridges := s.bridges.set g (t.bridges.get g)
    env := { s.env with
      transports := s.env.transports.set (.grp g) (t.env.transports.get (.grp g))
      events := t.env.events } }

/-- RES_KIND, RES_LOC and RES_EXTRA after a successful command that returns no mask; RES_VALUE is `v`
(spec/60_exceptions.md R203). -/
def okResult (v : Byte) : ResultRegs := ⟨0, 0, 0, v⟩

/-- The result registers after a failure; RES_VALUE is `v` (spec/60_exceptions.md R203). -/
def errResult (k : ErrorKind) (loc extra : Half) (v : Byte) : ResultRegs := ⟨k.code, loc, extra, v⟩

/-- The bridge commands of group g (spec/30_encoding.md R71, opcodes 0x10 to 0x1B). -/
def IsBridgeCommand (g : Group) (i : Instr) : Prop :=
  (∃ a b, i = .brSend g a b) ∨ (∃ f, i = .brResetCfg g f) ∨ (∃ w v, i = .brSelect g w v) ∨ i = .br1wReset g ∨
  (∃ b, i = .brWriteByte g b) ∨ i = .brReadByte g ∨ i = .brReadRom g ∨ (∃ b, i = .brConfigProbe g b) ∨
  i = .brTriggerConv g ∨ i = .brRetrieveSp g

/-! ### Scripts of transport answers -/

/-- Successful answers, each with its two bytes. -/
def okAnswers (l : List (Byte × Byte)) : List Answer := l.map fun p => .ok p.1 p.2

/-- The answers of one polled `send_command`: to the write, to the polls that read busy set, and to the poll that
ends it (spec/40_bridge.md R100). -/
structure PollScript where
  written : Byte × Byte
  busy : List (Byte × Byte)
  last : Byte × Byte
deriving DecidableEq, Repr

/-- The answers of a poll script in order. -/
def PollScript.answers (p : PollScript) : List Answer := okAnswers (p.written :: p.busy ++ [p.last])

/-- The polls before the last read busy set, the last reads it clear, and they are within BUSY_POLL_LIMIT. -/
def PollScript.Clears (c : Config) (p : PollScript) : Prop :=
  (∀ b ∈ p.busy, c.busy b.1 = true) ∧ p.busy.length < Config.busyPollLimit ∧ c.busy p.last.1 = false

/-- The number of polls the script answers. -/
def PollScript.polls (p : PollScript) : Nat := p.busy.length + 1

/-- The answers of one `read_byte`: the polled command, the read-pointer write, and the data read
(spec/40_bridge.md R103). -/
structure ReadScript where
  poll : PollScript
  pointer : Byte × Byte
  data : Byte × Byte
deriving DecidableEq, Repr

/-- The answers of a read script in order. -/
def ReadScript.answers (r : ReadScript) : List Answer := r.poll.answers ++ okAnswers [r.pointer, r.data]

/-- The byte a read script delivers. -/
def ReadScript.byte (r : ReadScript) : Byte := r.data.1

/-- The answers of several `read_byte` in order. -/
def readAnswers (rs : List ReadScript) : List Answer := rs.flatMap ReadScript.answers

/-- T[g]'s listed answers are `l`, then others. -/
def Answers (s : State) (g : Group) (l rest : List Answer) : Prop :=
  (s.transport (.grp g)).answers = l ++ rest

/-- A bridge command on group g ended IDLE with result registers `res`, buffer `buf` and BR_STATUS[g] and BR_POLLS[g]
as `b`, having used T[g]'s listed answers down to `rest`; nothing else changed, and the event record is `t`'s own. -/
def BridgeEnds (g : Group) (s t : State) (res : ResultRegs) (buf : Vector Byte 9) (b : Bridge) (rest : List Answer) :
    Prop :=
  t = { s with
    cpState := .idle
    res := res
    buf := buf
    bridges := s.bridges.set g b
    env := { s.env with
      transports := s.env.transports.set (.grp g) { s.transport (.grp g) with answers := rest }
      events := t.env.events } }

/-- The transport and the group that serve probe i, T[i div 8] (spec/30_encoding.md R84). -/
def busGroup (i : Fin 16) : Group := if i.val < 8 then .g0 else .g1

/-- The channel of probe i, i mod 8 (spec/30_encoding.md R84). -/
def busChannel (i : Fin 16) : Fin 8 := ⟨i.val % 8, Nat.mod_lt _ (by decide)⟩

/-- The answers of the commands of `get_all` for one probe (spec/44_probe_manager.md R169): to the channel select
and its read-back, to the reset, skip-ROM and read-scratchpad commands, and to the nine byte reads. -/
structure GetScript where
  select : Byte × Byte
  readBack : Byte × Byte
  reset : PollScript
  skipRom : PollScript
  readCommand : PollScript
  reads : List ReadScript
deriving DecidableEq, Repr

/-- The answers of a get script in order. -/
def GetScript.answers (x : GetScript) : List Answer :=
  okAnswers [x.select, x.readBack] ++ x.reset.answers ++ x.skipRom.answers ++ x.readCommand.answers ++
    readAnswers x.reads

/-- The scratchpad a get script delivers. -/
def GetScript.scratchpad (x : GetScript) : Vector Byte 9 :=
  Vector.ofFn fun k => (x.reads.map ReadScript.byte).getD k.val 0

/-- A get script under which a scratchpad of probe i is retrieved: the channel is verified, every poll clears, the
reset shows presence and no short, and the CRC is right. -/
def GetScript.Retrieves (c : Config) (i : Fin 16) (x : GetScript) : Prop :=
  x.readBack.1 = c.chVerify[busChannel i] ∧
  (x.reset.Clears c ∧ c.presence x.reset.last.1 = true ∧ c.short x.reset.last.1 = false) ∧
  (x.skipRom.Clears c ∧ x.readCommand.Clears c) ∧
  (x.reads.length = 9 ∧ ∀ y ∈ x.reads, y.poll.Clears c) ∧
  crc8 (x.scratchpad.toList.take 8) = x.scratchpad[8]

/-- A get script under which probe i is read cleanly at resolution index r: its scratchpad is retrieved, and the echo
and the reserved bytes are right. -/
def GetScript.Clean (c : Config) (i : Fin 16) (r : Fin 4) (x : GetScript) : Prop :=
  x.Retrieves c i ∧ x.scratchpad[4] = c.resCfg[r] ∧ x.scratchpad[5] = 0xFF ∧ x.scratchpad[7] = 0x10

/-- The answers of the commands of `initiate_all` for one probe (spec/44_probe_manager.md R166): the chip reset (used for a leader only) with its configuration write and read-back,
the channel select and its read-back, the ROM read (used while no ROM is known), the configuration with its copy poll
(used while the probe is not configured), and the trigger. -/
structure InitScript where
  chipReset : PollScript
  writeConfig : Byte × Byte
  configBack : Byte × Byte
  select : Byte × Byte
  readBack : Byte × Byte
  romReset : PollScript
  romCommand : PollScript
  romReads : List ReadScript
  resetA : PollScript
  writesA : List PollScript
  resetB : PollScript
  writesB : List PollScript
  resetC : PollScript
  waiting : List ReadScript
  confirm : ReadScript
  trigger : List PollScript
deriving DecidableEq, Repr

/-- The answers of an init script for probe i, whose fields are `p` before, in order. -/
def InitScript.answers (i : Fin 16) (p : Probe) (x : InitScript) : List Answer :=
  (if i = 0 ∨ i = 8 then x.chipReset.answers ++ okAnswers [x.writeConfig, x.configBack] else []) ++
    okAnswers [x.select, x.readBack] ++
    (if p.romKnown then [] else x.romReset.answers ++ x.romCommand.answers ++ readAnswers x.romReads) ++
    (if p.configured then [] else
      x.resetA.answers ++ x.writesA.flatMap PollScript.answers ++
        x.resetB.answers ++ x.writesB.flatMap PollScript.answers ++
        x.resetC.answers ++ readAnswers x.waiting ++ x.confirm.answers) ++
    x.trigger.flatMap PollScript.answers

/-- The ROM an init script delivers. -/
def InitScript.rom (x : InitScript) : Vector Byte 8 :=
  Vector.ofFn fun k => (x.romReads.map ReadScript.byte).getD k.val 0

/-- A reset's poll clears and shows presence. -/
def PollScript.Present (c : Config) (p : PollScript) : Prop := p.Clears c ∧ c.presence p.last.1 = true

/-- An init script under which probe i is initiated cleanly (spec/44_probe_manager.md R166, example). -/
def InitScript.Clean (c : Config) (i : Fin 16) (x : InitScript) : Prop :=
  (x.chipReset.Clears c ∧ c.sameNibble x.configBack.1 = true) ∧
  x.readBack.1 = c.chVerify[busChannel i] ∧
  (x.romReset.Present c ∧ x.romCommand.Clears c ∧ x.romReads.length = 8 ∧ ∀ y ∈ x.romReads, y.poll.Clears c) ∧
  crc8 (x.rom.toList.take 7) = x.rom[7] ∧
  (x.resetA.Present c ∧ x.writesA.length = 5 ∧ ∀ y ∈ x.writesA, y.Clears c) ∧
  (x.resetB.Present c ∧ x.writesB.length = 2 ∧ ∀ y ∈ x.writesB, y.Clears c) ∧
  x.resetC.Present c ∧
  (x.waiting.length < Config.copyPollLimit ∧ ∀ y ∈ x.waiting, y.poll.Clears c ∧ y.byte = 0) ∧
  (x.confirm.poll.Clears c ∧ x.confirm.byte ≠ 0) ∧
  (x.trigger.length = 3 ∧ (∀ y ∈ x.trigger, y.Clears c) ∧ ∀ y ∈ x.trigger.head?, c.presence y.last.1 = true)

/-- The probes of a group in index order (spec/30_encoding.md R84). -/
def groupProbes : Group → List (Fin 16)
  | .g0 => [0, 1, 2, 3, 4, 5, 6, 7]
  | .g1 => [8, 9, 10, 11, 12, 13, 14, 15]

/-- One attempt at an ADC sample and what T[ADC] answers to it: the select write fails, the read fails, or a sample is
read (spec/45_adc.md R185). -/
inductive AdcAttempt where
  | selectFails (code : Half)
  | readFails (selected : Byte × Byte) (code : Half)
  | sample (selected data : Byte × Byte)
deriving DecidableEq, Repr

/-- The answers of an attempt in order. -/
def AdcAttempt.answers : AdcAttempt → List Answer
  | .selectFails code => [.err code]
  | .readFails a code => [.ok a.1 a.2, .err code]
  | .sample a d => [.ok a.1 a.2, .ok d.1 d.2]

/-- The 12-bit code an attempt samples, as a number (spec/30_encoding.md R91). -/
def AdcAttempt.code : AdcAttempt → Option Nat
  | .selectFails _ => none
  | .readFails _ _ => none
  | .sample _ d => some (d.1.toNat * 16 + d.2.toNat / 16)

/-- A transport whose next n answers are errors, the listed ones and then the free ones (spec/20_memory.md R52). -/
def Transport.Fails (t : TransportId) : (n : Nat) → Transport → Prop
  | 0, _ => True
  | n + 1, x => (∃ code, (Transport.draw t x).1 = .err code) ∧ Transport.Fails t n (Transport.draw t x).2

/-! ### Port events -/

/-- The events of `t` are `new`, newest first, on top of those of `s`. -/
def NewEvents (s t : State) (new : List Event) : Prop := t.env.events = new ++ s.env.events

/-- The event is a transaction. -/
def Event.isTransact : Event → Bool
  | .transact _ _ _ _ _ => true
  | .delay _ => false
  | .report _ => false

/-- The event is a delay. -/
def Event.isDelay : Event → Bool
  | .transact _ _ _ _ _ => false
  | .delay _ => true
  | .report _ => false

/-- The event is a sink record. -/
def Event.isReport : Event → Bool
  | .transact _ _ _ _ _ => false
  | .delay _ => false
  | .report _ => true

/-- The sink record of an event. -/
def Event.record : Event → Option SinkRecord
  | .transact _ _ _ _ _ => none
  | .delay _ => none
  | .report r => some r

/-- An event with its message text, which is free, left out (spec/60_exceptions.md R205, X9). -/
def Event.textless : Event → Event
  | .transact t addr wbytes rcount a => .transact t addr wbytes rcount a
  | .delay d => .delay d
  | .report r => .report { r with msg := "" }

/-- The events between `s` and `t` are `l`, the oldest first, but for the message texts. -/
def Trace (s t : State) (l : List Event) : Prop :=
  ∃ new, NewEvents s t new ∧ new.reverse.map Event.textless = l

/-- The record of a failure, its message text left out (spec/60_exceptions.md R205). -/
def failureRecord (ctx : Option (Fin 16)) (k : ErrorKind) (loc extra : Half) : Event := .report ⟨loc, k, extra, "", ctx⟩

/-- A write-only transaction with bridge g that succeeds. -/
def writeEvent (c : Config) (g : Group) (wbytes : List Byte) (a : Byte × Byte) : Event :=
  .transact (.grp g) (c.brAddrOf g) wbytes 0 (.ok a.1 a.2)

/-- A one-byte read with bridge g that succeeds. -/
def readEvent (c : Config) (g : Group) (a : Byte × Byte) : Event :=
  .transact (.grp g) (c.brAddrOf g) [] 1 (.ok a.1 a.2)

/-- The events of busy polls: each status read is followed by one delay of POLL_DELAY (spec/40_bridge.md R100). -/
def busyEvents (c : Config) (g : Group) (busy : List (Byte × Byte)) : List Event :=
  busy.flatMap fun b => [readEvent c g b, .delay c.pollDelay]

/-- The events of a polled `send_command` that writes `wbytes`: the write, the busy polls, the poll that ends it
(spec/40_bridge.md R100). -/
def PollScript.events (c : Config) (g : Group) (wbytes : List Byte) (p : PollScript) : List Event :=
  writeEvent c g wbytes p.written :: busyEvents c g p.busy ++ [readEvent c g p.last]

/-- The events of one `read_byte` (spec/40_bridge.md R103). -/
def ReadScript.events (c : Config) (g : Group) (r : ReadScript) : List Event :=
  r.poll.events c g [c.cmd1wReadByte] ++ [writeEvent c g [c.cmdSetReadPtr, c.ptrData] r.pointer, readEvent c g r.data]

/-- The events of several `read_byte`. -/
def readEvents (c : Config) (g : Group) (rs : List ReadScript) : List Event := rs.flatMap (ReadScript.events c g)

/-- The events of several polled commands, each with the bytes it writes. -/
def pollEvents (c : Config) (g : Group) (sent : List (List Byte)) (ps : List PollScript) : List Event :=
  (sent.zip ps).flatMap fun q => q.2.events c g q.1

/-- The events of `select_channel` for probe i: CH_WRITE[i mod 8] is written on T[i div 8], then the read-back
(spec/40_bridge.md R104, spec/30_encoding.md R84). -/
def selectEvents (c : Config) (i : Fin 16) (select readBack : Byte × Byte) : List Event :=
  [writeEvent c (busGroup i) [c.cmdChannelSelect, c.chWrite[busChannel i]] select, readEvent c (busGroup i) readBack]

/-- The events of a get script for probe i: the channel select, then the retrieval of the scratchpad
(spec/44_probe_manager.md R169, spec/41_bridge_sequences.md R124). -/
def GetScript.events (c : Config) (i : Fin 16) (x : GetScript) : List Event :=
  selectEvents c i x.select x.readBack ++
    pollEvents c (busGroup i)
      [[c.cmd1wReset], commandBytes c.cmd1wWriteByte c.owSkipRom, commandBytes c.cmd1wWriteByte c.owReadScratchpad]
      [x.reset, x.skipRom, x.readCommand] ++
    readEvents c (busGroup i) x.reads

/-- The events of an init script for probe i, whose fields are `p` before, at the resolution index r: the chip reset
and BR_CONFIG for the leaders 0 and 8 alone, the channel select, the ROM read while no ROM is known, the configuration
with RES_CFG[r] while the probe is not configured, and the trigger (spec/44_probe_manager.md R166,
spec/41_bridge_sequences.md R120, R121, R123). -/
def InitScript.events (c : Config) (r : Fin 4) (i : Fin 16) (p : Probe) (x : InitScript) : List Event :=
  (if i = 0 ∨ i = 8 then
    x.chipReset.events c (busGroup i) [c.cmdDeviceReset] ++
      [writeEvent c (busGroup i) [c.cmdWriteConfig, c.brConfig] x.writeConfig, readEvent c (busGroup i) x.configBack]
    else []) ++
    selectEvents c i x.select x.readBack ++
    (if p.romKnown then [] else
      pollEvents c (busGroup i) [[c.cmd1wReset], commandBytes c.cmd1wWriteByte c.owReadRom]
        [x.romReset, x.romCommand] ++
      readEvents c (busGroup i) x.romReads) ++
    (if p.configured then [] else
      x.resetA.events c (busGroup i) [c.cmd1wReset] ++
      pollEvents c (busGroup i)
        [commandBytes c.cmd1wWriteByte c.owSkipRom, commandBytes c.cmd1wWriteByte c.owWriteScratchpad,
          commandBytes c.cmd1wWriteByte c.triggerByte0, commandBytes c.cmd1wWriteByte c.triggerByte1,
          [c.cmd1wWriteByte, c.resCfg[r]]] x.writesA ++
      x.resetB.events c (busGroup i) [c.cmd1wReset] ++
      pollEvents c (busGroup i)
        [commandBytes c.cmd1wWriteByte c.owSkipRom, commandBytes c.cmd1wWriteByte c.owCopyScratchpad] x.writesB ++
      [.delay (2 * c.eepromWriteLatency)] ++
      x.resetC.events c (busGroup i) [c.cmd1wReset] ++
      readEvents c (busGroup i) (x.waiting ++ [x.confirm])) ++
    pollEvents c (busGroup i)
      [[c.cmd1wReset], commandBytes c.cmd1wWriteByte c.owSkipRom, commandBytes c.cmd1wWriteByte c.owConvertT] x.trigger

/-- The events of an attempt on channel c: the select byte is written before the read, and an error is recorded
(spec/45_adc.md R185). -/
def AdcAttempt.events (cfg : Config) (c : Fin 8) : AdcAttempt → List Event
  | .selectFails code =>
    [.transact .adc cfg.adcAddr [cfg.adcSel[c]] 0 (.err code), failureRecord none .transportFailure 0x4001 code]
  | .readFails a code =>
    [.transact .adc cfg.adcAddr [cfg.adcSel[c]] 0 (.ok a.1 a.2), .transact .adc cfg.adcAddr [] 2 (.err code),
      failureRecord none .transportFailure 0x4002 code]
  | .sample a d =>
    [.transact .adc cfg.adcAddr [cfg.adcSel[c]] 0 (.ok a.1 a.2), .transact .adc cfg.adcAddr [] 2 (.ok d.1 d.2)]

/-- The event sets bridge g's read pointer to the data register (spec/40_bridge.md R103). -/
def Event.pointsAtData (c : Config) : Event → Bool
  | .transact _ _ wbytes _ _ => wbytes == [c.cmdSetReadPtr, c.ptrData]
  | .delay _ => false
  | .report _ => false

/-- The byte a one-byte read delivered. -/
def Event.byteRead : Event → Option Byte
  | .transact _ _ _ _ (.ok b _) => some b
  | .transact _ _ _ _ (.err _) => none
  | .delay _ => none
  | .report _ => none

/-- The data bytes read among some events, the oldest first: what the reads that directly follow a read-pointer write
delivered (spec/40_bridge.md R103). -/
def dataBytes (c : Config) (evs : List Event) : List Byte :=
  (evs.zip (evs.drop 1)).filterMap fun p => if p.1.pointsAtData c then p.2.byteRead else none

/-- What goes from `s` to `t` was cut by a reset after `n` of its port events: those events have happened and their
transactions have been served, nothing else is left of it, and the block is in its reset state
(spec/70_reset_and_hazards.md R227). -/
def CutAfter (n : Nat) (s t u : State) : Prop :=
  ∃ done rest, NewEvents s t (rest ++ done) ∧ done.length = n ∧
    u = { State.reset with
      cfg := s.cfg
      env := {
        hostWrites := t.env.hostWrites
        resetRequest := .none
        transports := u.env.transports
        events := done ++ s.env.events
        freeDraws := t.env.freeDraws } } ∧
    ∀ x : TransportId, u.transport x =
      ⟨(s.transport x).answers.drop (done.countP (Event.onTransport x)),
        (s.transport x).draws + (done.countP (Event.onTransport x) - (s.transport x).answers.length)⟩

/-- The widths and the endpoint of a transaction are those of the table of spec/20_memory.md R58 and R54. -/
def Event.LegalTransaction (c : Config) : Event → Prop
  | .transact (.grp g) addr wbytes rcount _ =>
    addr = c.brAddrOf g ∧
      ((rcount = 0 ∧ (wbytes.length = 1 ∨ wbytes.length = 2)) ∨ (rcount = 1 ∧ wbytes = []))
  | .transact .adc addr wbytes rcount _ =>
    addr = c.adcAddr ∧ ((rcount = 0 ∧ wbytes.length = 1) ∨ (rcount = 2 ∧ wbytes = []))
  | .delay _ => True
  | .report _ => True

/-! ### The rows of the command table -/

/-- A row of spec/30_encoding.md R71: its opcode, and the ranges of A, B and G, 0..0 where the field must be 0. -/
structure CommandRow where
  op : Byte
  aLow : Nat
  aHigh : Nat
  bHigh : Nat
  gHigh : Nat
deriving DecidableEq, Repr

/-- The table of spec/30_encoding.md R71. -/
def commandRows : List CommandRow :=
  [⟨0x01, 0, 8, 255, 0⟩, ⟨0x02, 1, 9, 0, 0⟩, ⟨0x03, 7, 8, 0, 0⟩, ⟨0x04, 0, 1, 0, 0⟩, ⟨0x10, 0, 255, 255, 1⟩,
    ⟨0x11, 0, 1, 0, 1⟩, ⟨0x12, 0, 255, 255, 1⟩, ⟨0x13, 0, 0, 0, 1⟩, ⟨0x14, 0, 255, 0, 1⟩, ⟨0x15, 0, 0, 0, 1⟩,
    ⟨0x18, 0, 0, 0, 1⟩, ⟨0x19, 9, 12, 0, 1⟩, ⟨0x1A, 0, 0, 0, 1⟩, ⟨0x1B, 0, 0, 0, 1⟩, ⟨0x20, 0, 3, 0, 0⟩,
    ⟨0x21, 0, 127, 9, 1⟩, ⟨0x30, 0, 0, 0, 0⟩, ⟨0x31, 0, 0, 0, 0⟩, ⟨0x32, 0, 255, 0, 0⟩, ⟨0x40, 0, 0, 0, 0⟩]

/-- A word is legal by a row: its opcode, Z = 0, and A, B and G in the row's ranges (spec/30_encoding.md R72). -/
def CommandRow.Admits (r : CommandRow) (w : Word) : Prop :=
  opField w = r.op ∧ zField w = 0 ∧ r.aLow ≤ (aField w).toNat ∧ (aField w).toNat ≤ r.aHigh ∧
    (bField w).toNat ≤ r.bHigh ∧ (gField w).toNat ≤ r.gHigh

/-- The failure locations and their kinds (spec/60_exceptions.md R201), but for 0xFF00 + OP. -/
def locationTable : List (BitVec 4 × Half) :=
  [(7, 0x0301), (1, 0x1001), (1, 0x1002), (3, 0x1003), (2, 0x1004), (1, 0x1103), (6, 0x1104), (1, 0x1202),
    (5, 0x1203), (1, 0x1503), (7, 0x1804), (10, 0x190D), (4, 0x1B02), (7, 0x1B06), (8, 0x2001), (9, 0x2002)]

/-- The bound on the transactions of a command (spec/41_bridge_sequences.md R125, spec/70_reset_and_hazards.md R233,
R237); ADC_PASS has none (spec/45_adc.md R189). -/
def transactionBound : Instr → Option Nat
  | .bufLoad _ _ => some 0
  | .crcCompute _ => some 0
  | .crcValidate _ => some 0
  | .setLogging _ => some 0
  | .brSend _ _ _ => some 601
  | .brResetCfg _ _ => some 603
  | .brSelect _ _ _ => some 2
  | .br1wReset _ => some 601
  | .brWriteByte _ _ => some 601
  | .brReadByte _ => some 603
  | .brReadRom _ => some (2 * 601 + 8 * 603)
  | .brConfigProbe _ _ => some (10 * 601 + 10000 * 603)
  | .brTriggerConv _ => some (3 * 601)
  | .brRetrieveSp _ => some (3 * 601 + 9 * 603)
  | .tdDecode _ => some 0
  | .tdCToF _ _ _ => some 0
  | .pmInitiateAll => some (2 * 603 + 16 * (2 + (2 * 601 + 8 * 603) + (10 * 601 + 10000 * 603) + 3 * 601))
  | .pmGetAll => some (16 * (2 + (3 * 601 + 9 * 603)))
  | .pmSetResolution _ => some 0
  | .adcPass => none

end Sys2Proof.Machine
end

