-- ==== Sys2Proof/Certificates/Slice0/Obligations.lean ====
section
/-! DEFINITION. The statements about the block, each from numbered rules of spec/. -/

open Sys2Proof Sys2Proof.Machine

/-! ### Encoding -/

/-- A few words written out from the encodings decode to the commands they stand for (spec/30_encoding.md R70, R71;
spec/95_test_vectors.md 2.1). -/
def Obligations.DecodeOfSpecWords : Prop :=
  decode 0x0107A200 = .ok (.bufLoad 7 0xA2) ∧ decode 0x02070000 = .ok (.crcCompute 7) ∧
  decode 0x10B40001 = .ok (.brSend .g1 0xB4 0) ∧ decode 0x12D2AA00 = .ok (.brSelect .g0 0xD2 0xAA) ∧
  decode 0x190C0000 = .ok (.brConfigProbe .g0 12) ∧ decode 0x21110801 = .ok (.tdCToF true 17 8) ∧
  decode 0x32070000 = .ok (.pmSetResolution 7) ∧ decode 0x40000000 = .ok .adcPass

/-- Decode and encode agree: every well-formed command decodes from its word (spec/30_encoding.md R71, R74). -/
def Obligations.DecodeInvertsEncode : Prop :=
  ∀ i : Instr, i.wf = true → decode (encode i) = .ok i

/-- Each legal word has one meaning: it is the word of the command it decodes to, whose operands are legal
(spec/30_encoding.md R72, R74). -/
def Obligations.EncodeInvertsDecode : Prop :=
  ∀ (w : Word) (i : Instr), decode w = .ok i → i.wf = true ∧ encode i = w

/-- A word is legal exactly when a row of R71 admits it (spec/30_encoding.md R72). -/
def Obligations.DecodeAcceptsExactlyTheRows : Prop :=
  ∀ w : Word, (∃ i, decode w = .ok i) ↔ ∃ r ∈ commandRows, r.Admits w

/-! ### The command port -/

/-- A step runs the decoded command: in IDLE, with no reset asked for and a legal configuration, when the host's next
word decodes to `i`, the step is `exec i` on the state with the word latched into CMD, the port RUNNING, the word taken
from the host (the host's words are a list: log entry 5), and the trace record of R207 emitted when LOG_VERBOSE is
1. -/
def Obligations.StepRunsDecodedCommand : Prop :=
  ∀ (s : State) (w : Word) (ws : List Word) (i : Instr),
    s.env.resetRequest = .none → s.cpState = .idle → s.cfg.legal = true → s.env.hostWrites = w :: ws →
    decode w = .ok i →
    step s = exec i (acceptCommand w s) ∧
    latchWord w s = { s with cmd := w, cpState := .running, env := { s.env with hostWrites := ws } }

/-- While LOG_VERBOSE = 1 the port emits one trace record, location `OP << 8`, kind NONE, extra `CMD[15:0]`, when it
accepts a legal command, before its first event; while it is 0 it emits none; nothing else changes
(spec/60_exceptions.md R207; the host's words are a list: log entry 5). -/
def Obligations.VerboseTraceOnAcceptance : Prop :=
  ∀ (s : State) (w : Word) (ws : List Word) (i : Instr),
    s.env.resetRequest = .none → s.cpState = .idle → s.cfg.legal = true → s.env.hostWrites = w :: ws →
    decode w = .ok i →
    (s.logVerbose = false → step s = exec i (latchWord w s)) ∧
    (s.logVerbose = true → ∃ msg : String,
      step s = exec i { latchWord w s with
        env := { (latchWord w s).env with
          events := .report ⟨w.extractLsb' 24 8 ++ (0 : Byte), .none, w.extractLsb' 0 16, msg, none⟩ ::
            s.env.events } })

/-- An illegal word does not run (spec/30_encoding.md R73): the port writes IllegalCommand, `0xFF00 | OP` and
`CMD[15:0]`, emits one failure record and returns to IDLE; besides, the word was taken from the host and latched into
CMD (log entry 7), and no other state changes. -/
def Obligations.StepOnIllegalWord : Prop :=
  ∀ (s : State) (w : Word) (ws : List Word) (e : DecodeReject),
    s.env.resetRequest = .none → s.cpState = .idle → s.cfg.legal = true → s.env.hostWrites = w :: ws →
    decode w = .error e →
    ∃ msg : String, step s = .next { s with
      cmd := w
      res := ⟨11, (0xFF : Byte) ++ (w.extractLsb' 24 8 : Byte), w.extractLsb' 0 16, s.res.value⟩
      env := { s.env with
        hostWrites := ws
        events := .report ⟨(0xFF : Byte) ++ (w.extractLsb' 24 8 : Byte), .illegalCommand, w.extractLsb' 0 16, msg, none⟩ ::
          s.env.events } }

/-- In IDLE with nothing written by the host the port waits and nothing changes; while RUNNING it accepts no word: a
step goes on, and CMD and the host's words stay (spec/10_state.md R16, spec/70_reset_and_hazards.md R225; log entry
5). -/
def Obligations.PortWaitsOrGoesOn : Prop :=
  ∀ s : State,
    (s.env.resetRequest ≠ .now → s.cpState = .idle → s.env.hostWrites = [] → step s = .next s) ∧
    (s.env.resetRequest = .none → s.cpState = .running →
      ∃ t, step s = .next t ∧ t.cmd = s.cmd ∧ t.env.hostWrites = s.env.hostWrites)

/-- A reset ends whatever runs at once, with no end-of-command write, and every state item takes its reset value; the
configuration and what is outside the block stay. One that is asked for before a step lands before anything else; one
that is due after `n` further port events cuts the command, the illegal word or the round of a pass that reaches them
right after its n-th event, and comes nearer by the events of one that does not
(spec/70_reset_and_hazards.md R225, R227; the reset input: log entry 6). -/
def Obligations.ResetRequestEntersResetState : Prop :=
  (∀ s : State, s.env.resetRequest = .now →
    step s = .next { State.reset with cfg := s.cfg, env := { s.env with resetRequest := .none } }) ∧
  ∀ (n : Nat) (s t : State) (new : List Event), s.env.resetRequest = .within n → NewEvents s t new →
    ((s.cpState = .idle ∧ s.cfg.legal = true ∧ ∃ w ws, s.env.hostWrites = w :: ws ∧
        ((∃ i, decode w = .ok i ∧ exec i (acceptCommand w s) = .next t) ∨
          ∃ e, decode w = .error e ∧ t = illegalCommand (latchWord w s))) ∨
      (s.cpState = .running ∧ t = continueCommand s)) →
    (n ≤ new.length → ∃ u, step s = .next u ∧ CutAfter n s t u) ∧
    (new.length < n → step s = .next { t with env := { t.env with resetRequest := .within (n - new.length) } })

/-- The reset values of R225, item by item (spec/70_reset_and_hazards.md). -/
def Obligations.ResetValues : Prop :=
  State.reset.cpState = .idle ∧ State.reset.cmd = 0 ∧
  State.reset.res.kind = 0 ∧ State.reset.res.loc = 0 ∧ State.reset.res.extra = 0 ∧ State.reset.res.value = 0 ∧
  (∀ k : Fin 9, State.reset.buf[k] = 0x00) ∧ State.reset.activeRes = 0 ∧ State.reset.logVerbose = false ∧
  (∀ g : Group, State.reset.bridge g = ⟨0x00, 0⟩) ∧
  (∀ i : Fin 16, State.reset.probe i =
    { resolutionBits := 9, romKnown := false, rom := #v[0, 0, 0, 0, 0, 0, 0, 0], configured := false,
      lastError := .none, errorOrigin := .none, phase := .uninitialized, celsiusWhole := 0,
      celsiusFractionTenths := 0, celsiusSign := false, fahrenheitWhole := 0, fahrenheitFractionTenths := 0,
      fahrenheitSign := false }) ∧
  State.reset.td = ⟨false, 0, 0, false, 0, 0⟩ ∧
  (∀ c : Fin 8, State.reset.adcAcc c = ⟨0xFFF, 0, 0, 0⟩ ∧ State.reset.adc.avg[c] = 0) ∧
  (∀ j : Fin 4, State.reset.adc.dishH[j] = 0 ∧ State.reset.adc.dishV[j] = 0) ∧
  State.reset.adc.hDiff = 0 ∧ State.reset.adc.vDiff = 0

/-- A command does not start under a configuration that X15 refuses (spec/93_implementation_defined.md). -/
def Obligations.IllegalConfigurationRefused : Prop :=
  ∀ s : State, s.env.resetRequest ≠ .now → s.cpState = .idle → s.env.hostWrites ≠ [] → s.cfg.legal = false →
    step s = .refused .illegalConfiguration

/-- Under a legal configuration with NEG_MODE = ONES_COMPLEMENT every step answers a next state: the block has no
traps (spec/60_exceptions.md preamble, R203). -/
def Obligations.EveryStepCompletes : Prop :=
  ∀ s : State, s.cfg.legal = true → s.cfg.negMode = .onesComplement → ∃ t, step s = .next t

/-! ### CRC-8, buffer and logging flag -/

/-- BUF_LOAD writes BUF[k] and nothing else but the end of the command; a word with an index above 8 is illegal
(spec/42_crc8.md R135). -/
def Obligations.BufLoadWritesOneByte : Prop :=
  ∀ (s : State) (k v : Byte),
    (∀ h : k.toNat < 9,
      decode ((0x01 : Byte) ++ k ++ v ++ (0x00 : Byte)) = .ok (.bufLoad k v) ∧
      exec (.bufLoad k v) s =
        .next { s with buf := s.buf.set k.toNat v h, res := okResult s.res.value, cpState := .idle }) ∧
    (9 ≤ k.toNat → ∃ e, decode ((0x01 : Byte) ++ k ++ v ++ (0x00 : Byte)) = .error e)

/-- CRC_COMPUTE n puts the CRC of BUF[0..n-1], computed by the loop of R136 (initial value 0x00, each byte LSB first,
0x8C), in RES_VALUE and changes nothing else but the end of the command; `crc8` is that loop on any byte sequence
(spec/42_crc8.md R136). -/
def Obligations.CrcComputeResult : Prop :=
  ∀ crc : List Byte → Byte,
    crc = (fun bytes => bytes.foldl (init := 0x00) fun reg b =>
      (List.range 8).foldl (init := reg) fun reg i =>
        if (reg ^^^ ((b >>> i) &&& 1)) &&& 1 = 1 then (reg >>> 1) ^^^ 0x8C else reg >>> 1) →
    (∀ bytes, crc8 bytes = crc bytes) ∧
    ∀ (s : State) (n : Byte), 1 ≤ n.toNat → n.toNat ≤ 9 →
      exec (.crcCompute n) s = .next { s with res := okResult (crc (s.buf.toList.take n.toNat)), cpState := .idle }

/-- CRC_VALIDATE p writes the computed CRC to RES_VALUE, succeeds when it equals BUF[p] and else fails with
ChecksumMismatch at 0x0301; a word with another p than 7 and 8 is illegal (spec/42_crc8.md R137). -/
def Obligations.CrcValidateResult : Prop :=
  ∀ (s : State) (p : Byte),
    (∀ n : Fin 9, (n = 7 ∨ n = 8) → p.toNat = n.val →
      decode ((0x03 : Byte) ++ p ++ (0x0000 : Half)) = .ok (.crcValidate p) ∧
      ∀ c : Byte, c = crc8 (s.buf.toList.take n.val) →
        (c = s.buf[n] → exec (.crcValidate p) s = .next { s with res := okResult c, cpState := .idle }) ∧
        (c ≠ s.buf[n] → ∃ msg : String, exec (.crcValidate p) s = .next { s with
          res := ⟨7, 0x0301, c ++ s.buf[n], c⟩
          cpState := .idle
          env := { s.env with
            events := .report ⟨0x0301, .checksumMismatch, c ++ s.buf[n], msg, none⟩ :: s.env.events } })) ∧
    (p.toNat ≠ 7 → p.toNat ≠ 8 → ∃ e, decode ((0x03 : Byte) ++ p ++ (0x0000 : Half)) = .error e)

/-- The CRC of a payload with its CRC appended is 0x00 (spec/42_crc8.md R138 b). -/
def Obligations.CrcOfAppendedCrcIsZero : Prop :=
  ∀ p : List Byte, crc8 (p ++ [crc8 p]) = 0x00

/-- CRC_VALIDATE accepts a correctly appended CRC byte and rejects it after any single bit of BUF[0..p] is flipped
(spec/42_crc8.md R138 c). -/
def Obligations.ValidateRejectsSingleBitFlip : Prop :=
  ∀ (s : State) (p k : Fin 9) (j : Fin 8), (p = 7 ∨ p = 8) → k ≤ p →
    crc8 (s.buf.toList.take p.val) = s.buf[p] →
    (∃ t, exec (.crcValidate (BitVec.ofNat 8 p.val)) s = .next t ∧ t.res.kind = 0) ∧
    ∃ t, exec (.crcValidate (BitVec.ofNat 8 p.val)) (s.setBuf k (s.buf[k] ^^^ BitVec.twoPow 8 j.val)) = .next t ∧
      t.res.kind = 7 ∧ t.res.loc = 0x0301

/-- SET_LOGGING writes LOG_VERBOSE and nothing else but the end of the command (spec/60_exceptions.md R206). -/
def Obligations.SetLoggingWritesFlag : Prop :=
  ∀ s : State,
    exec (.setLogging 0) s = .next { s with logVerbose := false, res := okResult s.res.value, cpState := .idle } ∧
    exec (.setLogging 1) s = .next { s with logVerbose := true, res := okResult s.res.value, cpState := .idle }

/-! ### Bridge primitives -/

/-- BR_SEND of an immediate command writes it and returns without a poll: BR_STATUS and BR_POLLS stay
(spec/40_bridge.md R100, spec/30_encoding.md R92). -/
def Obligations.BrSendImmediateDoesNotPoll : Prop :=
  ∀ (s : State) (g : Group) (c1 c2 : Byte) (a : Byte × Byte) (rest : List Answer),
    (c1 = s.cfg.cmdSetReadPtr ∨ c1 = s.cfg.cmdWriteConfig ∨ c1 = s.cfg.cmdChannelSelect) →
    Answers s g (okAnswers [a]) rest →
    ∃ t, exec (.brSend g c1 c2) s = .next t ∧
      BridgeEnds g s t (okResult s.res.value) s.buf (s.bridge g) rest ∧
      Trace s t [writeEvent s.cfg g (if c2 = 0 then [c1] else [c1, c2]) a]

/-- BR_SEND of a polled command whose busy flag clears within the limit succeeds: BR_STATUS holds the last status
byte, BR_POLLS the number of polls; its events are the command write, each busy poll with a delay of POLL_DELAY right
after it, and the last poll (spec/40_bridge.md R100; R125). -/
def Obligations.BrSendPolledSucceeds : Prop :=
  ∀ (s : State) (g : Group) (c1 c2 : Byte) (p : PollScript) (rest : List Answer),
    s.cfg.immediate c1 = false → p.Clears s.cfg → (c1 = s.cfg.cmd1wReset → s.cfg.presence p.last.1 = true) →
    Answers s g p.answers rest →
    ∃ t, exec (.brSend g c1 c2) s = .next t ∧
      BridgeEnds g s t (okResult s.res.value) s.buf ⟨p.last.1, p.polls⟩ rest ∧
      Trace s t (p.events s.cfg g (if c2 = 0 then [c1] else [c1, c2]))

/-- A 1-Wire reset command whose first poll with busy clear has the presence bit clear fails with NoPresencePulse at
0x1003 with that status byte (spec/40_bridge.md R100 step 3). -/
def Obligations.BrSendResetWithoutPresence : Prop :=
  ∀ (s : State) (g : Group) (c2 : Byte) (p : PollScript) (rest : List Answer),
    s.cfg.immediate s.cfg.cmd1wReset = false → p.Clears s.cfg → s.cfg.presence p.last.1 = false →
    Answers s g p.answers rest →
    ∃ t, exec (.brSend g s.cfg.cmd1wReset c2) s = .next t ∧
      BridgeEnds g s t (errResult .noPresencePulse 0x1003 (zext16 p.last.1) s.res.value) s.buf
        ⟨p.last.1, p.polls⟩ rest ∧
      Trace s t (p.events s.cfg g (if c2 = 0 then [s.cfg.cmd1wReset] else [s.cfg.cmd1wReset, c2]) ++
        [failureRecord none .noPresencePulse 0x1003 (zext16 p.last.1)])

/-- A bridge that keeps busy set makes a polled command fail with BusyTimeout after exactly 600 polls, each followed by
a delay of POLL_DELAY (spec/40_bridge.md R100 step 4, corner d). -/
def Obligations.BrSendBusyTimeout : Prop :=
  ∀ (s : State) (g : Group) (c1 c2 : Byte) (a last : Byte × Byte) (busy : List (Byte × Byte)) (rest : List Answer),
    s.cfg.immediate c1 = false → busy.length = 599 → (∀ b ∈ busy ++ [last], s.cfg.busy b.1 = true) →
    Answers s g (okAnswers (a :: busy ++ [last])) rest →
    ∃ t, exec (.brSend g c1 c2) s = .next t ∧
      BridgeEnds g s t (errResult .busyTimeout 0x1004 (zext16 last.1) s.res.value) s.buf ⟨last.1, 600⟩ rest ∧
      Trace s t (writeEvent s.cfg g (if c2 = 0 then [c1] else [c1, c2]) a :: busyEvents s.cfg g (busy ++ [last]) ++
        [failureRecord none .busyTimeout 0x1004 (zext16 last.1)])

/-- A transport error at the command write fails with TransportFailure at 0x1001, at a poll read (after any number of
busy polls) at 0x1002, with the transport's code; it is not retried and not counted as a poll
(spec/40_bridge.md R100 steps 1 and 2). -/
def Obligations.BrSendTransportFailure : Prop :=
  ∀ (s : State) (g : Group) (c1 c2 : Byte) (code : Half) (rest : List Answer),
    (Answers s g [.err code] rest →
      ∃ t, exec (.brSend g c1 c2) s = .next t ∧
        BridgeEnds g s t (errResult .transportFailure 0x1001 code s.res.value) s.buf (s.bridge g) rest ∧
        Trace s t
          [.transact (.grp g) (s.cfg.brAddrOf g) (if c2 = 0 then [c1] else [c1, c2]) 0 (.err code),
            failureRecord none .transportFailure 0x1001 code]) ∧
    (∀ (a : Byte × Byte) (busy : List (Byte × Byte)),
      s.cfg.immediate c1 = false → busy.length < 600 → (∀ b ∈ busy, s.cfg.busy b.1 = true) →
      Answers s g (okAnswers (a :: busy) ++ [.err code]) rest →
      ∃ t, exec (.brSend g c1 c2) s = .next t ∧
        BridgeEnds g s t (errResult .transportFailure 0x1002 code s.res.value) s.buf
          ⟨(busy.map Prod.fst).getLast?.getD (s.bridge g).status, busy.length⟩ rest ∧
        Trace s t
          (writeEvent s.cfg g (if c2 = 0 then [c1] else [c1, c2]) a :: busyEvents s.cfg g busy ++
            [.transact (.grp g) (s.cfg.brAddrOf g) [] 1 (.err code),
              failureRecord none .transportFailure 0x1002 code]))

/-- BR_1W_RESET and BR_WRITE_BYTE whose busy flag clears: the write succeeds, a data byte 0 omitted; the reset succeeds
with presence and else fails with NoPresencePulse at 0x1003; BR_STATUS holds the status byte that ended the poll
(spec/40_bridge.md R101, R102). -/
def Obligations.ResetAndWriteByteSucceed : Prop :=
  ∀ (s : State) (g : Group) (p : PollScript) (rest : List Answer),
    s.cfg.legal = true → p.Clears s.cfg → Answers s g p.answers rest →
    (s.cfg.presence p.last.1 = true → ∃ t, exec (.br1wReset g) s = .next t ∧
      BridgeEnds g s t (okResult s.res.value) s.buf ⟨p.last.1, p.polls⟩ rest ∧
      Trace s t (p.events s.cfg g [s.cfg.cmd1wReset])) ∧
    (s.cfg.presence p.last.1 = false → ∃ t, exec (.br1wReset g) s = .next t ∧
      BridgeEnds g s t (errResult .noPresencePulse 0x1003 (zext16 p.last.1) s.res.value) s.buf ⟨p.last.1, p.polls⟩
        rest ∧
      Trace s t (p.events s.cfg g [s.cfg.cmd1wReset] ++
        [failureRecord none .noPresencePulse 0x1003 (zext16 p.last.1)])) ∧
    ∀ b : Byte, ∃ t, exec (.brWriteByte g b) s = .next t ∧
      BridgeEnds g s t (okResult s.res.value) s.buf ⟨p.last.1, p.polls⟩ rest ∧
      Trace s t (p.events s.cfg g (if b = 0 then [s.cfg.cmd1wWriteByte] else [s.cfg.cmd1wWriteByte, b]))

/-- BR_READ_BYTE issues the read command, sets the read pointer to the data register and puts the byte read in
RES_VALUE; a transport error at the data read fails at 0x1503 and leaves RES_VALUE (spec/40_bridge.md R103). -/
def Obligations.ReadByteDelivers : Prop :=
  ∀ (s : State) (g : Group) (p : PollScript) (a : Byte × Byte) (d : Answer) (rest : List Answer),
    s.cfg.legal = true → p.Clears s.cfg → Answers s g (p.answers ++ okAnswers [a] ++ [d]) rest →
    ∃ t, exec (.brReadByte g) s = .next t ∧
      (∀ b b' : Byte, d = .ok b b' → BridgeEnds g s t (okResult b) s.buf ⟨p.last.1, p.polls⟩ rest ∧
        Trace s t (p.events s.cfg g [s.cfg.cmd1wReadByte] ++
          [writeEvent s.cfg g [s.cfg.cmdSetReadPtr, s.cfg.ptrData] a, readEvent s.cfg g (b, b')])) ∧
      (∀ code : Half, d = .err code →
        BridgeEnds g s t (errResult .transportFailure 0x1503 code s.res.value) s.buf ⟨p.last.1, p.polls⟩ rest ∧
        Trace s t (p.events s.cfg g [s.cfg.cmd1wReadByte] ++
          [writeEvent s.cfg g [s.cfg.cmdSetReadPtr, s.cfg.ptrData] a,
            .transact (.grp g) (s.cfg.brAddrOf g) [] 1 (.err code),
            failureRecord none .transportFailure 0x1503 code]))

/-- BR_SELECT succeeds exactly when the read-back equals the verify code, else it fails with ChannelVerifyFailed at
0x1203 with the byte read, or, when the transport fails the read-back, with TransportFailure at 0x1202; BR_STATUS is
not written (spec/40_bridge.md R104). -/
def Obligations.SelectChannelVerifies : Prop :=
  ∀ (s : State) (g : Group) (w v : Byte) (a : Byte × Byte) (rest : List Answer) (sel : List Byte),
    sel = (if w = 0 then [s.cfg.cmdChannelSelect] else [s.cfg.cmdChannelSelect, w]) →
    (∀ rb : Byte × Byte, Answers s g (okAnswers [a, rb]) rest →
      ∃ t, exec (.brSelect g w v) s = .next t ∧
        BridgeEnds g s t
          (if rb.1 = v then okResult s.res.value
            else errResult .channelVerifyFailed 0x1203 (zext16 rb.1) s.res.value)
          s.buf (s.bridge g) rest ∧
        Trace s t ([writeEvent s.cfg g sel a, readEvent s.cfg g rb] ++
          if rb.1 = v then [] else [failureRecord none .channelVerifyFailed 0x1203 (zext16 rb.1)])) ∧
    ∀ code : Half, Answers s g (okAnswers [a] ++ [.err code]) rest →
      ∃ t, exec (.brSelect g w v) s = .next t ∧
        BridgeEnds g s t (errResult .transportFailure 0x1202 code s.res.value) s.buf (s.bridge g) rest ∧
        Trace s t [writeEvent s.cfg g sel a, .transact (.grp g) (s.cfg.brAddrOf g) [] 1 (.err code),
          failureRecord none .transportFailure 0x1202 code]

/-- BR_RESET_CFG g, 0 succeeds without a transaction; BR_RESET_CFG g, 1 resets the chip, writes BR_CONFIG and succeeds
exactly when the read-back has the low nibble of BR_CONFIG, else fails with ConfigVerifyFailed at 0x1104, or, when the
transport fails the read-back, with TransportFailure at 0x1103 (spec/40_bridge.md R105). -/
def Obligations.ResetAndConfigureVerifies : Prop :=
  ∀ (s : State) (g : Group),
    exec (.brResetCfg g 0) s = .next { s with res := okResult s.res.value, cpState := .idle } ∧
    ∀ (p : PollScript) (a : Byte × Byte) (rest : List Answer) (sent : List Event),
      s.cfg.legal = true → p.Clears s.cfg →
      sent = p.events s.cfg g [s.cfg.cmdDeviceReset] ++
        [writeEvent s.cfg g [s.cfg.cmdWriteConfig, s.cfg.brConfig] a] →
      (∀ rb : Byte × Byte, Answers s g (p.answers ++ okAnswers [a, rb]) rest →
        ∃ t, exec (.brResetCfg g 1) s = .next t ∧
          BridgeEnds g s t
            (if rb.1.extractLsb' 0 4 = s.cfg.brConfig.extractLsb' 0 4 then okResult s.res.value
              else errResult .configVerifyFailed 0x1104 (zext16 rb.1) s.res.value)
            s.buf ⟨p.last.1, p.polls⟩ rest ∧
          Trace s t (sent ++ [readEvent s.cfg g rb] ++
            if rb.1.extractLsb' 0 4 = s.cfg.brConfig.extractLsb' 0 4 then []
            else [failureRecord none .configVerifyFailed 0x1104 (zext16 rb.1)])) ∧
      ∀ code : Half, Answers s g (p.answers ++ okAnswers [a] ++ [.err code]) rest →
        ∃ t, exec (.brResetCfg g 1) s = .next t ∧
          BridgeEnds g s t (errResult .transportFailure 0x1103 code s.res.value) s.buf ⟨p.last.1, p.polls⟩ rest ∧
          Trace s t (sent ++ [.transact (.grp g) (s.cfg.brAddrOf g) [] 1 (.err code),
            failureRecord none .transportFailure 0x1103 code])

/-! ### Bridge sequences -/

/-- BR_READ_ROM with presence and eight bytes read leaves them in BUF[0..7], BUF[8] as it was, and succeeds exactly when
byte 7 is the CRC of bytes 0 to 6, else fails with ChecksumMismatch at 0x1804 (spec/41_bridge_sequences.md R120). -/
def Obligations.ReadRomFillsBuffer : Prop :=
  ∀ (s : State) (g : Group) (p q : PollScript) (r0 r1 r2 r3 r4 r5 r6 r7 : ReadScript) (rest : List Answer),
    s.cfg.legal = true → p.Present s.cfg → q.Clears s.cfg →
    (∀ r ∈ [r0, r1, r2, r3, r4, r5, r6, r7], r.poll.Clears s.cfg) →
    Answers s g (p.answers ++ q.answers ++ readAnswers [r0, r1, r2, r3, r4, r5, r6, r7]) rest →
    ∀ c : Byte, c = crc8 [r0.byte, r1.byte, r2.byte, r3.byte, r4.byte, r5.byte, r6.byte] →
    ∃ t, exec (.brReadRom g) s = .next t ∧
      BridgeEnds g s t
        (if c = r7.byte then okResult s.res.value
          else errResult .checksumMismatch 0x1804 (c ++ r7.byte) s.res.value)
        #v[r0.byte, r1.byte, r2.byte, r3.byte, r4.byte, r5.byte, r6.byte, r7.byte, s.buf[8]]
        ⟨r7.poll.last.1, r7.poll.polls⟩ rest ∧
      Trace s t
        (p.events s.cfg g [s.cfg.cmd1wReset] ++ q.events s.cfg g (commandBytes s.cfg.cmd1wWriteByte s.cfg.owReadRom) ++
          readEvents s.cfg g [r0, r1, r2, r3, r4, r5, r6, r7] ++
          if c = r7.byte then [] else [failureRecord none .checksumMismatch 0x1804 (c ++ r7.byte)])

/-- BR_READ_ROM and BR_RETRIEVE_SP write each byte to BUF as it is read, however they end: the bytes of BUF that were
read are those delivered, in order, by the reads that directly follow a read-pointer write, the rest is unchanged, and
all have been read when the command succeeds or meets a wrong CRC. A transport error at the data read of byte k of
BR_READ_ROM leaves the k bytes already read (spec/41_bridge_sequences.md R120, R124, spec/10_state.md R19). -/
def Obligations.ReadSequencesPartialBuffer : Prop :=
  (∀ (g : Group) (i : Instr) (n : Nat) (crcLoc : Half) (s t : State),
    (i = .brReadRom g ∧ n = 8 ∧ crcLoc = 0x1804) ∨ (i = .brRetrieveSp g ∧ n = 9 ∧ crcLoc = 0x1B06) →
    s.cfg.legal = true → exec i s = .next t →
    ∃ new, NewEvents s t new ∧ ∀ bytes, bytes = dataBytes s.cfg new.reverse →
      bytes.length ≤ n ∧ (t.res.kind = 0 ∨ t.res.loc = crcLoc → bytes.length = n) ∧
      ∀ k : Fin 9, t.buf[k] = bytes.getD k.val s.buf[k]) ∧
  ∀ (s : State) (g : Group) (p q : PollScript) (rs : List ReadScript) (l : PollScript) (a : Byte × Byte) (code : Half)
    (rest : List Answer),
    s.cfg.legal = true → p.Present s.cfg → q.Clears s.cfg → rs.length < 8 → (∀ r ∈ rs, r.poll.Clears s.cfg) →
    l.Clears s.cfg →
    Answers s g (p.answers ++ q.answers ++ readAnswers rs ++ l.answers ++ okAnswers [a] ++ [.err code]) rest →
    ∃ t, exec (.brReadRom g) s = .next t ∧ BridgeCommandFrame g s t ∧
      t.res = errResult .transportFailure 0x1503 code s.res.value ∧
      ∀ k : Fin 9, t.buf[k] = (rs.map ReadScript.byte).getD k.val s.buf[k]

/-- BR_CONFIG_PROBE makes the events of R121 in order, its settle delay of twice EEPROM_WRITE_LATENCY between the copy
command and the third reset, and succeeds at the first nonzero byte of the copy poll
(spec/41_bridge_sequences.md R121, R122). -/
def Obligations.ConfigProbeConfirms : Prop :=
  ∀ (s : State) (g : Group) (bits : Byte) (r : Fin 4) (p1 p2 p3 p4 p5 p6 p7 p8 p9 p11 : PollScript)
    (zeros : List ReadScript) (last : ReadScript) (rest : List Answer),
    s.cfg.legal = true → bits.toNat = 9 + r.val →
    (p1.Present s.cfg ∧ p7.Present s.cfg ∧ p11.Present s.cfg) →
    (∀ p ∈ [p2, p3, p4, p5, p6, p8, p9], p.Clears s.cfg) →
    (∀ z ∈ zeros, z.poll.Clears s.cfg ∧ z.byte = 0) → zeros.length < 10000 →
    last.poll.Clears s.cfg → last.byte ≠ 0 →
    Answers s g ([p1, p2, p3, p4, p5, p6, p7, p8, p9, p11].flatMap PollScript.answers ++
      readAnswers (zeros ++ [last])) rest →
    ∃ t, exec (.brConfigProbe g bits) s = .next t ∧
      BridgeEnds g s t (okResult s.res.value) s.buf ⟨last.poll.last.1, last.poll.polls⟩ rest ∧
      Trace s t
        (p1.events s.cfg g [s.cfg.cmd1wReset] ++
          p2.events s.cfg g (commandBytes s.cfg.cmd1wWriteByte s.cfg.owSkipRom) ++
          p3.events s.cfg g (commandBytes s.cfg.cmd1wWriteByte s.cfg.owWriteScratchpad) ++
          p4.events s.cfg g (commandBytes s.cfg.cmd1wWriteByte s.cfg.triggerByte0) ++
          p5.events s.cfg g (commandBytes s.cfg.cmd1wWriteByte s.cfg.triggerByte1) ++
          p6.events s.cfg g [s.cfg.cmd1wWriteByte, s.cfg.resCfg[r]] ++
          p7.events s.cfg g [s.cfg.cmd1wReset] ++
          p8.events s.cfg g (commandBytes s.cfg.cmd1wWriteByte s.cfg.owSkipRom) ++
          p9.events s.cfg g (commandBytes s.cfg.cmd1wWriteByte s.cfg.owCopyScratchpad) ++
          [.delay (2 * s.cfg.eepromWriteLatency)] ++
          p11.events s.cfg g [s.cfg.cmd1wReset] ++ readEvents s.cfg g (zeros ++ [last]))

/-- A copy poll that reads 0x00 on all 10000 iterations makes BR_CONFIG_PROBE fail with CopyNotConfirmed at 0x190D,
after the same events as a confirmed one (spec/41_bridge_sequences.md R121 step 13, R122). -/
def Obligations.ConfigProbeNotConfirmed : Prop :=
  ∀ (s : State) (g : Group) (bits : Byte) (r : Fin 4) (p1 p2 p3 p4 p5 p6 p7 p8 p9 p11 : PollScript)
    (zeros : List ReadScript) (last : ReadScript) (rest : List Answer),
    s.cfg.legal = true → bits.toNat = 9 + r.val →
    (p1.Present s.cfg ∧ p7.Present s.cfg ∧ p11.Present s.cfg) →
    (∀ p ∈ [p2, p3, p4, p5, p6, p8, p9], p.Clears s.cfg) →
    (∀ z ∈ zeros ++ [last], z.poll.Clears s.cfg ∧ z.byte = 0) → zeros.length = 9999 →
    Answers s g ([p1, p2, p3, p4, p5, p6, p7, p8, p9, p11].flatMap PollScript.answers ++
      readAnswers (zeros ++ [last])) rest →
    ∃ t, exec (.brConfigProbe g bits) s = .next t ∧
      BridgeEnds g s t (errResult .copyNotConfirmed 0x190D 0 s.res.value) s.buf
        ⟨last.poll.last.1, last.poll.polls⟩ rest ∧
      Trace s t
        (p1.events s.cfg g [s.cfg.cmd1wReset] ++
          p2.events s.cfg g (commandBytes s.cfg.cmd1wWriteByte s.cfg.owSkipRom) ++
          p3.events s.cfg g (commandBytes s.cfg.cmd1wWriteByte s.cfg.owWriteScratchpad) ++
          p4.events s.cfg g (commandBytes s.cfg.cmd1wWriteByte s.cfg.triggerByte0) ++
          p5.events s.cfg g (commandBytes s.cfg.cmd1wWriteByte s.cfg.triggerByte1) ++
          p6.events s.cfg g [s.cfg.cmd1wWriteByte, s.cfg.resCfg[r]] ++
          p7.events s.cfg g [s.cfg.cmd1wReset] ++
          p8.events s.cfg g (commandBytes s.cfg.cmd1wWriteByte s.cfg.owSkipRom) ++
          p9.events s.cfg g (commandBytes s.cfg.cmd1wWriteByte s.cfg.owCopyScratchpad) ++
          [.delay (2 * s.cfg.eepromWriteLatency)] ++
          p11.events s.cfg g [s.cfg.cmd1wReset] ++ readEvents s.cfg g (zeros ++ [last]) ++
          [failureRecord none .copyNotConfirmed 0x190D 0])

/-- BR_TRIGGER_CONV resets, skips the ROM and writes the convert command, and does not wait for the conversion
(spec/41_bridge_sequences.md R123). -/
def Obligations.TriggerConversionSucceeds : Prop :=
  ∀ (s : State) (g : Group) (p q r : PollScript) (rest : List Answer),
    s.cfg.legal = true → p.Present s.cfg → q.Clears s.cfg → r.Clears s.cfg →
    Answers s g (p.answers ++ q.answers ++ r.answers) rest →
    ∃ t, exec (.brTriggerConv g) s = .next t ∧
      BridgeEnds g s t (okResult s.res.value) s.buf ⟨r.last.1, r.polls⟩ rest ∧
      Trace s t
        (p.events s.cfg g [s.cfg.cmd1wReset] ++ q.events s.cfg g (commandBytes s.cfg.cmd1wWriteByte s.cfg.owSkipRom) ++
          r.events s.cfg g (commandBytes s.cfg.cmd1wWriteByte s.cfg.owConvertT))

/-- BR_RETRIEVE_SP with presence and no short leaves the nine bytes read in BUF and succeeds exactly when byte 8 is the
CRC of bytes 0 to 7, else fails with ChecksumMismatch at 0x1B06 (spec/41_bridge_sequences.md R124). -/
def Obligations.RetrieveScratchpadFillsBuffer : Prop :=
  ∀ (s : State) (g : Group) (p q q' : PollScript) (r0 r1 r2 r3 r4 r5 r6 r7 r8 : ReadScript) (rest : List Answer),
    s.cfg.legal = true → p.Present s.cfg → s.cfg.short p.last.1 = false → q.Clears s.cfg → q'.Clears s.cfg →
    (∀ r ∈ [r0, r1, r2, r3, r4, r5, r6, r7, r8], r.poll.Clears s.cfg) →
    Answers s g (p.answers ++ q.answers ++ q'.answers ++ readAnswers [r0, r1, r2, r3, r4, r5, r6, r7, r8]) rest →
    ∀ c : Byte, c = crc8 [r0.byte, r1.byte, r2.byte, r3.byte, r4.byte, r5.byte, r6.byte, r7.byte] →
    ∃ t, exec (.brRetrieveSp g) s = .next t ∧
      BridgeEnds g s t
        (if c = r8.byte then okResult s.res.value
          else errResult .checksumMismatch 0x1B06 (c ++ r8.byte) s.res.value)
        #v[r0.byte, r1.byte, r2.byte, r3.byte, r4.byte, r5.byte, r6.byte, r7.byte, r8.byte]
        ⟨r8.poll.last.1, r8.poll.polls⟩ rest ∧
      Trace s t
        (p.events s.cfg g [s.cfg.cmd1wReset] ++ q.events s.cfg g (commandBytes s.cfg.cmd1wWriteByte s.cfg.owSkipRom) ++
          q'.events s.cfg g (commandBytes s.cfg.cmd1wWriteByte s.cfg.owReadScratchpad) ++
          readEvents s.cfg g [r0, r1, r2, r3, r4, r5, r6, r7, r8] ++
          if c = r8.byte then [] else [failureRecord none .checksumMismatch 0x1B06 (c ++ r8.byte)])

/-- A short flagged in the status byte that ended the reset's poll makes BR_RETRIEVE_SP fail with ShortDetected at
0x1B02, before any further transaction; without presence NoPresencePulse comes first
(spec/41_bridge_sequences.md R124 steps 1 and 2). -/
def Obligations.RetrieveScratchpadShort : Prop :=
  ∀ (s : State) (g : Group) (p : PollScript) (rest : List Answer),
    s.cfg.legal = true → p.Clears s.cfg → s.cfg.short p.last.1 = true → Answers s g p.answers rest →
    ∃ t, exec (.brRetrieveSp g) s = .next t ∧
      BridgeEnds g s t
        (if s.cfg.presence p.last.1 then errResult .shortDetected 0x1B02 (zext16 p.last.1) s.res.value
          else errResult .noPresencePulse 0x1003 (zext16 p.last.1) s.res.value)
        s.buf ⟨p.last.1, p.polls⟩ rest ∧
      Trace s t (p.events s.cfg g [s.cfg.cmd1wReset] ++
        [if s.cfg.presence p.last.1 then failureRecord none .shortDetected 0x1B02 (zext16 p.last.1)
          else failureRecord none .noPresencePulse 0x1003 (zext16 p.last.1)])

/-! ### All bridge commands -/

/-- A bridge command on group g, whatever the transport answers, ends IDLE and changes only the result registers,
BUF, BR_STATUS[g] and BR_POLLS[g], transport T[g] and the event record: the other group, the probes, the decoder, the
ADC and the configuration are untouched. Only BR_READ_BYTE may change RES_VALUE, and only the two read sequences BUF
(spec/40_bridge.md R100 to R106, spec/41_bridge_sequences.md R120 to R124). -/
def Obligations.BridgeCommandsChangeOnlyTheirGroup : Prop :=
  ∀ (g : Group) (i : Instr) (s : State), IsBridgeCommand g i → i.wf = true →
    ∃ t, exec i s = .next t ∧ BridgeCommandFrame g s t ∧
      (i ≠ .brReadByte g → t.res.value = s.res.value) ∧
      (i ≠ .brReadRom g → i ≠ .brRetrieveSp g → t.buf = s.buf)

/-- Every transaction of every command and of every step, the rounds of a pass and a command that a reset cuts among
them, goes to the endpoint and has the widths of R54 and R58, and events are only ever added
(spec/20_memory.md R54, R58, R59). -/
def Obligations.EveryTransactionIsLegal : Prop :=
  ∀ (i : Instr) (s t : State), exec i s = .next t ∨ step s = .next t →
    ∃ new, NewEvents s t new ∧ ∀ e ∈ new, e.LegalTransaction s.cfg

/-- Every command but ADC_PASS makes at most the transactions of R237 (spec/70_reset_and_hazards.md R233, R237). -/
def Obligations.TransactionsAreBounded : Prop :=
  ∀ (i : Instr) (n : Nat) (s t : State), transactionBound i = some n → exec i s = .next t →
    ∃ new, NewEvents s t new ∧ new.countP Event.isTransact ≤ n

/-- A command that is no cycle and no ADC_PASS and ends with a failure has emitted exactly one failure record, its last
event, with the kind, location and extra of the result registers; one that ends with success has emitted no failure
record. A cycle command emits failure records only, each with its probe's index: PM_GET_ALL exactly one for each probe
it marks, of the kind it marks; PM_INITIATE_ALL one for each probe it marks, of the kind it marks, and before it one
for a ROM read that failed (spec/60_exceptions.md R203, R205; spec/44_probe_manager.md R166, R168, R169). -/
def Obligations.OneRecordPerFailure : Prop :=
  (∀ (i : Instr) (s t : State), i ≠ .pmInitiateAll → i ≠ .pmGetAll → i ≠ .adcPass → exec i s = .next t →
    ∃ new, NewEvents s t new ∧
      ((t.res.kind = 0 ∧ ∀ r, Event.report r ∈ new → r.kind = .none) ∨
        ∃ r old, new = .report r :: old ∧ r.kind ≠ .none ∧ r.kind.code = t.res.kind ∧ r.loc = t.res.loc ∧
          r.extra = t.res.extra ∧ r.probe = none ∧ ∀ e ∈ old, e.isReport = false)) ∧
  ∀ (i : Instr) (s t : State), i = .pmInitiateAll ∨ i = .pmGetAll → exec i s = .next t →
    ∃ new, NewEvents s t new ∧
      (∀ r, Event.report r ∈ new → r.kind ≠ .none ∧ r.probe.isSome = true) ∧
      ∀ (k : Fin 16) (kinds : List ErrorKind),
        kinds = ((new.filterMap Event.record).filter fun r => r.probe = some k).map SinkRecord.kind →
        (i = .pmGetAll → kinds =
          if ((s.probe k).lastError = .none ∨ (s.probe k).errorOrigin = .get) ∧ (t.probe k).lastError ≠ .none
          then [(t.probe k).lastError] else []) ∧
        (i = .pmInitiateAll → ∃ romKinds, kinds =
            (if (t.probe k).lastError ≠ .none then [(t.probe k).lastError] else []) ++ romKinds ∧
          romKinds.length ≤ 1 ∧ ((t.probe k).romKnown = true → romKinds = []) ∧
          ((t.probe k).romKnown = false → (t.probe k).lastError = .none → romKinds.length = 1))

/-- A command that ends, in its own step or in a later round of a pass, leaves in RES_KIND and RES_LOC either success
or a row of the location table, or the illegal command (spec/60_exceptions.md R201). -/
def Obligations.FailureLocationsAreTheTable : Prop :=
  ∀ (i : Instr) (s t : State),
    exec i s = .next t ∨ (s.env.resetRequest = .none ∧ s.cpState = .running ∧ step s = .next t) →
    t.cpState = .idle →
    (t.res.kind, t.res.loc) = (0, 0) ∨ (t.res.kind, t.res.loc) ∈ locationTable ∨
      (t.res.kind, t.res.loc) = (11, (0xFF : Byte) ++ (s.cmd.extractLsb' 24 8 : Byte))

/-! ### Temperature -/

/-- TD_DECODE of a scratchpad with the right echo and reserved bytes writes the six registers of R145 to R151 and
nothing else but the end of the command: sign from bit 3 of byte 1, whole and fraction by the one's-complement rule,
and the Fahrenheit value of those under F_ARITH, its whole part free above 255 (log entry 12). Under F_ARITH = EXACT it
is that of R150; under another F_ARITH its arithmetic is the model's (log entry 13). The fraction index is the low
nibble of the masked byte, so that a mask above 0x0F acts as if cut to it: the model's choice (log entry 17). -/
def Obligations.TdDecodeResult : Prop :=
  ∀ (s : State) (a : Byte) (r : Fin 4) (w : Byte) (fi : BitVec 4) (cs : Bool) (cw : Byte) (cf : Nat) (n : Int)
    (f : Fahrenheit),
    a.toNat = r.val → s.cfg.negMode = .onesComplement →
    s.buf[4] = s.cfg.resCfg[r] → s.buf[5] = 0xFF → s.buf[7] = 0x10 →
    w = (s.buf[1].extractLsb' 0 4 : BitVec 4) ++ (s.buf[0].extractLsb' 4 4 : BitVec 4) →
    fi = (s.buf[0] &&& s.cfg.resMask[r]).extractLsb' 0 4 →
    cs = s.buf[1].getLsbD 3 →
    cw = (if cs then ~~~w else w) →
    cf = (if cs then (s.cfg.negFraction[fi.toFin]).val else (s.cfg.posFraction[fi.toFin]).val) →
    n = 9 * ((if cs then -1 else 1) * (10 * (cw.toNat : Int) + cf)) + 1600 →
    f = fahrenheit s.cfg cs cw.toNat cf →
    (s.cfg.fArith = .exact → f = ⟨decide (n < 0), n.natAbs / 50, BitVec.ofNat 4 (n.natAbs % 50 / 5)⟩) ∧
    ∃ t fw, exec (.tdDecode a) s = .next t ∧
      t = { s with
        td := ⟨cs, cw, BitVec.ofNat 4 cf, f.sign, fw, f.frac⟩
        res := okResult s.res.value
        cpState := .idle
        env := { s.env with freeDraws := t.env.freeDraws } } ∧
      f.frac.toNat ≤ 9 ∧ (f.whole ≤ 255 → fw.toNat = f.whole ∧ t.env.freeDraws = s.env.freeDraws)

/-- TD_DECODE of a wrong echo fails with ResolutionMismatch at 0x2001, before a wrong reserved byte, which fails with
ScratchpadCorrupt at 0x2002; the TD registers stay (spec/43_temperature.md R145 steps 1 and 2). -/
def Obligations.TdDecodeFailures : Prop :=
  ∀ (s : State) (a : Byte) (r : Fin 4), a.toNat = r.val → s.cfg.negMode = .onesComplement →
    (s.buf[4] ≠ s.cfg.resCfg[r] → ∃ msg : String, exec (.tdDecode a) s = .next { s with
      res := ⟨8, 0x2001, s.buf[4] ++ s.cfg.resCfg[r], s.res.value⟩
      cpState := .idle
      env := { s.env with
        events := .report ⟨0x2001, .resolutionMismatch, s.buf[4] ++ s.cfg.resCfg[r], msg, none⟩ ::
          s.env.events } }) ∧
    (s.buf[4] = s.cfg.resCfg[r] → s.buf[5] ≠ 0xFF ∨ s.buf[7] ≠ 0x10 →
      ∃ msg : String, exec (.tdDecode a) s = .next { s with
        res := ⟨9, 0x2002, s.buf[5] ++ s.buf[7], s.res.value⟩
        cpState := .idle
        env := { s.env with
          events := .report ⟨0x2002, .scratchpadCorrupt, s.buf[5] ++ s.buf[7], msg, none⟩ :: s.env.events } })

/-- TD_C_TO_F writes the three TD_F registers and leaves the TD_C registers: under every F_ARITH the value of
`fahrenheit`, its whole part free above 255 (log entries 12 and 13), its tenths at most 9. Under F_ARITH = EXACT,
against rational arithmetic: with F = 1.8 C + 32, the sign is F < 0, whole and tenths truncate the magnitude of F,
exact below 124.5 degrees; above, the whole part is a free value and the rest stands
(spec/43_temperature.md R150, R151, R152, R153; spec/93_implementation_defined.md X5). -/
def Obligations.FahrenheitIsTruncatedExactly : Prop :=
  ∀ (s : State) (sign : Bool) (whole tenths : Byte), whole.toNat ≤ 127 → tenths.toNat ≤ 9 →
    ∃ t, exec (.tdCToF sign whole tenths) s = .next t ∧
      t = { s with
        td := { s.td with fSign := t.td.fSign, fWhole := t.td.fWhole, fFrac := t.td.fFrac }
        res := okResult s.res.value
        cpState := .idle
        env := { s.env with freeDraws := t.env.freeDraws } } ∧
      t.td.fFrac.toNat ≤ 9 ∧
      (∀ v : Fahrenheit, v = fahrenheit s.cfg sign whole.toNat tenths.toNat →
        t.td.fSign = v.sign ∧ t.td.fFrac = v.frac ∧
        (v.whole ≤ 255 → t.td.fWhole.toNat = v.whole ∧ t.env.freeDraws = s.env.freeDraws)) ∧
      (s.cfg.fArith = .exact → ∀ c f : ℚ,
        c = (if sign then -1 else 1) * ((whole.toNat : ℚ) + (tenths.toNat : ℚ) / 10) → f = c * (9 / 5) + 32 →
        t.td.fSign = decide (f < 0) ∧
        ∃ m : Nat, (m : ℚ) + (t.td.fFrac.toNat : ℚ) / 10 ≤ |f| ∧
          |f| < (m : ℚ) + (t.td.fFrac.toNat : ℚ) / 10 + 1 / 10 ∧
          (c < 1245 / 10 → t.td.fWhole.toNat = m ∧ t.env.freeDraws = s.env.freeDraws))

/-- Under a NEG_MODE other than ONES_COMPLEMENT TD_DECODE is refused, and so is a PM_GET_ALL that reaches a decode, and
no other one: it is refused exactly when, under ONES_COMPLEMENT, it would end with some eligible probe read, or failed
in the decode, and else does what it would do there; among these one whose first eligible probe's scratchpad is
retrieved (spec/43_temperature.md R149, decision D45; that the command runs up to the decode and is then refused as a
whole, and completes if it reaches none: log entry 11). -/
def Obligations.OtherNegModeRefusesDecode : Prop :=
  ∀ s : State, s.cfg.negMode = .other →
    (∀ a : Byte, a.toNat ≤ 3 → exec (.tdDecode a) s = .refused .negModeUndefined) ∧
    (∀ (i : Fin 16) (x : GetScript) (rest : List Answer), s.cfg.legal = true →
      (∀ j < i, (s.probe j).lastError ≠ .none ∧ (s.probe j).errorOrigin ≠ .get) →
      ((s.probe i).lastError = .none ∨ (s.probe i).errorOrigin = .get) →
      x.Retrieves s.cfg i → Answers s (busGroup i) x.answers rest →
      exec .pmGetAll s = .refused .negModeUndefined) ∧
    ∃ t, exec .pmGetAll { s with cfg := { s.cfg with negMode := .onesComplement } } = .next t ∧
      ∀ decodes : Prop,
        (decodes ↔ ∃ k : Fin 16, ((s.probe k).lastError = .none ∨ (s.probe k).errorOrigin = .get) ∧
          (t.probe k).lastError ∈ [.none, .resolutionMismatch, .scratchpadCorrupt]) →
        (decodes → exec .pmGetAll s = .refused .negModeUndefined) ∧
        (¬decodes → exec .pmGetAll s = .next { t with cfg := s.cfg })

/-! ### Probe sequencer -/

/-- PM_SET_RESOLUTION: a request equal to ACTIVE_RES changes nothing; any other request is stored, clamped to 0 with
one diagnostic record when above 3, and clears every `configured` flag (spec/44_probe_manager.md R174). -/
def Obligations.SetResolutionResult : Prop :=
  ∀ (s : State) (x : Byte),
    (x.toNat = s.activeRes.toNat →
      exec (.pmSetResolution x) s = .next { s with res := okResult s.res.value, cpState := .idle }) ∧
    (x.toNat ≠ s.activeRes.toNat → x.toNat ≤ 3 →
      exec (.pmSetResolution x) s = .next { s with
        activeRes := BitVec.ofNat 2 x.toNat
        probes := s.probes.map fun p => { p with configured := false }
        res := okResult s.res.value
        cpState := .idle }) ∧
    (3 < x.toNat → ∃ msg : String,
      exec (.pmSetResolution x) s = .next { s with
        activeRes := 0
        probes := s.probes.map fun p => { p with configured := false }
        res := okResult s.res.value
        cpState := .idle
        env := { s.env with events := .report ⟨0x3201, .none, zext16 x, msg, none⟩ :: s.env.events } })

/-- PM_INITIATE_ALL, whatever the transports answer, ends with success and the mask of errored probes; each probe ends
Converting, configured and without error, or Errored with origin INIT; its decoded fields stay, and its ROM is kept or
newly read with a right CRC (spec/44_probe_manager.md R165 to R168, spec/10_state.md R26). -/
def Obligations.InitiateAllOutcome : Prop :=
  ∀ s : State, ∃ t, exec .pmInitiateAll s = .next t ∧
    t = { s with
      cpState := .idle
      res := ⟨0, 0, t.res.extra, s.res.value⟩
      buf := t.buf
      bridges := t.bridges
      probes := t.probes
      env := { s.env with
        transports := { t.env.transports with tadc := s.env.transports.tadc }
        events := t.env.events } } ∧
    ∀ i : Fin 16, t.res.extra.getLsbD i.val = decide ((t.probe i).lastError ≠ .none) ∧
      ((t.probe i).celsiusSign = (s.probe i).celsiusSign ∧ (t.probe i).celsiusWhole = (s.probe i).celsiusWhole ∧
        (t.probe i).celsiusFractionTenths = (s.probe i).celsiusFractionTenths ∧
        (t.probe i).fahrenheitSign = (s.probe i).fahrenheitSign ∧
        (t.probe i).fahrenheitWhole = (s.probe i).fahrenheitWhole ∧
        (t.probe i).fahrenheitFractionTenths = (s.probe i).fahrenheitFractionTenths) ∧
      (((t.probe i).romKnown = (s.probe i).romKnown ∧ (t.probe i).rom = (s.probe i).rom) ∨
        ((s.probe i).romKnown = false ∧ (t.probe i).romKnown = true ∧
          crc8 ((t.probe i).rom.toList.take 7) = (t.probe i).rom[7])) ∧
      (((t.probe i).configured = (s.probe i).configured ∧
          (t.probe i).resolutionBits = (s.probe i).resolutionBits) ∨
        ((s.probe i).configured = false ∧ (t.probe i).configured = true ∧
          (t.probe i).resolutionBits = 9 + s.activeRes.toNat)) ∧
      (((t.probe i).lastError = .none ∧ (t.probe i).errorOrigin = .none ∧ (t.probe i).phase = .converting ∧
          (t.probe i).configured = true) ∨
        ((t.probe i).lastError ≠ .none ∧ (t.probe i).errorOrigin = .init ∧ (t.probe i).phase = .errored))

/-- PM_INITIATE_ALL on clean transports: every probe ends Converting and without error; one that was not identified is
identified by the ROM read, one that was not configured is configured at the active resolution, and the others keep
their ROM and their configuration, with no transaction for them; RES_EXTRA is 0. Its port events are, probe by probe in
index order, the chip reset and BR_CONFIG for the leaders 0 and 8 alone, the select of CH_WRITE[i mod 8] on T[i div 8],
the ROM read and the configuration with RES_CFG[ACTIVE_RES] where they are made, and the trigger
(spec/44_probe_manager.md R166, example and corner b, R167, R168; spec/30_encoding.md R84). -/
def Obligations.InitiateAllClean : Prop :=
  ∀ (s : State) (x : Fin 16 → InitScript) (r : Fin 4) (rest : Group → List Answer), s.cfg.legal = true →
    r.val = s.activeRes.toNat → (∀ i, (x i).Clean s.cfg i) →
    (∀ g, Answers s g ((groupProbes g).flatMap fun i => (x i).answers i (s.probe i)) (rest g)) →
    ∃ t, exec .pmInitiateAll s = .next t ∧ t.res = okResult s.res.value ∧ t.cpState = .idle ∧
      Trace s t ((List.finRange 16).flatMap fun i => (x i).events s.cfg r i (s.probe i)) ∧
      (∀ g, (t.transport (.grp g)).answers = rest g) ∧
      ∀ i, t.probe i = { s.probe i with
        lastError := .none
        errorOrigin := .none
        phase := .converting
        rom := if (s.probe i).romKnown then (s.probe i).rom else (x i).rom
        romKnown := true
        configured := true
        resolutionBits := if (s.probe i).configured then (s.probe i).resolutionBits else 9 + s.activeRes.toNat }

/-- PM_INITIATE_ALL on transports that answer every transaction with an error: every probe is Errored with origin INIT
and TransportFailure, RES_EXTRA is 0xFFFF, and the sixteen probes make one transaction and one record each
(spec/44_probe_manager.md R165, R166; spec/95_test_vectors.md P7). -/
def Obligations.InitiateAllOnDeadTransports : Prop :=
  ∀ (s : State) (codes : Group → Fin 8 → Half) (rest : Group → List Answer),
    (∀ g, Answers s g ((List.finRange 8).map fun c => .err (codes g c)) (rest g)) →
    ∃ t, exec .pmInitiateAll s = .next t ∧ t.res = ⟨0, 0, 0xFFFF, s.res.value⟩ ∧
      (∀ i, t.probe i = { s.probe i with lastError := .transportFailure, errorOrigin := .init, phase := .errored }) ∧
      (∀ g, (t.transport (.grp g)).answers = rest g) ∧
      ∃ new, NewEvents s t new ∧ new.countP Event.isTransact = 16 ∧ new.countP Event.isReport = 16 ∧
        new.countP Event.isDelay = 0

/-- PM_GET_ALL, whatever the transports answer, ends with success and the mask of errored probes; a probe that is not
eligible is untouched; an eligible one either is marked Errored with origin GET, everything else of it as before, or
holds the decode of a scratchpad whose CRC, echo and reserved bytes are right, its Fahrenheit whole part free above 255
(log entry 12), its Fahrenheit arithmetic that of F_ARITH (EXACT by R150, else the model's: log entry 13)
(spec/44_probe_manager.md R165, R169, R170, R172; spec/10_state.md R26 b). -/
def Obligations.GetAllOutcome : Prop :=
  ∀ s : State, s.cfg.negMode = .onesComplement → ∃ t, exec .pmGetAll s = .next t ∧
    t = { s with
      cpState := .idle
      res := ⟨0, 0, t.res.extra, s.res.value⟩
      buf := t.buf
      bridges := t.bridges
      probes := t.probes
      env := { s.env with
        transports := { t.env.transports with tadc := s.env.transports.tadc }
        events := t.env.events
        freeDraws := t.env.freeDraws } } ∧
    ∀ i : Fin 16, t.res.extra.getLsbD i.val = decide ((t.probe i).lastError ≠ .none) ∧
      ((s.probe i).lastError ≠ .none → (s.probe i).errorOrigin ≠ .get → t.probe i = s.probe i) ∧
      ((s.probe i).lastError = .none ∨ (s.probe i).errorOrigin = .get →
        (∃ k, k ≠ .none ∧
          t.probe i = { s.probe i with lastError := k, errorOrigin := .get, phase := .errored }) ∨
        ∃ (sp : Vector Byte 9) (r : Fin 4) (fw : Byte) (v : Bool × Byte × BitVec 4) (f : Fahrenheit),
          r.val = s.activeRes.toNat ∧ crc8 (sp.toList.take 8) = sp[8] ∧ sp[4] = s.cfg.resCfg[r] ∧
          sp[5] = 0xFF ∧ sp[7] = 0x10 ∧ v = celsiusOf s.cfg sp r ∧ f = fahrenheit s.cfg v.1 v.2.1.toNat v.2.2.toNat ∧
          (f.whole ≤ 255 → fw.toNat = f.whole) ∧
          t.probe i = { s.probe i with
            celsiusSign := v.1, celsiusWhole := v.2.1, celsiusFractionTenths := v.2.2.setWidth 8,
            fahrenheitSign := f.sign, fahrenheitWhole := fw, fahrenheitFractionTenths := f.frac.setWidth 8,
            lastError := .none, errorOrigin := .none, phase := .readingReady })

/-- PM_GET_ALL on clean transports: every eligible probe ends ReadingReady with the decode of its own scratchpad, its
Fahrenheit whole part free above 255 (log entry 12), its Fahrenheit arithmetic that of F_ARITH (EXACT by R150, else the
model's: log entry 13); the others are skipped, unchanged and without a transaction, and RES_EXTRA has their bits. Its
port events are, eligible probe by eligible probe in index order, the select of CH_WRITE[i mod 8] on T[i div 8] and then
the retrieval (spec/44_probe_manager.md R165, R169, R170; spec/30_encoding.md R84). -/
def Obligations.GetAllClean : Prop :=
  ∀ (s : State) (x : Fin 16 → GetScript) (eligible : Fin 16 → Bool) (r : Fin 4) (rest : Group → List Answer),
    s.cfg.legal = true → s.cfg.negMode = .onesComplement → r.val = s.activeRes.toNat →
    (∀ i, eligible i = ((s.probe i).lastError == .none || (s.probe i).errorOrigin == .get)) →
    (∀ i, eligible i = true → (x i).Clean s.cfg i r) →
    (∀ g, Answers s g ((groupProbes g).flatMap fun i => if eligible i then (x i).answers else []) (rest g)) →
    ∃ t, exec .pmGetAll s = .next t ∧ t.cpState = .idle ∧
      t.res = ⟨0, 0, t.res.extra, s.res.value⟩ ∧ (∀ i : Fin 16, t.res.extra.getLsbD i.val = !eligible i) ∧
      Trace s t ((List.finRange 16).flatMap fun i => if eligible i then (x i).events s.cfg i else []) ∧
      (∀ g, (t.transport (.grp g)).answers = rest g) ∧
      (∀ i, eligible i = false → t.probe i = s.probe i) ∧
      ∀ i, eligible i = true → ∃ (fw : Byte) (v : Bool × Byte × BitVec 4) (f : Fahrenheit),
        v = celsiusOf s.cfg (x i).scratchpad r ∧ f = fahrenheit s.cfg v.1 v.2.1.toNat v.2.2.toNat ∧
        (f.whole ≤ 255 → fw.toNat = f.whole) ∧
        t.probe i = { s.probe i with
          celsiusSign := v.1, celsiusWhole := v.2.1, celsiusFractionTenths := v.2.2.setWidth 8,
          fahrenheitSign := f.sign, fahrenheitWhole := fw, fahrenheitFractionTenths := f.frac.setWidth 8,
          lastError := .none, errorOrigin := .none, phase := .readingReady }

/-- With no probe eligible PM_GET_ALL makes no transaction, emits no record and changes no probe, in any NEG_MODE
(spec/44_probe_manager.md R169; spec/95_test_vectors.md P7 step 2; that it completes under another NEG_MODE, where it
reaches no decode: log entry 11). -/
def Obligations.GetAllSkipsIneligible : Prop :=
  ∀ s : State, (∀ i, (s.probe i).lastError ≠ .none ∧ (s.probe i).errorOrigin ≠ .get) →
    exec .pmGetAll s = .next { s with res := ⟨0, 0, 0xFFFF, s.res.value⟩, cpState := .idle }

/-- What one group's transport answers does not reach the other group's probes, bridge or transactions: two runs of a
cycle command that differ only in T[other g] agree on group g, each probe as a whole unless the Fahrenheit value of its
Celsius fields has a whole part above 255, which is stored as a free value (log entry 12), and then but for that byte
(spec/44_probe_manager.md R172). -/
def Obligations.GroupsDoNotInterfere : Prop :=
  ∀ (i : Instr) (g : Group) (s₁ s₂ t₁ t₂ : State) (x : Transport), i = .pmInitiateAll ∨ i = .pmGetAll →
    s₂ = s₁.setTransport (.grp g.other) x → exec i s₁ = .next t₁ → exec i s₂ = .next t₂ →
    t₁.transport (.grp g) = t₂.transport (.grp g) ∧ t₁.bridge g = t₂.bridge g ∧
    (∀ k ∈ groupProbes g,
      { t₁.probe k with fahrenheitWhole := 0 } = { t₂.probe k with fahrenheitWhole := 0 } ∧
      ((fahrenheit s₁.cfg (t₁.probe k).celsiusSign (t₁.probe k).celsiusWhole.toNat
          (t₁.probe k).celsiusFractionTenths.toNat).whole ≤ 255 → t₁.probe k = t₂.probe k)) ∧
    ∃ n₁ n₂, NewEvents s₁ t₁ n₁ ∧ NewEvents s₂ t₂ n₂ ∧
      n₁.filter (Event.onTransport (.grp g)) = n₂.filter (Event.onTransport (.grp g))

/-! ### ADC -/

/-- ADC_PASS completes when T[ADC] gives each channel N samples, with any failed attempts between them: each channel's
average is `(sum - min - max) div (N - 2)` of its N codes, the voltages and differentials are published, each attempt
writes its channel's select byte before its read and each failed one is recorded, and nothing else changes. It says how
the average was reached from ADC_ACC at the end of the pass, which X18 asks no claim to rely on: log entry 22
(spec/45_adc.md R185, R186, R187). -/
def Obligations.AdcPassCompletes : Prop :=
  ∀ (s : State) (x : Fin 8 → List AdcAttempt) (rest : List Answer) (codes : Fin 8 → List Nat),
    (∀ c, codes c = (x c).filterMap AdcAttempt.code) → (∀ c, (codes c).length = s.cfg.adcSamples) →
    (∀ c, ∀ a ∈ (x c).getLast?, a.code.isSome = true) →
    (s.transport .adc).answers =
      ((List.finRange 8).flatMap fun c => (x c).flatMap AdcAttempt.answers) ++ rest →
    ∃ t, exec .adcPass s = .next t ∧
      t = { s with
        cpState := .idle
        res := okResult s.res.value
        adc := t.adc
        env := { s.env with
          transports := { s.env.transports with tadc := { s.env.transports.tadc with answers := rest } }
          events := t.env.events } } ∧
      Trace s t ((List.finRange 8).flatMap fun c => (x c).flatMap (AdcAttempt.events s.cfg c)) ∧
      t.adc.channel = none ∧
      (∀ c : Fin 8, (t.adcAcc c).low.toNat = (codes c).foldl min 4095 ∧
        (t.adcAcc c).high.toNat = (codes c).foldl max 0 ∧ (t.adcAcc c).sum.toNat = (codes c).sum ∧
        (t.adcAcc c).count = s.cfg.adcSamples ∧
        (t.adc.avg[c]).toNat =
          ((codes c).sum - (codes c).foldl min 4095 - (codes c).foldl max 0) / (s.cfg.adcSamples - 2)) ∧
      (∀ j : Fin 4, t.adc.dishH[j] = t.adc.avg[j.val] ∧ t.adc.dishV[j] = t.adc.avg[j.val + 4]) ∧
      t.adc.hDiff.toInt = (t.adc.avg[0].toNat + t.adc.avg[2].toNat : Int) - (t.adc.avg[1].toNat + t.adc.avg[3].toNat) ∧
      t.adc.vDiff.toInt = (t.adc.avg[4].toNat + t.adc.avg[6].toNat : Int) - (t.adc.avg[5].toNat + t.adc.avg[7].toNat)

/-- A sample attempt of a pass that goes on (rounds as steps: log entry 2). A failed one, at the select write or at the
read, is reported and changes no accumulator: the pass stays where it is. A successful one writes the channel's select
byte, reads, and counts the code; with the count reached the channel's average is written, and the next channel begins,
or after channel 7 the voltages and differentials are published and the command ends with success
(spec/45_adc.md R185, R186, R187). -/
def Obligations.AdcAttemptOfRunningPass : Prop :=
  ∀ (s : State) (c : Fin 8) (x : AdcAttempt) (rest : List Answer),
    s.env.resetRequest = .none → s.cpState = .running → s.adc.channel = some c →
    (s.adcAcc c).count < s.cfg.adcSamples → (s.transport .adc).answers = x.answers ++ rest →
    ∃ t, step s = .next t ∧
      t = { s with
        cpState := t.cpState
        res := t.res
        adc := t.adc
        env := { s.env with
          transports := { s.env.transports with tadc := { s.env.transports.tadc with answers := rest } }
          events := t.env.events } } ∧
      Trace s t (x.events s.cfg c) ∧
      (x.code = none → t.cpState = .running ∧ t.res = s.res ∧ t.adc = s.adc) ∧
      ∀ (code : Nat) (acc : AdcAcc) (avg : Vector Half 8), x.code = some code →
        acc.low.toNat = min (s.adcAcc c).low.toNat code → acc.high.toNat = max (s.adcAcc c).high.toNat code →
        acc.sum = (s.adcAcc c).sum + BitVec.ofNat 32 code → acc.count = (s.adcAcc c).count + 1 →
        avg = s.adc.avg.set c
          (BitVec.ofNat 16 ((acc.sum.toNat - acc.low.toNat - acc.high.toNat) / (s.cfg.adcSamples - 2))) →
        (acc.count < s.cfg.adcSamples → t.cpState = .running ∧ t.res = s.res ∧
          t.adc = { s.adc with acc := s.adc.acc.set c acc }) ∧
        (acc.count = s.cfg.adcSamples → ∀ d : Fin 8, d.val = c.val + 1 → t.cpState = .running ∧ t.res = s.res ∧
          t.adc = { s.adc with acc := (s.adc.acc.set c acc).set d ⟨0xFFF, 0, 0, 0⟩, avg := avg, channel := some d }) ∧
        (acc.count = s.cfg.adcSamples → c = 7 → t.cpState = .idle ∧ t.res = okResult s.res.value ∧
          t.adc = {
            acc := s.adc.acc.set c acc
            avg := avg
            dishH := #v[avg[0], avg[1], avg[2], avg[3]]
            dishV := #v[avg[4], avg[5], avg[6], avg[7]]
            hDiff := BitVec.ofInt 16 ((avg[0].toNat + avg[2].toNat : Int) - (avg[1].toNat + avg[3].toNat))
            vDiff := BitVec.ofInt 16 ((avg[4].toNat + avg[6].toNat : Int) - (avg[5].toNat + avg[7].toNat))
            channel := none })

/-- A pass has no retry bound (rounds as steps: log entry 2). ADC_PASS on a transport whose listed answers are all
errors, any number of them, leaves the port RUNNING on channel 0 with nothing counted and the result registers as they
were, and so do any number n of further steps as long as T[ADC] answers errors, listed or free; the same of n steps of a
pass at any channel (spec/45_adc.md R189). -/
def Obligations.AdcPassHasNoRetryBound : Prop :=
  ∀ (n : Nat) (s : State), s.env.resetRequest = .none →
    (Transport.Fails .adc ((s.transport .adc).answers.length + n) (s.transport .adc) →
      ∃ t u : State, exec .adcPass s = .next t ∧ (t.transport .adc).answers = [] ∧
        Sys2Proof.core.run n t = .next u ∧
        ∀ v : State, v = t ∨ v = u → v.cpState = .running ∧ v.res = s.res ∧
          v.adc = { s.adc with acc := s.adc.acc.set 0 ⟨0xFFF, 0, 0, 0⟩, channel := some 0 }) ∧
    (s.cpState = .running → (∃ c, s.adc.channel = some c ∧ (s.adcAcc c).count < s.cfg.adcSamples) →
      Transport.Fails .adc n (s.transport .adc) →
      ∃ u : State, Sys2Proof.core.run n s = .next u ∧ u.cpState = .running ∧ u.res = s.res ∧ u.adc = s.adc)

/-- The trimmed average of N accumulated samples lies between the least and the greatest of them
(spec/45_adc.md R186). -/
def Obligations.TrimmedAverageWithinSamples : Prop :=
  ∀ (xs : List (BitVec 12)) (lo hi : Nat), 3 ≤ xs.length → xs.length ≤ 65535 →
    (∀ x ∈ xs, lo ≤ x.toNat ∧ x.toNat ≤ hi) →
    lo ≤ (trimmedAverage xs.length (xs.foldl AdcAcc.add AdcAcc.start)).toNat ∧
      (trimmedAverage xs.length (xs.foldl AdcAcc.add AdcAcc.start)).toNat ≤ hi

/-- ADC_PASS, and every step that goes on with it, uses T[ADC] only and writes no probe, bridge or decoder state
(spec/45_adc.md R190). -/
def Obligations.AdcIsIsolated : Prop :=
  ∀ s t : State, (exec .adcPass s = .next t ∨
      (s.env.resetRequest = .none ∧ s.cpState = .running ∧ step s = .next t)) →
    t.probes = s.probes ∧ t.bridges = s.bridges ∧ t.td = s.td ∧ t.buf = s.buf ∧
      t.transport (.grp .g0) = s.transport (.grp .g0) ∧ t.transport (.grp .g1) = s.transport (.grp .g1) ∧
      ∃ new, NewEvents s t new ∧ ∀ (g : Group), ∀ e ∈ new, e.onTransport (.grp g) = false

/-! ### The whole machine -/

/-- Who owns what: each item of state is changed only by the commands its rule names, and none changes the
configuration, CMD or the host's inputs; a later round of a pass (log entry 2) changes only what belongs to the pass
(spec/10_state.md R20, R21, R28, R33, R34). -/
def Obligations.CommandsOwnTheirState : Prop :=
  (∀ s t : State, s.env.resetRequest = .none → s.cpState = .running → step s = .next t →
    t = { s with
      cpState := t.cpState
      res := t.res
      adc := t.adc
      env := { s.env with
        transports := { s.env.transports with tadc := t.env.transports.tadc }
        events := t.env.events } }) ∧
  ∀ (i : Instr) (s t : State), exec i s = .next t →
    t.cfg = s.cfg ∧ t.cmd = s.cmd ∧ t.env.hostWrites = s.env.hostWrites ∧
    t.env.resetRequest = s.env.resetRequest ∧
    ((∀ f, i ≠ .setLogging f) → t.logVerbose = s.logVerbose) ∧
    ((∀ x, i ≠ .pmSetResolution x) → t.activeRes = s.activeRes) ∧
    ((∀ r, i ≠ .tdDecode r) → (∀ n w f, i ≠ .tdCToF n w f) → t.td = s.td) ∧
    (i ≠ .pmInitiateAll → i ≠ .pmGetAll → (∀ x, i ≠ .pmSetResolution x) → t.probes = s.probes) ∧
    (i ≠ .adcPass → t.adc = s.adc ∧ t.transport .adc = s.transport .adc) ∧
    ((∀ g, ¬ IsBridgeCommand g i) → i ≠ .pmInitiateAll → i ≠ .pmGetAll →
      t.bridges = s.bridges ∧ t.transport (.grp .g0) = s.transport (.grp .g0) ∧
        t.transport (.grp .g1) = s.transport (.grp .g1)) ∧
    ((∀ k v, i ≠ .bufLoad k v) → (∀ g, i ≠ .brReadRom g) → (∀ g, i ≠ .brRetrieveSp g) → i ≠ .pmInitiateAll →
      i ≠ .pmGetAll → t.buf = s.buf)

/-- The machine right after reset satisfies the invariant. -/
def Obligations.ResetSatisfiesInv : Prop := State.reset.Inv

/-- Every step keeps the invariant: the register ranges, a probe's error kind, origin and phase in agreement, a
configured probe at the active resolution, a ROM with a right CRC, 12-bit voltages with their differentials, and the
port RUNNING exactly while a pass is in progress (spec/10_state.md R18, R23, R25 to R32; spec/44_probe_manager.md R167,
R171; spec/45_adc.md R186). -/
def Obligations.StepKeepsInv : Prop :=
  ∀ s t : State, s.Inv → step s = .next t → t.Inv

/-- A term whose operands are out of range, which the decoder never answers, is the illegal command when `exec` is asked
to run it: the model's own choice (log entry 17), after the meaning that R73 gives an illegal word
(spec/30_encoding.md R73). -/
def Obligations.IllFormedTermIsIllegalCommand : Prop :=
  ∀ (i : Instr) (s : State), i.wf = false → exec i s = .next (illegalCommand s)
end

