-- ==== Sys2Proof/Laws/State.lean ====
section
/-! SUPPORT. What each update of the state leaves in each field, one lemma for each, all true by rfl. -/

namespace Sys2Proof.Machine

variable (s : State)

/-! ### `State.setTransport` -/

@[simp] theorem State.setTransport_cfg (t : TransportId) (x : Transport) : (s.setTransport t x).cfg = s.cfg := rfl
@[simp] theorem State.setTransport_cpState (t : TransportId) (x : Transport) : (s.setTransport t x).cpState = s.cpState := rfl
@[simp] theorem State.setTransport_cmd (t : TransportId) (x : Transport) : (s.setTransport t x).cmd = s.cmd := rfl
@[simp] theorem State.setTransport_res (t : TransportId) (x : Transport) : (s.setTransport t x).res = s.res := rfl
@[simp] theorem State.setTransport_buf (t : TransportId) (x : Transport) : (s.setTransport t x).buf = s.buf := rfl
@[simp] theorem State.setTransport_activeRes (t : TransportId) (x : Transport) : (s.setTransport t x).activeRes = s.activeRes := rfl
@[simp] theorem State.setTransport_logVerbose (t : TransportId) (x : Transport) : (s.setTransport t x).logVerbose = s.logVerbose := rfl
@[simp] theorem State.setTransport_bridges (t : TransportId) (x : Transport) : (s.setTransport t x).bridges = s.bridges := rfl
@[simp] theorem State.setTransport_probes (t : TransportId) (x : Transport) : (s.setTransport t x).probes = s.probes := rfl
@[simp] theorem State.setTransport_td (t : TransportId) (x : Transport) : (s.setTransport t x).td = s.td := rfl
@[simp] theorem State.setTransport_adc (t : TransportId) (x : Transport) : (s.setTransport t x).adc = s.adc := rfl
@[simp] theorem State.setTransport_env_hostWrites (t : TransportId) (x : Transport) :
    (s.setTransport t x).env.hostWrites = s.env.hostWrites := rfl
@[simp] theorem State.setTransport_env_resetRequest (t : TransportId) (x : Transport) :
    (s.setTransport t x).env.resetRequest = s.env.resetRequest := rfl
@[simp] theorem State.setTransport_env_transports (t : TransportId) (x : Transport) :
    (s.setTransport t x).env.transports = s.env.transports.set t x := rfl
@[simp] theorem State.setTransport_env_events (t : TransportId) (x : Transport) :
    (s.setTransport t x).env.events = s.env.events := rfl
@[simp] theorem State.setTransport_env_freeDraws (t : TransportId) (x : Transport) :
    (s.setTransport t x).env.freeDraws = s.env.freeDraws := rfl

/-! ### `State.emit` -/

@[simp] theorem State.emit_cfg (e : Event) : (s.emit e).cfg = s.cfg := rfl
@[simp] theorem State.emit_cpState (e : Event) : (s.emit e).cpState = s.cpState := rfl
@[simp] theorem State.emit_cmd (e : Event) : (s.emit e).cmd = s.cmd := rfl
@[simp] theorem State.emit_res (e : Event) : (s.emit e).res = s.res := rfl
@[simp] theorem State.emit_buf (e : Event) : (s.emit e).buf = s.buf := rfl
@[simp] theorem State.emit_activeRes (e : Event) : (s.emit e).activeRes = s.activeRes := rfl
@[simp] theorem State.emit_logVerbose (e : Event) : (s.emit e).logVerbose = s.logVerbose := rfl
@[simp] theorem State.emit_bridges (e : Event) : (s.emit e).bridges = s.bridges := rfl
@[simp] theorem State.emit_probes (e : Event) : (s.emit e).probes = s.probes := rfl
@[simp] theorem State.emit_td (e : Event) : (s.emit e).td = s.td := rfl
@[simp] theorem State.emit_adc (e : Event) : (s.emit e).adc = s.adc := rfl
@[simp] theorem State.emit_env_hostWrites (e : Event) :
    (s.emit e).env.hostWrites = s.env.hostWrites := rfl
@[simp] theorem State.emit_env_resetRequest (e : Event) :
    (s.emit e).env.resetRequest = s.env.resetRequest := rfl
@[simp] theorem State.emit_env_transports (e : Event) :
    (s.emit e).env.transports = s.env.transports := rfl
@[simp] theorem State.emit_env_events (e : Event) :
    (s.emit e).env.events = e :: s.env.events := rfl
@[simp] theorem State.emit_env_freeDraws (e : Event) :
    (s.emit e).env.freeDraws = s.env.freeDraws := rfl

/-! ### `State.report` -/

@[simp] theorem State.report_cfg (ctx : Option (Fin 16)) (k : ErrorKind) (loc extra : Half) : (s.report ctx k loc extra).cfg = s.cfg := rfl
@[simp] theorem State.report_cpState (ctx : Option (Fin 16)) (k : ErrorKind) (loc extra : Half) : (s.report ctx k loc extra).cpState = s.cpState := rfl
@[simp] theorem State.report_cmd (ctx : Option (Fin 16)) (k : ErrorKind) (loc extra : Half) : (s.report ctx k loc extra).cmd = s.cmd := rfl
@[simp] theorem State.report_res (ctx : Option (Fin 16)) (k : ErrorKind) (loc extra : Half) : (s.report ctx k loc extra).res = s.res := rfl
@[simp] theorem State.report_buf (ctx : Option (Fin 16)) (k : ErrorKind) (loc extra : Half) : (s.report ctx k loc extra).buf = s.buf := rfl
@[simp] theorem State.report_activeRes (ctx : Option (Fin 16)) (k : ErrorKind) (loc extra : Half) : (s.report ctx k loc extra).activeRes = s.activeRes := rfl
@[simp] theorem State.report_logVerbose (ctx : Option (Fin 16)) (k : ErrorKind) (loc extra : Half) : (s.report ctx k loc extra).logVerbose = s.logVerbose := rfl
@[simp] theorem State.report_bridges (ctx : Option (Fin 16)) (k : ErrorKind) (loc extra : Half) : (s.report ctx k loc extra).bridges = s.bridges := rfl
@[simp] theorem State.report_probes (ctx : Option (Fin 16)) (k : ErrorKind) (loc extra : Half) : (s.report ctx k loc extra).probes = s.probes := rfl
@[simp] theorem State.report_td (ctx : Option (Fin 16)) (k : ErrorKind) (loc extra : Half) : (s.report ctx k loc extra).td = s.td := rfl
@[simp] theorem State.report_adc (ctx : Option (Fin 16)) (k : ErrorKind) (loc extra : Half) : (s.report ctx k loc extra).adc = s.adc := rfl
@[simp] theorem State.report_env_hostWrites (ctx : Option (Fin 16)) (k : ErrorKind) (loc extra : Half) :
    (s.report ctx k loc extra).env.hostWrites = s.env.hostWrites := rfl
@[simp] theorem State.report_env_resetRequest (ctx : Option (Fin 16)) (k : ErrorKind) (loc extra : Half) :
    (s.report ctx k loc extra).env.resetRequest = s.env.resetRequest := rfl
@[simp] theorem State.report_env_transports (ctx : Option (Fin 16)) (k : ErrorKind) (loc extra : Half) :
    (s.report ctx k loc extra).env.transports = s.env.transports := rfl
@[simp] theorem State.report_env_events (ctx : Option (Fin 16)) (k : ErrorKind) (loc extra : Half) :
    (s.report ctx k loc extra).env.events = Event.report ⟨loc, k, extra, Config.freeMessage s.env.events.length, ctx⟩ :: s.env.events := rfl
@[simp] theorem State.report_env_freeDraws (ctx : Option (Fin 16)) (k : ErrorKind) (loc extra : Half) :
    (s.report ctx k loc extra).env.freeDraws = s.env.freeDraws := rfl

/-! ### `State.setResValue` -/

@[simp] theorem State.setResValue_cfg (v : Byte) : (s.setResValue v).cfg = s.cfg := rfl
@[simp] theorem State.setResValue_cpState (v : Byte) : (s.setResValue v).cpState = s.cpState := rfl
@[simp] theorem State.setResValue_cmd (v : Byte) : (s.setResValue v).cmd = s.cmd := rfl
@[simp] theorem State.setResValue_res (v : Byte) : (s.setResValue v).res = { s.res with value := v } := rfl
@[simp] theorem State.setResValue_buf (v : Byte) : (s.setResValue v).buf = s.buf := rfl
@[simp] theorem State.setResValue_activeRes (v : Byte) : (s.setResValue v).activeRes = s.activeRes := rfl
@[simp] theorem State.setResValue_logVerbose (v : Byte) : (s.setResValue v).logVerbose = s.logVerbose := rfl
@[simp] theorem State.setResValue_bridges (v : Byte) : (s.setResValue v).bridges = s.bridges := rfl
@[simp] theorem State.setResValue_probes (v : Byte) : (s.setResValue v).probes = s.probes := rfl
@[simp] theorem State.setResValue_td (v : Byte) : (s.setResValue v).td = s.td := rfl
@[simp] theorem State.setResValue_adc (v : Byte) : (s.setResValue v).adc = s.adc := rfl
@[simp] theorem State.setResValue_env (v : Byte) : (s.setResValue v).env = s.env := rfl

/-! ### `State.setBuf` -/

@[simp] theorem State.setBuf_cfg (k : Fin 9) (v : Byte) : (s.setBuf k v).cfg = s.cfg := rfl
@[simp] theorem State.setBuf_cpState (k : Fin 9) (v : Byte) : (s.setBuf k v).cpState = s.cpState := rfl
@[simp] theorem State.setBuf_cmd (k : Fin 9) (v : Byte) : (s.setBuf k v).cmd = s.cmd := rfl
@[simp] theorem State.setBuf_res (k : Fin 9) (v : Byte) : (s.setBuf k v).res = s.res := rfl
@[simp] theorem State.setBuf_buf (k : Fin 9) (v : Byte) : (s.setBuf k v).buf = s.buf.set k v := rfl
@[simp] theorem State.setBuf_activeRes (k : Fin 9) (v : Byte) : (s.setBuf k v).activeRes = s.activeRes := rfl
@[simp] theorem State.setBuf_logVerbose (k : Fin 9) (v : Byte) : (s.setBuf k v).logVerbose = s.logVerbose := rfl
@[simp] theorem State.setBuf_bridges (k : Fin 9) (v : Byte) : (s.setBuf k v).bridges = s.bridges := rfl
@[simp] theorem State.setBuf_probes (k : Fin 9) (v : Byte) : (s.setBuf k v).probes = s.probes := rfl
@[simp] theorem State.setBuf_td (k : Fin 9) (v : Byte) : (s.setBuf k v).td = s.td := rfl
@[simp] theorem State.setBuf_adc (k : Fin 9) (v : Byte) : (s.setBuf k v).adc = s.adc := rfl
@[simp] theorem State.setBuf_env (k : Fin 9) (v : Byte) : (s.setBuf k v).env = s.env := rfl

/-! ### `State.setLogVerbose` -/

@[simp] theorem State.setLogVerbose_cfg (f : Bool) : (s.setLogVerbose f).cfg = s.cfg := rfl
@[simp] theorem State.setLogVerbose_cpState (f : Bool) : (s.setLogVerbose f).cpState = s.cpState := rfl
@[simp] theorem State.setLogVerbose_cmd (f : Bool) : (s.setLogVerbose f).cmd = s.cmd := rfl
@[simp] theorem State.setLogVerbose_res (f : Bool) : (s.setLogVerbose f).res = s.res := rfl
@[simp] theorem State.setLogVerbose_buf (f : Bool) : (s.setLogVerbose f).buf = s.buf := rfl
@[simp] theorem State.setLogVerbose_activeRes (f : Bool) : (s.setLogVerbose f).activeRes = s.activeRes := rfl
@[simp] theorem State.setLogVerbose_logVerbose (f : Bool) : (s.setLogVerbose f).logVerbose = f := rfl
@[simp] theorem State.setLogVerbose_bridges (f : Bool) : (s.setLogVerbose f).bridges = s.bridges := rfl
@[simp] theorem State.setLogVerbose_probes (f : Bool) : (s.setLogVerbose f).probes = s.probes := rfl
@[simp] theorem State.setLogVerbose_td (f : Bool) : (s.setLogVerbose f).td = s.td := rfl
@[simp] theorem State.setLogVerbose_adc (f : Bool) : (s.setLogVerbose f).adc = s.adc := rfl
@[simp] theorem State.setLogVerbose_env (f : Bool) : (s.setLogVerbose f).env = s.env := rfl

/-! ### `State.setActiveRes` -/

@[simp] theorem State.setActiveRes_cfg (r : BitVec 2) : (s.setActiveRes r).cfg = s.cfg := rfl
@[simp] theorem State.setActiveRes_cpState (r : BitVec 2) : (s.setActiveRes r).cpState = s.cpState := rfl
@[simp] theorem State.setActiveRes_cmd (r : BitVec 2) : (s.setActiveRes r).cmd = s.cmd := rfl
@[simp] theorem State.setActiveRes_res (r : BitVec 2) : (s.setActiveRes r).res = s.res := rfl
@[simp] theorem State.setActiveRes_buf (r : BitVec 2) : (s.setActiveRes r).buf = s.buf := rfl
@[simp] theorem State.setActiveRes_activeRes (r : BitVec 2) : (s.setActiveRes r).activeRes = r := rfl
@[simp] theorem State.setActiveRes_logVerbose (r : BitVec 2) : (s.setActiveRes r).logVerbose = s.logVerbose := rfl
@[simp] theorem State.setActiveRes_bridges (r : BitVec 2) : (s.setActiveRes r).bridges = s.bridges := rfl
@[simp] theorem State.setActiveRes_probes (r : BitVec 2) : (s.setActiveRes r).probes = s.probes := rfl
@[simp] theorem State.setActiveRes_td (r : BitVec 2) : (s.setActiveRes r).td = s.td := rfl
@[simp] theorem State.setActiveRes_adc (r : BitVec 2) : (s.setActiveRes r).adc = s.adc := rfl
@[simp] theorem State.setActiveRes_env (r : BitVec 2) : (s.setActiveRes r).env = s.env := rfl

/-! ### `State.setBridge` -/

@[simp] theorem State.setBridge_cfg (g : Group) (b : Bridge) : (s.setBridge g b).cfg = s.cfg := rfl
@[simp] theorem State.setBridge_cpState (g : Group) (b : Bridge) : (s.setBridge g b).cpState = s.cpState := rfl
@[simp] theorem State.setBridge_cmd (g : Group) (b : Bridge) : (s.setBridge g b).cmd = s.cmd := rfl
@[simp] theorem State.setBridge_res (g : Group) (b : Bridge) : (s.setBridge g b).res = s.res := rfl
@[simp] theorem State.setBridge_buf (g : Group) (b : Bridge) : (s.setBridge g b).buf = s.buf := rfl
@[simp] theorem State.setBridge_activeRes (g : Group) (b : Bridge) : (s.setBridge g b).activeRes = s.activeRes := rfl
@[simp] theorem State.setBridge_logVerbose (g : Group) (b : Bridge) : (s.setBridge g b).logVerbose = s.logVerbose := rfl
@[simp] theorem State.setBridge_bridges (g : Group) (b : Bridge) : (s.setBridge g b).bridges = s.bridges.set g b := rfl
@[simp] theorem State.setBridge_probes (g : Group) (b : Bridge) : (s.setBridge g b).probes = s.probes := rfl
@[simp] theorem State.setBridge_td (g : Group) (b : Bridge) : (s.setBridge g b).td = s.td := rfl
@[simp] theorem State.setBridge_adc (g : Group) (b : Bridge) : (s.setBridge g b).adc = s.adc := rfl
@[simp] theorem State.setBridge_env (g : Group) (b : Bridge) : (s.setBridge g b).env = s.env := rfl

/-! ### `State.setProbe` -/

@[simp] theorem State.setProbe_cfg (i : Fin 16) (p : Probe) : (s.setProbe i p).cfg = s.cfg := rfl
@[simp] theorem State.setProbe_cpState (i : Fin 16) (p : Probe) : (s.setProbe i p).cpState = s.cpState := rfl
@[simp] theorem State.setProbe_cmd (i : Fin 16) (p : Probe) : (s.setProbe i p).cmd = s.cmd := rfl
@[simp] theorem State.setProbe_res (i : Fin 16) (p : Probe) : (s.setProbe i p).res = s.res := rfl
@[simp] theorem State.setProbe_buf (i : Fin 16) (p : Probe) : (s.setProbe i p).buf = s.buf := rfl
@[simp] theorem State.setProbe_activeRes (i : Fin 16) (p : Probe) : (s.setProbe i p).activeRes = s.activeRes := rfl
@[simp] theorem State.setProbe_logVerbose (i : Fin 16) (p : Probe) : (s.setProbe i p).logVerbose = s.logVerbose := rfl
@[simp] theorem State.setProbe_bridges (i : Fin 16) (p : Probe) : (s.setProbe i p).bridges = s.bridges := rfl
@[simp] theorem State.setProbe_probes (i : Fin 16) (p : Probe) : (s.setProbe i p).probes = s.probes.set i p := rfl
@[simp] theorem State.setProbe_td (i : Fin 16) (p : Probe) : (s.setProbe i p).td = s.td := rfl
@[simp] theorem State.setProbe_adc (i : Fin 16) (p : Probe) : (s.setProbe i p).adc = s.adc := rfl
@[simp] theorem State.setProbe_env (i : Fin 16) (p : Probe) : (s.setProbe i p).env = s.env := rfl

/-! ### `State.setTd` -/

@[simp] theorem State.setTd_cfg (r : TdRegs) : (s.setTd r).cfg = s.cfg := rfl
@[simp] theorem State.setTd_cpState (r : TdRegs) : (s.setTd r).cpState = s.cpState := rfl
@[simp] theorem State.setTd_cmd (r : TdRegs) : (s.setTd r).cmd = s.cmd := rfl
@[simp] theorem State.setTd_res (r : TdRegs) : (s.setTd r).res = s.res := rfl
@[simp] theorem State.setTd_buf (r : TdRegs) : (s.setTd r).buf = s.buf := rfl
@[simp] theorem State.setTd_activeRes (r : TdRegs) : (s.setTd r).activeRes = s.activeRes := rfl
@[simp] theorem State.setTd_logVerbose (r : TdRegs) : (s.setTd r).logVerbose = s.logVerbose := rfl
@[simp] theorem State.setTd_bridges (r : TdRegs) : (s.setTd r).bridges = s.bridges := rfl
@[simp] theorem State.setTd_probes (r : TdRegs) : (s.setTd r).probes = s.probes := rfl
@[simp] theorem State.setTd_td (r : TdRegs) : (s.setTd r).td = r := rfl
@[simp] theorem State.setTd_adc (r : TdRegs) : (s.setTd r).adc = s.adc := rfl
@[simp] theorem State.setTd_env (r : TdRegs) : (s.setTd r).env = s.env := rfl

/-! ### `State.setAdc` -/

@[simp] theorem State.setAdc_cfg (a : Adc) : (s.setAdc a).cfg = s.cfg := rfl
@[simp] theorem State.setAdc_cpState (a : Adc) : (s.setAdc a).cpState = s.cpState := rfl
@[simp] theorem State.setAdc_cmd (a : Adc) : (s.setAdc a).cmd = s.cmd := rfl
@[simp] theorem State.setAdc_res (a : Adc) : (s.setAdc a).res = s.res := rfl
@[simp] theorem State.setAdc_buf (a : Adc) : (s.setAdc a).buf = s.buf := rfl
@[simp] theorem State.setAdc_activeRes (a : Adc) : (s.setAdc a).activeRes = s.activeRes := rfl
@[simp] theorem State.setAdc_logVerbose (a : Adc) : (s.setAdc a).logVerbose = s.logVerbose := rfl
@[simp] theorem State.setAdc_bridges (a : Adc) : (s.setAdc a).bridges = s.bridges := rfl
@[simp] theorem State.setAdc_probes (a : Adc) : (s.setAdc a).probes = s.probes := rfl
@[simp] theorem State.setAdc_td (a : Adc) : (s.setAdc a).td = s.td := rfl
@[simp] theorem State.setAdc_adc (a : Adc) : (s.setAdc a).adc = a := rfl
@[simp] theorem State.setAdc_env (a : Adc) : (s.setAdc a).env = s.env := rfl

/-! ### `State.setAdcAcc` -/

@[simp] theorem State.setAdcAcc_cfg (c : Fin 8) (a : AdcAcc) : (s.setAdcAcc c a).cfg = s.cfg := rfl
@[simp] theorem State.setAdcAcc_cpState (c : Fin 8) (a : AdcAcc) : (s.setAdcAcc c a).cpState = s.cpState := rfl
@[simp] theorem State.setAdcAcc_cmd (c : Fin 8) (a : AdcAcc) : (s.setAdcAcc c a).cmd = s.cmd := rfl
@[simp] theorem State.setAdcAcc_res (c : Fin 8) (a : AdcAcc) : (s.setAdcAcc c a).res = s.res := rfl
@[simp] theorem State.setAdcAcc_buf (c : Fin 8) (a : AdcAcc) : (s.setAdcAcc c a).buf = s.buf := rfl
@[simp] theorem State.setAdcAcc_activeRes (c : Fin 8) (a : AdcAcc) : (s.setAdcAcc c a).activeRes = s.activeRes := rfl
@[simp] theorem State.setAdcAcc_logVerbose (c : Fin 8) (a : AdcAcc) : (s.setAdcAcc c a).logVerbose = s.logVerbose := rfl
@[simp] theorem State.setAdcAcc_bridges (c : Fin 8) (a : AdcAcc) : (s.setAdcAcc c a).bridges = s.bridges := rfl
@[simp] theorem State.setAdcAcc_probes (c : Fin 8) (a : AdcAcc) : (s.setAdcAcc c a).probes = s.probes := rfl
@[simp] theorem State.setAdcAcc_td (c : Fin 8) (a : AdcAcc) : (s.setAdcAcc c a).td = s.td := rfl
@[simp] theorem State.setAdcAcc_adc (c : Fin 8) (a : AdcAcc) : (s.setAdcAcc c a).adc = { s.adc with acc := s.adc.acc.set c a } := rfl
@[simp] theorem State.setAdcAcc_env (c : Fin 8) (a : AdcAcc) : (s.setAdcAcc c a).env = s.env := rfl

/-! ### Reading back what was written -/

@[simp] theorem PerGroup.get_set_same {α : Type} (p : PerGroup α) (g : Group) (x : α) : (p.set g x).get g = x := by
  cases g <;> rfl

@[simp] theorem PerGroup.set_get_same {α : Type} (p : PerGroup α) (g : Group) : p.set g (p.get g) = p := by
  cases g <;> rfl

@[simp] theorem PerGroup.set_set_same {α : Type} (p : PerGroup α) (g : Group) (x y : α) :
    (p.set g x).set g y = p.set g y := by
  cases g <;> rfl

theorem PerGroup.get_set_ne {α : Type} (p : PerGroup α) {g h : Group} (x : α) (hne : h ≠ g) :
    (p.set g x).get h = p.get h := by
  cases g <;> cases h <;> first | rfl | exact absurd rfl hne

@[simp] theorem Transports.get_set_same (ts : Transports) (t : TransportId) (x : Transport) :
    (ts.set t x).get t = x := by
  rcases t with (_ | _) | _ <;> rfl

@[simp] theorem Transports.set_get_same (ts : Transports) (t : TransportId) : ts.set t (ts.get t) = ts := by
  rcases t with (_ | _) | _ <;> rfl

@[simp] theorem Transports.set_set_same (ts : Transports) (t : TransportId) (x y : Transport) :
    (ts.set t x).set t y = ts.set t y := by
  rcases t with (_ | _) | _ <;> rfl

theorem Transports.get_set_ne (ts : Transports) {t u : TransportId} (x : Transport) (hne : u ≠ t) :
    (ts.set t x).get u = ts.get u := by
  rcases t with (_ | _) | _ <;> rcases u with (_ | _) | _ <;> first | rfl | exact absurd rfl hne

@[simp] theorem State.bridge_setBridge_same (g : Group) (b : Bridge) : (s.setBridge g b).bridge g = b :=
  PerGroup.get_set_same _ _ _

theorem State.bridge_setBridge_ne {g h : Group} (b : Bridge) (hne : h ≠ g) :
    (s.setBridge g b).bridge h = s.bridge h :=
  PerGroup.get_set_ne _ _ hne

@[simp] theorem State.transport_setTransport_same (t : TransportId) (x : Transport) :
    (s.setTransport t x).transport t = x :=
  Transports.get_set_same _ _ _

theorem State.transport_setTransport_ne {t u : TransportId} (x : Transport) (hne : u ≠ t) :
    (s.setTransport t x).transport u = s.transport u :=
  Transports.get_set_ne _ _ hne

@[simp] theorem State.probe_setProbe_same (i : Fin 16) (p : Probe) : (s.setProbe i p).probe i = p := by
  simp [State.probe, State.setProbe]

theorem State.probe_setProbe_ne {i j : Fin 16} (p : Probe) (hne : j ≠ i) :
    (s.setProbe i p).probe j = s.probe j := by
  have h : (i : Nat) ≠ j := fun h => hne (Fin.ext h.symm)
  simp [State.probe, State.setProbe, h]

@[simp] theorem State.adcAcc_setAdcAcc_same (c : Fin 8) (a : AdcAcc) : (s.setAdcAcc c a).adcAcc c = a := by
  simp [State.adcAcc]

theorem State.adcAcc_setAdcAcc_ne {c d : Fin 8} (a : AdcAcc) (hne : d ≠ c) :
    (s.setAdcAcc c a).adcAcc d = s.adcAcc d := by
  have h : (c : Nat) ≠ d := fun h => hne (Fin.ext h.symm)
  simp [State.adcAcc, h]

@[simp] theorem State.bridge_emit (e : Event) (g : Group) : (s.emit e).bridge g = s.bridge g := rfl
@[simp] theorem State.probe_emit (e : Event) (i : Fin 16) : (s.emit e).probe i = s.probe i := rfl
@[simp] theorem State.transport_emit (e : Event) (t : TransportId) : (s.emit e).transport t = s.transport t := rfl
@[simp] theorem State.bridge_setTransport (t : TransportId) (x : Transport) (g : Group) :
    (s.setTransport t x).bridge g = s.bridge g := rfl
@[simp] theorem State.probe_setTransport (t : TransportId) (x : Transport) (i : Fin 16) :
    (s.setTransport t x).probe i = s.probe i := rfl
@[simp] theorem State.transport_setBridge (g : Group) (b : Bridge) (t : TransportId) :
    (s.setBridge g b).transport t = s.transport t := rfl
@[simp] theorem State.transport_setBuf (k : Fin 9) (v : Byte) (t : TransportId) :
    (s.setBuf k v).transport t = s.transport t := rfl
@[simp] theorem State.bridge_setBuf (k : Fin 9) (v : Byte) (g : Group) :
    (s.setBuf k v).bridge g = s.bridge g := rfl

end Sys2Proof.Machine
end

