-- ==== Sys2Proof/Laws/Ops.lean ====
section
/-! SUPPORT. The shared operations run from a state, and relations that an operation keeps between the state it starts
from and the state it ends in. -/

namespace Sys2Proof.Machine

/-! ### Operations run from a state -/

section Run
variable {α β : Type}

@[simp] theorem Op.run_pure (a : α) (s : State) : (pure a : Op α).run s = (.ok a, s) := rfl

theorem Op.run_bind (x : Op α) (f : α → Op β) (s : State) :
    (x >>= f).run s = match x.run s with
      | (.ok a, s') => (f a).run s'
      | (.error e, s') => (.error e, s') := by
  simp only [Op.run, bind, ExceptT.bind, ExceptT.mk, StateT.bind, ExceptT.bindCont]
  rcases x s with ⟨_ | _, _⟩ <;> rfl

/-- A `try` whose operation succeeds goes on with its value. -/
theorem Op.run_bind_ok {x : Op α} {f : α → Op β} {s s' : State} {a : α} (h : x.run s = (.ok a, s')) :
    (x >>= f).run s = (f a).run s' := by
  rw [Op.run_bind, h]

/-- A `try` whose operation fails ends with the same failure (spec/00_scope.md R12). -/
theorem Op.run_bind_error {x : Op α} {f : α → Op β} {s s' : State} {e : Failure} (h : x.run s = (.error e, s')) :
    (x >>= f).run s = (.error e, s') := by
  rw [Op.run_bind, h]

/-- A sequence that succeeds has succeeded in both parts. -/
theorem Op.of_run_bind_ok {x : Op α} {f : α → Op β} {s t : State} {b : β} (h : (x >>= f).run s = (.ok b, t)) :
    ∃ a s', x.run s = (.ok a, s') ∧ (f a).run s' = (.ok b, t) := by
  rw [Op.run_bind] at h
  rcases hx : x.run s with ⟨e | a, s'⟩ <;> rw [hx] at h
  · cases h
  · exact ⟨a, s', rfl, h⟩

@[simp] theorem Op.run_read (f : State → α) (s : State) : (Op.read f).run s = (.ok (f s), s) := rfl
@[simp] theorem Op.run_modify (f : State → State) (s : State) : (Op.modify f).run s = (.ok (), f s) := rfl
@[simp] theorem Op.run_propagate (e : Failure) (s : State) : (Op.propagate e : Op α).run s = (.error e, s) := rfl
@[simp] theorem Op.run_attempt (x : Op α) (s : State) :
    (Op.attempt x).run s = (.ok (x.run s).1, (x.run s).2) := rfl
@[simp] theorem run_raise (ctx : Option (Fin 16)) (k : ErrorKind) (loc extra : Half) (s : State) :
    (raise ctx k loc extra : Op α).run s = (.error ⟨k, loc, extra⟩, s.report ctx k loc extra) := rfl
@[simp] theorem run_delay (d : Nat) (s : State) : (delay d).run s = (.ok (), s.emit (.delay d)) := rfl
theorem run_transact (t : TransportId) (addr : BitVec 7) (wb : List Byte) (rc : Nat) (s : State) :
    (transact t addr wb rc).run s =
      (.ok (Transport.draw t (s.transport t)).1,
        (s.setTransport t (Transport.draw t (s.transport t)).2).emit
          (.transact t addr wb rc (Transport.draw t (s.transport t)).1)) := rfl

@[simp] theorem Op.run_read_bind (f : State → α) (k : α → Op β) (s : State) :
    (Op.read f >>= k).run s = (k (f s)).run s := Op.run_bind_ok rfl
@[simp] theorem Op.run_modify_bind (f : State → State) (k : Unit → Op β) (s : State) :
    (Op.modify f >>= k).run s = (k ()).run (f s) := Op.run_bind_ok rfl

end Run

/-! ### Relations an operation keeps -/

/-- Every run of the operation ends in a state related to the one it started from, with success or failure. -/
def Op.Keeps {α : Type} (R : State → State → Prop) (x : Op α) : Prop := ∀ s, R s (x.run s).2

/-- A relation that composes along the steps of an operation. -/
structure Composes (R : State → State → Prop) : Prop where
  refl : ∀ s, R s s
  trans : ∀ {s t u}, R s t → R t u → R s u

section Keeps
variable {α β : Type} {R : State → State → Prop}

theorem Op.keeps_pure (hR : Composes R) (a : α) : (pure a : Op α).Keeps R := fun s => hR.refl s

theorem Op.keeps_bind (hR : Composes R) {x : Op α} {f : α → Op β} (hx : x.Keeps R) (hf : ∀ a, (f a).Keeps R) :
    (x >>= f).Keeps R := by
  intro s
  have h := hx s
  rw [Op.run_bind]
  rcases hxs : x.run s with ⟨_ | a, s'⟩ <;> rw [hxs] at h
  · exact h
  · exact hR.trans h (hf a s')

theorem Op.keeps_read (hR : Composes R) (f : State → α) : (Op.read f).Keeps R := fun s => hR.refl s

theorem Op.keeps_modify {f : State → State} (h : ∀ s, R s (f s)) : (Op.modify f).Keeps R := h

theorem Op.keeps_propagate (hR : Composes R) (e : Failure) : (Op.propagate e : Op α).Keeps R := fun s => hR.refl s

theorem Op.keeps_attempt {x : Op α} (hx : x.Keeps R) : (Op.attempt x).Keeps R := hx

theorem keeps_raise {ctx : Option (Fin 16)} {k : ErrorKind} {loc extra : Half}
    (h : ∀ s, R s (s.report ctx k loc extra)) : (raise ctx k loc extra : Op α).Keeps R := h

theorem keeps_transact {t : TransportId} {addr : BitVec 7} {wb : List Byte} {rc : Nat}
    (h : ∀ s x a, R s ((s.setTransport t x).emit (.transact t addr wb rc a))) :
    (transact t addr wb rc).Keeps R := fun s => h s _ _

theorem keeps_delay {d : Nat} (h : ∀ s, R s (s.emit (.delay d))) : (delay d).Keeps R := h

end Keeps

/-! ### How an operation ends -/

/-- Every successful run of the operation ends in a state related by `R` to the one it started from, and every failing
run in one related by `E` with its failure. -/
def Op.Ends {α : Type} (R : State → State → Prop) (E : Failure → State → State → Prop) (x : Op α) : Prop :=
  ∀ s, match x.run s with
    | (.ok _, t) => R s t
    | (.error f, t) => E f s t

/-- Relations that compose along the steps of an operation: successful steps, then a failing one. -/
structure EndsCompose (R : State → State → Prop) (E : Failure → State → State → Prop) : Prop
    extends Composes R where
  transE : ∀ {f s t u}, R s t → E f t u → E f s u

section Ends
variable {α β : Type} {R : State → State → Prop} {E : Failure → State → State → Prop}

theorem Op.Ends.ok {x : Op α} (h : x.Ends R E) {s t : State} {a : α} (hr : x.run s = (.ok a, t)) : R s t := by
  have := h s
  rw [hr] at this
  exact this

theorem Op.Ends.error {x : Op α} (h : x.Ends R E) {s t : State} {f : Failure} (hr : x.run s = (.error f, t)) :
    E f s t := by
  have := h s
  rw [hr] at this
  exact this

/-- When a failure is no exception to the relation, every run keeps it. -/
theorem Op.Ends.keeps {x : Op α} (h : x.Ends R fun _ => R) : x.Keeps R := by
  intro s
  have := h s
  rcases hx : x.run s with ⟨_ | _, t⟩ <;> rw [hx] at this <;> exact this

theorem Op.ends_pure (hR : EndsCompose R E) (a : α) : (pure a : Op α).Ends R E := fun s => hR.refl s

theorem Op.ends_bind (hR : EndsCompose R E) {x : Op α} {f : α → Op β} (hx : x.Ends R E)
    (hf : ∀ a, (f a).Ends R E) : (x >>= f).Ends R E := by
  intro s
  rw [Op.run_bind]
  rcases hxs : x.run s with ⟨e | a, s'⟩
  · exact hx.error hxs
  · have h := hx.ok hxs
    have h' := hf a s'
    dsimp only
    rcases hfs : (f a).run s' with ⟨e | b, u⟩ <;> rw [hfs] at h'
    · exact hR.transE h h'
    · exact hR.trans h h'

theorem Op.ends_read (hR : EndsCompose R E) (f : State → α) : (Op.read f).Ends R E := fun s => hR.refl s

theorem Op.ends_modify {f : State → State} (h : ∀ s, R s (f s)) : (Op.modify f).Ends R E := h

theorem Op.ends_propagate {e : Failure} (h : ∀ s, E e s s) : (Op.propagate e : Op α).Ends R E := h

theorem ends_raise {ctx : Option (Fin 16)} {k : ErrorKind} {loc extra : Half}
    (h : ∀ s, E ⟨k, loc, extra⟩ s (s.report ctx k loc extra)) : (raise ctx k loc extra : Op α).Ends R E := h

theorem ends_delay {d : Nat} (h : ∀ s, R s (s.emit (.delay d))) : (delay d).Ends R E := h

end Ends

/-! ### The end of a command -/

@[simp] theorem endCommand_cpState (r : Except Failure Half) (s : State) : (endCommand r s).cpState = .idle := by
  cases r <;> rfl

/-- The end of a command changes the result registers other than RES_VALUE and returns the port to IDLE, nothing
else (spec/60_exceptions.md R203). -/
theorem endCommand_eq (r : Except Failure Half) (s : State) :
    endCommand r s =
      { s with
        cpState := .idle
        res := { (endCommand r s).res with value := s.res.value } } := by
  cases r <;> rfl

/-- A command that runs an operation ends as the operation ended (spec/60_exceptions.md R203). -/
theorem runCommand_cases (x : Op Unit) (s : State) :
    (∃ s', x.run s = (.ok (), s') ∧ runCommand x s = { s' with res := okResult s'.res.value, cpState := .idle }) ∨
    (∃ f s', x.run s = (.error f, s') ∧
      runCommand x s = { s' with res := errResult f.kind f.loc f.extra s'.res.value, cpState := .idle }) := by
  unfold runCommand
  rcases x.run s with ⟨_ | _, s'⟩
  · exact .inr ⟨_, s', rfl, rfl⟩
  · exact .inl ⟨s', rfl, rfl⟩

/-- The illegal command, written out (spec/30_encoding.md R73). -/
theorem illegalCommand_eq (s : State) :
    illegalCommand s =
      { s.report none .illegalCommand (locCode 0xFF (opField s.cmd)) (s.cmd.setWidth 16) with
        cpState := .idle
        res := errResult .illegalCommand (locCode 0xFF (opField s.cmd)) (s.cmd.setWidth 16) s.res.value } := rfl

theorem ifLegal_of_wf {i : Instr} (h : i.wf = true) (s : State) (t : Host.Outcome State Fault Refusal) :
    ifLegal i s t = t := by
  simp [ifLegal, h]

theorem ifLegal_of_not_wf {i : Instr} (h : i.wf = false) (s : State) (t : Host.Outcome State Fault Refusal) :
    ifLegal i s t = .next (illegalCommand s) := by
  simp [ifLegal, h]

/-! ### Drawing an answer -/

theorem Transport.draw_listed (t : TransportId) (x : Transport) (a : Answer) (rest : List Answer)
    (h : x.answers = a :: rest) : Transport.draw t x = (a, { x with answers := rest }) := by
  simp [Transport.draw, h]

theorem Transport.draw_free (t : TransportId) (x : Transport) (h : x.answers = []) :
    Transport.draw t x = (Config.freeAnswer t x.draws, { x with draws := x.draws + 1 }) := by
  simp [Transport.draw, h]

end Sys2Proof.Machine
end

