-- ==== Sys2Proof/Laws/Adc.lean ====
section
/-! SUPPORT. What one round of a sampling pass can do, and the accumulators along the samples. -/

namespace Sys2Proof.Machine

/-! ### Samples -/

/-- The 12-bit code of two bytes, as a number (spec/30_encoding.md R91). -/
theorem adcCode_toNat (b0 b1 : Byte) : (adcCode b0 b1).toNat = b0.toNat * 16 + b1.toNat / 16 := by
  have h : ∀ v : BitVec 16, (((v &&& 0xFFF0) >>> 4).setWidth 12).toNat = v.toNat / 16 := by
    intro v
    have e : ((v &&& 0xFFF0) >>> 4).setWidth 12 = (v >>> 4).setWidth 12 := by
      apply BitVec.eq_of_getLsbD_eq
      intro i hi
      interval_cases i <;> simp
    rw [e, BitVec.toNat_setWidth, BitVec.toNat_ushiftRight, Nat.shiftRight_eq_div_pow]
    have := v.isLt
    omega
  unfold adcCode
  have e : (b0 ++ b1 : BitVec (8 + 8)).toNat = b0.toNat * 256 + b1.toNat := by
    rw [BitVec.toNat_append, ← Nat.shiftLeft_add_eq_or_of_lt b1.isLt, Nat.shiftLeft_eq]
  rw [h]
  have h2 : (b0 ++ b1 : Half).toNat = b0.toNat * 256 + b1.toNat := e
  rw [h2]
  omega

theorem AdcAcc.add_count (a : AdcAcc) (x : BitVec 12) : (a.add x).count = a.count + 1 := rfl

/-- A started channel is well formed. -/
theorem AdcAcc.start_wf (samples : Nat) : AdcAcc.start.WellFormed samples := by
  simp [AdcAcc.WellFormed, AdcAcc.start]

/-- A sample keeps the accumulators well formed while samples are still needed (spec/45_adc.md R185). -/
theorem AdcAcc.add_wf {samples : Nat} {a : AdcAcc} (h : a.WellFormed samples) (hc : a.count < samples)
    (hs : samples ≤ 65535) (x : BitVec 12) : (a.add x).WellFormed samples := by
  obtain ⟨-, hsum, h0, h1, h2, h3⟩ := h
  have hx := x.isLt
  have hl := a.low.isLt
  have hh := a.high.isLt
  have hse : (a.sum + x.setWidth 32).toNat = a.sum.toNat + x.toNat := by
    rw [BitVec.toNat_add, BitVec.toNat_setWidth]
    omega
  have hse' : (a.add x).sum.toNat = a.sum.toNat + x.toNat := hse
  have hlow : (a.add x).low.toNat = min x.toNat a.low.toNat := by
    simp only [AdcAcc.add]
    split <;> omega
  have hhigh : (a.add x).high.toNat = max x.toNat a.high.toNat := by
    simp only [AdcAcc.add]
    split <;> omega
  have hcnt : (a.add x).count = a.count + 1 := rfl
  have hst : a.count = 0 → a.low.toNat = 4095 ∧ a.high.toNat = 0 ∧ a.sum.toNat = 0 := by
    intro hz
    rw [h0 hz]
    exact ⟨rfl, rfl, rfl⟩
  unfold AdcAcc.WellFormed
  rw [hse', hlow, hhigh, hcnt]
  refine ⟨by omega, by omega, by omega, by omega, by omega, by omega⟩

/-- The trimmed average of a complete channel holds in 12 bits (spec/10_state.md R31, spec/45_adc.md R186). -/
theorem trimmedAverage_le {samples : Nat} {a : AdcAcc} (h : a.WellFormed samples) (hc : a.count = samples)
    (hs : 3 ≤ samples) : (trimmedAverage samples a).toNat ≤ 4095 := by
  obtain ⟨-, -, -, -, -, h3⟩ := h
  have := h3 (by omega)
  have hd : (a.sum.toNat - a.low.toNat - a.high.toNat) / (samples - 2) ≤ 4095 := by
    apply Nat.div_le_of_le_mul
    rw [hc] at this
    rw [Nat.mul_comm]
    omega
  simp only [trimmedAverage, BitVec.toNat_ofNat]
  exact Nat.le_trans (Nat.mod_le _ _) hd

/-! ### Rounds -/

/-- The state after the select write of an attempt on channel c, and the state after its read
(spec/45_adc.md R185). -/
def adcSelected (c : Fin 8) (s : State) : State :=
  (s.setTransport .adc (Transport.draw .adc (s.transport .adc)).2).emit
    (.transact .adc s.cfg.adcAddr [s.cfg.adcSel[c]] 0 (Transport.draw .adc (s.transport .adc)).1)

def adcReadBack (s : State) : State :=
  (s.setTransport .adc (Transport.draw .adc (s.transport .adc)).2).emit
    (.transact .adc s.cfg.adcAddr [] 2 (Transport.draw .adc (s.transport .adc)).1)

/-- What one sample attempt can do: the select write fails, or the read fails, each reported and nothing counted; or
the sample is counted (spec/45_adc.md R185). -/
theorem adcSample_cases (c : Fin 8) (s : State) :
    (∃ code, (Transport.draw .adc (s.transport .adc)).1 = .err code ∧
      (adcSample c).run s = (.ok (), (adcSelected c s).report none .transportFailure (locCode 0x40 1) code)) ∨
    (∃ b0 b1 code, (Transport.draw .adc (s.transport .adc)).1 = .ok b0 b1 ∧
      (Transport.draw .adc ((adcSelected c s).transport .adc)).1 = .err code ∧
      (adcSample c).run s =
        (.ok (), (adcReadBack (adcSelected c s)).report none .transportFailure (locCode 0x40 2) code)) ∨
    (∃ b0 b1 c0 c1, (Transport.draw .adc (s.transport .adc)).1 = .ok b0 b1 ∧
      (Transport.draw .adc ((adcSelected c s).transport .adc)).1 = .ok c0 c1 ∧
      (adcSample c).run s =
        (.ok (), (adcReadBack (adcSelected c s)).setAdcAcc c ((s.adcAcc c).add (adcCode c0 c1)))) := by
  unfold adcSample
  rw [Op.run_read_bind, Op.run_bind, run_transact]
  cases h : (Transport.draw .adc (s.transport .adc)).1 with
  | err code =>
    refine .inl ⟨code, rfl, ?_⟩
    rw [adcSelected, h]
    rfl
  | ok b0 b1 =>
    have e : (s.setTransport .adc (Transport.draw .adc (s.transport .adc)).2).emit
        (.transact .adc s.cfg.adcAddr [s.cfg.adcSel[c]] 0 (.ok b0 b1)) = adcSelected c s := by
      rw [adcSelected, h]
    dsimp only
    rw [e, Op.run_bind, run_transact]
    cases h' : (Transport.draw .adc ((adcSelected c s).transport .adc)).1 with
    | err code =>
      refine .inr (.inl ⟨b0, b1, code, rfl, rfl, ?_⟩)
      rw [adcReadBack, h']
      rfl
    | ok c0 c1 =>
      refine .inr (.inr ⟨b0, b1, c0, c1, rfl, rfl, ?_⟩)
      rw [adcReadBack, h']
      rfl

/-- A sample attempt changes nothing but transport T[ADC], the accumulators of its channel and the event record. -/
theorem adcSample_adc (c : Fin 8) (s : State) :
    ((adcSample c).run s).2.cfg = s.cfg ∧
    (((adcSample c).run s).2.adc = s.adc ∨
      ∃ x, ((adcSample c).run s).2.adc = { s.adc with acc := s.adc.acc.set c ((s.adcAcc c).add x) }) := by
  rcases adcSample_cases c s with ⟨_, _, h⟩ | ⟨_, _, _, _, _, h⟩ | ⟨_, _, c0, c1, _, _, h⟩ <;> rw [h]
  · exact ⟨by simp [adcSelected], .inl (by simp [adcSelected])⟩
  · exact ⟨by simp [adcSelected, adcReadBack], .inl (by simp [adcSelected, adcReadBack])⟩
  · exact ⟨by simp [adcSelected, adcReadBack], .inr ⟨adcCode c0 c1, by simp [adcSelected, adcReadBack]⟩⟩

theorem adcSample_cpState (c : Fin 8) (s : State) : ((adcSample c).run s).2.cpState = s.cpState := by
  rcases adcSample_cases c s with ⟨_, _, h⟩ | ⟨_, _, _, _, _, h⟩ | ⟨_, _, _, _, _, _, h⟩ <;> rw [h] <;>
    simp [adcSelected, adcReadBack]

/-- ADC_SAMPLES is in its legal range (spec/93_implementation_defined.md X14). -/
theorem adcSamples_range (c : Config) : 3 ≤ c.adcSamples ∧ c.adcSamples ≤ 65535 := by
  have := c.adcSamplesLess3.isLt
  unfold Config.adcSamples
  omega

/-- The sampler's registers after channel c got other accumulators. -/
theorem Adc.WellFormed.setAcc {samples : Nat} {a : Adc} (h : a.WellFormed samples) (c : Fin 8) {x : AdcAcc}
    (hx : x.WellFormed samples) {ch : Option (Fin 8)}
    (hch : ∀ d : Fin 8, ch = some d → ((a.acc.set c x)[d]).count < samples) :
    Adc.WellFormed samples { a with acc := a.acc.set c x, channel := ch } := by
  refine ⟨fun d => ?_, h.2.1, h.2.2.1, h.2.2.2.1, hch⟩
  by_cases e : c.val = d.val
  · obtain rfl := Fin.ext e
    simpa using hx
  · have : (a.acc.set c x)[d] = a.acc[d] := Vector.getElem_set_ne _ _ e
    simpa only [this] using h.1 d

/-- The sampler's registers after channel c got another average. -/
theorem Adc.WellFormed.setAvg {samples : Nat} {a : Adc} (h : a.WellFormed samples) (c : Fin 8) {v : Half}
    (hv : v.toNat ≤ 4095) : Adc.WellFormed samples { a with avg := a.avg.set c v, channel := none } := by
  refine ⟨h.1, fun d => ?_, h.2.2.1, h.2.2.2.1, fun d hd => by cases hd⟩
  by_cases e : c.val = d.val
  · obtain rfl := Fin.ext e
    simpa using hv
  · have : (a.avg.set c v)[d] = a.avg[d] := Vector.getElem_set_ne _ _ e
    simpa only [this] using h.2.1 d

/-- Publication takes the averages (spec/45_adc.md R187). -/
theorem publish_wf {samples : Nat} {s : State} (h : s.adc.WellFormed samples) :
    (publish s).adc.WellFormed samples := by
  obtain ⟨h1, h2, -, -, h5⟩ := h
  refine ⟨h1, h2, fun j => ?_, ⟨rfl, rfl⟩, h5⟩
  simp only [publish, State.setAdc_adc]
  fin_cases j
  · exact ⟨h2 0, h2 4⟩
  · exact ⟨h2 1, h2 5⟩
  · exact ⟨h2 2, h2 6⟩
  · exact ⟨h2 3, h2 7⟩

/-- Closing a complete channel keeps the registers well formed, and begins the next channel or ends the pass
(spec/45_adc.md R185 to R187). -/
theorem adcClose_wf {s : State} (h : s.adc.WellFormed s.cfg.adcSamples) (c : Fin 8)
    (hc : (s.adcAcc c).count = s.cfg.adcSamples) :
    (adcClose c s).adc.WellFormed s.cfg.adcSamples ∧
      (((adcClose c s).adc.channel.isSome = true ∧ (adcClose c s).cpState = s.cpState) ∨
        ((adcClose c s).adc.channel = none ∧ (adcClose c s).cpState = .idle)) := by
  have hr := adcSamples_range s.cfg
  have hv : (trimmedAverage s.cfg.adcSamples (s.adcAcc c)).toNat ≤ 4095 := trimmedAverage_le (h.1 c) hc hr.1
  have hnone := h.setAvg c hv
  unfold adcClose
  dsimp only
  split
  · rename_i hlt
    refine ⟨hnone.setAcc ⟨c.val + 1, hlt⟩ (AdcAcc.start_wf _) fun d hd => ?_, .inl ⟨rfl, rfl⟩⟩
    obtain rfl := Option.some.inj hd
    simp [AdcAcc.start]
    omega
  · refine ⟨?_, .inr ⟨?_, ?_⟩⟩
    · rw [adcFinish, endCommand_eq]
      exact publish_wf hnone
    · rw [adcFinish, endCommand_eq]
      rfl
    · rw [adcFinish, endCommand_cpState]

/-- One round of the sampling loop keeps the registers well formed, and stays in the pass or ends it
(spec/45_adc.md R185 to R187). -/
theorem adcRound_wf {s : State} (h : s.adc.WellFormed s.cfg.adcSamples) {c : Fin 8} (hc : s.adc.channel = some c) :
    (adcRound c s).adc.WellFormed s.cfg.adcSamples ∧
      (((adcRound c s).adc.channel.isSome = true ∧ (adcRound c s).cpState = s.cpState) ∨
        ((adcRound c s).adc.channel = none ∧ (adcRound c s).cpState = .idle)) := by
  have hlt : (s.adcAcc c).count < s.cfg.adcSamples := h.2.2.2.2 c hc
  have hr := adcSamples_range s.cfg
  unfold adcRound
  rw [if_pos hlt]
  generalize hs' : ((adcSample c).run s).2 = s'
  have hcp : s'.cpState = s.cpState := hs' ▸ adcSample_cpState c s
  obtain ⟨hcfg, ha⟩ := adcSample_adc c s
  rw [hs'] at hcfg ha
  dsimp only
  rcases ha with ha | ⟨x, ha⟩
  · have hacc : s'.adcAcc c = s.adcAcc c := by simp only [State.adcAcc, ha]
    rw [hacc, if_pos hlt, ha, hc]
    exact ⟨h, .inl ⟨rfl, hcp⟩⟩
  · have hacc : s'.adcAcc c = (s.adcAcc c).add x := by simp [State.adcAcc, ha]
    have hwfx := AdcAcc.add_wf (h.1 c) hlt hr.2 x
    rw [hacc, AdcAcc.add_count]
    by_cases hmore : (s.adcAcc c).count + 1 < s.cfg.adcSamples
    · rw [if_pos hmore]
      refine ⟨?_, .inl ⟨by rw [ha, hc]; rfl, hcp⟩⟩
      rw [ha]
      refine h.setAcc c hwfx fun d hd => ?_
      obtain rfl := Option.some.inj (hc.symm.trans hd)
      simpa [AdcAcc.add_count, State.adcAcc] using hmore
    · rw [if_neg hmore]
      have hwf' : ({ s' with adc := { s'.adc with channel := none } } : State).adc.WellFormed s'.cfg.adcSamples := by
        rw [ha, hcfg]
        exact h.setAcc c hwfx fun d hd => by cases hd
      have heq : adcClose c s' = adcClose c { s' with adc := { s'.adc with channel := none } } := by
        unfold adcClose
        rfl
      have hcount : (State.adcAcc { s' with adc := { s'.adc with channel := none } } c).count =
          s'.cfg.adcSamples := by
        have : State.adcAcc { s' with adc := { s'.adc with channel := none } } c = s'.adcAcc c := rfl
        rw [this, hacc, AdcAcc.add_count, hcfg]
        omega
      have := adcClose_wf hwf' c hcount
      rw [← heq, hcfg] at this
      exact ⟨this.1, this.2.imp (fun q => ⟨q.1, q.2.trans hcp⟩) id⟩

end Sys2Proof.Machine
end

