-- ==== Sys2Proof/Laws/Bridge.lean ====
section
/-! SUPPORT. What the bridge operations can do, said once for every relation between the state before and after that
holds of each of their elementary steps (`BridgeSteps`), and its first uses: what they may change (`BridgeFrame`), and
what failures they end with. -/

namespace Sys2Proof.Machine

/-- The rows of the location table that are not the decoder's (spec/60_exceptions.md R201): those that a bridge operation
can fail at are among them. -/
abbrev bridgeLocations : List (BitVec 4 × Half) :=
  locationTable.filter fun r => r.1 != 8 && r.1 != 9

/-- Relations that compose and hold of every elementary step of a bridge operation on group g: a BUF write, a
BR_STATUS and BR_POLLS write within the poll limit, a delay, a transaction on T[g] at BR_ADDR[g] with the widths of
spec/20_memory.md R58, and, for `E`, a failure record of a row of `bridgeLocations`. -/
structure BridgeSteps (ctx : Option (Fin 16)) (g : Group) (R : State → State → Prop)
    (E : Failure → State → State → Prop) : Prop extends EndsCompose R E where
  setBuf : ∀ s k v, R s (s.setBuf k v)
  setBridge : ∀ s b, b.polls ≤ Config.busyPollLimit → R s (s.setBridge g b)
  resetPolls : ∀ s, R s (s.setBridge g { s.bridge g with polls := 0 })
  delay : ∀ s d, R s (s.emit (.delay d))
  report : ∀ s k loc extra, k ≠ .none → (k.code, loc) ∈ bridgeLocations →
    E ⟨k, loc, extra⟩ s (s.report ctx k loc extra)
  write : ∀ s x wb a, wb.length = 1 ∨ wb.length = 2 →
    R s ((s.setTransport (.grp g) x).emit (.transact (.grp g) (s.cfg.brAddrOf g) wb 0 a))
  read : ∀ s x a, R s ((s.setTransport (.grp g) x).emit (.transact (.grp g) (s.cfg.brAddrOf g) [] 1 a))

/-! ### How the operations end -/

section Ends
variable {ctx : Option (Fin 16)} {g : Group} {R : State → State → Prop} {E : Failure → State → State → Prop}
  (h : BridgeSteps ctx g R E)
include h

theorem raise_ends {α : Type} {k : ErrorKind} {loc extra : Half} (hk : k ≠ .none)
    (hl : (k.code, loc) ∈ bridgeLocations) : (raise ctx k loc extra : Op α).Ends R E :=
  ends_raise fun s => h.report s k loc extra hk hl

theorem bridgeWrite_ends {loc : Half} (hl : (1, loc) ∈ bridgeLocations) {wb : List Byte}
    (hw : wb.length = 1 ∨ wb.length = 2) : (bridgeWrite ctx g loc wb).Ends R E := by
  intro s
  have hs := h.write s (Transport.draw (.grp g) (s.transport (.grp g))).2 wb
    (Transport.draw (.grp g) (s.transport (.grp g))).1 hw
  simp only [bridgeWrite, Op.run_read_bind]
  rw [Op.run_bind, run_transact]
  dsimp only
  cases ha : (Transport.draw (.grp g) (s.transport (.grp g))).1 with
  | ok b0 b1 =>
    rw [ha] at hs
    exact hs
  | err code =>
    rw [ha] at hs
    exact h.transE hs (h.report _ _ _ _ (by decide) hl)

theorem bridgeRead_ends {loc : Half} (hl : (1, loc) ∈ bridgeLocations) : (bridgeRead ctx g loc).Ends R E := by
  intro s
  have hs := h.read s (Transport.draw (.grp g) (s.transport (.grp g))).2
    (Transport.draw (.grp g) (s.transport (.grp g))).1
  simp only [bridgeRead, Op.run_read_bind]
  rw [Op.run_bind, run_transact]
  dsimp only
  cases ha : (Transport.draw (.grp g) (s.transport (.grp g))).1 with
  | ok b0 b1 =>
    rw [ha] at hs
    exact hs
  | err code =>
    rw [ha] at hs
    exact h.transE hs (h.report _ _ _ _ (by decide) hl)

theorem delay_ends (d : Nat) : (delay d).Ends R E := ends_delay fun s => h.delay s d

theorem pollLoop_ends (cmd1 : Byte) (left i : Nat) (hi : left + i ≤ Config.busyPollLimit + 1) :
    (pollLoop ctx g cmd1 left i).Ends R E := by
  induction left generalizing i with
  | zero =>
    exact Op.ends_bind h.toEndsCompose (Op.ends_read h.toEndsCompose _) fun _ => raise_ends h (by decide) (by decide)
  | succ n ih =>
    refine Op.ends_bind h.toEndsCompose (bridgeRead_ends h (by decide)) fun st => ?_
    refine Op.ends_bind h.toEndsCompose (Op.ends_modify fun s => h.setBridge s _ (by dsimp only; omega)) fun _ => ?_
    refine Op.ends_bind h.toEndsCompose (Op.ends_read h.toEndsCompose _) fun cfg => ?_
    split
    · exact Op.ends_bind h.toEndsCompose (delay_ends h _) fun _ => ih _ (by omega)
    · split
      · exact raise_ends h (by decide) (by decide)
      · exact Op.ends_pure h.toEndsCompose _

omit h in
theorem commandBytes_length (cmd1 cmd2 : Byte) :
    (commandBytes cmd1 cmd2).length = 1 ∨ (commandBytes cmd1 cmd2).length = 2 := by
  unfold commandBytes
  split
  · exact .inl rfl
  · exact .inr rfl

theorem sendCommand_ends (cmd1 cmd2 : Byte) : (sendCommand ctx g cmd1 cmd2).Ends R E := by
  refine Op.ends_bind h.toEndsCompose (bridgeWrite_ends h (by decide) (commandBytes_length _ _)) fun _ => ?_
  refine Op.ends_bind h.toEndsCompose (Op.ends_read h.toEndsCompose _) fun cfg => ?_
  split
  · exact Op.ends_pure h.toEndsCompose _
  · exact Op.ends_bind h.toEndsCompose (Op.ends_modify h.resetPolls) fun _ => pollLoop_ends h _ _ _ (by decide)

theorem oneWireReset_ends : (oneWireReset ctx g).Ends R E :=
  Op.ends_bind h.toEndsCompose (Op.ends_read h.toEndsCompose _)
    fun _ => sendCommand_ends h _ _

theorem writeByte_ends (b : Byte) : (writeByte ctx g b).Ends R E :=
  Op.ends_bind h.toEndsCompose (Op.ends_read h.toEndsCompose _)
    fun _ => sendCommand_ends h _ _

theorem readByte_ends : (readByte ctx g).Ends R E := by
  refine Op.ends_bind h.toEndsCompose (Op.ends_read h.toEndsCompose _) fun cfg => ?_
  refine Op.ends_bind h.toEndsCompose (sendCommand_ends h _ _) fun _ => ?_
  exact Op.ends_bind h.toEndsCompose (sendCommand_ends h _ _) fun _ => bridgeRead_ends h (by decide)

theorem selectChannel_ends (w v : Byte) : (selectChannel ctx g w v).Ends R E := by
  refine Op.ends_bind h.toEndsCompose (Op.ends_read h.toEndsCompose _) fun cfg => ?_
  refine Op.ends_bind h.toEndsCompose (sendCommand_ends h _ _) fun _ => ?_
  refine Op.ends_bind h.toEndsCompose (bridgeRead_ends h (by decide)) fun rb => ?_
  split
  · exact Op.ends_pure h.toEndsCompose _
  · exact raise_ends h (by decide) (by decide)

theorem resetAndConfigure_ends (force : Bool) : (resetAndConfigure ctx g force).Ends R E := by
  cases force with
  | false => exact Op.ends_pure h.toEndsCompose _
  | true =>
    refine Op.ends_bind h.toEndsCompose (Op.ends_read h.toEndsCompose _) fun cfg => ?_
    refine Op.ends_bind h.toEndsCompose (sendCommand_ends h _ _) fun _ => ?_
    refine Op.ends_bind h.toEndsCompose (sendCommand_ends h _ _) fun _ => ?_
    refine Op.ends_bind h.toEndsCompose (bridgeRead_ends h (by decide)) fun rb => ?_
    split
    · exact Op.ends_pure h.toEndsCompose _
    · exact raise_ends h (by decide) (by decide)

theorem readIntoBuf_ends (ks : List (Fin 9)) : (readIntoBuf ctx g ks).Ends R E := by
  induction ks with
  | nil => exact Op.ends_pure h.toEndsCompose _
  | cons k ks ih =>
    refine Op.ends_bind h.toEndsCompose (readByte_ends h) fun b => ?_
    exact Op.ends_bind h.toEndsCompose (Op.ends_modify fun s => h.setBuf s k b) fun _ => ih

theorem checkBufCrc_ends (n : Nat) {loc : Half} (hl : (7, loc) ∈ bridgeLocations) : (checkBufCrc ctx n loc).Ends R E := by
  refine Op.ends_bind h.toEndsCompose (Op.ends_read h.toEndsCompose _) fun c => ?_
  refine Op.ends_bind h.toEndsCompose (Op.ends_read h.toEndsCompose _) fun received => ?_
  split
  · exact Op.ends_pure h.toEndsCompose _
  · exact raise_ends h (by decide) hl

theorem readRom_ends : (readRom ctx g).Ends R E := by
  refine Op.ends_bind h.toEndsCompose (Op.ends_read h.toEndsCompose _) fun cfg => ?_
  refine Op.ends_bind h.toEndsCompose (oneWireReset_ends h) fun _ => ?_
  refine Op.ends_bind h.toEndsCompose (writeByte_ends h _) fun _ => ?_
  refine Op.ends_bind h.toEndsCompose (readIntoBuf_ends h _) fun _ => ?_
  refine Op.ends_bind h.toEndsCompose (checkBufCrc_ends h _ (by decide)) fun _ => ?_
  exact Op.ends_read h.toEndsCompose _

theorem copyPoll_ends (left : Nat) : (copyPoll ctx g left).Ends R E := by
  induction left with
  | zero => exact raise_ends h (by decide) (by decide)
  | succ n ih =>
    refine Op.ends_bind h.toEndsCompose (readByte_ends h) fun b => ?_
    split
    · exact ih
    · exact Op.ends_pure h.toEndsCompose _

theorem configureProbe_ends (bits : Nat) : (configureProbe ctx g bits).Ends R E := by
  refine Op.ends_bind h.toEndsCompose (Op.ends_read h.toEndsCompose _) fun cfg => ?_
  refine Op.ends_bind h.toEndsCompose (oneWireReset_ends h) fun _ => ?_
  iterate 5 refine Op.ends_bind h.toEndsCompose (writeByte_ends h _) fun _ => ?_
  refine Op.ends_bind h.toEndsCompose (oneWireReset_ends h) fun _ => ?_
  iterate 2 refine Op.ends_bind h.toEndsCompose (writeByte_ends h _) fun _ => ?_
  refine Op.ends_bind h.toEndsCompose (delay_ends h _) fun _ => ?_
  refine Op.ends_bind h.toEndsCompose (oneWireReset_ends h) fun _ => ?_
  exact copyPoll_ends h _

theorem triggerConversion_ends : (triggerConversion ctx g).Ends R E := by
  refine Op.ends_bind h.toEndsCompose (Op.ends_read h.toEndsCompose _) fun cfg => ?_
  refine Op.ends_bind h.toEndsCompose (oneWireReset_ends h) fun _ => ?_
  exact Op.ends_bind h.toEndsCompose (writeByte_ends h _) fun _ => writeByte_ends h _

theorem checkShort_ends : (checkShort ctx g).Ends R E := by
  refine Op.ends_bind h.toEndsCompose (Op.ends_read h.toEndsCompose _) fun cfg => ?_
  refine Op.ends_bind h.toEndsCompose (Op.ends_read h.toEndsCompose _) fun st => ?_
  split
  · exact raise_ends h (by decide) (by decide)
  · exact Op.ends_pure h.toEndsCompose _

theorem retrieveScratchpad_ends : (retrieveScratchpad ctx g).Ends R E := by
  refine Op.ends_bind h.toEndsCompose (Op.ends_read h.toEndsCompose _) fun cfg => ?_
  refine Op.ends_bind h.toEndsCompose (oneWireReset_ends h) fun _ => ?_
  refine Op.ends_bind h.toEndsCompose (checkShort_ends h) fun _ => ?_
  iterate 2 refine Op.ends_bind h.toEndsCompose (writeByte_ends h _) fun _ => ?_
  refine Op.ends_bind h.toEndsCompose (readIntoBuf_ends h _) fun _ => ?_
  refine Op.ends_bind h.toEndsCompose (checkBufCrc_ends h _ (by decide)) fun _ => ?_
  exact Op.ends_read h.toEndsCompose _

end Ends

/-! ### `BridgeFrame` -/

theorem bridgeFrame_composes (g : Group) : Composes (BridgeFrame g) where
  refl := by
    intro s
    simp [BridgeFrame]
  trans := by
    intro s t u h₁ h₂
    rw [BridgeFrame] at *
    rw [h₂, h₁]
    simp

/-- Every bridge operation on group g, successful or not, changes only what `BridgeFrame g` admits. -/
theorem bridgeFrame_steps (ctx : Option (Fin 16)) (g : Group) :
    BridgeSteps ctx g (BridgeFrame g) fun _ => BridgeFrame g where
  toComposes := bridgeFrame_composes g
  transE := (bridgeFrame_composes g).trans
  setBuf s k v := by simp [BridgeFrame, State.setBuf]
  setBridge s b _ := by simp [BridgeFrame, State.setBridge]
  resetPolls s := by simp [BridgeFrame, State.setBridge]
  delay s d := by simp [BridgeFrame, State.emit]
  report s k loc extra _ _ := by simp [BridgeFrame, State.report, State.emit]
  write s x wb a _ := by simp [BridgeFrame, State.setTransport, State.emit]
  read s x a := by simp [BridgeFrame, State.setTransport, State.emit]

theorem BridgeFrame.cfg {g : Group} {s t : State} (h : BridgeFrame g s t) : t.cfg = s.cfg := by rw [h]
theorem BridgeFrame.cpState {g : Group} {s t : State} (h : BridgeFrame g s t) : t.cpState = s.cpState := by rw [h]
theorem BridgeFrame.cmd {g : Group} {s t : State} (h : BridgeFrame g s t) : t.cmd = s.cmd := by rw [h]
theorem BridgeFrame.res {g : Group} {s t : State} (h : BridgeFrame g s t) : t.res = s.res := by rw [h]
theorem BridgeFrame.activeRes {g : Group} {s t : State} (h : BridgeFrame g s t) : t.activeRes = s.activeRes := by
  rw [h]
theorem BridgeFrame.probes {g : Group} {s t : State} (h : BridgeFrame g s t) : t.probes = s.probes := by rw [h]
theorem BridgeFrame.td {g : Group} {s t : State} (h : BridgeFrame g s t) : t.td = s.td := by rw [h]
theorem BridgeFrame.adc {g : Group} {s t : State} (h : BridgeFrame g s t) : t.adc = s.adc := by rw [h]
theorem BridgeFrame.logVerbose {g : Group} {s t : State} (h : BridgeFrame g s t) : t.logVerbose = s.logVerbose := by
  rw [h]

/-! ### Failures -/

/-- A bridge operation fails only with a real kind, at a row of `bridgeLocations`. -/
theorem failure_steps (ctx : Option (Fin 16)) (g : Group) :
    BridgeSteps ctx g (fun _ _ => True) fun f _ _ => f.kind ≠ .none ∧ (f.kind.code, f.loc) ∈ bridgeLocations where
  refl _ := trivial
  trans _ _ := trivial
  transE _ h := h
  setBuf _ _ _ := trivial
  setBridge _ _ _ := trivial
  resetPolls _ := trivial
  delay _ _ := trivial
  report _ _ _ _ hk hl := ⟨hk, hl⟩
  write _ _ _ _ _ := trivial
  read _ _ _ := trivial

end Sys2Proof.Machine
end

