-- ==== Sys2Proof/Laws/Scripts.lean ====
section
/-! SUPPORT. The bridge primitives on a listed script of answers: how they end, what state they leave, and which
port events they cause. -/

namespace Sys2Proof.Machine

/-! ### Traces compose -/

theorem Trace.append {s t u : State} {l l' : List Event} (h : Trace s t l) (h' : Trace t u l') :
    Trace s u (l ++ l') := by
  obtain ⟨n, hn, rfl⟩ := h
  obtain ⟨n', hn', rfl⟩ := h'
  exact ⟨n' ++ n, by rw [NewEvents, hn', hn, List.append_assoc], by simp⟩

theorem Trace.refl (s : State) : Trace s s [] := ⟨[], by simp [NewEvents], rfl⟩

/-- A trace depends on the event records alone. -/
theorem Trace.congr {s s' t t' : State} {l : List Event} (h : Trace s t l)
    (hs : s'.env.events = s.env.events) (ht : t'.env.events = t.env.events) : Trace s' t' l := by
  obtain ⟨n, hn, h⟩ := h
  exact ⟨n, by rw [NewEvents, ht, hn, hs], h⟩

/-! ### A run on group g -/

/-- `t` is `s` after some operations on group g: BUF, BR_STATUS[g] and BR_POLLS[g] as given, T[g]'s listed answers
down to `rest`, the events of `Trace` added, and nothing else changed. -/
def Played (g : Group) (s t : State) (buf : Vector Byte 9) (b : Bridge) (rest : List Answer)
    (l : List Event) : Prop :=
  t = { s with
    buf := buf
    bridges := s.bridges.set g b
    env := { s.env with
      transports := s.env.transports.set (.grp g) { s.transport (.grp g) with answers := rest }
      events := t.env.events } } ∧
  Trace s t l

section Fields
variable {g : Group} {s t : State} {bf : Vector Byte 9} {b : Bridge} {rest : List Answer} {l : List Event}
  (h : Played g s t bf b rest l)
include h

theorem Played.cfg : t.cfg = s.cfg := by rw [h.1]
theorem Played.buf : t.buf = bf := by rw [h.1]
theorem Played.bridge : t.bridge g = b := by
  have h1 := h.1
  generalize he : t.env.events = ev at h1
  subst h1
  exact PerGroup.get_set_same _ _ _
theorem Played.transport : t.transport (.grp g) = { s.transport (.grp g) with answers := rest } := by
  have h1 := h.1
  generalize he : t.env.events = ev at h1
  subst h1
  exact Transports.get_set_same _ _ _
theorem Played.answers : (t.transport (.grp g)).answers = rest := by rw [h.transport]

theorem Played.trans {u : State} {buf' : Vector Byte 9} {b' : Bridge} {rest' : List Answer} {l' : List Event}
    (h' : Played g t u buf' b' rest' l') : Played g s u buf' b' rest' (l ++ l') := by
  refine ⟨?_, h.2.append h'.2⟩
  have h1 := h.1
  have h2 := h'.1
  have ht := h.transport
  rw [ht] at h2
  generalize t.env.events = ev at h1
  generalize u.env.events = ev' at h2
  subst h1 h2
  simp

end Fields

theorem Played.refl (g : Group) (s : State) {rest : List Answer} (h : (s.transport (.grp g)).answers = rest) :
    Played g s s s.buf (s.bridge g) rest [] := by
  refine ⟨?_, Trace.refl s⟩
  subst h
  have : ({ s.transport (.grp g) with answers := (s.transport (.grp g)).answers } : Transport) =
      s.transport (.grp g) := rfl
  rw [this]
  simp [State.bridge, State.transport]

/-- A Bridge write of BR_STATUS[g] and BR_POLLS[g]. -/
theorem played_setBridge (g : Group) (s : State) (b : Bridge) {rest : List Answer}
    (h : (s.transport (.grp g)).answers = rest) : Played g s (s.setBridge g b) s.buf b rest [] := by
  refine ⟨?_, ⟨[], by simp [NewEvents], rfl⟩⟩
  subst h
  have : ({ s.transport (.grp g) with answers := (s.transport (.grp g)).answers } : Transport) =
      s.transport (.grp g) := rfl
  rw [this]
  simp [State.setBridge, State.transport]

theorem played_setBuf (g : Group) (s : State) (k : Fin 9) (v : Byte) {rest : List Answer}
    (h : (s.transport (.grp g)).answers = rest) :
    Played g s (s.setBuf k v) (s.buf.set k v) (s.bridge g) rest [] := by
  refine ⟨?_, ⟨[], by simp [NewEvents], rfl⟩⟩
  subst h
  have : ({ s.transport (.grp g) with answers := (s.transport (.grp g)).answers } : Transport) =
      s.transport (.grp g) := rfl
  rw [this]
  simp [State.setBuf, State.transport, State.bridge]

theorem played_delay (g : Group) (s : State) (d : Nat) {rest : List Answer}
    (h : (s.transport (.grp g)).answers = rest) :
    Played g s (s.emit (.delay d)) s.buf (s.bridge g) rest [.delay d] := by
  refine ⟨?_, ⟨[.delay d], by simp [NewEvents], rfl⟩⟩
  subst h
  have : ({ s.transport (.grp g) with answers := (s.transport (.grp g)).answers } : Transport) =
      s.transport (.grp g) := rfl
  rw [this]
  simp [State.emit, State.transport, State.bridge]

theorem played_report (g : Group) (s : State) (ctx : Option (Fin 16)) (k : ErrorKind) (loc extra : Half)
    {rest : List Answer} (h : (s.transport (.grp g)).answers = rest) :
    Played g s (s.report ctx k loc extra) s.buf (s.bridge g) rest
      [failureRecord ctx k loc extra] := by
  refine ⟨?_, ⟨[.report ⟨loc, k, extra, Config.freeMessage s.env.events.length, ctx⟩], by simp [NewEvents],
    rfl⟩⟩
  subst h
  have : ({ s.transport (.grp g) with answers := (s.transport (.grp g)).answers } : Transport) =
      s.transport (.grp g) := rfl
  rw [this]
  simp [State.report, State.emit, State.transport, State.bridge]

/-! ### Transactions -/

section Transactions
variable (ctx : Option (Fin 16)) (g : Group) (loc : Half) (s : State)

theorem played_transact (wb : List Byte) (rc : Nat) (a : Answer) {rest : List Answer}
    (h : (s.transport (.grp g)).answers = a :: rest) :
    (transact (.grp g) (s.cfg.brAddrOf g) wb rc).run s =
        (.ok a, (s.setTransport (.grp g) { s.transport (.grp g) with answers := rest }).emit
          (.transact (.grp g) (s.cfg.brAddrOf g) wb rc a)) ∧
      Played g s ((s.setTransport (.grp g) { s.transport (.grp g) with answers := rest }).emit
          (.transact (.grp g) (s.cfg.brAddrOf g) wb rc a)) s.buf (s.bridge g) rest
        [.transact (.grp g) (s.cfg.brAddrOf g) wb rc a] := by
  refine ⟨?_, ?_, ⟨[.transact (.grp g) (s.cfg.brAddrOf g) wb rc a], by simp [NewEvents], rfl⟩⟩
  · rw [run_transact, Transport.draw_listed _ _ a rest h]
  · simp [State.emit, State.setTransport, State.transport, State.bridge]

theorem bridgeWrite_ok (wb : List Byte) (p : Byte × Byte) {rest : List Answer}
    (h : (s.transport (.grp g)).answers = .ok p.1 p.2 :: rest) :
    ∃ t, (bridgeWrite ctx g loc wb).run s = (.ok (), t) ∧ Played g s t s.buf (s.bridge g) rest
      [writeEvent s.cfg g wb p] := by
  obtain ⟨hr, hp⟩ := played_transact g s wb 0 _ h
  refine ⟨_, ?_, hp⟩
  simp only [bridgeWrite, Op.run_read_bind]
  rw [Op.run_bind_ok hr]
  rfl

theorem bridgeWrite_err (wb : List Byte) (code : Half) {rest : List Answer}
    (h : (s.transport (.grp g)).answers = .err code :: rest) :
    ∃ t, (bridgeWrite ctx g loc wb).run s = (.error ⟨.transportFailure, loc, code⟩, t) ∧
      Played g s t s.buf (s.bridge g) rest
        [.transact (.grp g) (s.cfg.brAddrOf g) wb 0 (.err code), failureRecord ctx .transportFailure loc code] := by
  obtain ⟨hr, hp⟩ := played_transact g s wb 0 _ h
  refine ⟨_, ?_, hp.trans (played_report g _ ctx .transportFailure loc code hp.answers)⟩
  simp only [bridgeWrite, Op.run_read_bind]
  rw [Op.run_bind_ok hr]
  rfl

theorem bridgeRead_ok (p : Byte × Byte) {rest : List Answer}
    (h : (s.transport (.grp g)).answers = .ok p.1 p.2 :: rest) :
    ∃ t, (bridgeRead ctx g loc).run s = (.ok p.1, t) ∧ Played g s t s.buf (s.bridge g) rest
      [readEvent s.cfg g p] := by
  obtain ⟨hr, hp⟩ := played_transact g s [] 1 _ h
  refine ⟨_, ?_, hp⟩
  simp only [bridgeRead, Op.run_read_bind]
  rw [Op.run_bind_ok hr]
  rfl

theorem bridgeRead_err (code : Half) {rest : List Answer}
    (h : (s.transport (.grp g)).answers = .err code :: rest) :
    ∃ t, (bridgeRead ctx g loc).run s = (.error ⟨.transportFailure, loc, code⟩, t) ∧
      Played g s t s.buf (s.bridge g) rest
        [.transact (.grp g) (s.cfg.brAddrOf g) [] 1 (.err code), failureRecord ctx .transportFailure loc code] := by
  obtain ⟨hr, hp⟩ := played_transact g s [] 1 _ h
  refine ⟨_, ?_, hp.trans (played_report g _ ctx .transportFailure loc code hp.answers)⟩
  simp only [bridgeRead, Op.run_read_bind]
  rw [Op.run_bind_ok hr]
  rfl

end Transactions

/-! ### The busy poll -/

section Poll
variable (ctx : Option (Fin 16)) (g : Group) (cmd1 : Byte)

/-- One poll that reads busy set: BR_STATUS and BR_POLLS are written, the delay follows, and the poll goes on. -/
theorem pollLoop_busy (left i : Nat) (s : State) (p : Byte × Byte) {rest : List Answer}
    (h : (s.transport (.grp g)).answers = .ok p.1 p.2 :: rest) (hb : s.cfg.busy p.1 = true) :
    ∃ t, (pollLoop ctx g cmd1 (left + 1) i).run s = (pollLoop ctx g cmd1 left (i + 1)).run t ∧
      Played g s t s.buf ⟨p.1, i⟩ rest [readEvent s.cfg g p, .delay s.cfg.pollDelay] := by
  obtain ⟨t, hr, hp⟩ := bridgeRead_ok ctx g (locCode 0x10 2) s p h
  have h1 := hp.trans (played_setBridge g t ⟨p.1, i⟩ hp.answers)
  have h2 := h1.trans (played_delay g _ s.cfg.pollDelay h1.answers)
  refine ⟨_, ?_, by simpa [hp.buf] using h2⟩
  rw [pollLoop, Op.run_bind_ok hr, Op.run_modify_bind, Op.run_read_bind]
  simp only [State.setBridge_cfg, hp.cfg, hb, if_true]
  rw [Op.run_bind_ok (run_delay _ _)]

/-- The busy polls of a script: each writes BR_STATUS and BR_POLLS and is followed by a delay. -/
theorem pollLoop_busies (busy : List (Byte × Byte)) :
    ∀ (left i : Nat) (s : State) {rest : List Answer},
      (s.transport (.grp g)).answers = okAnswers busy ++ rest → (∀ b ∈ busy, s.cfg.busy b.1 = true) →
      (busy = [] → s.bridge g = ⟨(s.bridge g).status, i - 1⟩) →
      ∃ t, (pollLoop ctx g cmd1 (left + busy.length) i).run s = (pollLoop ctx g cmd1 left (i + busy.length)).run t ∧
        Played g s t s.buf ⟨(busy.map Prod.fst).getLast?.getD (s.bridge g).status, i + busy.length - 1⟩ rest
          (busyEvents s.cfg g busy) := by
  induction busy with
  | nil =>
    intro left i s rest h _ hs
    refine ⟨s, by simp, ?_⟩
    have := Played.refl g s (rest := rest) (by simpa [okAnswers] using h)
    rw [hs rfl] at this
    simpa [busyEvents] using this
  | cons b busy ih =>
    intro left i s rest h hb _
    obtain ⟨t, hr, hp⟩ := pollLoop_busy ctx g cmd1 (left + busy.length) i s b h (hb b (by simp))
    obtain ⟨u, hu, hq⟩ := ih left (i + 1) t hp.answers
      (fun c hc => by rw [hp.cfg]; exact hb c (by simp [hc])) (fun _ => by rw [hp.bridge]; rfl)
    refine ⟨u, ?_, ?_⟩
    · rw [List.length_cons, ← Nat.add_assoc, hr, hu]
      congr 2
      omega
    · have hpq := hp.trans hq
      have e1 : [readEvent s.cfg g b, .delay s.cfg.pollDelay] ++ busyEvents t.cfg g busy =
          busyEvents s.cfg g (b :: busy) := by simp [busyEvents, hp.cfg]
      have e2 : i + 1 + busy.length - 1 = i + (b :: busy).length - 1 := by rw [List.length_cons]; omega
      have e3 : ((busy.map Prod.fst).getLast?.getD (t.bridge g).status) =
          ((b :: busy).map Prod.fst).getLast?.getD (s.bridge g).status := by
        rw [hp.bridge]
        simp only [List.map_cons, List.getLast?_cons, Option.getD_some]
      rw [e1, e2, e3, hp.buf] at hpq
      exact hpq

/-- The poll that reads busy clear ends the loop: success, or NoPresencePulse for a 1-Wire reset without presence. -/
theorem pollLoop_last (left i : Nat) (s : State) (p : Byte × Byte) {rest : List Answer}
    (h : (s.transport (.grp g)).answers = .ok p.1 p.2 :: rest) (hb : s.cfg.busy p.1 = false) :
    ∃ t, (pollLoop ctx g cmd1 (left + 1) i).run s =
        (if cmd1 == s.cfg.cmd1wReset && !s.cfg.presence p.1 then
          (.error ⟨.noPresencePulse, locCode 0x10 3, zext16 p.1⟩, t) else (.ok (), t)) ∧
      Played g s t s.buf ⟨p.1, i⟩ rest
        (readEvent s.cfg g p :: if cmd1 == s.cfg.cmd1wReset && !s.cfg.presence p.1 then
          [failureRecord ctx .noPresencePulse (locCode 0x10 3) (zext16 p.1)] else []) := by
  obtain ⟨t, hr, hp⟩ := bridgeRead_ok ctx g (locCode 0x10 2) s p h
  have h1 := hp.trans (played_setBridge g t ⟨p.1, i⟩ hp.answers)
  by_cases hc : (cmd1 == s.cfg.cmd1wReset && !s.cfg.presence p.1) = true
  · have h2 := h1.trans
      (played_report g _ ctx .noPresencePulse (locCode 0x10 3) (zext16 p.1) h1.answers)
    refine ⟨_, ?_, by simpa [hp.buf, hc] using h2⟩
    rw [pollLoop, Op.run_bind_ok hr, Op.run_modify_bind, Op.run_read_bind]
    simp only [State.setBridge_cfg, hp.cfg, hb, hc, if_true, Bool.false_eq_true, if_false, run_raise]
    rfl
  · refine ⟨_, ?_, by simpa [hp.buf, hc] using h1⟩
    rw [pollLoop, Op.run_bind_ok hr, Op.run_modify_bind, Op.run_read_bind]
    simp only [State.setBridge_cfg, hp.cfg, hb, hc, Bool.false_eq_true, if_false, Op.run_pure]

end Poll

/-! ### `send_command` -/

section Send
variable (ctx : Option (Fin 16)) (g : Group) (cmd1 cmd2 : Byte) (s : State)

/-- A polled `send_command` up to its busy polls (spec/40_bridge.md R100). -/
theorem sendCommand_polled (himm : s.cfg.immediate cmd1 = false) (a : Byte × Byte) (busy : List (Byte × Byte))
    (left : Nat) (hleft : left + busy.length = Config.busyPollLimit) {rest : List Answer}
    (h : (s.transport (.grp g)).answers = okAnswers (a :: busy) ++ rest)
    (hb : ∀ b ∈ busy, s.cfg.busy b.1 = true) :
    ∃ t, (sendCommand ctx g cmd1 cmd2).run s = (pollLoop ctx g cmd1 left (1 + busy.length)).run t ∧
      Played g s t s.buf ⟨(busy.map Prod.fst).getLast?.getD (s.bridge g).status, busy.length⟩ rest
        (writeEvent s.cfg g (commandBytes cmd1 cmd2) a :: busyEvents s.cfg g busy) := by
  obtain ⟨t, hr, hp⟩ := bridgeWrite_ok ctx g (locCode 0x10 1) s (commandBytes cmd1 cmd2) a h
  have h1 := hp.trans (played_setBridge g t { t.bridge g with polls := 0 } hp.answers)
  obtain ⟨u, hu, hq⟩ := pollLoop_busies ctx g cmd1 busy left 1 _ h1.answers
    (fun b hm => by rw [h1.cfg]; exact hb b hm) (fun _ => by simp)
  refine ⟨u, ?_, ?_⟩
  · rw [sendCommand, Op.run_bind_ok hr, Op.run_read_bind]
    simp only [hp.cfg, himm, Bool.false_eq_true, if_false, Op.run_modify_bind, ← hleft]
    exact hu
  · have := h1.trans hq
    simpa [hp.buf, hp.bridge, hp.cfg] using this

/-- An immediate `send_command` (spec/30_encoding.md R92). -/
theorem sendCommand_immediate (himm : s.cfg.immediate cmd1 = true) (a : Byte × Byte) {rest : List Answer}
    (h : (s.transport (.grp g)).answers = .ok a.1 a.2 :: rest) :
    ∃ t, (sendCommand ctx g cmd1 cmd2).run s = (.ok (), t) ∧
      Played g s t s.buf (s.bridge g) rest [writeEvent s.cfg g (commandBytes cmd1 cmd2) a] := by
  obtain ⟨t, hr, hp⟩ := bridgeWrite_ok ctx g (locCode 0x10 1) s (commandBytes cmd1 cmd2) a h
  refine ⟨t, ?_, hp⟩
  rw [sendCommand, Op.run_bind_ok hr, Op.run_read_bind]
  simp only [hp.cfg, himm, if_true, Op.run_pure]

/-- A polled `send_command` on a script whose busy flag clears (spec/40_bridge.md R100). -/
theorem sendCommand_script (himm : s.cfg.immediate cmd1 = false) (p : PollScript) (hc : p.Clears s.cfg)
    {rest : List Answer} (h : (s.transport (.grp g)).answers = p.answers ++ rest) :
    ∃ t, (sendCommand ctx g cmd1 cmd2).run s =
        (if cmd1 == s.cfg.cmd1wReset && !s.cfg.presence p.last.1 then
          (.error ⟨.noPresencePulse, locCode 0x10 3, zext16 p.last.1⟩, t) else (.ok (), t)) ∧
      Played g s t s.buf ⟨p.last.1, p.polls⟩ rest
        (p.events s.cfg g (commandBytes cmd1 cmd2) ++
          if cmd1 == s.cfg.cmd1wReset && !s.cfg.presence p.last.1 then
            [failureRecord ctx .noPresencePulse (locCode 0x10 3) (zext16 p.last.1)] else []) := by
  obtain ⟨hb, hlen, hl⟩ := hc
  obtain ⟨left, hleft⟩ : ∃ left, left + 1 + p.busy.length = Config.busyPollLimit :=
    ⟨Config.busyPollLimit - p.busy.length - 1, by omega⟩
  obtain ⟨t, hr, hp⟩ := sendCommand_polled ctx g cmd1 cmd2 s himm p.written p.busy (left + 1) hleft
    (rest := okAnswers [p.last] ++ rest)
    (by rw [h]; simp [PollScript.answers, okAnswers]) hb
  obtain ⟨u, hu, hq⟩ := pollLoop_last ctx g cmd1 left (1 + p.busy.length) t p.last hp.answers
    (by rw [hp.cfg]; exact hl)
  refine ⟨u, ?_, ?_⟩
  · rw [hr, hu, hp.cfg]
  · have := hp.trans hq
    rw [hp.buf, hp.cfg, Nat.add_comm 1 p.busy.length] at this
    simpa [PollScript.polls, PollScript.events] using this

end Send

/-! ### The primitives under a legal configuration -/

/-- What a legal configuration says of the bridge commands: the three immediate ones are immediate, the others are
not, only one is the 1-Wire reset, and the read pointer and configuration bytes are not dropped
(spec/93_implementation_defined.md X15). -/
theorem legal_commands {c : Config} (h : c.legal = true) :
    (c.immediate c.cmd1wReset = false ∧ c.immediate c.cmd1wWriteByte = false ∧ c.immediate c.cmd1wReadByte = false ∧
      c.immediate c.cmdDeviceReset = false) ∧
    (c.cmd1wWriteByte ≠ c.cmd1wReset ∧ c.cmd1wReadByte ≠ c.cmd1wReset ∧ c.cmdDeviceReset ≠ c.cmd1wReset) ∧
    c.ptrData ≠ 0 ∧ c.brConfig ≠ 0 ∧ (∀ r : Fin 4, c.resCfg[r] ≠ 0) ∧ ∀ k : Fin 8, c.chWrite[k] ≠ 0 := by
  simp only [Config.legal, Bool.and_eq_true, decide_eq_true_eq, Bool.not_eq_true', Config.bridgeCommands,
    List.nodup_cons, List.mem_cons, List.not_mem_nil, not_or] at h
  obtain ⟨⟨⟨⟨⟨⟨hd, -⟩, -⟩, -⟩, -⟩, -⟩, hz⟩ := h
  simp only [Config.nonzeroBytes, List.contains_eq_mem, decide_eq_false_iff_not, List.mem_append, List.mem_cons,
    List.not_mem_nil, or_false, not_or, Vector.mem_toList_iff] at hz
  obtain ⟨⟨⟨hcfg, hptr⟩, hw⟩, hr⟩ := hz
  obtain ⟨h1, h2, h3, h4, h5, h6, -⟩ := hd
  refine ⟨?_, ⟨Ne.symm h5.1, Ne.symm h5.2.1, h1.2.2.2.1⟩, Ne.symm hptr, Ne.symm hcfg, ?_, ?_⟩
  · simp only [Config.immediate, Bool.or_eq_false_iff, beq_eq_false_iff_ne]
    refine ⟨⟨⟨?_, ?_⟩, ?_⟩, ⟨⟨?_, ?_⟩, ?_⟩, ⟨⟨?_, ?_⟩, ?_⟩, ⟨?_, ?_⟩, ?_⟩
    · exact Ne.symm h2.2.2.1
    · exact Ne.symm h3.2.1
    · exact Ne.symm h4.1
    · exact Ne.symm h2.2.2.2.1
    · exact Ne.symm h3.2.2.1
    · exact Ne.symm h4.2.1
    · exact Ne.symm h2.2.2.2.2.1
    · exact Ne.symm h3.2.2.2.1
    · exact Ne.symm h4.2.2.1
    · exact h1.1
    · exact h1.2.1
    · exact h1.2.2.1
  · intro r hr0
    exact hr (hr0 ▸ Vector.getElem_mem r.isLt)
  · intro k hk0
    exact hw (hk0 ▸ Vector.getElem_mem k.isLt)

section Primitives
variable (ctx : Option (Fin 16)) (g : Group) (s : State)

theorem oneWireReset_script (hleg : s.cfg.legal = true) (p : PollScript) (hp : p.Present s.cfg) {rest : List Answer}
    (h : (s.transport (.grp g)).answers = p.answers ++ rest) :
    ∃ t, (oneWireReset ctx g).run s = (.ok (), t) ∧
      Played g s t s.buf ⟨p.last.1, p.polls⟩ rest (p.events s.cfg g [s.cfg.cmd1wReset]) := by
  obtain ⟨t, hr, ht⟩ := sendCommand_script ctx g s.cfg.cmd1wReset 0 s (legal_commands hleg).1.1 p hp.1 h
  simp only [hp.2, Bool.not_true, Bool.and_false, Bool.false_eq_true, if_false] at hr ht
  exact ⟨t, by rw [oneWireReset, Op.run_read_bind, hr], by simpa [commandBytes] using ht⟩

theorem writeByte_script (hleg : s.cfg.legal = true) (b : Byte) (p : PollScript) (hp : p.Clears s.cfg)
    {rest : List Answer} (h : (s.transport (.grp g)).answers = p.answers ++ rest) :
    ∃ t, (writeByte ctx g b).run s = (.ok (), t) ∧
      Played g s t s.buf ⟨p.last.1, p.polls⟩ rest
        (p.events s.cfg g (commandBytes s.cfg.cmd1wWriteByte b)) := by
  obtain ⟨t, hr, ht⟩ := sendCommand_script ctx g s.cfg.cmd1wWriteByte b s (legal_commands hleg).1.2.1 p hp h
  simp only [beq_eq_false_iff_ne.mpr (legal_commands hleg).2.1.1, Bool.false_and, Bool.false_eq_true, if_false]
    at hr ht
  exact ⟨t, by rw [writeByte, Op.run_read_bind, hr], by simpa using ht⟩

theorem readByte_script (hleg : s.cfg.legal = true) (r : ReadScript) (hp : r.poll.Clears s.cfg) {rest : List Answer}
    (h : (s.transport (.grp g)).answers = r.answers ++ rest) :
    ∃ t, (readByte ctx g).run s = (.ok r.byte, t) ∧
      Played g s t s.buf ⟨r.poll.last.1, r.poll.polls⟩ rest (r.events s.cfg g) := by
  obtain ⟨t, hr, ht⟩ := sendCommand_script ctx g s.cfg.cmd1wReadByte 0 s (legal_commands hleg).1.2.2.1 r.poll hp
    (rest := okAnswers [r.pointer, r.data] ++ rest) (by rw [h]; simp [ReadScript.answers])
  simp only [beq_eq_false_iff_ne.mpr (legal_commands hleg).2.1.2.1, Bool.false_and, Bool.false_eq_true, if_false]
    at hr ht
  obtain ⟨u, hu, hq⟩ := sendCommand_immediate ctx g s.cfg.cmdSetReadPtr s.cfg.ptrData t
    (by simp [Config.immediate, ht.cfg]) r.pointer (rest := okAnswers [r.data] ++ rest) ht.answers
  obtain ⟨v, hv, hw⟩ := bridgeRead_ok ctx g (locCode 0x15 3) u r.data hq.answers
  refine ⟨v, ?_, ?_⟩
  · rw [readByte, Op.run_read_bind, Op.run_bind_ok hr, Op.run_bind_ok hu, hv]
    rfl
  · have := (ht.trans hq).trans hw
    have hz : commandBytes s.cfg.cmdSetReadPtr s.cfg.ptrData = [s.cfg.cmdSetReadPtr, s.cfg.ptrData] :=
      if_neg (legal_commands hleg).2.2.1
    rw [hz] at this
    simpa [ht.buf, hq.buf, hq.bridge, ht.bridge, ht.cfg, hq.cfg, commandBytes, ReadScript.events] using this

/-- Some bytes of BUF written in turn. -/
def writeBuf (buf : Vector Byte 9) : List (Fin 9 × Byte) → Vector Byte 9
  | [] => buf
  | (k, v) :: l => writeBuf (buf.set k v) l

/-- Several `read_byte` into BUF on their scripts: each byte is stored as it is read. -/
theorem readIntoBuf_script (ks : List (Fin 9)) :
    ∀ (rs : List ReadScript) (s : State) (b : Bridge) {rest : List Answer}, s.cfg.legal = true →
      rs.length = ks.length → (∀ r ∈ rs, r.poll.Clears s.cfg) → s.bridge g = b →
      (s.transport (.grp g)).answers = readAnswers rs ++ rest →
      ∃ t, (readIntoBuf ctx g ks).run s = (.ok (), t) ∧
        Played g s t (writeBuf s.buf (ks.zip (rs.map ReadScript.byte)))
          (((rs.map ReadScript.poll).getLast?.map fun p => ⟨p.last.1, p.polls⟩).getD b) rest
          (readEvents s.cfg g rs) := by
  induction ks with
  | nil =>
    intro rs s b rest _ hl _ hb h
    obtain rfl : rs = [] := List.length_eq_zero_iff.mp hl
    subst hb
    exact ⟨s, rfl, Played.refl g s h⟩
  | cons k ks ih =>
    intro rs s b rest hleg hl hc hb h
    obtain ⟨r, rs, rfl⟩ : ∃ r rs', rs = r :: rs' := by
      cases rs with
      | nil => simp at hl
      | cons r rs => exact ⟨r, rs, rfl⟩
    obtain ⟨t, hr, hp⟩ := readByte_script ctx g s hleg r (hc r (by simp)) (rest := readAnswers rs ++ rest)
      (by rw [h]; simp [readAnswers])
    have h1 := hp.trans (played_setBuf g t k r.byte hp.answers)
    obtain ⟨u, hu, hq⟩ := ih rs (t.setBuf k r.byte) _ (by rw [h1.cfg]; exact hleg) (by simpa using hl)
      (fun x hx => by rw [h1.cfg]; exact hc x (by simp [hx])) h1.bridge h1.answers
    refine ⟨u, ?_, ?_⟩
    · rw [readIntoBuf, Op.run_bind_ok hr, Op.run_modify_bind, hu]
    · have := h1.trans hq
      rw [h1.cfg, hp.bridge] at this
      have e3 : (((rs.map ReadScript.poll).getLast?.map fun p => (⟨p.last.1, p.polls⟩ : Bridge)).getD
          ⟨r.poll.last.1, r.poll.polls⟩) =
          ((((r :: rs).map ReadScript.poll).getLast?.map fun p => (⟨p.last.1, p.polls⟩ : Bridge)).getD b) := by
        simp only [List.map_cons, List.getLast?_cons, Option.map_some, Option.getD_some]
        cases (rs.map ReadScript.poll).getLast? <;> rfl
      rw [e3] at this
      simpa [hp.buf, writeBuf, readEvents] using this

/-- The copy poll on its scripts: it ends at the first nonzero byte (spec/41_bridge_sequences.md R122). -/
theorem copyPoll_script (zeros : List ReadScript) :
    ∀ (left : Nat) (last : ReadScript) (s : State) {rest : List Answer}, s.cfg.legal = true →
      (∀ z ∈ zeros, z.poll.Clears s.cfg ∧ z.byte = 0) → last.poll.Clears s.cfg → last.byte ≠ 0 →
      (s.transport (.grp g)).answers = readAnswers (zeros ++ [last]) ++ rest →
      ∃ t, (copyPoll ctx g (left + 1 + zeros.length)).run s = (.ok (), t) ∧
        Played g s t s.buf ⟨last.poll.last.1, last.poll.polls⟩ rest
          (readEvents s.cfg g (zeros ++ [last])) := by
  induction zeros with
  | nil =>
    intro left last s rest hleg _ hl hb h
    obtain ⟨t, hr, hp⟩ := readByte_script ctx g s hleg last hl (rest := rest) (by rw [h]; simp [readAnswers])
    refine ⟨t, ?_, ?_⟩
    · rw [List.length_nil, Nat.add_zero, copyPoll, Op.run_bind_ok hr, if_neg hb, Op.run_pure]
    · simpa [readEvents] using hp
  | cons z zeros ih =>
    intro left last s rest hleg hz hl hb h
    obtain ⟨hzc, hz0⟩ := hz z (by simp)
    obtain ⟨t, hr, hp⟩ := readByte_script ctx g s hleg z hzc (rest := readAnswers (zeros ++ [last]) ++ rest)
      (by rw [h]; simp [readAnswers])
    obtain ⟨u, hu, hq⟩ := ih left last t (by rw [hp.cfg]; exact hleg)
      (fun x hx => by rw [hp.cfg]; exact hz x (by simp [hx])) (by rw [hp.cfg]; exact hl) hb hp.answers
    refine ⟨u, ?_, ?_⟩
    · rw [List.length_cons, ← Nat.add_assoc, copyPoll, Op.run_bind_ok hr, if_pos hz0, hu]
    · have := hp.trans hq
      rw [hp.cfg, hp.buf] at this
      simpa [readEvents] using this

/-- The copy poll that reads 0x00 on every iteration it may make fails (spec/41_bridge_sequences.md R121 step 13). -/
theorem copyPoll_exhausted (zeros : List ReadScript) :
    ∀ (s : State) (b : Bridge) {rest : List Answer}, s.cfg.legal = true → s.bridge g = b →
      (∀ z ∈ zeros, z.poll.Clears s.cfg ∧ z.byte = 0) →
      (s.transport (.grp g)).answers = readAnswers zeros ++ rest →
      ∃ t, (copyPoll ctx g zeros.length).run s = (.error ⟨.copyNotConfirmed, locCode 0x19 13, 0⟩, t) ∧
        Played g s t s.buf (((zeros.map ReadScript.poll).getLast?.map fun p => ⟨p.last.1, p.polls⟩).getD b) rest
          (readEvents s.cfg g zeros ++ [failureRecord ctx .copyNotConfirmed 0x190D 0]) := by
  induction zeros with
  | nil =>
    intro s b rest _ hb _ h
    subst hb
    exact ⟨_, rfl, played_report g s ctx .copyNotConfirmed (locCode 0x19 13) 0 (by simpa [readAnswers] using h)⟩
  | cons z zeros ih =>
    intro s b rest hleg hb hz h
    obtain ⟨hzc, hz0⟩ := hz z (by simp)
    obtain ⟨t, hr, hp⟩ := readByte_script ctx g s hleg z hzc (rest := readAnswers zeros ++ rest)
      (by rw [h]; simp [readAnswers])
    obtain ⟨u, hu, hq⟩ := ih t _ (by rw [hp.cfg]; exact hleg) hp.bridge
      (fun x hx => by rw [hp.cfg]; exact hz x (by simp [hx])) hp.answers
    refine ⟨u, ?_, ?_⟩
    · rw [List.length_cons, copyPoll, Op.run_bind_ok hr, if_pos hz0, hu]
    · have := hp.trans hq
      rw [hp.cfg, hp.buf] at this
      have e3 : (((zeros.map ReadScript.poll).getLast?.map fun p => (⟨p.last.1, p.polls⟩ : Bridge)).getD
          ⟨z.poll.last.1, z.poll.polls⟩) =
          ((((z :: zeros).map ReadScript.poll).getLast?.map fun p => (⟨p.last.1, p.polls⟩ : Bridge)).getD b) := by
        simp only [List.map_cons, List.getLast?_cons, Option.map_some, Option.getD_some]
        cases (zeros.map ReadScript.poll).getLast? <;> rfl
      rw [e3] at this
      simpa [readEvents] using this

end Primitives

/-! ### The end of a bridge command -/

section Command
variable {g : Group} {s t : State} {bf : Vector Byte 9} {b : Bridge} {rest : List Answer} {l : List Event}
  {x : Op Unit}

/-- A bridge command whose operation succeeded (spec/60_exceptions.md R203). -/
theorem Played.runCommand_ok (h : Played g s t bf b rest l) (hr : x.run s = (.ok (), t)) :
    BridgeEnds g s (runCommand x s) (okResult s.res.value) bf b rest ∧ Trace s (runCommand x s) l := by
  refine ⟨?_, h.2.congr rfl (by simp [runCommand, hr, endCommand])⟩
  have h1 := h.1
  unfold runCommand BridgeEnds
  rw [hr]
  generalize t.env.events = ev at h1
  subst h1
  rfl

/-- A bridge command whose operation failed (spec/60_exceptions.md R203). -/
theorem Played.runCommand_error {f : Failure} (h : Played g s t bf b rest l)
    (hr : x.run s = (.error f, t)) :
    BridgeEnds g s (runCommand x s) (errResult f.kind f.loc f.extra s.res.value) bf b rest ∧
      Trace s (runCommand x s) l := by
  refine ⟨?_, h.2.congr rfl (by simp [runCommand, hr, endCommand])⟩
  have h1 := h.1
  unfold runCommand BridgeEnds
  rw [hr]
  generalize t.env.events = ev at h1
  subst h1
  rfl

end Command

end Sys2Proof.Machine
end

