-- ==== Sys2Proof/Laws/AdcScripts.lean ====
section
/-! SUPPORT. Sample attempts and rounds of a sampling pass on a listed script of answers, and on a transport that
answers errors. -/

namespace Sys2Proof.Machine

/-- `t` is `s` after some attempts: the sampler's registers as given, T[ADC]'s listed answers down to `rest`, the events
of `Trace` added, and nothing else changed. -/
def Sampled (s t : State) (a : Adc) (rest : List Answer) (l : List Event) : Prop :=
  t = { s with
    adc := a
    env := { s.env with
      transports := { s.env.transports with tadc := { s.env.transports.tadc with answers := rest } }
      events := t.env.events } } ∧
  Trace s t l

section
variable {s t : State} {a : Adc} {rest : List Answer} {l : List Event}

theorem Sampled.cfg (h : Sampled s t a rest l) : t.cfg = s.cfg := by rw [h.1]
theorem Sampled.adc (h : Sampled s t a rest l) : t.adc = a := by rw [h.1]
theorem Sampled.res (h : Sampled s t a rest l) : t.res = s.res := by rw [h.1]
theorem Sampled.cpState (h : Sampled s t a rest l) : t.cpState = s.cpState := by rw [h.1]
theorem Sampled.answers (h : Sampled s t a rest l) : (t.transport .adc).answers = rest := by
  rw [h.1]
  rfl

theorem Sampled.trans {u : State} {a' : Adc} {rest' : List Answer} {l' : List Event} (h : Sampled s t a rest l)
    (h' : Sampled t u a' rest' l') : Sampled s u a' rest' (l ++ l') := by
  refine ⟨?_, h.2.append h'.2⟩
  have h1 := h.1
  have h2 := h'.1
  generalize t.env.events = ev at h1
  generalize u.env.events = ev' at h2
  subst h1 h2
  rfl

theorem Sampled.refl (s : State) : Sampled s s s.adc (s.transport .adc).answers [] := ⟨rfl, Trace.refl s⟩

end

/-- The accumulators of channel c after an attempt (spec/45_adc.md R185). -/
def AdcAttempt.acc : AdcAttempt → AdcAcc → AdcAcc
  | .selectFails _, a => a
  | .readFails _ _, a => a
  | .sample _ d, a => a.add (adcCode d.1 d.2)

theorem AdcAttempt.acc_of_none {x : AdcAttempt} (h : x.code = none) (a : AdcAcc) : x.acc a = a := by
  cases x <;> first | rfl | simp [AdcAttempt.code] at h

/-- A counted code goes into the accumulators of its channel (spec/45_adc.md R185). -/
theorem AdcAttempt.acc_of_some {x : AdcAttempt} {code : Nat} (h : x.code = some code) (a : AdcAcc) :
    (x.acc a).low.toNat = min a.low.toNat code ∧ (x.acc a).high.toNat = max a.high.toNat code ∧
      (x.acc a).sum = a.sum + BitVec.ofNat 32 code ∧ (x.acc a).count = a.count + 1 := by
  cases x with
  | selectFails _ => simp [AdcAttempt.code] at h
  | readFails _ _ => simp [AdcAttempt.code] at h
  | sample b d =>
    obtain rfl : d.1.toNat * 16 + d.2.toNat / 16 = code := Option.some.inj h
    have e := adcCode_toNat d.1 d.2
    refine ⟨?_, ?_, ?_, rfl⟩
    · simp only [AdcAttempt.acc, AdcAcc.add]
      split <;> omega
    · simp only [AdcAttempt.acc, AdcAcc.add]
      split <;> omega
    · simp only [AdcAttempt.acc, AdcAcc.add, ← e, BitVec.ofNat_toNat]

theorem sampled_select (c : Fin 8) (s : State) {a : Answer} {rest : List Answer}
    (h : (s.transport .adc).answers = a :: rest) :
    Sampled s (adcSelected c s) s.adc rest [.transact .adc s.cfg.adcAddr [s.cfg.adcSel[c]] 0 a] := by
  rw [adcSelected, Transport.draw_listed _ _ _ _ h]
  exact ⟨rfl, [_], rfl, rfl⟩

theorem sampled_readBack (s : State) {a : Answer} {rest : List Answer} (h : (s.transport .adc).answers = a :: rest) :
    Sampled s (adcReadBack s) s.adc rest [.transact .adc s.cfg.adcAddr [] 2 a] := by
  rw [adcReadBack, Transport.draw_listed _ _ _ _ h]
  exact ⟨rfl, [_], rfl, rfl⟩

theorem sampled_report (s : State) (k : ErrorKind) (loc extra : Half) {rest : List Answer}
    (h : (s.transport .adc).answers = rest) :
    Sampled s (s.report none k loc extra) s.adc rest [failureRecord none k loc extra] := by
  subst h
  exact ⟨rfl, [_], rfl, rfl⟩

theorem sampled_setAcc (c : Fin 8) (s : State) (x : AdcAcc) {rest : List Answer}
    (h : (s.transport .adc).answers = rest) :
    Sampled s (s.setAdcAcc c x) { s.adc with acc := s.adc.acc.set c x } rest [] := by
  subst h
  exact ⟨rfl, [], rfl, rfl⟩

/-- A sample attempt on its script (spec/45_adc.md R185). -/
theorem adcSample_script (c : Fin 8) (x : AdcAttempt) (s : State) {rest : List Answer}
    (h : (s.transport .adc).answers = x.answers ++ rest) :
    Sampled s ((adcSample c).run s).2 { s.adc with acc := s.adc.acc.set c (x.acc (s.adcAcc c)) } rest
      (x.events s.cfg c) := by
  have hset : { s.adc with acc := s.adc.acc.set c (s.adcAcc c) } = s.adc := by simp [State.adcAcc]
  cases x with
  | selectFails code =>
    have h1 := sampled_select c s h
    have h2 := h1.trans (sampled_report _ .transportFailure 0x4001 code h1.answers)
    rw [h1.adc] at h2
    rw [AdcAttempt.acc, hset]
    rcases adcSample_cases c s with ⟨k, hk, e⟩ | ⟨b0, b1, k, hk, -⟩ | ⟨b0, b1, c0, c1, hk, -⟩ <;>
      rw [Transport.draw_listed _ _ _ _ h] at hk <;> cases hk
    rw [e]
    exact h2
  | readFails b code =>
    have h1 := sampled_select c s h
    have h2 := h1.trans (sampled_readBack _ h1.answers)
    have h3 := h2.trans (sampled_report _ .transportFailure 0x4002 code h2.answers)
    rw [h2.adc, h1.adc, h1.cfg] at h3
    rw [AdcAttempt.acc, hset]
    rcases adcSample_cases c s with ⟨k, hk, -⟩ | ⟨b0, b1, k, -, hk, e⟩ | ⟨b0, b1, c0, c1, -, hk, -⟩
    · rw [Transport.draw_listed _ _ _ _ h] at hk
      cases hk
    · rw [Transport.draw_listed _ _ _ _ h1.answers] at hk
      cases hk
      rw [e]
      exact h3
    · rw [Transport.draw_listed _ _ _ _ h1.answers] at hk
      cases hk
  | sample b d =>
    have h1 := sampled_select c s h
    have h2 := h1.trans (sampled_readBack _ h1.answers)
    have h3 := h2.trans (sampled_setAcc c _ ((s.adcAcc c).add (adcCode d.1 d.2)) h2.answers)
    rw [h2.adc, h1.adc, h1.cfg] at h3
    rcases adcSample_cases c s with ⟨k, hk, -⟩ | ⟨b0, b1, k, -, hk, -⟩ | ⟨b0, b1, c0, c1, -, hk, e⟩
    · rw [Transport.draw_listed _ _ _ _ h] at hk
      cases hk
    · rw [Transport.draw_listed _ _ _ _ h1.answers] at hk
      cases hk
    · rw [Transport.draw_listed _ _ _ _ h1.answers] at hk
      obtain ⟨rfl, rfl⟩ := Answer.ok.inj hk
      rw [e]
      exact h3

/-- One round of the sampling loop on the script of an attempt: the count not reached, the pass stays at its channel;
the count reached, the channel is closed (spec/45_adc.md R185). -/
theorem adcRound_script (c : Fin 8) (x : AdcAttempt) (s : State) {rest : List Answer}
    (hc : (s.adcAcc c).count < s.cfg.adcSamples) (h : (s.transport .adc).answers = x.answers ++ rest) :
    ∃ t, Sampled s t { s.adc with acc := s.adc.acc.set c (x.acc (s.adcAcc c)) } rest (x.events s.cfg c) ∧
      adcRound c s = if (x.acc (s.adcAcc c)).count < s.cfg.adcSamples then t else adcClose c t := by
  have ht := adcSample_script c x s h
  refine ⟨_, ht, ?_⟩
  have e : ((adcSample c).run s).2.adcAcc c = x.acc (s.adcAcc c) := by
    rw [State.adcAcc, ht.adc]
    simp
  simp only [adcRound, if_pos hc, e]

/-- One round whose next answer, listed or free, is an error counts nothing (spec/45_adc.md R185, R189). -/
theorem adcRound_fails (c : Fin 8) (s : State) (hc : (s.adcAcc c).count < s.cfg.adcSamples) {code : Half}
    (h : (Transport.draw .adc (s.transport .adc)).1 = .err code) :
    adcRound c s = (adcSelected c s).report none .transportFailure (locCode 0x40 1) code := by
  have e : ((adcSample c).run s).2 = (adcSelected c s).report none .transportFailure (locCode 0x40 1) code := by
    rcases adcSample_cases c s with ⟨k, hk, e⟩ | ⟨b0, b1, k, hk, -⟩ | ⟨b0, b1, c0, c1, hk, -⟩ <;> rw [h] at hk
    · cases hk
      rw [e]
    · cases hk
    · cases hk
  simp only [adcRound, if_pos hc, e]
  exact if_pos hc

end Sys2Proof.Machine
end

