-- ==== Sys2Proof/Laws/Crc.lean ====
section
/-! SUPPORT. The CRC-8 register: it runs along a byte sequence, and it is linear. -/

namespace Sys2Proof.Machine

/-- The CRC of a longer sequence goes on from the CRC of its beginning (spec/42_crc8.md R136). -/
theorem crc8_append (l m : List Byte) : crc8 (l ++ m) = m.foldl crcByte (crc8 l) := List.foldl_append ..

theorem crc8_append_one (l : List Byte) (b : Byte) : crc8 (l ++ [b]) = crcByte (crc8 l) b := crc8_append l [b]

/-- One bit is linear in the register and the bit (spec/42_crc8.md R136). -/
theorem crcBit_xor (a b : Byte) (x y : Bool) : crcBit (a ^^^ b) (x ^^ y) = crcBit a x ^^^ crcBit b y := by
  unfold crcBit
  rw [BitVec.getLsbD_xor, BitVec.ushiftRight_xor_distrib]
  cases ha : a.getLsbD 0 <;> cases hb : b.getLsbD 0 <;> cases x <;> cases y <;>
    (simp [BitVec.xor_assoc] <;> ac_rfl)

/-- One byte is linear in the register and the byte. -/
theorem crcByte_xor (a b x y : Byte) : crcByte (a ^^^ b) (x ^^^ y) = crcByte a x ^^^ crcByte b y := by
  simp only [crcByte, List.foldl_cons, List.foldl_nil, BitVec.getLsbD_xor, crcBit_xor]

/-- The register run over 0x00 is 0 only from 0: no difference between two registers is lost. -/
theorem crcByte_zero_iff (r : Byte) : crcByte r 0 = 0 ↔ r = 0 := by
  revert r
  decide +kernel

end Sys2Proof.Machine
end

