-- ==== Sys2Proof/Laws/Sequences.lean ====
section
/-! SUPPORT. The bridge sequences on a listed script of answers. -/

namespace Sys2Proof.Machine

/-! ### Pieces -/

/-- The events of one `write_byte` (spec/40_bridge.md R102). -/
abbrev byteEvents (c : Config) (g : Group) (b : Byte) (p : PollScript) : List Event :=
  p.events c g (commandBytes c.cmd1wWriteByte b)

/-- The events of one `one_wire_reset` (spec/40_bridge.md R101). -/
abbrev resetEvents (c : Config) (g : Group) (p : PollScript) : List Event := p.events c g [c.cmd1wReset]

section
variable (ctx : Option (Fin 16)) (g : Group) (s : State)

/-- `select_channel` on its script (spec/40_bridge.md R104). -/
theorem selectChannel_script (w v : Byte) (a rb : Byte × Byte) {rest : List Answer}
    (h : (s.transport (.grp g)).answers = okAnswers [a, rb] ++ rest) :
    ∃ t, (selectChannel ctx g w v).run s =
        (if rb.1 = v then (.ok (), t) else (.error ⟨.channelVerifyFailed, 0x1203, zext16 rb.1⟩, t)) ∧
      Played g s t s.buf (s.bridge g) rest
        ([writeEvent s.cfg g (commandBytes s.cfg.cmdChannelSelect w) a, readEvent s.cfg g rb] ++
          if rb.1 = v then [] else [failureRecord ctx .channelVerifyFailed 0x1203 (zext16 rb.1)]) := by
  obtain ⟨t, hr, hp⟩ := sendCommand_immediate ctx g s.cfg.cmdChannelSelect w s (by simp [Config.immediate]) a
    (rest := okAnswers [rb] ++ rest) h
  obtain ⟨u, hu, hq⟩ := bridgeRead_ok ctx g (locCode 0x12 2) t rb hp.answers
  have hpq := hp.trans hq
  rw [hp.buf, hp.bridge, hp.cfg] at hpq
  by_cases e : rb.1 = v
  · refine ⟨u, ?_, by simpa [e] using hpq⟩
    rw [selectChannel, Op.run_read_bind, Op.run_bind_ok hr, Op.run_bind_ok hu, if_pos e, if_pos e, Op.run_pure]
  · have hpr := hpq.trans (played_report g u ctx .channelVerifyFailed 0x1203 (zext16 rb.1) hpq.answers)
    rw [hpq.buf, hpq.bridge] at hpr
    refine ⟨u.report ctx .channelVerifyFailed 0x1203 (zext16 rb.1), ?_, by simpa [e] using hpr⟩
    rw [selectChannel, Op.run_read_bind, Op.run_bind_ok hr, Op.run_bind_ok hu, if_neg e, if_neg e]
    rfl

/-- `reset_and_configure` with force on its script (spec/40_bridge.md R105). -/
theorem resetAndConfigure_script (hleg : s.cfg.legal = true) (p : PollScript) (a rb : Byte × Byte)
    {rest : List Answer} (hc : p.Clears s.cfg)
    (h : (s.transport (.grp g)).answers = p.answers ++ okAnswers [a, rb] ++ rest) :
    ∃ t, (resetAndConfigure ctx g true).run s =
        (if s.cfg.sameNibble rb.1 = true then (.ok (), t)
          else (.error ⟨.configVerifyFailed, 0x1104, zext16 rb.1⟩, t)) ∧
      Played g s t s.buf ⟨p.last.1, p.polls⟩ rest
        (p.events s.cfg g [s.cfg.cmdDeviceReset] ++
          [writeEvent s.cfg g [s.cfg.cmdWriteConfig, s.cfg.brConfig] a, readEvent s.cfg g rb] ++
          if s.cfg.sameNibble rb.1 = true then []
          else [failureRecord ctx .configVerifyFailed 0x1104 (zext16 rb.1)]) := by
  obtain ⟨t, hr, hp⟩ := sendCommand_script ctx g s.cfg.cmdDeviceReset 0 s (legal_commands hleg).1.2.2.2 p hc
    (rest := okAnswers [a, rb] ++ rest) (by rw [h]; simp)
  simp only [beq_eq_false_iff_ne.mpr (legal_commands hleg).2.1.2.2, Bool.false_and, Bool.false_eq_true, if_false]
    at hr hp
  obtain ⟨u, hu, hq⟩ := sendCommand_immediate ctx g s.cfg.cmdWriteConfig s.cfg.brConfig t
    (by simp [Config.immediate, hp.cfg]) a (rest := okAnswers [rb] ++ rest) hp.answers
  obtain ⟨v, hv, hw⟩ := bridgeRead_ok ctx g (locCode 0x11 3) u rb hq.answers
  have hpw := (hp.trans hq).trans hw
  have hz : commandBytes s.cfg.cmdWriteConfig s.cfg.brConfig = [s.cfg.cmdWriteConfig, s.cfg.brConfig] :=
    if_neg (legal_commands hleg).2.2.2.1
  have h0 : commandBytes s.cfg.cmdDeviceReset 0 = [s.cfg.cmdDeviceReset] := if_pos rfl
  rw [hq.buf, hp.buf, hq.bridge, hp.bridge, hq.cfg, hp.cfg, hz, h0] at hpw
  by_cases e : s.cfg.sameNibble rb.1 = true
  · refine ⟨v, ?_, by simpa [e] using hpw⟩
    rw [resetAndConfigure, if_pos rfl, Op.run_read_bind, Op.run_bind_ok hr, Op.run_bind_ok hu, Op.run_bind_ok hv,
      if_pos e, if_pos e, Op.run_pure]
  · have hpr := hpw.trans (played_report g v ctx .configVerifyFailed 0x1104 (zext16 rb.1) hpw.answers)
    rw [hpw.buf, hpw.bridge] at hpr
    refine ⟨v.report ctx .configVerifyFailed 0x1104 (zext16 rb.1), ?_, by simpa [e] using hpr⟩
    rw [resetAndConfigure, if_pos rfl, Op.run_read_bind, Op.run_bind_ok hr, Op.run_bind_ok hu, Op.run_bind_ok hv,
      if_neg e, if_neg e]
    rfl

/-- A closing CRC test on the buffer (spec/41_bridge_sequences.md R120 step 4, R124 step 6). -/
theorem run_checkBufCrc (n : Nat) (loc : Half) :
    (checkBufCrc ctx n loc).run s =
      if crc8 (s.buf.toList.take n) = s.buf[Fin.ofNat 9 n] then (.ok (), s)
      else (.error ⟨.checksumMismatch, loc, crc8 (s.buf.toList.take n) ++ s.buf[Fin.ofNat 9 n]⟩,
        s.report ctx .checksumMismatch loc (crc8 (s.buf.toList.take n) ++ s.buf[Fin.ofNat 9 n])) := by
  by_cases e : crc8 (s.buf.toList.take n) = s.buf[Fin.ofNat 9 n]
  · rw [if_pos e, checkBufCrc, Op.run_read_bind, Op.run_read_bind]
    exact congrArg (fun x : Op Unit => x.run s) (if_pos e)
  · rw [if_neg e, checkBufCrc, Op.run_read_bind, Op.run_read_bind]
    exact congrArg (fun x : Op Unit => x.run s) (if_neg e)

/-- The closing CRC test, its two bytes named. -/
theorem checkBufCrc_cases (n : Nat) (loc : Half) {rest : List Answer}
    (h : (s.transport (.grp g)).answers = rest) (c v : Byte) (hc : c = crc8 (s.buf.toList.take n))
    (hv : v = s.buf[Fin.ofNat 9 n]) :
    ∃ t, (checkBufCrc ctx n loc).run s = (if c = v then (.ok (), t) else (.error ⟨.checksumMismatch, loc, c ++ v⟩, t)) ∧
      Played g s t s.buf (s.bridge g) rest
        (if c = v then [] else [failureRecord ctx .checksumMismatch loc (c ++ v)]) := by
  subst hc hv
  rw [run_checkBufCrc]
  by_cases e : crc8 (s.buf.toList.take n) = s.buf[Fin.ofNat 9 n]
  · exact ⟨s, by rw [if_pos e, if_pos e], by simpa [e] using Played.refl g s h⟩
  · have hp := played_report g s ctx .checksumMismatch loc (crc8 (s.buf.toList.take n) ++ s.buf[Fin.ofNat 9 n]) h
    exact ⟨_, by rw [if_neg e, if_neg e], by rwa [if_neg e]⟩

/-- `read_rom` on its script (spec/41_bridge_sequences.md R120). -/
theorem readRom_script (hleg : s.cfg.legal = true) (p q : PollScript) (hp : p.Present s.cfg) (hq : q.Clears s.cfg)
    (r0 r1 r2 r3 r4 r5 r6 r7 : ReadScript) (hr : ∀ r ∈ [r0, r1, r2, r3, r4, r5, r6, r7], r.poll.Clears s.cfg)
    {rest : List Answer}
    (h : (s.transport (.grp g)).answers =
      p.answers ++ q.answers ++ readAnswers [r0, r1, r2, r3, r4, r5, r6, r7] ++ rest)
    (c : Byte) (hc : c = crc8 [r0.byte, r1.byte, r2.byte, r3.byte, r4.byte, r5.byte, r6.byte]) :
    ∃ t, (readRom ctx g).run s =
        (if c = r7.byte then
          (.ok #v[r0.byte, r1.byte, r2.byte, r3.byte, r4.byte, r5.byte, r6.byte, r7.byte], t)
          else (.error ⟨.checksumMismatch, 0x1804, c ++ r7.byte⟩, t)) ∧
      Played g s t #v[r0.byte, r1.byte, r2.byte, r3.byte, r4.byte, r5.byte, r6.byte, r7.byte, s.buf[8]]
        ⟨r7.poll.last.1, r7.poll.polls⟩ rest
        (resetEvents s.cfg g p ++ byteEvents s.cfg g s.cfg.owReadRom q ++
          readEvents s.cfg g [r0, r1, r2, r3, r4, r5, r6, r7] ++
          if c = r7.byte then [] else [failureRecord ctx .checksumMismatch 0x1804 (c ++ r7.byte)]) := by
  obtain ⟨t, e1, h1⟩ := oneWireReset_script ctx g s hleg p hp
    (rest := q.answers ++ (readAnswers [r0, r1, r2, r3, r4, r5, r6, r7] ++ rest)) (by rw [h]; simp)
  obtain ⟨u, e2, h2⟩ := writeByte_script ctx g t (by rw [h1.cfg]; exact hleg) s.cfg.owReadRom q
    (by rw [h1.cfg]; exact hq) h1.answers
  have h12 := h1.trans h2
  rw [h1.buf, h1.cfg] at h12
  obtain ⟨v, e3, h3⟩ := readIntoBuf_script ctx g romIndices [r0, r1, r2, r3, r4, r5, r6, r7] u _
    (by rw [h12.cfg]; exact hleg) rfl (fun r hm => by rw [h12.cfg]; exact hr r hm) h12.bridge h12.answers
  have h13 := h12.trans h3
  have hb : ∀ b : Vector Byte 9, writeBuf b (romIndices.zip ([r0, r1, r2, r3, r4, r5, r6, r7].map ReadScript.byte)) =
      #v[r0.byte, r1.byte, r2.byte, r3.byte, r4.byte, r5.byte, r6.byte, r7.byte, b[8]] := by
    intro b
    apply Vector.ext
    intro j hj
    rcases j with _ | _ | _ | _ | _ | _ | _ | _ | _ | j <;>
      first | omega | simp [writeBuf, romIndices]
  rw [h12.buf, h12.cfg, hb] at h13
  obtain ⟨w, e4, h4⟩ := checkBufCrc_cases ctx g v 7 0x1804 h13.answers c r7.byte
    (by rw [h13.buf, hc]; rfl) (by rw [h13.buf]; rfl)
  have h14 := h13.trans h4
  rw [h13.buf, h13.bridge] at h14
  refine ⟨w, ?_, ?_⟩
  · rw [readRom, Op.run_read_bind, Op.run_bind_ok e1, Op.run_bind_ok e2, Op.run_bind_ok e3, Op.run_bind,
      show locCode 0x18 4 = 0x1804 from rfl, e4]
    by_cases e : c = r7.byte
    · simp only [if_pos e, Op.run_read, romBytes, h14.buf]
      rfl
    · simp only [if_neg e]
  · simpa [romIndices] using h14

/-- `trigger_conversion` on its script (spec/41_bridge_sequences.md R123). -/
theorem triggerConversion_script (hleg : s.cfg.legal = true) (p q r : PollScript) (hp : p.Present s.cfg)
    (hq : q.Clears s.cfg) (hr : r.Clears s.cfg) {rest : List Answer}
    (h : (s.transport (.grp g)).answers = p.answers ++ q.answers ++ r.answers ++ rest) :
    ∃ t, (triggerConversion ctx g).run s = (.ok (), t) ∧
      Played g s t s.buf ⟨r.last.1, r.polls⟩ rest
        (resetEvents s.cfg g p ++ byteEvents s.cfg g s.cfg.owSkipRom q ++
          byteEvents s.cfg g s.cfg.owConvertT r) := by
  obtain ⟨t, e1, h1⟩ := oneWireReset_script ctx g s hleg p hp (rest := q.answers ++ (r.answers ++ rest))
    (by rw [h]; simp)
  obtain ⟨u, e2, h2⟩ := writeByte_script ctx g t (by rw [h1.cfg]; exact hleg) s.cfg.owSkipRom q
    (by rw [h1.cfg]; exact hq) h1.answers
  have h12 := h1.trans h2
  obtain ⟨v, e3, h3⟩ := writeByte_script ctx g u (by rw [h12.cfg]; exact hleg) s.cfg.owConvertT r
    (by rw [h12.cfg]; exact hr) h12.answers
  have h13 := h12.trans h3
  rw [h12.buf, h12.cfg, h1.buf, h1.cfg] at h13
  refine ⟨v, ?_, ?_⟩
  · rw [triggerConversion, Op.run_read_bind, Op.run_bind_ok e1, Op.run_bind_ok e2, e3]
  · simpa using h13

/-- `retrieve_scratchpad` on its script (spec/41_bridge_sequences.md R124). -/
theorem retrieveScratchpad_script (hleg : s.cfg.legal = true) (p q q' : PollScript) (hp : p.Present s.cfg)
    (hs : s.cfg.short p.last.1 = false) (hq : q.Clears s.cfg) (hq' : q'.Clears s.cfg)
    (r0 r1 r2 r3 r4 r5 r6 r7 r8 : ReadScript)
    (hr : ∀ r ∈ [r0, r1, r2, r3, r4, r5, r6, r7, r8], r.poll.Clears s.cfg) {rest : List Answer}
    (h : (s.transport (.grp g)).answers =
      p.answers ++ q.answers ++ q'.answers ++ readAnswers [r0, r1, r2, r3, r4, r5, r6, r7, r8] ++ rest)
    (c : Byte) (hc : c = crc8 [r0.byte, r1.byte, r2.byte, r3.byte, r4.byte, r5.byte, r6.byte, r7.byte]) :
    ∃ t, (retrieveScratchpad ctx g).run s =
        (if c = r8.byte then
          (.ok #v[r0.byte, r1.byte, r2.byte, r3.byte, r4.byte, r5.byte, r6.byte, r7.byte, r8.byte], t)
          else (.error ⟨.checksumMismatch, 0x1B06, c ++ r8.byte⟩, t)) ∧
      Played g s t #v[r0.byte, r1.byte, r2.byte, r3.byte, r4.byte, r5.byte, r6.byte, r7.byte, r8.byte]
        ⟨r8.poll.last.1, r8.poll.polls⟩ rest
        (resetEvents s.cfg g p ++ byteEvents s.cfg g s.cfg.owSkipRom q ++
          byteEvents s.cfg g s.cfg.owReadScratchpad q' ++
          readEvents s.cfg g [r0, r1, r2, r3, r4, r5, r6, r7, r8] ++
          if c = r8.byte then [] else [failureRecord ctx .checksumMismatch 0x1B06 (c ++ r8.byte)]) := by
  obtain ⟨t, e1, h1⟩ := oneWireReset_script ctx g s hleg p hp
    (rest := q.answers ++ (q'.answers ++ (readAnswers [r0, r1, r2, r3, r4, r5, r6, r7, r8] ++ rest)))
    (by rw [h]; simp)
  have es : (checkShort ctx g).run t = (.ok (), t) := by
    rw [checkShort, Op.run_read_bind, Op.run_read_bind, h1.bridge, h1.cfg]
    simp [hs]
  obtain ⟨u, e2, h2⟩ := writeByte_script ctx g t (by rw [h1.cfg]; exact hleg) s.cfg.owSkipRom q
    (by rw [h1.cfg]; exact hq) h1.answers
  have h12 := h1.trans h2
  rw [h1.buf, h1.cfg] at h12
  obtain ⟨u', e2', h2'⟩ := writeByte_script ctx g u (by rw [h12.cfg]; exact hleg) s.cfg.owReadScratchpad q'
    (by rw [h12.cfg]; exact hq') h12.answers
  have h12' := h12.trans h2'
  rw [h12.buf, h12.cfg] at h12'
  obtain ⟨v, e3, h3⟩ := readIntoBuf_script ctx g scratchpadIndices [r0, r1, r2, r3, r4, r5, r6, r7, r8] u' _
    (by rw [h12'.cfg]; exact hleg) rfl (fun r hm => by rw [h12'.cfg]; exact hr r hm) h12'.bridge h12'.answers
  have h13 := h12'.trans h3
  have hb : ∀ b : Vector Byte 9,
      writeBuf b (scratchpadIndices.zip ([r0, r1, r2, r3, r4, r5, r6, r7, r8].map ReadScript.byte)) =
        #v[r0.byte, r1.byte, r2.byte, r3.byte, r4.byte, r5.byte, r6.byte, r7.byte, r8.byte] := by
    intro b
    apply Vector.ext
    intro j hj
    rcases j with _ | _ | _ | _ | _ | _ | _ | _ | _ | j <;>
      first | omega | simp [writeBuf, scratchpadIndices]
  rw [h12'.buf, h12'.cfg, hb] at h13
  obtain ⟨w, e4, h4⟩ := checkBufCrc_cases ctx g v 8 0x1B06 h13.answers c r8.byte
    (by rw [h13.buf, hc]; rfl) (by rw [h13.buf]; rfl)
  have h14 := h13.trans h4
  rw [h13.buf, h13.bridge] at h14
  refine ⟨w, ?_, ?_⟩
  · rw [retrieveScratchpad, Op.run_read_bind, Op.run_bind_ok e1, Op.run_bind_ok es, Op.run_bind_ok e2,
      Op.run_bind_ok e2', Op.run_bind_ok e3, Op.run_bind, show locCode 0x1B 6 = 0x1B06 from rfl, e4]
    by_cases e : c = r8.byte
    · simp only [if_pos e, Op.run_read, h14.buf]
    · simp only [if_neg e]
  · simpa [scratchpadIndices] using h14

/-- The events of `configure_probe` before its copy poll, the settle delay before the third reset
(spec/41_bridge_sequences.md R121). -/
abbrev configureEvents (c : Config) (g : Group) (r : Fin 4) (p1 p2 p3 p4 p5 p6 p7 p8 p9 p11 : PollScript) : List Event :=
  resetEvents c g p1 ++ byteEvents c g c.owSkipRom p2 ++ byteEvents c g c.owWriteScratchpad p3 ++
    byteEvents c g c.triggerByte0 p4 ++ byteEvents c g c.triggerByte1 p5 ++
    p6.events c g [c.cmd1wWriteByte, c.resCfg[r]] ++
    resetEvents c g p7 ++ byteEvents c g c.owSkipRom p8 ++ byteEvents c g c.owCopyScratchpad p9 ++
    [.delay c.copySettleDelay] ++ resetEvents c g p11

/-- `configure_probe` on its script up to its copy poll (spec/41_bridge_sequences.md R121). -/
theorem configureProbe_script (hleg : s.cfg.legal = true) (bits : Nat) (r : Fin 4) (hb : resIndexOfBits bits = r)
    (p1 p2 p3 p4 p5 p6 p7 p8 p9 p11 : PollScript)
    (hp : p1.Present s.cfg ∧ p7.Present s.cfg ∧ p11.Present s.cfg)
    (hc : ∀ p ∈ [p2, p3, p4, p5, p6, p8, p9], p.Clears s.cfg) {rest : List Answer}
    (h : (s.transport (.grp g)).answers =
      [p1, p2, p3, p4, p5, p6, p7, p8, p9, p11].flatMap PollScript.answers ++ rest) :
    ∃ t, (configureProbe ctx g bits).run s = (copyPoll ctx g Config.copyPollLimit).run t ∧
      Played g s t s.buf ⟨p11.last.1, p11.polls⟩ rest
        (configureEvents s.cfg g r p1 p2 p3 p4 p5 p6 p7 p8 p9 p11) := by
  subst hb
  simp only [List.mem_cons, List.not_mem_nil, or_false, forall_eq_or_imp, forall_eq] at hc
  simp only [List.flatMap_cons, List.flatMap_nil, List.append_nil, List.append_assoc] at h
  obtain ⟨t1, e1, h1⟩ := oneWireReset_script ctx g s hleg p1 hp.1 h
  obtain ⟨t2, e2, h2⟩ := writeByte_script ctx g t1 (by rw [h1.cfg]; exact hleg) s.cfg.owSkipRom p2
    (by rw [h1.cfg]; exact hc.1) h1.answers
  replace h2 := h1.trans h2
  rw [h1.buf, h1.cfg] at h2
  obtain ⟨t3, e3, h3⟩ := writeByte_script ctx g t2 (by rw [h2.cfg]; exact hleg) s.cfg.owWriteScratchpad p3
    (by rw [h2.cfg]; exact hc.2.1) h2.answers
  replace h3 := h2.trans h3
  rw [h2.buf, h2.cfg] at h3
  obtain ⟨t4, e4, h4⟩ := writeByte_script ctx g t3 (by rw [h3.cfg]; exact hleg) s.cfg.triggerByte0 p4
    (by rw [h3.cfg]; exact hc.2.2.1) h3.answers
  replace h4 := h3.trans h4
  rw [h3.buf, h3.cfg] at h4
  obtain ⟨t5, e5, h5⟩ := writeByte_script ctx g t4 (by rw [h4.cfg]; exact hleg) s.cfg.triggerByte1 p5
    (by rw [h4.cfg]; exact hc.2.2.2.1) h4.answers
  replace h5 := h4.trans h5
  rw [h4.buf, h4.cfg] at h5
  obtain ⟨t6, e6, h6⟩ := writeByte_script ctx g t5 (by rw [h5.cfg]; exact hleg)
    s.cfg.resCfg[resIndexOfBits bits] p6 (by rw [h5.cfg]; exact hc.2.2.2.2.1) h5.answers
  replace h6 := h5.trans h6
  rw [h5.buf, h5.cfg] at h6
  obtain ⟨t7, e7, h7⟩ := oneWireReset_script ctx g t6 (by rw [h6.cfg]; exact hleg) p7
    (by rw [h6.cfg]; exact hp.2.1) h6.answers
  replace h7 := h6.trans h7
  rw [h6.buf, h6.cfg] at h7
  obtain ⟨t8, e8, h8⟩ := writeByte_script ctx g t7 (by rw [h7.cfg]; exact hleg) s.cfg.owSkipRom p8
    (by rw [h7.cfg]; exact hc.2.2.2.2.2.1) h7.answers
  replace h8 := h7.trans h8
  rw [h7.buf, h7.cfg] at h8
  obtain ⟨t9, e9, h9⟩ := writeByte_script ctx g t8 (by rw [h8.cfg]; exact hleg) s.cfg.owCopyScratchpad p9
    (by rw [h8.cfg]; exact hc.2.2.2.2.2.2) h8.answers
  replace h9 := h8.trans h9
  rw [h8.buf, h8.cfg] at h9
  have h10 := h9.trans (played_delay g t9 s.cfg.copySettleDelay h9.answers)
  rw [h9.buf, h9.bridge] at h10
  obtain ⟨t11, e11, h11⟩ := oneWireReset_script ctx g _ (by rw [h10.cfg]; exact hleg) p11
    (by rw [h10.cfg]; exact hp.2.2) h10.answers
  replace h11 := h10.trans h11
  rw [h10.buf, h10.cfg] at h11
  refine ⟨t11, ?_, ?_⟩
  · rw [configureProbe, Op.run_read_bind, Op.run_bind_ok e1, Op.run_bind_ok e2, Op.run_bind_ok e3,
      Op.run_bind_ok e4, Op.run_bind_ok e5, Op.run_bind_ok e6, Op.run_bind_ok e7, Op.run_bind_ok e8,
      Op.run_bind_ok e9, Op.run_bind_ok (run_delay _ _), Op.run_bind_ok e11]
  · have hz : commandBytes s.cfg.cmd1wWriteByte s.cfg.resCfg[resIndexOfBits bits] =
        [s.cfg.cmd1wWriteByte, s.cfg.resCfg[resIndexOfBits bits]] :=
      if_neg ((legal_commands hleg).2.2.2.2.1 _)
    rw [hz] at h11
    simpa [configureEvents] using h11

end

end Sys2Proof.Machine
end

