-- ==== Sys2Proof/Laws/Temperature.lean ====
section
/-! SUPPORT. What the temperature decoder can do, and the ranges of what it answers. -/

namespace Sys2Proof.Machine

/-- Storing a Fahrenheit whole part: exact up to 255 and nothing drawn, else a free byte and one draw
(spec/43_temperature.md R151). -/
theorem storedWhole_cases (whole : Nat) (s : State) :
    (whole ≤ 255 ∧ (storedWhole whole).run s = (.ok (BitVec.ofNat 8 whole), s)) ∨
    (255 < whole ∧ (storedWhole whole).run s = (.ok (Config.freeFahrenheitWhole s.env.freeDraws),
      { s with env := { s.env with freeDraws := s.env.freeDraws + 1 } })) := by
  by_cases h : whole ≤ 255
  · exact .inl ⟨h, by simp [storedWhole, Op.run, h]⟩
  · exact .inr ⟨by omega, by simp [storedWhole, Op.run, h]⟩

/-- The tenths digit of a Fahrenheit value is a decimal digit (spec/43_temperature.md R153 b), under every F_ARITH. -/
theorem fahrenheit_frac_le (c : Config) (cs : Bool) (cw cf : Nat) : (fahrenheit c cs cw cf).frac.toNat ≤ 9 := by
  have hmin : ∀ n : Nat, (BitVec.ofNat 4 (min 9 n)).toNat ≤ 9 := fun n => by
    rw [BitVec.toNat_ofNat]
    omega
  unfold fahrenheit
  cases c.fArith
  · simp only [exactFahrenheit, BitVec.toNat_ofNat]
    omega
  · exact hmin _
  · exact hmin _
  · have := (Config.freeFahrenheit cs cw cf).2.2.isLt
    simp only [otherFahrenheit, BitVec.toNat_ofNat]
    omega

theorem tableEntry_le (t : Vector (Fin 10) 16) (fi : BitVec 4) : (tableEntry t fi).toNat ≤ 9 := by
  simp only [tableEntry, BitVec.toNat_ofNat]
  have := (t[fi.toFin]).isLt
  omega

/-- A decoded magnitude is at most 127 and nine tenths (spec/43_temperature.md R148). -/
theorem celsiusOf_le (c : Config) (sp : Vector Byte 9) (r : Fin 4) :
    (celsiusOf c sp r).2.1.toNat ≤ 127 ∧ (celsiusOf c sp r).2.2.toNat ≤ 9 := by
  have hb : ∀ w : Byte, (w.getLsbD 7 = true → (~~~w).toNat ≤ 127) ∧ (w.getLsbD 7 = false → w.toNat ≤ 127) := by
    decide +kernel
  unfold celsiusOf
  dsimp only
  split
  · exact ⟨(hb _).1 ‹_›, tableEntry_le _ _⟩
  · exact ⟨(hb _).2 (Bool.eq_false_iff.mpr ‹_›), tableEntry_le _ _⟩

/-- A reading: the Celsius value, the Fahrenheit value of it, and its whole part exact up to 255
(spec/43_temperature.md R145 to R151). -/
def IsReading (c : Config) (sp : Vector Byte 9) (r : Fin 4) (v : Reading) : Prop :=
  (v.cSign, v.cWhole, v.cFrac) = celsiusOf c sp r ∧
  v.fSign = (fahrenheit c v.cSign v.cWhole.toNat v.cFrac.toNat).sign ∧
  v.fFrac = (fahrenheit c v.cSign v.cWhole.toNat v.cFrac.toNat).frac ∧
  ((fahrenheit c v.cSign v.cWhole.toNat v.cFrac.toNat).whole ≤ 255 →
    v.fWhole.toNat = (fahrenheit c v.cSign v.cWhole.toNat v.cFrac.toNat).whole)

theorem IsReading.ranges {c : Config} {sp : Vector Byte 9} {r : Fin 4} {v : Reading} (h : IsReading c sp r v) :
    v.cWhole.toNat ≤ 127 ∧ v.cFrac.toNat ≤ 9 ∧ v.fFrac.toNat ≤ 9 := by
  have hc := celsiusOf_le c sp r
  rw [← h.1] at hc
  refine ⟨hc.1, hc.2, ?_⟩
  rw [h.2.2.1]
  exact fahrenheit_frac_le _ _ _ _

/-- What `decode` can do (spec/43_temperature.md R145): fail on the echo, fail on the reserved bytes, or answer the
reading and change nothing but the draws of free Fahrenheit whole parts. -/
theorem decodeScratchpad_cases (ctx : Option (Fin 16)) (sp : Vector Byte 9) (r : Fin 4) (s : State) :
    (sp[4] ≠ s.cfg.resCfg[r] ∧
      (decodeScratchpad ctx sp r).run s = (.error ⟨.resolutionMismatch, 0x2001, sp[4] ++ s.cfg.resCfg[r]⟩,
        s.report ctx .resolutionMismatch 0x2001 (sp[4] ++ s.cfg.resCfg[r]))) ∨
    (sp[4] = s.cfg.resCfg[r] ∧ (sp[5] ≠ 0xFF ∨ sp[7] ≠ 0x10) ∧
      (decodeScratchpad ctx sp r).run s = (.error ⟨.scratchpadCorrupt, 0x2002, sp[5] ++ sp[7]⟩,
        s.report ctx .scratchpadCorrupt 0x2002 (sp[5] ++ sp[7]))) ∨
    (sp[4] = s.cfg.resCfg[r] ∧ sp[5] = 0xFF ∧ sp[7] = 0x10 ∧ ∃ v n,
      (decodeScratchpad ctx sp r).run s = (.ok v, { s with env := { s.env with freeDraws := n } }) ∧
      IsReading s.cfg sp r v ∧
      ((fahrenheit s.cfg v.cSign v.cWhole.toNat v.cFrac.toNat).whole ≤ 255 → n = s.env.freeDraws)) := by
  by_cases h4 : sp[4] = s.cfg.resCfg[r]
  · by_cases h57 : sp[5] ≠ 0xFF ∨ sp[7] ≠ 0x10
    · refine .inr (.inl ⟨h4, h57, ?_⟩)
      rw [decodeScratchpad, Op.run_read_bind, if_neg (by simpa using h4), if_pos h57]
      rfl
    · simp only [not_or, Decidable.not_not] at h57
      refine .inr (.inr ⟨h4, h57.1, h57.2, ?_⟩)
      rw [decodeScratchpad, Op.run_read_bind, if_neg (by simpa using h4), if_neg (by simp [h57]), readingOf]
      rcases storedWhole_cases (fahrenheit s.cfg (celsiusOf s.cfg sp r).1 (celsiusOf s.cfg sp r).2.1.toNat
          (celsiusOf s.cfg sp r).2.2.toNat).whole s with ⟨hw, e⟩ | ⟨hw, e⟩
      · refine ⟨_, s.env.freeDraws, Op.run_bind_ok e, ⟨rfl, rfl, rfl, fun _ => ?_⟩, fun _ => rfl⟩
        simp only [BitVec.toNat_ofNat]
        omega
      · refine ⟨_, s.env.freeDraws + 1, Op.run_bind_ok e, ⟨rfl, rfl, rfl, fun h => ?_⟩, fun h => ?_⟩
        · exact absurd h (by simpa using hw)
        · exact absurd h (by simpa using hw)
  · refine .inl ⟨h4, ?_⟩
    rw [decodeScratchpad, Op.run_read_bind, if_pos (by simpa using h4)]
    rfl

end Sys2Proof.Machine
end

