-- ==== Sys2Proof/Laws/Probes.lean ====
section
/-! SUPPORT. What processing one probe in a cycle command can do. -/

namespace Sys2Proof.Machine

/-! ### The frame of a probe -/

/-- Processing probe i may change PROBE[i], BUF, the bridge and the transport of its group, the event record and the
draws of free Fahrenheit whole parts (spec/44_probe_manager.md R172). -/
def ProbeFrame (i : Fin 16) (s t : State) : Prop :=
  t = { s with
    buf := t.buf
    bridges := s.bridges.set (probeGroup i) (t.bridges.get (probeGroup i))
    probes := s.probes.set i (t.probe i)
    env := { s.env with
      transports := s.env.transports.set (.grp (probeGroup i)) (t.env.transports.get (.grp (probeGroup i)))
      events := t.env.events
      freeDraws := t.env.freeDraws } }

section
variable {i : Fin 16} {s t u : State}

theorem ProbeFrame.cfg (h : ProbeFrame i s t) : t.cfg = s.cfg := by rw [h]
theorem ProbeFrame.cpState (h : ProbeFrame i s t) : t.cpState = s.cpState := by rw [h]
theorem ProbeFrame.cmd (h : ProbeFrame i s t) : t.cmd = s.cmd := by rw [h]
theorem ProbeFrame.res (h : ProbeFrame i s t) : t.res = s.res := by rw [h]
theorem ProbeFrame.activeRes (h : ProbeFrame i s t) : t.activeRes = s.activeRes := by rw [h]
theorem ProbeFrame.td (h : ProbeFrame i s t) : t.td = s.td := by rw [h]
theorem ProbeFrame.adc (h : ProbeFrame i s t) : t.adc = s.adc := by rw [h]
theorem ProbeFrame.probes (h : ProbeFrame i s t) : t.probes = s.probes.set i (t.probe i) := by
  conv_lhs => rw [h]

/-- The other probes are untouched (spec/44_probe_manager.md R172). -/
theorem ProbeFrame.probe_ne (h : ProbeFrame i s t) {j : Fin 16} (hj : j ≠ i) : t.probe j = s.probe j := by
  have hv : i.val ≠ j.val := fun e => hj (Fin.ext e.symm)
  have hp := h.probes
  generalize t.probe i = p at hp
  simp only [State.probe, hp]
  exact Vector.getElem_set_ne _ _ hv

theorem probeFrame_composes (i : Fin 16) : Composes (ProbeFrame i) where
  refl := by
    intro s
    simp [ProbeFrame, State.probe]
  trans := by
    intro s t u h₁ h₂
    rw [ProbeFrame] at *
    rw [h₂, h₁]
    simp [State.probe]

theorem BridgeFrame.probeFrame (h : BridgeFrame (probeGroup i) s t) : ProbeFrame i s t := by
  have hp : t.probe i = s.probe i := by simp only [State.probe, h.probes]
  have hd : t.env.freeDraws = s.env.freeDraws := by rw [h]
  rw [ProbeFrame, hp, hd]
  rw [BridgeFrame] at h
  rw [h]
  simp [State.probe]

theorem probeFrame_update (f : Probe → Probe) : ProbeFrame i s (s.updateProbe i f) := by
  simp [ProbeFrame, State.updateProbe, State.setProbe, State.probe]

end

@[simp] theorem State.probe_updateProbe_same (s : State) (i : Fin 16) (f : Probe → Probe) :
    (s.updateProbe i f).probe i = f (s.probe i) := by
  simp [State.updateProbe]

/-! ### Read sequences deliver checked bytes -/

/-- A ROM that is read has a right CRC (spec/41_bridge_sequences.md R120). -/
theorem readRom_crc {ctx : Option (Fin 16)} {g : Group} {s t : State} {bytes : Vector Byte 8}
    (h : (readRom ctx g).run s = (.ok bytes, t)) : crc8 (bytes.toList.take 7) = bytes[7] := by
  rw [readRom, Op.run_read_bind] at h
  obtain ⟨_, s1, -, h⟩ := Op.of_run_bind_ok h
  obtain ⟨_, s2, -, h⟩ := Op.of_run_bind_ok h
  obtain ⟨_, s3, -, h⟩ := Op.of_run_bind_ok h
  obtain ⟨_, s4, hc, h⟩ := Op.of_run_bind_ok h
  rw [run_checkBufCrc] at hc
  by_cases e : crc8 (s3.buf.toList.take 7) = s3.buf[Fin.ofNat 9 7]
  · rw [if_pos e] at hc
    obtain rfl : s3 = s4 := congrArg Prod.snd hc
    obtain rfl : romBytes s3 = bytes := Except.ok.inj (congrArg Prod.fst h)
    have hl : (romBytes s3).toList.take 7 = s3.buf.toList.take 7 := by
      apply List.ext_getElem
      · simp
      · intro k hk hk'
        simp only [List.length_take, Vector.length_toList] at hk
        have hk7 : k < 7 := by omega
        simp only [List.getElem_take, Vector.getElem_toList]
        interval_cases k <;> rfl
    rw [hl, e]
    rfl
  · rw [if_neg e] at hc
    cases congrArg Prod.fst hc

/-- A scratchpad that is retrieved has a right CRC (spec/41_bridge_sequences.md R124). -/
theorem retrieveScratchpad_crc {ctx : Option (Fin 16)} {g : Group} {s t : State} {sp : Vector Byte 9}
    (h : (retrieveScratchpad ctx g).run s = (.ok sp, t)) : crc8 (sp.toList.take 8) = sp[8] := by
  rw [retrieveScratchpad, Op.run_read_bind] at h
  obtain ⟨_, s1, -, h⟩ := Op.of_run_bind_ok h
  obtain ⟨_, s2, -, h⟩ := Op.of_run_bind_ok h
  obtain ⟨_, s3, -, h⟩ := Op.of_run_bind_ok h
  obtain ⟨_, s4, -, h⟩ := Op.of_run_bind_ok h
  obtain ⟨_, s5, -, h⟩ := Op.of_run_bind_ok h
  obtain ⟨_, s6, hc, h⟩ := Op.of_run_bind_ok h
  rw [run_checkBufCrc] at hc
  by_cases e : crc8 (s5.buf.toList.take 8) = s5.buf[Fin.ofNat 9 8]
  · rw [if_pos e] at hc
    obtain rfl : s5 = s6 := congrArg Prod.snd hc
    obtain rfl : s5.buf = sp := Except.ok.inj (congrArg Prod.fst h)
    exact e
  · rw [if_neg e] at hc
    cases congrArg Prod.fst hc

/-! ### `initiate_all`, one probe -/

/-- What the steps of `initiate_all` for probe i do to it, whatever the transport answers: its decoded fields stay; its
ROM stays or is newly known, with a right CRC; its configuration stays or is newly made at the active resolution
(spec/44_probe_manager.md R166 to R168, spec/10_state.md R26). -/
structure InitProgress (i : Fin 16) (s t : State) : Prop where
  frame : ProbeFrame i s t
  draws : t.env.freeDraws = s.env.freeDraws
  decoded : (t.probe i).celsiusSign = (s.probe i).celsiusSign ∧ (t.probe i).celsiusWhole = (s.probe i).celsiusWhole ∧
    (t.probe i).celsiusFractionTenths = (s.probe i).celsiusFractionTenths ∧
    (t.probe i).fahrenheitSign = (s.probe i).fahrenheitSign ∧
    (t.probe i).fahrenheitWhole = (s.probe i).fahrenheitWhole ∧
    (t.probe i).fahrenheitFractionTenths = (s.probe i).fahrenheitFractionTenths
  rom : ((t.probe i).romKnown = (s.probe i).romKnown ∧ (t.probe i).rom = (s.probe i).rom) ∨
    ((s.probe i).romKnown = false ∧ (t.probe i).romKnown = true ∧
      crc8 ((t.probe i).rom.toList.take 7) = (t.probe i).rom[7])
  configuration : ((t.probe i).configured = (s.probe i).configured ∧
      (t.probe i).resolutionBits = (s.probe i).resolutionBits) ∨
    ((s.probe i).configured = false ∧ (t.probe i).configured = true ∧
      (t.probe i).resolutionBits = 9 + s.activeRes.toNat)

theorem initProgress_composes (i : Fin 16) : Composes (InitProgress i) where
  refl s := ⟨(probeFrame_composes i).refl s, rfl, ⟨rfl, rfl, rfl, rfl, rfl, rfl⟩, .inl ⟨rfl, rfl⟩, .inl ⟨rfl, rfl⟩⟩
  trans := by
    intro s t u h h'
    obtain ⟨d1, d2, d3, d4, d5, d6⟩ := h.decoded
    obtain ⟨d1', d2', d3', d4', d5', d6'⟩ := h'.decoded
    refine ⟨(probeFrame_composes i).trans h.frame h'.frame, h'.draws.trans h.draws,
      ⟨d1'.trans d1, d2'.trans d2, d3'.trans d3, d4'.trans d4, d5'.trans d5, d6'.trans d6⟩, ?_, ?_⟩
    · rcases h.rom with ⟨a, b⟩ | ⟨a, b, c⟩ <;> rcases h'.rom with ⟨a', b'⟩ | ⟨a', b', c'⟩
      · exact .inl ⟨a'.trans a, b'.trans b⟩
      · exact .inr ⟨a ▸ a', b', c'⟩
      · exact .inr ⟨a, a'.trans b, by rw [b']; exact c⟩
      · rw [b] at a'
        cases a'
    · rcases h.configuration with ⟨a, b⟩ | ⟨a, b, c⟩ <;> rcases h'.configuration with ⟨a', b'⟩ | ⟨a', b', c'⟩
      · exact .inl ⟨a'.trans a, b'.trans b⟩
      · exact .inr ⟨a ▸ a', b', by rw [c', h.frame.activeRes]⟩
      · exact .inr ⟨a, a'.trans b, b'.trans c⟩
      · rw [b] at a'
        cases a'

/-- A step that changes only the error status and the phase of probe i. -/
theorem initProgress_status {i : Fin 16} {f : Probe → Probe}
    (hf : ∀ p, f p = { p with lastError := (f p).lastError, errorOrigin := (f p).errorOrigin, phase := (f p).phase })
    (s : State) : InitProgress i s (s.updateProbe i f) := by
  have h := hf (s.probe i)
  refine ⟨probeFrame_update f, rfl, ?_, .inl ?_, .inl ?_⟩ <;> rw [State.probe_updateProbe_same, h] <;> simp

/-- A bridge operation of the probe's group changes nothing of it. -/
theorem BridgeFrame.initProgress {i : Fin 16} {s t : State} (h : BridgeFrame (probeGroup i) s t) :
    InitProgress i s t := by
  have hp : t.probe i = s.probe i := by simp only [State.probe, h.probes]
  refine ⟨h.probeFrame, by rw [h], ?_, .inl ?_, .inl ?_⟩ <;> simp [hp]

/-- How the steps of `initiate_all` for probe i end: by a real failure if they fail. -/
abbrev InitFailure (i : Fin 16) (f : Failure) (s t : State) : Prop := InitProgress i s t ∧ f.kind ≠ .none

theorem initProgress_endsCompose (i : Fin 16) : EndsCompose (InitProgress i) (InitFailure i) where
  toComposes := initProgress_composes i
  transE h h' := ⟨(initProgress_composes i).trans h h'.1, h'.2⟩

/-- A bridge operation within the steps of `initiate_all`. -/
theorem Op.Ends.initProgress {α : Type} {x : Op α} {i : Fin 16}
    (hb : x.Ends (BridgeFrame (probeGroup i)) fun _ => BridgeFrame (probeGroup i))
    (hf : x.Ends (fun _ _ => True) fun f _ _ => f.kind ≠ .none ∧ (f.kind.code, f.loc) ∈ bridgeLocations) :
    x.Ends (InitProgress i) (InitFailure i) := by
  intro s
  rcases hx : x.run s with ⟨e | a, t⟩
  · exact ⟨(hb.error hx).initProgress, (hf.error hx).1⟩
  · exact (hb.ok hx).initProgress

theorem identifyProbe_ends (i : Fin 16) : (identifyProbe i).Ends (InitProgress i) (InitFailure i) := by
  intro s
  rw [identifyProbe, Op.run_read_bind]
  by_cases hk : (s.probe i).romKnown = true
  · rw [if_pos hk]
    exact initProgress_status (fun _ => rfl) s
  · rw [if_neg hk, Op.run_bind, Op.run_attempt]
    rcases hx : (readRom (some i) (probeGroup i)).run s with ⟨e | bytes, t⟩
    · exact ((readRom_ends (bridgeFrame_steps (some i) (probeGroup i))).error hx).initProgress
    · have h1 := ((readRom_ends (bridgeFrame_steps (some i) (probeGroup i))).ok hx).initProgress
      have hk' : (t.probe i).romKnown = false := by
        have := ((readRom_ends (bridgeFrame_steps (some i) (probeGroup i))).ok hx).probes
        simp only [State.probe, this]
        exact Bool.eq_false_iff.mpr hk
      refine (initProgress_composes i).trans h1 ((initProgress_composes i).trans (t := t.updateProbe i fun p =>
        { p with rom := bytes, romKnown := true }) ?_ (initProgress_status (fun _ => rfl) _))
      refine ⟨probeFrame_update _, rfl, ?_, .inr ?_, .inl ?_⟩ <;> rw [State.probe_updateProbe_same]
      · simp
      · exact ⟨hk', rfl, readRom_crc hx⟩
      · simp

/-- Step 4 of `initiate_all`; after it the probe is configured (spec/44_probe_manager.md R167). -/
theorem configureStep_ends (i : Fin 16) : (configureStep i).Ends (InitProgress i) (InitFailure i) ∧
    ∀ s t, (configureStep i).run s = (.ok (), t) → (t.probe i).configured = true := by
  have key : ∀ s, match (configureStep i).run s with
      | (.ok _, t) => InitProgress i s t ∧ (t.probe i).configured = true
      | (.error f, t) => InitFailure i f s t := by
    intro s
    rw [configureStep, Op.run_read_bind]
    by_cases hk : (s.probe i).configured = true
    · rw [if_pos hk]
      exact ⟨(initProgress_composes i).refl s, hk⟩
    · rw [if_neg hk, Op.run_read_bind, Op.run_bind, Op.run_attempt]
      rcases hx : (configureProbe (some i) (probeGroup i) s.activeBits).run s with ⟨e | u, t⟩
      · have hb := (configureProbe_ends (bridgeFrame_steps (some i) (probeGroup i)) _).error hx
        have hf := (configureProbe_ends (failure_steps (some i) (probeGroup i)) _).error hx
        refine ⟨(initProgress_composes i).trans hb.initProgress ?_, hf.1⟩
        have hk' : (t.probe i).configured = false := by
          simp only [State.probe, hb.probes]
          exact Bool.eq_false_iff.mpr hk
        refine ⟨probeFrame_update _, rfl, ?_, .inl ?_, .inl ?_⟩ <;> rw [State.probe_updateProbe_same] <;> simp [hk']
      · have hb := (configureProbe_ends (bridgeFrame_steps (some i) (probeGroup i)) _).ok hx
        have hk' : (t.probe i).configured = false := by
          simp only [State.probe, hb.probes]
          exact Bool.eq_false_iff.mpr hk
        refine ⟨(initProgress_composes i).trans hb.initProgress ⟨probeFrame_update _, rfl, ?_, .inl ?_, .inr ?_⟩, ?_⟩ <;>
          rw [State.probe_updateProbe_same]
        · simp
        · simp
        · exact ⟨hk', rfl, by simp [State.activeBits, hb.activeRes]⟩
  refine ⟨fun s => ?_, fun s t h => ?_⟩
  · have := key s
    rcases hx : (configureStep i).run s with ⟨e | u, t⟩ <;> rw [hx] at this
    · exact this
    · exact this.1
  · have := key s
    rw [h] at this
    exact this.2

/-- A step that keeps the error status of probe i. -/
abbrev KeepsStatus (i : Fin 16) (s t : State) : Prop :=
  (t.probe i).lastError = (s.probe i).lastError ∧ (t.probe i).errorOrigin = (s.probe i).errorOrigin

theorem keepsStatus_composes (i : Fin 16) : Composes (KeepsStatus i) where
  refl _ := ⟨rfl, rfl⟩
  trans h h' := ⟨h'.1.trans h.1, h'.2.trans h.2⟩

theorem keepsStatus_endsCompose (i : Fin 16) : EndsCompose (KeepsStatus i) fun _ _ _ => True where
  toComposes := keepsStatus_composes i
  transE _ h := h

theorem BridgeFrame.keepsStatus {g : Group} {i : Fin 16} {s t : State} (h : BridgeFrame g s t) :
    KeepsStatus i s t := by
  simp only [KeepsStatus, State.probe, h.probes, and_self]

/-- The steps of `initiate_all` for probe i, when they succeed, leave it Converting, configured and without error;
however they end, they make the progress of `InitProgress` (spec/44_probe_manager.md R166). -/
theorem initiateSteps_ends (i : Fin 16) (s : State) :
    (∃ t, (initiateSteps i).run s = (.ok (), t) ∧ InitProgress i s t ∧ (t.probe i).lastError = .none ∧
      (t.probe i).errorOrigin = .none ∧ (t.probe i).phase = .converting ∧ (t.probe i).configured = true) ∨
    ∃ f t, (initiateSteps i).run s = (.error f, t) ∧ InitProgress i s t ∧ f.kind ≠ .none := by
  have hall : (initiateSteps i).Ends (InitProgress i) (InitFailure i) := by
    have hE := initProgress_endsCompose i
    have hb := bridgeFrame_steps (some i) (probeGroup i)
    have hf := failure_steps (some i) (probeGroup i)
    have hst : ∀ p, (setPhase i p).Ends (InitProgress i) (InitFailure i) := fun p =>
      Op.ends_modify fun s => initProgress_status (fun _ => rfl) s
    refine Op.ends_bind hE (Op.ends_modify fun s => initProgress_status (fun _ => rfl) s) fun _ => ?_
    refine Op.ends_bind hE ((resetAndConfigure_ends hb _).initProgress (resetAndConfigure_ends hf _)) fun _ => ?_
    refine Op.ends_bind hE (hst _) fun _ => ?_
    refine Op.ends_bind hE (Op.ends_read hE _) fun cfg => ?_
    refine Op.ends_bind hE ((selectChannel_ends hb _ _).initProgress (selectChannel_ends hf _ _)) fun _ => ?_
    refine Op.ends_bind hE (hst _) fun _ => ?_
    refine Op.ends_bind hE (identifyProbe_ends i) fun _ => ?_
    refine Op.ends_bind hE (configureStep_ends i).1 fun _ => ?_
    refine Op.ends_bind hE (hst _) fun _ => ?_
    refine Op.ends_bind hE ((triggerConversion_ends hb).initProgress (triggerConversion_ends hf)) fun _ => ?_
    exact hst _
  rcases hx : (initiateSteps i).run s with ⟨f | _, t⟩
  · exact .inr ⟨f, t, rfl, (hall.error hx).1, (hall.error hx).2⟩
  · refine .inl ⟨t, rfl, hall.ok hx, ?_⟩
    have hb := bridgeFrame_steps (some i) (probeGroup i)
    have hS := keepsStatus_endsCompose i
    have status : ∀ {α : Type} {x : Op α} {u v : State} {a : α},
        x.Ends (BridgeFrame (probeGroup i)) (fun _ => BridgeFrame (probeGroup i)) → x.run u = (.ok a, v) →
        KeepsStatus i u v := fun h he => (h.ok he).keepsStatus
    have hid : (identifyProbe i).Ends (KeepsStatus i) fun _ _ _ => True := by
      intro u
      rw [identifyProbe, Op.run_read_bind]
      by_cases hk : (u.probe i).romKnown = true
      · rw [if_pos hk]
        simp [setPhase, KeepsStatus]
      · rw [if_neg hk, Op.run_bind, Op.run_attempt]
        rcases hr : (readRom (some i) (probeGroup i)).run u with ⟨e | bytes, v⟩
        · exact ((readRom_ends hb).error hr).keepsStatus
        · have := ((readRom_ends hb).ok hr).keepsStatus (i := i)
          simp only [setPhase, Op.run_modify_bind, Op.run_modify, KeepsStatus, State.probe_updateProbe_same]
          exact this
    have hcs : ∀ u v, (configureStep i).run u = (.ok (), v) → KeepsStatus i u v := by
      intro u v he
      rw [configureStep, Op.run_read_bind] at he
      by_cases hk : (u.probe i).configured = true
      · rw [if_pos hk] at he
        obtain rfl : u = v := congrArg Prod.snd he
        exact ⟨rfl, rfl⟩
      · rw [if_neg hk, Op.run_read_bind, Op.run_bind, Op.run_attempt] at he
        rcases hr : (configureProbe (some i) (probeGroup i) u.activeBits).run u with ⟨e | w, v'⟩ <;> rw [hr] at he
        · cases congrArg Prod.fst he
        · have := ((configureProbe_ends hb _).ok hr).keepsStatus (i := i)
          obtain rfl := congrArg Prod.snd he
          simp only [Op.run_modify, KeepsStatus, State.probe_updateProbe_same]
          exact this
    rw [initiateSteps] at hx
    obtain ⟨_, s1, h1, hx⟩ := Op.of_run_bind_ok hx
    obtain ⟨_, s2, h2, hx⟩ := Op.of_run_bind_ok hx
    obtain ⟨_, s3, h3, hx⟩ := Op.of_run_bind_ok hx
    rw [Op.run_read_bind] at hx
    obtain ⟨_, s4, h4, hx⟩ := Op.of_run_bind_ok hx
    obtain ⟨_, s5, h5, hx⟩ := Op.of_run_bind_ok hx
    obtain ⟨_, s6, h6, hx⟩ := Op.of_run_bind_ok hx
    obtain ⟨_, s7, h7, hx⟩ := Op.of_run_bind_ok hx
    obtain ⟨_, s8, h8, hx⟩ := Op.of_run_bind_ok hx
    obtain ⟨_, s9, h9, hx⟩ := Op.of_run_bind_ok hx
    have p1 : (s1.probe i).lastError = .none ∧ (s1.probe i).errorOrigin = .none := by
      obtain rfl := congrArg Prod.snd h1
      simp [resetTelemetry]
    have ph : ∀ {u v : State} {p : ProbePhase}, (setPhase i p).run u = (.ok (), v) → KeepsStatus i u v := by
      intro u v p h
      obtain rfl := congrArg Prod.snd h
      simp [KeepsStatus, setPhase]
    have p9 := (keepsStatus_composes i).trans (status (resetAndConfigure_ends hb _) h2)
      ((keepsStatus_composes i).trans (ph h3) ((keepsStatus_composes i).trans (status (selectChannel_ends hb _ _) h4)
        ((keepsStatus_composes i).trans (ph h5) ((keepsStatus_composes i).trans (hid.ok h6)
          ((keepsStatus_composes i).trans (hcs _ _ h7) ((keepsStatus_composes i).trans (ph h8)
            (status (triggerConversion_ends hb) h9)))))))
    have c9 : (s9.probe i).configured = true := by
      have c7 := (configureStep_ends i).2 _ _ h7
      have e9 := ((triggerConversion_ends hb).ok h9).probes
      obtain rfl := congrArg Prod.snd h8
      simp only [State.probe, e9]
      change (State.probe (s7.updateProbe i _) i).configured = true
      rw [State.probe_updateProbe_same]
      exact c7
    obtain rfl := congrArg Prod.snd hx
    simp [setPhase, p9, p1, c9]

/-- Probe i after its part of `initiate_all`, whatever the transport answers: Converting, configured and without error,
or Errored with origin INIT (spec/44_probe_manager.md R165, R166). -/
theorem initiateProbe_outcome (s : State) (i : Fin 16) :
    InitProgress i s (initiateProbe s i) ∧
    ((((initiateProbe s i).probe i).lastError = .none ∧ ((initiateProbe s i).probe i).errorOrigin = .none ∧
        ((initiateProbe s i).probe i).phase = .converting ∧ ((initiateProbe s i).probe i).configured = true) ∨
      (((initiateProbe s i).probe i).lastError ≠ .none ∧ ((initiateProbe s i).probe i).errorOrigin = .init ∧
        ((initiateProbe s i).probe i).phase = .errored)) := by
  rcases initiateSteps_ends i s with ⟨t, h, hp, hs⟩ | ⟨f, t, h, hp, hk⟩ <;> simp only [initiateProbe, h]
  · exact ⟨hp, .inl hs⟩
  · refine ⟨(initProgress_composes i).trans hp (initProgress_status (fun _ => rfl) t), .inr ?_⟩
    rw [recordFailure, State.probe_updateProbe_same]
    exact ⟨hk, rfl, rfl⟩

/-! ### `get_all`, one probe -/

/-- Probe i after its part of `get_all`, whatever the transport answers: untouched when not eligible; else Errored with
origin GET and otherwise as before, or holding the decode of a scratchpad with a right CRC, echo and reserved bytes
(spec/44_probe_manager.md R169, R170). -/
theorem getProbe_outcome (s : State) (i : Fin 16) :
    ((s.probe i).eligible = false ∧ getProbe s i = (s, false)) ∨
    ((s.probe i).eligible = true ∧ ProbeFrame i s (getProbe s i).1 ∧
      ((∃ k, k ≠ .none ∧ (getProbe s i).1.probe i =
          { s.probe i with lastError := k, errorOrigin := .get, phase := .errored }) ∨
        ∃ sp v, crc8 (sp.toList.take 8) = sp[8] ∧ sp[4] = s.cfg.resCfg[s.activeIndex] ∧ sp[5] = 0xFF ∧
          sp[7] = 0x10 ∧ IsReading s.cfg sp s.activeIndex v ∧
          (getProbe s i).1.probe i = { s.probe i with
            celsiusSign := v.cSign, celsiusWhole := v.cWhole, celsiusFractionTenths := v.cFrac.setWidth 8,
            fahrenheitSign := v.fSign, fahrenheitWhole := v.fWhole,
            fahrenheitFractionTenths := v.fFrac.setWidth 8,
            lastError := .none, errorOrigin := .none, phase := .readingReady })) := by
  by_cases he : (s.probe i).eligible = true
  · refine .inr ⟨he, ?_⟩
    rw [getProbe, if_pos he]
    have hb := bridgeFrame_steps (some i) (probeGroup i)
    have hf := failure_steps (some i) (probeGroup i)
    have hB : (fetchScratchpad i).Ends (BridgeFrame (probeGroup i)) fun _ => BridgeFrame (probeGroup i) :=
      Op.ends_bind hb.toEndsCompose (Op.ends_read hb.toEndsCompose _) fun _ =>
        Op.ends_bind hb.toEndsCompose (selectChannel_ends hb _ _) fun _ => retrieveScratchpad_ends hb
    have hF : (fetchScratchpad i).Ends (fun _ _ => True) fun f _ _ => f.kind ≠ .none ∧
        (f.kind.code, f.loc) ∈ bridgeLocations :=
      Op.ends_bind hf.toEndsCompose (Op.ends_read hf.toEndsCompose _) fun _ =>
        Op.ends_bind hf.toEndsCompose (selectChannel_ends hf _ _) fun _ => retrieveScratchpad_ends hf
    have keep : ∀ {t : State}, BridgeFrame (probeGroup i) s t → t.probe i = s.probe i := fun h => by
      simp only [State.probe, h.probes]
    rcases hx : (fetchScratchpad i).run s with ⟨f | sp, t⟩
    · have hfr := hB.error hx
      dsimp only
      refine ⟨(probeFrame_composes i).trans hfr.probeFrame (probeFrame_update _), .inl ⟨f.kind, (hF.error hx).1, ?_⟩⟩
      simp only [recordFailure, State.probe_updateProbe_same, keep hfr]
    · have hfr := hB.ok hx
      have hcrc : crc8 (sp.toList.take 8) = sp[8] := by
        rw [fetchScratchpad, Op.run_read_bind] at hx
        obtain ⟨_, _, -, hx⟩ := Op.of_run_bind_ok hx
        exact retrieveScratchpad_crc hx
      have hi : t.activeIndex = s.activeIndex := by simp only [State.activeIndex, hfr.activeRes]
      have hrep : ∀ k loc extra, ProbeFrame i t (t.report (some i) k loc extra) := fun k loc extra => by
        have : BridgeFrame (probeGroup i) t (t.report (some i) k loc extra) := by
          simp [BridgeFrame, State.report, State.emit]
        exact this.probeFrame
      dsimp only
      rw [decodeStep, hi]
      rcases decodeScratchpad_cases (some i) sp s.activeIndex t with ⟨-, e⟩ | ⟨-, -, e⟩ | ⟨h4, h5, h7, v, n, e, hv, -⟩ <;>
        rw [e] <;> dsimp only
      · refine ⟨(probeFrame_composes i).trans ((probeFrame_composes i).trans hfr.probeFrame (hrep _ _ _))
          (probeFrame_update _), .inl ⟨.resolutionMismatch, by decide, ?_⟩⟩
        rw [recordFailure, State.probe_updateProbe_same, ← keep hfr]
        rfl
      · refine ⟨(probeFrame_composes i).trans ((probeFrame_composes i).trans hfr.probeFrame (hrep _ _ _))
          (probeFrame_update _), .inl ⟨.scratchpadCorrupt, by decide, ?_⟩⟩
        rw [recordFailure, State.probe_updateProbe_same, ← keep hfr]
        rfl
      · rw [hfr.cfg] at h4 hv
        refine ⟨(probeFrame_composes i).trans ((probeFrame_composes i).trans hfr.probeFrame ?_)
          (probeFrame_update _), .inr ⟨sp, v, hcrc, h4, h5, h7, hv, ?_⟩⟩
        · simp [ProbeFrame, State.probe]
        · rw [storeReading, State.probe_updateProbe_same, ← keep hfr]
          rfl
  · have he' := Bool.eq_false_iff.mpr he
    exact .inl ⟨he', by simp [getProbe, he']⟩

end Sys2Proof.Machine
end

