-- ==== Sys2Proof/Laws/NegMode.lean ====
section
/-! SUPPORT. NEG_MODE is read by no operation: an operation does the same under every NEG_MODE, so that PM_GET_ALL goes
the same way under each up to its first decode (spec/43_temperature.md R149). -/

namespace Sys2Proof.Machine

/-- The state under another NEG_MODE. -/
def State.withNegMode (m : NegMode) (s : State) : State := { s with cfg := { s.cfg with negMode := m } }

/-- The operation does the same under every NEG_MODE. -/
def Op.Blind {α : Type} (x : Op α) : Prop :=
  ∀ m s, x.run (s.withNegMode m) = ((x.run s).1, (x.run s).2.withNegMode m)

section Blind
variable {α β : Type}

theorem Op.blind_pure (a : α) : (pure a : Op α).Blind := fun _ _ => rfl

theorem Op.blind_bind {x : Op α} {f : α → Op β} (hx : x.Blind) (hf : ∀ a, (f a).Blind) : (x >>= f).Blind := by
  intro m s
  rw [Op.run_bind, Op.run_bind, hx m s]
  rcases x.run s with ⟨e | a, t⟩
  · rfl
  · exact hf a m t

theorem Op.blind_read {f : State → α} (h : ∀ m s, f (s.withNegMode m) = f s) : (Op.read f).Blind := fun m s => by
  simp only [Op.run_read, h]

theorem Op.blind_modify {f : State → State} (h : ∀ m s, f (s.withNegMode m) = (f s).withNegMode m) :
    (Op.modify f).Blind := fun m s => by
  simp only [Op.run_modify, h]

/-- An operation that reads the configuration, but not NEG_MODE. -/
theorem Op.blind_cfg {k : Config → Op α} (hk : ∀ m c, k { c with negMode := m } = k c) (h : ∀ c, (k c).Blind) :
    (Op.read State.cfg >>= k).Blind := by
  intro m s
  rw [Op.run_read_bind, Op.run_read_bind]
  exact (congrArg (fun x : Op α => x.run (s.withNegMode m)) (hk m s.cfg)).trans (h s.cfg m s)

theorem blind_raise {ctx : Option (Fin 16)} {k : ErrorKind} {loc extra : Half} :
    (raise ctx k loc extra : Op α).Blind := fun _ _ => rfl

theorem blind_delay (d : Nat) : (delay d).Blind := fun _ _ => rfl

theorem blind_transact (t : TransportId) (addr : BitVec 7) (wb : List Byte) (rc : Nat) :
    (transact t addr wb rc).Blind := fun _ _ => rfl

end Blind

section Bridge
variable (ctx : Option (Fin 16)) (g : Group)

theorem bridgeWrite_blind (loc : Half) (wb : List Byte) : (bridgeWrite ctx g loc wb).Blind :=
  Op.blind_bind (Op.blind_read fun _ _ => rfl) fun _ => Op.blind_bind (blind_transact _ _ _ _) fun a => by
    cases a
    · exact Op.blind_pure _
    · exact blind_raise

theorem bridgeRead_blind (loc : Half) : (bridgeRead ctx g loc).Blind :=
  Op.blind_bind (Op.blind_read fun _ _ => rfl) fun _ => Op.blind_bind (blind_transact _ _ _ _) fun a => by
    cases a
    · exact Op.blind_pure _
    · exact blind_raise

theorem pollLoop_blind (cmd1 : Byte) (left i : Nat) : (pollLoop ctx g cmd1 left i).Blind := by
  induction left generalizing i with
  | zero => exact Op.blind_bind (Op.blind_read fun _ _ => rfl) fun _ => blind_raise
  | succ n ih =>
    refine Op.blind_bind (bridgeRead_blind _ _ _) fun st => Op.blind_bind (Op.blind_modify fun _ _ => rfl) fun _ => ?_
    refine Op.blind_cfg (fun _ _ => rfl) fun c => ?_
    split
    · exact Op.blind_bind (blind_delay _) fun _ => ih _
    · split
      · exact blind_raise
      · exact Op.blind_pure _

theorem sendCommand_blind (cmd1 cmd2 : Byte) : (sendCommand ctx g cmd1 cmd2).Blind := by
  refine Op.blind_bind (bridgeWrite_blind _ _ _ _) fun _ => Op.blind_cfg (fun _ _ => rfl) fun c => ?_
  split
  · exact Op.blind_pure _
  · exact Op.blind_bind (Op.blind_modify fun _ _ => rfl) fun _ => pollLoop_blind _ _ _ _ _

theorem oneWireReset_blind : (oneWireReset ctx g).Blind :=
  Op.blind_cfg (fun _ _ => rfl) fun _ => sendCommand_blind _ _ _ _

theorem writeByte_blind (b : Byte) : (writeByte ctx g b).Blind :=
  Op.blind_cfg (fun _ _ => rfl) fun _ => sendCommand_blind _ _ _ _

theorem readByte_blind : (readByte ctx g).Blind :=
  Op.blind_cfg (fun _ _ => rfl) fun _ => Op.blind_bind (sendCommand_blind _ _ _ _) fun _ =>
    Op.blind_bind (sendCommand_blind _ _ _ _) fun _ => bridgeRead_blind _ _ _

theorem selectChannel_blind (w v : Byte) : (selectChannel ctx g w v).Blind := by
  refine Op.blind_cfg (fun _ _ => rfl) fun _ => Op.blind_bind (sendCommand_blind _ _ _ _) fun _ =>
    Op.blind_bind (bridgeRead_blind _ _ _) fun rb => ?_
  split
  · exact Op.blind_pure _
  · exact blind_raise

theorem readIntoBuf_blind (ks : List (Fin 9)) : (readIntoBuf ctx g ks).Blind := by
  induction ks with
  | nil => exact Op.blind_pure _
  | cons k ks ih =>
    exact Op.blind_bind (readByte_blind _ _) fun _ => Op.blind_bind (Op.blind_modify fun _ _ => rfl) fun _ => ih

theorem checkBufCrc_blind (n : Nat) (loc : Half) : (checkBufCrc ctx n loc).Blind := by
  refine Op.blind_bind (Op.blind_read fun _ _ => rfl) fun c => Op.blind_bind (Op.blind_read fun _ _ => rfl) fun r => ?_
  split
  · exact Op.blind_pure _
  · exact blind_raise

theorem checkShort_blind : (checkShort ctx g).Blind := by
  refine Op.blind_cfg (fun _ _ => rfl) fun c => Op.blind_bind (Op.blind_read fun _ _ => rfl) fun st => ?_
  split
  · exact blind_raise
  · exact Op.blind_pure _

theorem retrieveScratchpad_blind : (retrieveScratchpad ctx g).Blind :=
  Op.blind_cfg (fun _ _ => rfl) fun _ => Op.blind_bind (oneWireReset_blind _ _) fun _ =>
    Op.blind_bind (checkShort_blind _ _) fun _ => Op.blind_bind (writeByte_blind _ _ _) fun _ =>
    Op.blind_bind (writeByte_blind _ _ _) fun _ => Op.blind_bind (readIntoBuf_blind _ _ _) fun _ =>
    Op.blind_bind (checkBufCrc_blind _ _ _) fun _ => Op.blind_read fun _ _ => rfl

end Bridge

/-- Steps 1 and 2 of `get_all` do the same under every NEG_MODE (spec/44_probe_manager.md R169). -/
theorem fetchScratchpad_blind (i : Fin 16) : (fetchScratchpad i).Blind :=
  Op.blind_cfg (fun _ _ => rfl) fun _ => Op.blind_bind (selectChannel_blind _ _ _ _) fun _ => retrieveScratchpad_blind _ _

/-- The decode of probe i is called exactly when the probe is eligible and ends without error or with one of the
decode's own (spec/44_probe_manager.md R169, spec/43_temperature.md R145). -/
theorem getProbe_decodes (s : State) (i : Fin 16) :
    (getProbe s i).2 = true ↔ (s.probe i).eligible = true ∧
      ((getProbe s i).1.probe i).lastError ∈ [.none, .resolutionMismatch, .scratchpadCorrupt] := by
  by_cases he : (s.probe i).eligible = true
  · rw [getProbe, if_pos he]
    have hf := failure_steps (some i) (probeGroup i)
    have hF : (fetchScratchpad i).Ends (fun _ _ => True) fun f _ _ => f.kind ≠ .none ∧
        (f.kind.code, f.loc) ∈ bridgeLocations :=
      Op.ends_bind hf.toEndsCompose (Op.ends_read hf.toEndsCompose _) fun _ =>
        Op.ends_bind hf.toEndsCompose (selectChannel_ends hf _ _) fun _ => retrieveScratchpad_ends hf
    rcases hx : (fetchScratchpad i).run s with ⟨f | sp, t⟩
    · obtain ⟨hk, hl⟩ := hF.error hx
      have h8 := (List.mem_filter.mp hl).2
      simp only [recordFailure, State.probe_updateProbe_same, he, true_and]
      rcases f with ⟨k, loc, extra⟩
      cases k <;> simp_all [ErrorKind.code]
    · simp only [he, true_and, decodeStep]
      rcases decodeScratchpad_cases (some i) sp t.activeIndex t with ⟨-, e⟩ | ⟨-, -, e⟩ | ⟨-, -, -, v, n, e, -⟩ <;>
        rw [e] <;> simp [recordFailure, storeReading]
  · simp [getProbe, he]

/-- A probe whose decode is not called is processed alike under every NEG_MODE, and whether it is called does not depend
on NEG_MODE (spec/44_probe_manager.md R169). -/
theorem getProbe_blind (m : NegMode) (s : State) (i : Fin 16) :
    (getProbe (s.withNegMode m) i).2 = (getProbe s i).2 ∧
      ((getProbe s i).2 = false → (getProbe (s.withNegMode m) i).1 = (getProbe s i).1.withNegMode m) := by
  unfold getProbe
  have e : (s.withNegMode m).probe i = s.probe i := rfl
  rw [e, fetchScratchpad_blind i m s]
  split
  · rcases (fetchScratchpad i).run s with ⟨f | sp, t⟩
    · exact ⟨rfl, fun _ => rfl⟩
    · exact ⟨rfl, nofun⟩
  · exact ⟨rfl, fun _ => rfl⟩

/-- `get_all` reaches a decode under every NEG_MODE alike, and ends alike when it reaches none. -/
theorem getProbes_blind (m : NegMode) (is : List (Fin 16)) (s : State) :
    (getProbes (s.withNegMode m) is).2 = (getProbes s is).2 ∧
      ((getProbes s is).2 = false → (getProbes (s.withNegMode m) is).1 = (getProbes s is).1.withNegMode m) := by
  induction is generalizing s with
  | nil => exact ⟨rfl, fun _ => rfl⟩
  | cons i is ih =>
    obtain ⟨h1, h2⟩ := getProbe_blind m s i
    simp only [getProbes]
    rw [h1]
    cases hd : (getProbe s i).2 with
    | true => exact ⟨rfl, nofun⟩
    | false =>
      rw [h2 hd]
      simpa using ih (getProbe s i).1

end Sys2Proof.Machine
end

