-- ==== Sys2Proof/Laws/PerInstr.lean ====
section
/-! SUPPORT. The fields of an encoded command word, one lemma per command. -/

namespace Sys2Proof

/-- A packed word as a number (spec/30_encoding.md R74). -/
theorem packWord_toNat (op a b : Byte) (g : BitVec 1) :
    (packWord op a b g).toNat = op.toNat * 2 ^ 24 + a.toNat * 2 ^ 16 + b.toNat * 2 ^ 8 + g.toNat := by
  have h : (packWord op a b g).toNat =
      ((op ++ a ++ b ++ (0 : BitVec 7) ++ g : BitVec (8 + 8 + 8 + 7 + 1))).toNat := rfl
  have ha := a.isLt
  have hb := b.isLt
  have hg := g.isLt
  have hz : (0 : BitVec 7).toNat = 0 := rfl
  rw [h, BitVec.toNat_append, ← Nat.shiftLeft_add_eq_or_of_lt hg,
    BitVec.toNat_append, ← Nat.shiftLeft_add_eq_or_of_lt (by omega),
    BitVec.toNat_append, ← Nat.shiftLeft_add_eq_or_of_lt hb,
    BitVec.toNat_append, ← Nat.shiftLeft_add_eq_or_of_lt ha]
  simp only [Nat.shiftLeft_eq, hz]
  omega

/-- The five fields of a packed word are those it was packed from (spec/30_encoding.md R70, R74). -/
theorem packWord_fields (op a b : Byte) (g : BitVec 1) :
    opField (packWord op a b g) = op ∧ aField (packWord op a b g) = a ∧ bField (packWord op a b g) = b ∧
      zField (packWord op a b g) = 0 ∧ gField (packWord op a b g) = g := by
  have ho := op.isLt
  have ha := a.isLt
  have hb := b.isLt
  have hg := g.isLt
  have hz : (0 : BitVec 7).toNat = 0 := rfl
  refine ⟨?_, ?_, ?_, ?_, ?_⟩ <;> apply BitVec.eq_of_toNat_eq <;>
    simp only [opField, aField, bField, zField, gField, BitVec.extractLsb'_toNat, packWord_toNat,
      Nat.shiftRight_eq_div_pow, hz] <;> omega

/-- What family EncodeFields says of a command: the word it is encoded to has its opcode in OP and 0 in Z
(spec/30_encoding.md R70, R71, R74). -/
def Laws.EncodeFields.Statement (i : Instr) : Prop := opField (encode i) = opcode i ∧ zField (encode i) = 0

namespace Laws.EncodeFields

theorem of_packWord (op a b : Byte) (g : BitVec 1) :
    opField (packWord op a b g) = op ∧ zField (packWord op a b g) = 0 :=
  ⟨(packWord_fields op a b g).1, (packWord_fields op a b g).2.2.2.1⟩

theorem bufLoad (index : Byte) (value : Byte) : Statement (.bufLoad index value) := of_packWord ..
theorem crcCompute (length : Byte) : Statement (.crcCompute length) := of_packWord ..
theorem crcValidate (payloadLen : Byte) : Statement (.crcValidate payloadLen) := of_packWord ..
theorem setLogging (flag : Byte) : Statement (.setLogging flag) := of_packWord ..
theorem brSend (g : Group) (cmd1 : Byte) (cmd2 : Byte) : Statement (.brSend g cmd1 cmd2) := of_packWord ..
theorem brResetCfg (g : Group) (force : Byte) : Statement (.brResetCfg g force) := of_packWord ..
theorem brSelect (g : Group) (w : Byte) (v : Byte) : Statement (.brSelect g w v) := of_packWord ..
theorem br1wReset (g : Group) : Statement (.br1wReset g) := of_packWord ..
theorem brWriteByte (g : Group) (b : Byte) : Statement (.brWriteByte g b) := of_packWord ..
theorem brReadByte (g : Group) : Statement (.brReadByte g) := of_packWord ..
theorem brReadRom (g : Group) : Statement (.brReadRom g) := of_packWord ..
theorem brConfigProbe (g : Group) (bits : Byte) : Statement (.brConfigProbe g bits) := of_packWord ..
theorem brTriggerConv (g : Group) : Statement (.brTriggerConv g) := of_packWord ..
theorem brRetrieveSp (g : Group) : Statement (.brRetrieveSp g) := of_packWord ..
theorem tdDecode (resIndex : Byte) : Statement (.tdDecode resIndex) := of_packWord ..
theorem tdCToF (sign : Bool) (whole : Byte) (tenths : Byte) : Statement (.tdCToF sign whole tenths) := of_packWord ..
theorem pmInitiateAll : Statement (.pmInitiateAll) := of_packWord ..
theorem pmGetAll : Statement (.pmGetAll) := of_packWord ..
theorem pmSetResolution (index : Byte) : Statement (.pmSetResolution index) := of_packWord ..
theorem adcPass : Statement (.adcPass) := of_packWord ..

end Laws.EncodeFields

end Sys2Proof
end

