-- ==== Sys2Proof/Laws/Reset.lean ====
section
/-! SUPPORT. What a reset that lands inside a command leaves (spec/70_reset_and_hazards.md R227). -/

namespace Sys2Proof.Machine

@[simp] theorem Transport.served_zero (x : Transport) : x.served 0 = x := by
  simp [Transport.served]

/-- Serving one transaction more is drawing one answer. -/
theorem Transport.served_succ (t : TransportId) (n : Nat) (x : Transport) :
    x.served (n + 1) = (Transport.draw t x).2.served n := by
  rcases x with ⟨_ | ⟨a, l⟩, d⟩
  · simp [Transport.served, Transport.draw]
    omega
  · simp [Transport.served, Transport.draw]

@[simp] theorem Transports.get_served (evs : List Event) (ts : Transports) (t : TransportId) :
    (ts.served evs).get t = (ts.get t).served (evs.countP (Event.onTransport t)) := by
  rcases t with (_ | _) | _ <;> rfl

@[simp] theorem cutByReset_cfg (s t : State) (done : List Event) : (cutByReset s t done).cfg = t.cfg := rfl
@[simp] theorem cutByReset_events (s t : State) (done : List Event) :
    (cutByReset s t done).env.events = done ++ s.env.events := rfl
@[simp] theorem cutByReset_transport (s t : State) (done : List Event) (x : TransportId) :
    (cutByReset s t done).transport x = (s.transport x).served (done.countP (Event.onTransport x)) :=
  Transports.get_served _ _ _

section
variable {n : Nat} {s t : State} {new : List Event} (h : NewEvents s t new)
include h

theorem NewEvents.take_new : t.env.events.take (t.env.events.length - s.env.events.length) = new := by
  rw [h]
  simp

/-- A reset that is due within the events cuts what they belong to (R227). -/
theorem landReset_cut (hcfg : t.cfg = s.cfg) (hn : n ≤ new.length) : CutAfter n s t (landReset n s t) := by
  have e : landReset n s t = cutByReset s t (new.drop (new.length - n)) := by
    simp only [landReset, h.take_new, if_pos hn]
  rw [e]
  refine ⟨new.drop (new.length - n), new.take (new.length - n), ?_, by rw [List.length_drop]; omega, ?_, ?_⟩
  · rw [List.take_append_drop]
    exact h
  · simp [cutByReset, applyReset, hcfg]
  · intro x
    rw [cutByReset_transport]
    rfl

/-- A reset that is due later comes nearer by the events (R227). -/
theorem landReset_later (hn : new.length < n) :
    landReset n s t = { t with env := { t.env with resetRequest := .within (n - new.length) } } := by
  simp only [landReset, h.take_new, if_neg (Nat.not_le.mpr hn)]

end

/-- What the reset input makes of an outcome (R227): nothing when no reset is due inside a command. -/
theorem underReset_of_ne {s : State} (h : ∀ n, s.env.resetRequest ≠ .within n)
    (o : Host.Outcome State Fault Refusal) : underReset s o = o := by
  unfold underReset
  rcases hr : s.env.resetRequest with _ | _ | n
  · rfl
  · rfl
  · exact absurd hr (h n)

theorem underReset_within {s t : State} {n : Nat} (h : s.env.resetRequest = .within n) :
    underReset s (.next t) = .next (landReset n s t) := by
  simp only [underReset, h]

end Sys2Proof.Machine
end

