-- ==== Sys2Proof/Tests/Slice0.lean ====
section
/-! SUPPORT. Tests: ill-formed terms, decoding of words written out from the spec's encodings, one or two steps per
command against the vectors of spec/95_test_vectors.md, and a witness for the hypotheses of each statement. -/

namespace Sys2Proof.Tests

open Sys2Proof Sys2Proof.Machine

/-! ### Well-formedness: an ill-formed term for each check (spec/30_encoding.md R71) -/

theorem test_wf_bufLoad : (Instr.bufLoad 9 0).wf = false ∧ (Instr.bufLoad 8 0xFF).wf = true := by decide
theorem test_wf_crcCompute :
    (Instr.crcCompute 0).wf = false ∧ (Instr.crcCompute 10).wf = false ∧ (Instr.crcCompute 9).wf = true := by decide
theorem test_wf_crcValidate : (Instr.crcValidate 6).wf = false ∧ (Instr.crcValidate 9).wf = false ∧
    (Instr.crcValidate 7).wf = true ∧ (Instr.crcValidate 8).wf = true := by decide
theorem test_wf_setLogging : (Instr.setLogging 2).wf = false ∧ (Instr.setLogging 1).wf = true := by decide
theorem test_wf_brResetCfg : (Instr.brResetCfg .g0 2).wf = false ∧ (Instr.brResetCfg .g1 1).wf = true := by decide
theorem test_wf_brConfigProbe : (Instr.brConfigProbe .g0 8).wf = false ∧ (Instr.brConfigProbe .g0 13).wf = false ∧
    (Instr.brConfigProbe .g0 9).wf = true ∧ (Instr.brConfigProbe .g0 12).wf = true := by decide
theorem test_wf_tdDecode : (Instr.tdDecode 4).wf = false ∧ (Instr.tdDecode 3).wf = true := by decide
theorem test_wf_tdCToF : (Instr.tdCToF false 128 0).wf = false ∧ (Instr.tdCToF true 0 10).wf = false ∧
    (Instr.tdCToF true 127 9).wf = true := by decide

/-! ### Decoding: words written out from the encodings (spec/95_test_vectors.md 2.1) -/

/-- OP 0x01, A = 7, B = 0xA2; OP 0x02; OP 0x03 with both payload lengths; OP 0x04. -/
theorem test_decode_local :
    decode 0b00000001_00000111_10100010_0000000_0 = .ok (.bufLoad 7 0xA2) ∧
    decode 0b00000010_00000111_00000000_0000000_0 = .ok (.crcCompute 7) ∧
    decode 0b00000011_00000111_00000000_0000000_0 = .ok (.crcValidate 7) ∧
    decode 0b00000011_00001000_00000000_0000000_0 = .ok (.crcValidate 8) ∧
    decode 0b00000100_00000001_00000000_0000000_0 = .ok (.setLogging 1) := by decide
/-- OP 0x10 to 0x15, both groups. -/
theorem test_decode_primitives :
    decode 0b00010000_10110100_00000000_0000000_1 = .ok (.brSend .g1 0xB4 0) ∧
    decode 0b00010000_00000000_10110100_0000000_0 = .ok (.brSend .g0 0 0xB4) ∧
    decode 0b00010001_00000001_00000000_0000000_0 = .ok (.brResetCfg .g0 1) ∧
    decode 0b00010010_11010010_10101010_0000000_0 = .ok (.brSelect .g0 0xD2 0xAA) ∧
    decode 0b00010011_00000000_00000000_0000000_1 = .ok (.br1wReset .g1) ∧
    decode 0b00010100_11001100_00000000_0000000_1 = .ok (.brWriteByte .g1 0xCC) ∧
    decode 0b00010101_00000000_00000000_0000000_0 = .ok (.brReadByte .g0) := by decide
/-- OP 0x18 to 0x1B. -/
theorem test_decode_sequences :
    decode 0b00011000_00000000_00000000_0000000_0 = .ok (.brReadRom .g0) ∧
    decode 0b00011001_00001100_00000000_0000000_0 = .ok (.brConfigProbe .g0 12) ∧
    decode 0b00011010_00000000_00000000_0000000_1 = .ok (.brTriggerConv .g1) ∧
    decode 0b00011011_00000000_00000000_0000000_0 = .ok (.brRetrieveSp .g0) := by decide
/-- OP 0x20, 0x21 with both signs, 0x30 to 0x32, 0x40. -/
theorem test_decode_units :
    decode 0b00100000_00000011_00000000_0000000_0 = .ok (.tdDecode 3) ∧
    decode 0b00100001_00010110_00000101_0000000_0 = .ok (.tdCToF false 22 5) ∧
    decode 0b00100001_00010001_00001000_0000000_1 = .ok (.tdCToF true 17 8) ∧
    decode 0b00110000_00000000_00000000_0000000_0 = .ok .pmInitiateAll ∧
    decode 0b00110001_00000000_00000000_0000000_0 = .ok .pmGetAll ∧
    decode 0b00110010_00000111_00000000_0000000_0 = .ok (.pmSetResolution 7) ∧
    decode 0b01000000_00000000_00000000_0000000_0 = .ok .adcPass := by decide
/-- The illegal words of spec/95_test_vectors.md 2.1, by the test each fails. -/
theorem test_decode_illegal :
    decode 0x00000000 = .error (.reservedOpcode 0x00) ∧ decode 0x16000000 = .error (.reservedOpcode 0x16) ∧
    decode 0x01090000 = .error .operandRange ∧ decode 0x02000000 = .error .operandRange ∧
    decode 0x03090000 = .error .operandRange ∧ decode 0x04020000 = .error .operandRange ∧
    decode 0x19080000 = .error .operandRange ∧ decode 0x20040000 = .error .operandRange ∧
    decode 0x21800000 = .error .operandRange ∧ decode 0x21000A00 = .error .operandRange ∧
    decode 0x20000001 = .error .nonzeroField ∧ decode 0x15000002 = .error .reservedBits ∧
    decode 0x13010000 = .error .nonzeroField ∧ decode 0x30000001 = .error .nonzeroField := by decide
/-- The host's form of a word: bits at `nbits` and above are 0. -/
theorem test_decodeTableWord :
    decodeTableWord 32 0x10B40001 = some (.brSend .g1 0xB4 0) ∧ decodeTableWord 32 0x00000000 = none ∧
    decodeTableWord 32 0x131000000 = some .pmGetAll := by decide

/-! ### Small states -/

/-- The default configuration with example values for the OPEN parameters (spec/95_test_vectors.md: trigger bytes 4B
46; ADC_SAMPLES = 3 as in P5). -/
def cfg0 : Config :=
  { Config.default with
    pollDelay := 1
    eepromWriteLatency := 10
    trigger0Less1 := 0x4A
    trigger1Less1 := 0x45
    adcAddr := 0x48
    adcSel := #v[1, 2, 3, 4, 5, 6, 7, 8]
    adcSamplesLess3 := 0 }

/-- The state after reset under `cfg0`. -/
def s0 : State := { State.reset with cfg := cfg0 }

/-- `s0` with transport T[g] answering `l` first. -/
def sT (g : Group) (l : List Answer) : State := s0.setTransport (.grp g) ⟨l, 0⟩

/-- `s0` with T[ADC] answering `l` first. -/
def sA (l : List Answer) : State := s0.setTransport .adc ⟨l, 0⟩

/-- `s0` with BUF = `b`. -/
def sB (b : Vector Byte 9) : State := { s0 with buf := b }

/-- A read answered with `b`. -/
def rd (b : Byte) : Answer := .ok b 0

/-- A poll script that reads the status byte `st` at once. -/
def poll (st : Byte) : PollScript := ⟨(0, 0), [], (st, 0)⟩

/-- A read script that delivers `b`, its poll idle. -/
def readOf (b : Byte) : ReadScript := ⟨poll 0x02, (0, 0), (b, 0)⟩

/-- The next state of a command. -/
def after (i : Instr) (s : State) : State :=
  match exec i s with
  | .next t => t
  | .fault _ => s
  | .refused _ => s

/-- The bytes an event writes. -/
def written : Event → Option (List Byte)
  | .transact _ _ [] _ _ => none
  | .transact _ _ (b :: l) _ _ => some (b :: l)
  | .delay _ => none
  | .report _ => none

/-- The scratchpad of source example S4. -/
def spad : Vector Byte 9 := #v[0x68, 0x01, 0x4B, 0x46, 0x1F, 0xFF, 0x0C, 0x10, 0xAE]

/-! ### Steps against the spec's vectors (spec/95_test_vectors.md) -/

/-- 2.2: BUF_LOAD writes its byte. -/
theorem test_bufLoad : (after (.bufLoad 7 0xA2) s0).buf = #v[0, 0, 0, 0, 0, 0, 0, 0xA2, 0] := by decide +kernel
/-- P1 step 5 and 2.2: crc8(02 1C B8 01 00 00 00) = A2, crc8(68 01 4B 46 1F FF 0C 10) = AE. -/
theorem test_crcCompute :
    (after (.crcCompute 7) (sB #v[0x02, 0x1C, 0xB8, 0x01, 0, 0, 0, 0, 0])).res = ⟨0, 0, 0, 0xA2⟩ ∧
    (after (.crcCompute 8) (sB spad)).res = ⟨0, 0, 0, 0xAE⟩ := by decide +kernel
/-- 2.2: BUF[7] = EB against the computed EA. -/
theorem test_crcValidate_mismatch :
    (after (.crcValidate 7) (sB #v[0x28, 0xFF, 0x4C, 0x8F, 0x61, 0x16, 0x04, 0xEB, 0])).res =
      ⟨7, 0x0301, 0xEAEB, 0xEA⟩ := by decide +kernel
theorem test_crcValidate_ok : (after (.crcValidate 8) (sB spad)).res = ⟨0, 0, 0, 0xAE⟩ := by decide +kernel
theorem test_setLogging : (after (.setLogging 1) s0).logVerbose = true ∧
    (after (.setLogging 0) { s0 with logVerbose := true }).logVerbose = false := by decide +kernel
/-- 2.3: busy, busy, then presence: three polls. -/
theorem test_brSend_polled :
    (after (.brSend .g0 0xB4 0) (sT .g0 [rd 0, rd 1, rd 1, rd 2])).bridge .g0 = ⟨0x02, 3⟩ := by decide +kernel
/-- 2.3: a poll read that fails after one busy poll. -/
theorem test_brSend_transportFailure :
    (after (.brSend .g0 0xB4 0) (sT .g0 [rd 0, rd 1, .err 9])).res = ⟨1, 0x1002, 0x0009, 0⟩ := by decide +kernel
/-- 2.3: low nibble 1 matches E1; low nibble 0 does not. -/
theorem test_brResetCfg :
    (after (.brResetCfg .g0 1) (sT .g0 [rd 0, rd 0x18, rd 0, rd 0xF1])).res = ⟨0, 0, 0, 0⟩ ∧
    (after (.brResetCfg .g0 1) (sT .g0 [rd 0, rd 0, rd 0, rd 0xE0])).res = ⟨6, 0x1104, 0x00E0, 0⟩ := by decide +kernel
theorem test_brSelect :
    (after (.brSelect .g0 0xD2 0xAA) (sT .g0 [rd 0, rd 0xAA])).res = ⟨0, 0, 0, 0⟩ ∧
    (after (.brSelect .g0 0xD2 0xAA) (sT .g0 [rd 0, rd 0xAB])).res = ⟨5, 0x1203, 0x00AB, 0⟩ := by decide +kernel
/-- 2.3: the short bit is not checked here; no presence fails. -/
theorem test_br1wReset :
    (after (.br1wReset .g0) (sT .g0 [rd 0, rd 6])).res = ⟨0, 0, 0, 0⟩ ∧
    (after (.br1wReset .g0) (sT .g0 [rd 0, rd 0])).res = ⟨3, 0x1003, 0x0000, 0⟩ := by decide +kernel
/-- 2.3: CC goes out as the second byte on T[1]; a data byte 0 is omitted. -/
theorem test_brWriteByte :
    ((after (.brWriteByte .g1 0xCC) (sT .g1 [rd 0, rd 0])).env.events.map written) = [none, some [0xA5, 0xCC]] ∧
    ((after (.brWriteByte .g0 0) (sT .g0 [rd 0, rd 0])).env.events.map written) = [none, some [0xA5]] := by
  decide +kernel
theorem test_brReadByte :
    (after (.brReadByte .g0) (sT .g0 [rd 0, rd 0, rd 0, rd 0x5A])).res = ⟨0, 0, 0, 0x5A⟩ ∧
    (after (.brReadByte .g0) (sT .g0 [rd 0, rd 0, rd 0, .err 3])).res = ⟨1, 0x1503, 0x0003, 0⟩ := by decide +kernel

/-- The answers of an idle reset, an idle write and the reads of `l`. -/
def romAnswers (l : List Byte) : List Answer :=
  [rd 0, rd 2, rd 0, rd 2] ++ l.flatMap fun b => [rd 0, rd 2, rd 0, rd b]

/-- 2.4: the ROM with last byte A3; and the fourth data read failing. -/
theorem test_brReadRom_mismatch :
    (after (.brReadRom .g0) (sT .g0 (romAnswers [0x02, 0x1C, 0xB8, 0x01, 0, 0, 0, 0xA3]))).res =
      ⟨7, 0x1804, 0xA2A3, 0⟩ := by decide +kernel
theorem test_brReadRom_partial :
    (after (.brReadRom .g0) (sT .g0 (romAnswers [0x28, 0xFF, 0x4C] ++ [rd 0, rd 2, rd 0, .err 4]))).buf =
      #v[0x28, 0xFF, 0x4C, 0, 0, 0, 0, 0, 0] := by decide +kernel
/-- 2.4: the 1-Wire bytes of BR_CONFIG_PROBE g0, 12 are CC 4E 4B 46 7F, then CC 48. -/
theorem test_brConfigProbe :
    ((after (.brConfigProbe .g0 12) (sT .g0 ((List.replicate 20 (rd 2)) ++
      [0, 0, 0xFF].flatMap fun b => [rd 0, rd 2, rd 0, rd b]))).env.events.reverse.filterMap written).take 10 =
      [[0xB4], [0xA5, 0xCC], [0xA5, 0x4E], [0xA5, 0x4B], [0xA5, 0x46], [0xA5, 0x7F], [0xB4], [0xA5, 0xCC],
        [0xA5, 0x48], [0xB4]] := by decide +kernel
/-- 2.4: no presence at the step-7 reset. -/
theorem test_brConfigProbe_noPresence :
    (after (.brConfigProbe .g0 10) (sT .g0 (List.replicate 13 (rd 2) ++ [rd 0]))).res = ⟨3, 0x1003, 0, 0⟩ := by decide +kernel
theorem test_brTriggerConv :
    ((after (.brTriggerConv .g1) (sT .g1 (List.replicate 6 (rd 2)))).env.events.reverse.filterMap written) =
      [[0xB4], [0xA5, 0xCC], [0xA5, 0x44]] := by decide +kernel
/-- 2.4: presence with a short; and the scratchpad of S4. -/
theorem test_brRetrieveSp_short :
    (after (.brRetrieveSp .g0) (sT .g0 [rd 0, rd 6])).res = ⟨4, 0x1B02, 0x0006, 0⟩ := by decide +kernel
theorem test_brRetrieveSp :
    (after (.brRetrieveSp .g0) (sT .g0 ([rd 0, rd 2] ++ romAnswers spad.toList))).buf = spad := by decide +kernel
/-- 2.5: raw 0168 at r = 0 gives 22.5 and 72.5; a wrong echo leaves TD_*. -/
theorem test_tdDecode : (after (.tdDecode 0) (sB spad)).td = ⟨false, 22, 5, false, 72, 5⟩ := by decide +kernel
/-- 2.5: raw FFF3 at r = 3 is (true, 0, 7), and 30.7 degrees Fahrenheit. -/
theorem test_tdDecode_negative :
    (after (.tdDecode 3) (sB #v[0xF3, 0xFF, 0x4B, 0x46, 0x7F, 0xFF, 0x0C, 0x10, 0])).td =
      ⟨true, 0, 7, false, 30, 7⟩ := by decide +kernel
/-- 2.6 and P2 step 16: -17.8 gives (true, 0, 0); 22.5 gives 72.5. -/
theorem test_tdCToF : (after (.tdCToF true 17 8) s0).td = ⟨false, 0, 0, true, 0, 0⟩ ∧
    (after (.tdCToF false 22 5) s0).td = ⟨false, 0, 0, false, 72, 5⟩ := by decide +kernel
/-- D21: 1.0 and 0.5 degrees are 33.8 and 32.9 exactly, 33.7 and 32.8 in binary64; 2.0 is 35.6 exactly and in binary64,
35.5 in binary32; 22.5 is 72.5 under all three. -/
theorem test_fArith :
    exactFahrenheit false 1 0 = ⟨false, 33, 8⟩ ∧ exactFahrenheit false 0 5 = ⟨false, 32, 9⟩ ∧
    floatFahrenheit 53 false 1 0 = ⟨false, 33, 7⟩ ∧ floatFahrenheit 53 false 0 5 = ⟨false, 32, 8⟩ ∧
    floatFahrenheit 24 false 2 0 = ⟨false, 35, 5⟩ ∧ exactFahrenheit false 2 0 = ⟨false, 35, 6⟩ ∧
    floatFahrenheit 53 false 22 5 = ⟨false, 72, 5⟩ ∧ floatFahrenheit 24 false 22 5 = ⟨false, 72, 5⟩ := by
  decide +kernel
/-- P7: every transport dead. -/
theorem test_pmInitiateAll :
    (after .pmInitiateAll ((sT .g0 (List.replicate 8 (.err 5))).setTransport (.grp .g1)
      ⟨List.replicate 8 (.err 5), 0⟩)).res = ⟨0, 0, 0xFFFF, 0⟩ := by decide +kernel
/-- P6, cut to one probe: probe 0 is read, the others meet a dead transport. -/
theorem test_pmGetAll :
    let t := after .pmGetAll ((sT .g0 ([rd 0, rd 0xB8, rd 0, rd 2] ++ romAnswers spad.toList ++
      List.replicate 7 (.err 5))).setTransport (.grp .g1) ⟨List.replicate 8 (.err 5), 0⟩)
    t.res = ⟨0, 0, 0xFFFE, 0⟩ ∧ (t.probe 0).fahrenheitWhole = 72 ∧ (t.probe 0).phase = .readingReady ∧
      (t.probe 8).errorOrigin = .get := by decide +kernel
/-- P4: resolution 3, then a clamped request. -/
theorem test_pmSetResolution :
    (after (.pmSetResolution 3) s0).activeRes = 3 ∧
    (after (.pmSetResolution 7) { s0 with activeRes := 3 }).activeRes = 0 := by decide +kernel

/-- The answers of three samples with the code of bytes `a`, `b`. -/
def samples (a b : Byte) : List Answer := [rd 0, .ok a b, rd 0, .ok a b, rd 0, .ok a b]

/-- The answers of P5, its failing first attempt left out. -/
def passAnswers : List Answer :=
  [rd 0, .ok 0x12 0x34, rd 0, .ok 0x12 0x50, rd 0, .ok 0x12 0x00] ++ samples 0x0C 0x80 ++ samples 0x12 0xC0 ++
    samples 0x19 0x00 ++ samples 0x00 0xA0 ++ samples 0x00 0xA0 ++ samples 0x00 0xA0 ++ samples 0x02 0x80

/-- P5: the averages and the horizontal differential. -/
theorem test_adcPass :
    let t := after .adcPass (sA (.err 7 :: passAnswers))
    t.adc.avg = #v[291, 200, 300, 400, 10, 10, 10, 40] ∧ t.adc.hDiff = -9 ∧ t.adc.vDiff = -30 ∧
      t.cpState = .idle := by decide +kernel
/-- A pass whose transport lists too few answers stays RUNNING. -/
theorem test_adcPass_running : (after .adcPass (sA [.err 7])).cpState = .running := by decide +kernel

/-- The step on an illegal word: the result registers (spec/95_test_vectors.md 2.1). -/
theorem test_step_illegal :
    (match step (s0.withFetchWord 32 0x21000A00) with
      | .next t => t.res
      | .fault _ => ⟨0, 0, 0, 0⟩
      | .refused _ => ⟨0, 0, 0, 0⟩) = ⟨11, 0xFF21, 0x0A00, 0⟩ := by decide +kernel
/-- The step runs the placed word. -/
theorem test_step_withFetchWord :
    (match step (s0.withFetchWord 32 0x0107A200) with
      | .next t => (t.buf[7], t.cmd, t.cpState)
      | .fault _ => (0, 0, .running)
      | .refused _ => (0, 0, .running)) = (0xA2, 0x0107A200, .idle) := by decide +kernel

/-- A state whose next word is `BR_SEND g0, 0xB4` and whose reset input is `r`. -/
def sR (r : ResetRequest) : State :=
  let s := placeWord 0x10B40000 (sT .g0 [rd 0, rd 2, rd 9])
  { s with env := { s.env with resetRequest := r } }

/-- The next state of a step. -/
def stepped (s : State) : State :=
  match step s with
  | .next t => t
  | .fault _ => s
  | .refused _ => s

/-- R227: a reset after the first of the two events of a command; the command write has gone out and its answer is
used up, nothing else of the command happens, and CMD and the result registers are reset. -/
theorem test_step_cut :
    (stepped (sR (.within 1))).env.events.map written = [some [0xB4]] ∧
    ((stepped (sR (.within 1))).transport (.grp .g0)).answers = [rd 2, rd 9] ∧
    (stepped (sR (.within 1))).cmd = 0 ∧ (stepped (sR (.within 1))).bridge .g0 = ⟨0, 0⟩ ∧
    (stepped (sR (.within 1))).env.resetRequest = .none := by decide +kernel
/-- R227: a reset after the third event lets the two events of the command pass and comes nearer. -/
theorem test_step_notCut :
    (stepped (sR (.within 3))).bridge .g0 = ⟨2, 1⟩ ∧ (stepped (sR (.within 3))).env.resetRequest = .within 1 := by
  decide +kernel

/-! ### Witnesses: a state and operands that meet the hypotheses of each statement, one for each of its clauses -/

/-- The default record with example values is legal, and so is the default record itself. -/
theorem witness_legal : cfg0.legal = true ∧ State.reset.cfg.legal = true := by decide +kernel

/-- A bridge command, the initiate cycle and an ADC pass answer a next state in every state. -/
theorem next_brSend (s : State) (g : Group) (a b : Byte) :
    exec (.brSend g a b) s = .next (after (.brSend g a b) s) := rfl
theorem next_brSelect (s : State) (g : Group) (a b : Byte) :
    exec (.brSelect g a b) s = .next (after (.brSelect g a b) s) := rfl
theorem next_br1wReset (s : State) (g : Group) : exec (.br1wReset g) s = .next (after (.br1wReset g) s) := rfl
theorem next_pmInitiateAll (s : State) : exec .pmInitiateAll s = .next (after .pmInitiateAll s) := rfl
theorem next_adcPass (s : State) : exec .adcPass s = .next (after .adcPass s) := rfl

/-- A poll script clears when a test of its bytes says so. -/
theorem clears_of {p : PollScript}
    (h : (p.busy.all (fun b => cfg0.busy b.1) && Nat.blt p.busy.length Config.busyPollLimit &&
      !cfg0.busy p.last.1) = true) : p.Clears cfg0 := by
  simp only [Bool.and_eq_true, List.all_eq_true, Bool.not_eq_true'] at h
  exact ⟨h.1.1, Nat.ble_eq.mp h.1.2, h.2⟩

theorem poll_idle_clears : (poll 0x02).Clears cfg0 := clears_of (by decide +kernel)

theorem poll_idle_present : (poll 0x02).Present cfg0 := ⟨poll_idle_clears, by decide +kernel⟩

/-- A poll script with two busy polls. -/
def pollBusy : PollScript := ⟨(0, 0), [(1, 0), (1, 0)], (0x06, 0)⟩

theorem pollBusy_clears : pollBusy.Clears cfg0 := clears_of (by decide +kernel)

/-- The answers of a script lead T[g] of `sT g`. -/
theorem answers_sT (g : Group) (l : List Answer) : Answers (sT g l) g l [] := by
  cases g <;> simp [Answers, sT, s0, State.transport, State.setTransport, Transports.get, Transports.set]

theorem legal_sT (g : Group) (l : List Answer) : (sT g l).cfg.legal = true := witness_legal.1

/-- 599 status bytes with busy set. -/
theorem busy_replicate : ∀ b ∈ List.replicate 599 ((0x01, 0) : Byte × Byte), cfg0.busy b.1 = true := by
  intro b hb
  rw [List.eq_of_mem_replicate hb]
  decide +kernel

theorem witness_DecodeInvertsEncode : (Instr.tdCToF true 127 9).wf = true := by decide
theorem witness_EncodeInvertsDecode : decode 0x217F0901 = .ok (.tdCToF true 127 9) := by decide

/-- The next host word is legal. -/
theorem witness_StepRunsDecodedCommand :
    let s := placeWord 0x0108FF00 s0
    s.env.resetRequest = .none ∧ s.cpState = .idle ∧ s.cfg.legal = true ∧ s.env.hostWrites = [0x0108FF00] ∧
      decode 0x0108FF00 = .ok (.bufLoad 8 0xFF) := by decide +kernel
/-- LOG_VERBOSE = 0 above; 1 here. -/
theorem witness_VerboseTraceOnAcceptance :
    let s := placeWord 0x40000000 { s0 with logVerbose := true }
    s.env.resetRequest = .none ∧ s.cpState = .idle ∧ s.cfg.legal = true ∧ s.env.hostWrites = [0x40000000] ∧
      decode 0x40000000 = .ok .adcPass ∧ s.logVerbose = true ∧ s0.logVerbose = false := by decide +kernel
theorem witness_StepOnIllegalWord :
    let s := placeWord 0x15000002 s0
    s.env.resetRequest = .none ∧ s.cpState = .idle ∧ s.cfg.legal = true ∧ s.env.hostWrites = [0x15000002] ∧
      decode 0x15000002 = .error .reservedBits := by decide +kernel
/-- Waiting; and a pass in progress. -/
theorem witness_PortWaitsOrGoesOn :
    s0.env.resetRequest = .none ∧ s0.cpState = .idle ∧ s0.env.hostWrites = [] ∧
    (after .adcPass (sA [.err 7])).env.resetRequest = .none ∧ (after .adcPass (sA [.err 7])).cpState = .running := by
  decide +kernel
/-- A reset at once; one due after the first, the last, and one more than the last event of a command; one due at the
record of an illegal word; and one due inside a round of a pass. -/
theorem witness_ResetRequestEntersResetState :
    (sR .now).env.resetRequest = .now ∧
    (∀ n, n = 1 ∨ n = 2 ∨ n = 3 → (sR (.within n)).env.resetRequest = .within n ∧
      (sR (.within n)).cpState = .idle ∧ (sR (.within n)).cfg.legal = true ∧
      (sR (.within n)).env.hostWrites = [0x10B40000] ∧ decode 0x10B40000 = .ok (.brSend .g0 0xB4 0) ∧
      ∃ t new, exec (.brSend .g0 0xB4 0) (acceptCommand 0x10B40000 (sR (.within n))) = .next t ∧
        NewEvents (sR (.within n)) t new ∧ new.length = 2) ∧
    decode 0x15000002 = .error .reservedBits ∧
    (∃ new, NewEvents s0 (illegalCommand (latchWord 0x15000002 s0)) new ∧ new.length = 1) ∧
    (after .adcPass (sA [.err 7])).cpState = .running :=
  ⟨rfl, fun n hn => ⟨rfl, rfl, witness_legal.1, rfl, by decide, _, _, next_brSend .., (List.append_nil _).symm,
      by rcases hn with rfl | rfl | rfl <;> decide +kernel⟩, by decide,
    ⟨[_], rfl, rfl⟩, by decide +kernel⟩
/-- BR_CONFIG = 0x00 is refused. -/
theorem witness_IllegalConfigurationRefused :
    let s := placeWord 0x40000000 { s0 with cfg := { cfg0 with brConfig := 0 } }
    s.env.resetRequest = .none ∧ s.cpState = .idle ∧ s.env.hostWrites ≠ [] ∧ s.cfg.legal = false := by
  decide +kernel
theorem witness_EveryStepCompletes : s0.cfg.legal = true ∧ s0.cfg.negMode = .onesComplement := by decide +kernel

theorem witness_BufLoadWritesOneByte : (8 : Byte).toNat < 9 ∧ 9 ≤ (9 : Byte).toNat := by decide
/-- An ill-formed term of each check. -/
theorem witness_IllFormedTermIsIllegalCommand :
    (Instr.bufLoad 9 0).wf = false ∧ (Instr.crcValidate 9).wf = false ∧ (Instr.tdCToF false 0 10).wf = false := by
  decide
theorem witness_CrcComputeResult :
    (1 ≤ (1 : Byte).toNat ∧ (1 : Byte).toNat ≤ 9) ∧ (1 ≤ (9 : Byte).toNat ∧ (9 : Byte).toNat ≤ 9) := by decide
/-- Payload lengths 8 (a match), 7 (a mismatch) and the neighbours 6 and 9. -/
theorem witness_CrcValidateResult :
    ((8 : Byte).toNat = (8 : Fin 9).val ∧ crc8 ((sB spad).buf.toList.take 8) = (sB spad).buf[8]) ∧
    ((7 : Byte).toNat = (7 : Fin 9).val ∧ crc8 ((sB spad).buf.toList.take 7) ≠ (sB spad).buf[7]) ∧
    ((6 : Byte).toNat ≠ 7 ∧ (6 : Byte).toNat ≠ 8) ∧ ((9 : Byte).toNat ≠ 7 ∧ (9 : Byte).toNat ≠ 8) := by
  decide +kernel
/-- Payload lengths 8 and 7; a flip of the last bit of the CRC byte itself is among the cases. -/
theorem witness_ValidateRejectsSingleBitFlip :
    (((8 : Fin 9) = 7 ∨ (8 : Fin 9) = 8) ∧ (8 : Fin 9) ≤ 8 ∧
      crc8 ((sB spad).buf.toList.take (8 : Fin 9).val) = (sB spad).buf[(8 : Fin 9)]) ∧
    (((7 : Fin 9) = 7 ∨ (7 : Fin 9) = 8) ∧ (7 : Fin 9) ≤ 7 ∧
      crc8 ((sB #v[0x02, 0x1C, 0xB8, 0x01, 0, 0, 0, 0xA2, 0]).buf.toList.take (7 : Fin 9).val) =
        (sB #v[0x02, 0x1C, 0xB8, 0x01, 0, 0, 0, 0xA2, 0]).buf[(7 : Fin 9)]) := by decide +kernel

/-- The three immediate commands. -/
theorem witness_BrSendImmediateDoesNotPoll :
    (0xE1 = cfg0.cmdSetReadPtr ∧ 0xD2 = cfg0.cmdWriteConfig ∧ 0xC3 = cfg0.cmdChannelSelect) ∧
      Answers (sT .g0 (okAnswers [(0, 0)])) .g0 (okAnswers [(0, 0)]) [] :=
  ⟨by decide +kernel, answers_sT _ _⟩
theorem witness_BrSendPolledSucceeds :
    cfg0.immediate 0xB4 = false ∧ pollBusy.Clears cfg0 ∧
      (0xB4 = cfg0.cmd1wReset → cfg0.presence pollBusy.last.1 = true) ∧
      Answers (sT .g0 pollBusy.answers) .g0 pollBusy.answers [] :=
  ⟨by decide +kernel, pollBusy_clears, by decide +kernel, answers_sT _ _⟩
theorem witness_BrSendResetWithoutPresence :
    cfg0.immediate cfg0.cmd1wReset = false ∧ (poll 0x00).Clears cfg0 ∧ cfg0.presence (poll 0x00).last.1 = false ∧
      Answers (sT .g1 (poll 0x00).answers) .g1 (poll 0x00).answers [] :=
  ⟨by decide +kernel, clears_of (by decide +kernel), by decide +kernel, answers_sT _ _⟩
theorem witness_BrSendBusyTimeout :
    let busy := List.replicate 599 ((0x01, 0) : Byte × Byte)
    let l := okAnswers ((0, 0) :: busy ++ [(0xFD, 0)])
    cfg0.immediate 0xB4 = false ∧ busy.length = 599 ∧ (∀ b ∈ busy ++ [(0xFD, 0)], cfg0.busy b.1 = true) ∧
      Answers (sT .g0 l) .g0 l [] := by
  refine ⟨by decide +kernel, List.length_replicate, ?_, answers_sT _ _⟩
  intro b hb
  rcases List.mem_append.mp hb with h | h
  · exact busy_replicate b h
  · rw [List.mem_singleton.mp h]
    decide +kernel
/-- The write fails; and a poll read fails after 599 busy polls. -/
theorem witness_BrSendTransportFailure :
    let busy := List.replicate 599 ((0x01, 0) : Byte × Byte)
    let l := okAnswers ((0, 0) :: busy) ++ [.err 9]
    Answers (sT .g0 [.err 5]) .g0 [.err 5] [] ∧ cfg0.immediate 0x00 = false ∧ busy.length < 600 ∧
      (∀ b ∈ busy, cfg0.busy b.1 = true) ∧ Answers (sT .g0 l) .g0 l [] := by
  refine ⟨answers_sT _ _, by decide +kernel, ?_, busy_replicate, answers_sT _ _⟩
  rw [List.length_replicate]
  omega
/-- With presence; and without. -/
theorem witness_ResetAndWriteByteSucceed :
    (cfg0.legal = true ∧ pollBusy.Clears cfg0 ∧ Answers (sT .g1 pollBusy.answers) .g1 pollBusy.answers [] ∧
      cfg0.presence pollBusy.last.1 = true) ∧
    ((poll 0).Clears cfg0 ∧ Answers (sT .g1 (poll 0).answers) .g1 (poll 0).answers [] ∧
      cfg0.presence (poll 0).last.1 = false) :=
  ⟨⟨witness_legal.1, pollBusy_clears, answers_sT _ _, by decide +kernel⟩, clears_of (by decide +kernel),
    answers_sT _ _, by decide +kernel⟩
/-- The data read answers; and the data read fails. -/
theorem witness_ReadByteDelivers (d : Answer) (_ : d = .ok 0x5A 0 ∨ d = .err 3) :
    let l := pollBusy.answers ++ okAnswers [(0, 0)] ++ [d]
    (sT .g0 l).cfg.legal = true ∧ pollBusy.Clears (sT .g0 l).cfg ∧ Answers (sT .g0 l) .g0 l [] :=
  ⟨legal_sT _ _, pollBusy_clears, answers_sT _ _⟩
/-- A read-back equal to the verify code 0xAA; another one; and one that the transport fails. -/
theorem witness_SelectChannelVerifies :
    Answers (sT .g0 (okAnswers [(0, 0), (0xAA, 0)])) .g0 (okAnswers [(0, 0), (0xAA, 0)]) [] ∧
    Answers (sT .g0 (okAnswers [(0, 0), (0xAB, 0)])) .g0 (okAnswers [(0, 0), (0xAB, 0)]) [] ∧
    Answers (sT .g0 (okAnswers [(0, 0)] ++ [.err 6])) .g0 (okAnswers [(0, 0)] ++ [.err 6]) [] :=
  ⟨answers_sT _ _, answers_sT _ _, answers_sT _ _⟩
/-- A read-back with the right low nibble; one without; and one that the transport fails. -/
theorem witness_ResetAndConfigureVerifies (d : Answer) (_ : d = rd 0xF1 ∨ d = rd 0xE0 ∨ d = .err 6) :
    let l := (poll 2).answers ++ okAnswers [(0, 0)] ++ [d]
    (sT .g0 l).cfg.legal = true ∧ (poll 2).Clears (sT .g0 l).cfg ∧ Answers (sT .g0 l) .g0 l [] ∧
      (0xF1 : Byte).extractLsb' 0 4 = cfg0.brConfig.extractLsb' 0 4 ∧
      (0xE0 : Byte).extractLsb' 0 4 ≠ cfg0.brConfig.extractLsb' 0 4 :=
  ⟨legal_sT _ _, poll_idle_clears, answers_sT _ _, by decide +kernel, by decide +kernel⟩

/-- A ROM with a right CRC (the last byte A2), and with a wrong one (A3). -/
theorem witness_ReadRomFillsBuffer (b : Byte) (hb : b = 0xA2 ∨ b = 0xA3) :
    let rs := [readOf 0x02, readOf 0x1C, readOf 0xB8, readOf 0x01, readOf 0, readOf 0, readOf 0, readOf b]
    let s := sT .g0 ((poll 2).answers ++ (poll 2).answers ++ readAnswers rs)
    s.cfg.legal = true ∧ (poll 2).Present s.cfg ∧ (poll 2).Clears s.cfg ∧ (∀ r ∈ rs, r.poll.Clears s.cfg) ∧
      Answers s .g0 ((poll 2).answers ++ (poll 2).answers ++ readAnswers rs) [] ∧
      crc8 [0x02, 0x1C, 0xB8, 0x01, 0, 0, 0] = 0xA2 ∧ (b = 0xA2 ∨ b ≠ 0xA2) := by
  refine ⟨legal_sT _ _, poll_idle_present, poll_idle_clears, ?_, answers_sT _ _, by decide +kernel, by
    rcases hb with rfl | rfl <;> decide⟩
  intro r hr
  simp only [List.mem_cons, List.not_mem_nil, or_false] at hr
  rcases hr with rfl | rfl | rfl | rfl | rfl | rfl | rfl | rfl <;> exact poll_idle_clears
/-- Both read sequences answer a next state under a legal configuration; and a run of each that was cut short: four bytes
of a ROM, no byte of a scratchpad. -/
theorem witness_ReadSequencesPartialBuffer :
    s0.cfg.legal = true ∧ exec (.brReadRom .g0) s0 = .next (after (.brReadRom .g0) s0) ∧
      exec (.brRetrieveSp .g1) s0 = .next (after (.brRetrieveSp .g1) s0) ∧
      dataBytes cfg0 (after (.brReadRom .g0)
        (sT .g0 (romAnswers [1, 2, 3, 4] ++ [rd 0, .err 5]))).env.events.reverse = [1, 2, 3, 4] ∧
      dataBytes cfg0 (after (.brRetrieveSp .g0) (sT .g0 [rd 0, rd 2, .err 5])).env.events.reverse = [] :=
  ⟨witness_legal.1, rfl, rfl, by decide +kernel, by decide +kernel⟩
/-- No byte read before the error; and seven. -/
theorem witness_ReadSequencesPartialBuffer_dataRead (n : Nat) (hn : n = 0 ∨ n = 7) :
    let rs := List.replicate n (readOf 0x28)
    let l := (poll 2).answers ++ (poll 2).answers ++ readAnswers rs ++ (poll 2).answers ++ okAnswers [(0, 0)] ++
      [.err 4]
    (sT .g0 l).cfg.legal = true ∧ (poll 2).Present (sT .g0 l).cfg ∧ (poll 2).Clears (sT .g0 l).cfg ∧
      rs.length < 8 ∧ (∀ r ∈ rs, r.poll.Clears (sT .g0 l).cfg) ∧ Answers (sT .g0 l) .g0 l [] := by
  refine ⟨legal_sT _ _, poll_idle_present, poll_idle_clears, ?_, ?_, answers_sT _ _⟩
  · rcases hn with rfl | rfl <;> decide
  · intro r hr
    rw [List.eq_of_mem_replicate hr]
    exact poll_idle_clears

/-- Ten idle polls, `n` zero bytes, then `last`. -/
def configAnswers (zeros : List ReadScript) (last : ReadScript) : List Answer :=
  [poll 2, poll 2, poll 2, poll 2, poll 2, poll 2, poll 2, poll 2, poll 2, poll 2].flatMap PollScript.answers ++
    readAnswers (zeros ++ [last])

/-- 9 and 12 bits; no zero byte, and 9999 of them. -/
theorem witness_ConfigProbeConfirms (n : Nat) (hn : n = 0 ∨ n = 9999) :
    let zeros := List.replicate n (readOf 0)
    let s := sT .g0 (configAnswers zeros (readOf 0xFF))
    s.cfg.legal = true ∧ (9 : Byte).toNat = 9 + (0 : Fin 4).val ∧ (12 : Byte).toNat = 9 + (3 : Fin 4).val ∧
      (poll 2).Present s.cfg ∧ (∀ p ∈ List.replicate 7 (poll 2), p.Clears s.cfg) ∧
      (∀ z ∈ zeros, z.poll.Clears s.cfg ∧ z.byte = 0) ∧ zeros.length < 10000 ∧
      (readOf 0xFF).poll.Clears s.cfg ∧ (readOf 0xFF).byte ≠ 0 ∧
      Answers s .g0 (configAnswers zeros (readOf 0xFF)) [] := by
  refine ⟨legal_sT _ _, by decide, by decide, poll_idle_present, ?_, ?_, ?_, poll_idle_clears, by decide,
    answers_sT _ _⟩
  · intro p hp
    rw [List.eq_of_mem_replicate hp]
    exact poll_idle_clears
  · intro z hz
    rw [List.eq_of_mem_replicate hz]
    exact ⟨poll_idle_clears, rfl⟩
  · rw [List.length_replicate]
    omega
theorem witness_ConfigProbeNotConfirmed :
    let zeros := List.replicate 9999 (readOf 0)
    let s := sT .g0 (configAnswers zeros (readOf 0))
    s.cfg.legal = true ∧ ((9 : Byte).toNat = 9 + (0 : Fin 4).val ∧ (12 : Byte).toNat = 9 + (3 : Fin 4).val) ∧ (poll 2).Present s.cfg ∧
      (∀ p ∈ List.replicate 7 (poll 2), p.Clears s.cfg) ∧
      (∀ z ∈ zeros ++ [readOf 0], z.poll.Clears s.cfg ∧ z.byte = 0) ∧ zeros.length = 9999 ∧
      Answers s .g0 (configAnswers zeros (readOf 0)) [] := by
  refine ⟨legal_sT _ _, by decide, poll_idle_present, ?_, ?_, List.length_replicate, answers_sT _ _⟩
  · intro p hp
    rw [List.eq_of_mem_replicate hp]
    exact poll_idle_clears
  · intro z hz
    rcases List.mem_append.mp hz with h | h
    · rw [List.eq_of_mem_replicate h]
      exact ⟨poll_idle_clears, rfl⟩
    · rw [List.mem_singleton.mp h]
      exact ⟨poll_idle_clears, rfl⟩
theorem witness_TriggerConversionSucceeds :
    let l := (poll 2).answers ++ (poll 2).answers ++ pollBusy.answers
    (sT .g1 l).cfg.legal = true ∧ (poll 2).Present (sT .g1 l).cfg ∧ (poll 2).Clears (sT .g1 l).cfg ∧
      pollBusy.Clears (sT .g1 l).cfg ∧ Answers (sT .g1 l) .g1 l [] :=
  ⟨legal_sT _ _, poll_idle_present, poll_idle_clears, pollBusy_clears, answers_sT _ _⟩
/-- The scratchpad of S4 with a right CRC (AE), and with a wrong one (AF). -/
theorem witness_RetrieveScratchpadFillsBuffer (b : Byte) (hb : b = 0xAE ∨ b = 0xAF) :
    let rs := [readOf 0x68, readOf 0x01, readOf 0x4B, readOf 0x46, readOf 0x1F, readOf 0xFF, readOf 0x0C, readOf 0x10,
      readOf b]
    let l := (poll 2).answers ++ (poll 2).answers ++ (poll 2).answers ++ readAnswers rs
    (sT .g0 l).cfg.legal = true ∧ (poll 2).Present cfg0 ∧ cfg0.short (poll 2).last.1 = false ∧
      (poll 2).Clears cfg0 ∧ (∀ r ∈ rs, r.poll.Clears cfg0) ∧ Answers (sT .g0 l) .g0 l [] ∧
      crc8 [0x68, 0x01, 0x4B, 0x46, 0x1F, 0xFF, 0x0C, 0x10] = 0xAE ∧ (b = 0xAE ∨ b ≠ 0xAE) := by
  refine ⟨legal_sT _ _, poll_idle_present, by decide +kernel, poll_idle_clears, ?_, answers_sT _ _,
    by decide +kernel, by rcases hb with rfl | rfl <;> decide⟩
  intro r hr
  simp only [List.mem_cons, List.not_mem_nil, or_false] at hr
  rcases hr with rfl | rfl | rfl | rfl | rfl | rfl | rfl | rfl | rfl <;> exact poll_idle_clears
/-- A short with presence (0x06), and without (0x04). -/
theorem witness_RetrieveScratchpadShort :
    (cfg0.legal = true ∧ (poll 6).Clears cfg0 ∧ cfg0.short (poll 6).last.1 = true ∧
      cfg0.presence (poll 6).last.1 = true ∧ Answers (sT .g0 (poll 6).answers) .g0 (poll 6).answers []) ∧
    ((poll 4).Clears cfg0 ∧ cfg0.short (poll 4).last.1 = true ∧ cfg0.presence (poll 4).last.1 = false ∧
      Answers (sT .g0 (poll 4).answers) .g0 (poll 4).answers []) :=
  ⟨⟨witness_legal.1, clears_of (by decide +kernel), by decide +kernel, by decide +kernel, answers_sT _ _⟩,
    clears_of (by decide +kernel), by decide +kernel, by decide +kernel, answers_sT _ _⟩

theorem witness_BridgeCommandsChangeOnlyTheirGroup :
    IsBridgeCommand .g1 (.brConfigProbe .g1 12) ∧ (Instr.brConfigProbe .g1 12).wf = true :=
  ⟨by simp [IsBridgeCommand], by decide⟩
/-- A command that answers a next state, with transactions in it; and a step that does, cut by a reset. -/
theorem witness_EveryTransactionIsLegal :
    exec (.brSend .g0 0xB4 0) s0 = .next (after (.brSend .g0 0xB4 0) s0) ∧ ∃ t, step (sR (.within 1)) = .next t :=
  ⟨next_brSend .., _, by
    have hl : cfg0.legal = true := witness_legal.1
    have hd : decode 0x10B40000 = .ok (.brSend .g0 0xB4 0) := by decide
    simp only [step, fetch, sR, placeWord, sT, State.setTransport, s0, hl, hd]
    rfl⟩
theorem witness_TransactionsAreBounded : transactionBound (.brSend .g0 0xB4 0) = some 601 ∧
    transactionBound .pmGetAll = some (16 * (2 + (3 * 601 + 9 * 603))) ∧
    exec (.brSend .g0 0xB4 0) s0 = .next (after (.brSend .g0 0xB4 0) s0) := ⟨rfl, rfl, next_brSend ..⟩
/-- A failing command, and a successful one. -/
theorem witness_OneRecordPerFailure :
    (Instr.brSelect .g0 0xD2 0xAA) ≠ .pmInitiateAll ∧ (Instr.brSelect .g0 0xD2 0xAA) ≠ .pmGetAll ∧
      (Instr.brSelect .g0 0xD2 0xAA) ≠ .adcPass ∧
      (after (.brSelect .g0 0xD2 0xAA) (sT .g0 [rd 0, rd 0xAB])).res.kind = 5 ∧
      (after (.brSelect .g0 0xD2 0xAA) (sT .g0 [rd 0, rd 0xAA])).res.kind = 0 ∧
      exec (.brSelect .g0 0xD2 0xAA) (sT .g0 [rd 0, rd 0xAB]) =
        .next (after (.brSelect .g0 0xD2 0xAA) (sT .g0 [rd 0, rd 0xAB])) :=
  ⟨by decide, by decide, by decide, by decide +kernel, by decide +kernel, next_brSelect ..⟩
/-- PM_GET_ALL: one record for a probe it marks, none for one it reads or skips (P6 cut to one probe, probe 1 marked
by an earlier PM_INITIATE_ALL); PM_INITIATE_ALL: a record for a failed ROM read before the one that ends a probe. -/
theorem witness_OneRecordPerFailure_cycles :
    let kinds (s : State) (k : Fin 16) :=
      ((s.env.events.filterMap Event.record).filter fun r => r.probe = some k).map SinkRecord.kind
    let g := after .pmGetAll ((sT .g0 ([rd 0, rd 0xB8, rd 0, rd 2] ++ romAnswers spad.toList ++
      List.replicate 6 (.err 5)) |>.setTransport (.grp .g1) ⟨List.replicate 8 (.err 5), 0⟩).setProbe 1
        { Probe.reset with lastError := .busyTimeout, errorOrigin := .init })
    let i := after .pmInitiateAll ((sT .g0 ([rd 0, rd 2, rd 0, rd 0xE1, rd 0, rd 0xB8, .err 5, .err 6] ++
      List.replicate 7 (.err 5))).setTransport (.grp .g1) ⟨List.replicate 8 (.err 5), 0⟩)
    kinds g 0 = [] ∧ kinds g 1 = [] ∧ kinds g 2 = [.transportFailure] ∧
      kinds i 0 = [.transportFailure, .transportFailure] ∧ (i.probe 0).romKnown = false ∧
      kinds i 1 = [.transportFailure] := by decide +kernel
theorem witness_FailureLocationsAreTheTable :
    exec (.br1wReset .g0) (sT .g0 [.err 1]) = .next (after (.br1wReset .g0) (sT .g0 [.err 1])) ∧
      (after (.br1wReset .g0) (sT .g0 [.err 1])).cpState = .idle := ⟨next_br1wReset .., by decide +kernel⟩

/-- 22.5 degrees at r = 0; and raw 07F0 (127 degrees) at r = 3, whose Fahrenheit whole part is free. -/
theorem witness_TdDecodeResult :
    ((0 : Byte).toNat = (0 : Fin 4).val ∧ s0.cfg.negMode = .onesComplement ∧ spad[4] = cfg0.resCfg[0] ∧
      spad[5] = 0xFF ∧ spad[7] = 0x10 ∧ s0.cfg.fArith = .exact ∧ (fahrenheit s0.cfg false 22 5).whole ≤ 255) ∧
    ((3 : Byte).toNat = (3 : Fin 4).val ∧ (0x7F : Byte) = cfg0.resCfg[3] ∧
      ¬(fahrenheit s0.cfg false 127 0).whole ≤ 255) := by decide +kernel
/-- A wrong echo (r = 1); and a wrong reserved byte under the right echo. -/
theorem witness_TdDecodeFailures :
    (1 : Byte).toNat = (1 : Fin 4).val ∧ (sB spad).cfg.negMode = .onesComplement ∧
      (sB spad).buf[4] ≠ (sB spad).cfg.resCfg[(1 : Fin 4)] ∧ (sB spad).buf[4] = (sB spad).cfg.resCfg[(0 : Fin 4)] ∧
      (sB (spad.set 5 0xFE)).buf[5] ≠ 0xFF ∧ (sB (spad.set 5 0xFE)).buf[4] = cfg0.resCfg[(0 : Fin 4)] := by
  decide +kernel
/-- 124.4 degrees, the last exact value; and 127.9, whose whole part is free; under F_ARITH = EXACT. -/
theorem witness_FahrenheitIsTruncatedExactly :
    ((124 : Byte).toNat ≤ 127 ∧ (4 : Byte).toNat ≤ 9 ∧ (124 + 4 / 10 : ℚ) < 1245 / 10) ∧
    ((127 : Byte).toNat ≤ 127 ∧ (9 : Byte).toNat ≤ 9 ∧ ¬((127 + 9 / 10 : ℚ) < 1245 / 10)) ∧
    s0.cfg.fArith = .exact :=
  ⟨⟨by decide, by decide, by norm_num⟩, ⟨by decide, by decide, by norm_num⟩, rfl⟩
/-- The request 0 equals ACTIVE_RES, 3 is stored, 4 is clamped. -/
theorem witness_SetResolutionResult :
    (0 : Byte).toNat = s0.activeRes.toNat ∧ ((3 : Byte).toNat ≠ s0.activeRes.toNat ∧ (3 : Byte).toNat ≤ 3) ∧
      3 < (4 : Byte).toNat := by decide

/-- A clean init script of probe i. -/
def initScript (i : Fin 16) : InitScript where
  chipReset := poll 0
  writeConfig := (0, 0)
  configBack := (0xE1, 0)
  select := (0, 0)
  readBack := (cfg0.chVerify[busChannel i], 0)
  romReset := poll 2
  romCommand := poll 2
  romReads := [0x02, 0x1C, 0xB8, 0x01, 0, 0, 0, 0xA2].map readOf
  resetA := poll 2
  writesA := List.replicate 5 (poll 2)
  resetB := poll 2
  writesB := List.replicate 2 (poll 2)
  resetC := poll 2
  waiting := [readOf 0]
  confirm := readOf 0xFF
  trigger := List.replicate 3 (poll 2)

/-- A clean get script of probe i. -/
def getScript (i : Fin 16) : GetScript where
  select := (0, 0)
  readBack := (cfg0.chVerify[busChannel i], 0)
  reset := poll 2
  skipRom := poll 2
  readCommand := poll 2
  reads := spad.toList.map readOf

/-- `s0` with `l g` listed on each group's transport. -/
def sTT (l : Group → List Answer) : State :=
  (s0.setTransport (.grp .g0) ⟨l .g0, 0⟩).setTransport (.grp .g1) ⟨l .g1, 0⟩

theorem answers_sTT (l : Group → List Answer) (g : Group) : Answers (sTT l) g (l g) [] := by
  cases g <;> simp [Answers, sTT, s0, State.transport, State.setTransport, Transports.get, Transports.set]

/-- No probe identified or configured before; and, with probes set so, every one. -/
theorem witness_InitiateAllClean (known : Bool) :
    let p : Probe := { Probe.reset with romKnown := known, configured := known }
    let s := { sTT fun g => (groupProbes g).flatMap fun i => (initScript i).answers i p with
      probes := Vector.replicate 16 p }
    s.cfg.legal = true ∧ (∀ i, (initScript i).Clean s.cfg i) ∧
      ∀ g, Answers s g ((groupProbes g).flatMap fun i => (initScript i).answers i (s.probe i)) [] := by
  refine ⟨witness_legal.1, ?_, ?_⟩
  · have hread : ∀ b : Byte, (readOf b).poll.Clears cfg0 := fun _ => poll_idle_clears
    have hrep : ∀ n, ∀ y ∈ List.replicate n (poll 2), y.Clears cfg0 := fun n y hy => by
      rw [List.eq_of_mem_replicate hy]
      exact poll_idle_clears
    have : ∀ i, (initScript i).Clean cfg0 i := by
      intro i
      refine ⟨⟨clears_of (by revert i; decide +kernel), by revert i; decide +kernel⟩, rfl,
        ⟨poll_idle_present, poll_idle_clears, rfl, ?_⟩, by revert i; decide +kernel,
        ⟨poll_idle_present, rfl, hrep 5⟩, ⟨poll_idle_present, rfl, hrep 2⟩, poll_idle_present,
        ⟨by revert i; decide +kernel, ?_⟩, ⟨hread _, by revert i; decide +kernel⟩, ⟨rfl, hrep 3, ?_⟩⟩
      · intro y hy
        obtain ⟨b, -, rfl⟩ := List.mem_map.mp hy
        exact hread b
      · intro y hy
        rw [List.mem_singleton.mp hy]
        exact ⟨hread _, rfl⟩
      · intro y hy
        obtain rfl : poll 2 = y := Option.some.inj hy
        decide +kernel
    exact this
  · intro g
    have hp : ∀ i : Fin 16, State.probe { sTT fun g => (groupProbes g).flatMap fun i => (initScript i).answers i
        { Probe.reset with romKnown := known, configured := known } with
        probes := Vector.replicate 16 { Probe.reset with romKnown := known, configured := known } } i =
        { Probe.reset with romKnown := known, configured := known } := fun i => by simp [State.probe]
    simp only [hp]
    exact answers_sTT (fun g => (groupProbes g).flatMap fun i =>
      (initScript i).answers i { Probe.reset with romKnown := known, configured := known }) g
theorem witness_InitiateAllOnDeadTransports :
    ∀ g, Answers (sTT fun _ => List.replicate 8 (.err 5)) g ((List.finRange 8).map fun _ => .err 5) [] := by
  intro g
  have : (List.finRange 8).map (fun _ => Answer.err 5) = List.replicate 8 (.err 5) := by decide
  rw [this]
  exact answers_sTT _ g
theorem witness_GetAllOutcome : s0.cfg.negMode = .onesComplement ∧ (s0.probe 0).lastError = .none ∧
    (after .pmInitiateAll (sTT fun _ => List.replicate 8 (.err 5))).cfg.negMode = .onesComplement ∧
    ((after .pmInitiateAll (sTT fun _ => List.replicate 8 (.err 5))).probe 15).errorOrigin ≠ .get := by
  decide +kernel
theorem getScript_retrieves (i : Fin 16) : (getScript i).Retrieves cfg0 i := by
  refine ⟨rfl, ⟨poll_idle_clears, by revert i; decide +kernel, by revert i; decide +kernel⟩,
    ⟨poll_idle_clears, poll_idle_clears⟩, ⟨rfl, fun y hy => ?_⟩, by revert i; decide +kernel⟩
  obtain ⟨b, -, rfl⟩ := List.mem_map.mp hy
  exact poll_idle_clears
/-- `s0` under another NEG_MODE, its probes before `i` errored in PM_INITIATE_ALL, and T[g] answering `l` first. -/
def sN (i : Fin 16) (l : Group → List Answer) : State :=
  { sTT l with
    cfg := { cfg0 with negMode := .other }
    probes := Vector.ofFn fun j =>
      if j < i then { Probe.reset with lastError := .busyTimeout, errorOrigin := .init } else Probe.reset }
/-- TD_DECODE at the last resolution index; PM_GET_ALL whose first eligible probe is the first and the last one. -/
theorem witness_OtherNegModeRefusesDecode (i : Fin 16) (_ : i = 0 ∨ i = 15) :
    let s := sN i fun _ => (getScript i).answers
    s.cfg.negMode = .other ∧ (3 : Byte).toNat ≤ 3 ∧ s.cfg.legal = true ∧
      (∀ j < i, (s.probe j).lastError ≠ .none ∧ (s.probe j).errorOrigin ≠ .get) ∧
      ((s.probe i).lastError = .none ∨ (s.probe i).errorOrigin = .get) ∧
      (getScript i).Retrieves s.cfg i ∧ Answers s (busGroup i) (getScript i).answers [] := by
  refine ⟨rfl, by decide, (show cfg0.legal = true from witness_legal.1), ?_, ?_, getScript_retrieves i,
    answers_sTT (fun _ => (getScript i).answers) _⟩
  · intro j hj
    have : (sN i fun _ => (getScript i).answers).probe j =
        { Probe.reset with lastError := .busyTimeout, errorOrigin := .init } := by simp [State.probe, sN, hj]
    rw [this]
    decide
  · have : (sN i fun _ => (getScript i).answers).probe i = Probe.reset := by simp [State.probe, sN]
    rw [this]
    exact .inl rfl
/-- Under another NEG_MODE: probe 0 fails its select, probe 1 is read, so that a decode is reached; and on dead transports
none is. -/
theorem test_pmGetAll_otherNegMode :
    (match exec .pmGetAll (sN 0 fun _ => .err 5 :: (getScript 1).answers) with
      | .next _ => false
      | .fault _ => false
      | .refused r => r == .negModeUndefined) = true ∧
    (after .pmGetAll (sN 0 fun _ => List.replicate 8 (.err 5))).res = ⟨0, 0, 0xFFFF, 0⟩ := by decide +kernel
/-- The two runs that the last clause of OtherNegModeRefusesDecode compares: under ONES_COMPLEMENT probe 1 is read, and no
probe is. -/
theorem witness_OtherNegModeRefusesDecode_iff :
    let ones (s : State) : State := after .pmGetAll { s with cfg := { s.cfg with negMode := .onesComplement } }
    ((ones (sN 0 fun g => if g = .g0 then .err 5 :: (getScript 1).answers ++ List.replicate 6 (.err 5)
        else List.replicate 8 (.err 5))).probe 1).lastError = .none ∧
    ∀ k, ((ones (sN 0 fun _ => List.replicate 8 (.err 5))).probe k).lastError = .transportFailure := by
  decide +kernel

/-- Any choice of eligible probes, the others errored in PM_INITIATE_ALL. -/
theorem witness_GetAllClean (e : Fin 16 → Bool) :
    let s := { sTT fun g => (groupProbes g).flatMap fun i => if e i then (getScript i).answers else [] with
      probes := Vector.ofFn fun i =>
        if e i then Probe.reset else { Probe.reset with lastError := .busyTimeout, errorOrigin := .init } }
    s.cfg.legal = true ∧ s.cfg.negMode = .onesComplement ∧ (0 : Fin 4).val = s.activeRes.toNat ∧
      (∀ i, e i = ((s.probe i).lastError == .none || (s.probe i).errorOrigin == .get)) ∧
      (∀ i, e i = true → (getScript i).Clean s.cfg i 0) ∧
      ∀ g, Answers s g ((groupProbes g).flatMap fun i => if e i then (getScript i).answers else []) [] := by
  refine ⟨witness_legal.1, rfl, rfl, fun i => ?_, fun i _ => ?_, fun g =>
    answers_sTT (fun g => (groupProbes g).flatMap fun i => if e i then (getScript i).answers else []) g⟩
  · cases h : e i <;> simp [State.probe, h, Probe.reset]
  · have : ∀ i, (getScript i).Clean cfg0 i 0 := fun i =>
      ⟨getScript_retrieves i, by revert i; decide +kernel, by revert i; decide +kernel, by revert i; decide +kernel⟩
    exact this i
theorem witness_GetAllSkipsIneligible :
    let s := after .pmInitiateAll (sTT fun _ => List.replicate 8 (.err 5))
    ∀ i, (s.probe i).lastError ≠ .none ∧ (s.probe i).errorOrigin ≠ .get := by
  have h : ((after .pmInitiateAll (sTT fun _ => List.replicate 8 (.err 5))).probes.all fun p =>
      p.lastError != .none && p.errorOrigin != .get) = true := by decide +kernel
  intro s i
  have := Vector.all_eq_true.mp h i i.isLt
  rw [Bool.and_eq_true, bne_iff_ne, bne_iff_ne] at this
  exact this
theorem witness_GroupsDoNotInterfere :
    let s₁ := sTT fun _ => List.replicate 8 (.err 5)
    let x : Transport := ⟨[rd 0, rd 0xB8], 0⟩
    exec .pmInitiateAll s₁ = .next (after .pmInitiateAll s₁) ∧
      exec .pmInitiateAll (s₁.setTransport (.grp (Group.other .g0)) x) =
        .next (after .pmInitiateAll (s₁.setTransport (.grp (Group.other .g0)) x)) := ⟨next_pmInitiateAll _, next_pmInitiateAll _⟩

/-- ADC_SAMPLES attempts that read a sample on each channel, before them one whose select fails and one whose read fails. -/
theorem witness_AdcPassCompletes :
    let x : Fin 8 → List AdcAttempt := fun _ =>
      [.selectFails 7, .sample (0, 0) (0x0C, 0x80), .readFails (0, 0) 9, .sample (0, 0) (0x0C, 0x80),
        .sample (0, 0) (0xFF, 0xFF)]
    let l := (List.finRange 8).flatMap fun c => (x c).flatMap AdcAttempt.answers
    (∀ c, ((x c).filterMap AdcAttempt.code) = [200, 200, 4095]) ∧ (sA l).cfg.adcSamples = 3 ∧
      (∀ c, ∀ a ∈ (x c).getLast?, a.code.isSome = true) ∧ ((sA l).transport .adc).answers = l ++ [] ∧
      (after .adcPass (sA l)).adc.avg = Vector.replicate 8 200 := by
  refine ⟨by decide +kernel, by decide +kernel, ?_, by decide +kernel, by decide +kernel⟩
  intro c a ha
  obtain rfl := Option.some.inj ha
  rfl
/-- A pass at channel `c` that has counted `n` samples of code 200, T[ADC] answering `l` first. -/
def sP (c : Fin 8) (n : Nat) (l : List Answer) : State :=
  { (sA l).setAdc { Adc.reset with
      acc := Adc.reset.acc.set c ⟨if n = 0 then 0xFFF else 200, if n = 0 then 0 else 200, BitVec.ofNat 32 (200 * n), n⟩
      channel := some c } with cpState := .running }
/-- The select fails; the read fails; a first sample, and the last one of channels 6 and 7. -/
theorem witness_AdcAttemptOfRunningPass (c : Fin 8) (n : Nat) (x : AdcAttempt) (hc : c = 6 ∨ c = 7) (hn : n = 0 ∨ n = 2)
    (hx : x = .selectFails 1 ∨ x = .readFails (0, 0) 1 ∨ x = .sample (0, 0) (0x12, 0x34)) :
    let s := sP c n x.answers
    s.env.resetRequest = .none ∧ s.cpState = .running ∧ s.adc.channel = some c ∧
      (s.adcAcc c).count < s.cfg.adcSamples ∧ (s.transport .adc).answers = x.answers ++ [] ∧
      (AdcAttempt.sample (0, 0) (0x12, 0x34)).code = some 291 ∧ s.cfg.adcSamples = 2 + 1 := by
  rcases hc with rfl | rfl <;> rcases hn with rfl | rfl <;> rcases hx with rfl | rfl | rfl <;> decide +kernel
/-- Two listed errors and no further step; and a pass at channel 0 with two more. -/
theorem witness_AdcPassHasNoRetryBound :
    let s := sA [.err 1, .err 2]
    s.env.resetRequest = .none ∧
      Transport.Fails .adc ((s.transport .adc).answers.length + 0) (s.transport .adc) ∧
    let t := sP 0 0 [.err 1, .err 2]
    t.env.resetRequest = .none ∧ t.cpState = .running ∧
      (∃ c, t.adc.channel = some c ∧ (t.adcAcc c).count < t.cfg.adcSamples) ∧
      Transport.Fails .adc 2 (t.transport .adc) :=
  ⟨rfl, ⟨⟨1, rfl⟩, ⟨2, rfl⟩, trivial⟩, rfl, rfl, ⟨0, rfl, by decide +kernel⟩, ⟨1, rfl⟩, ⟨2, rfl⟩, trivial⟩
theorem witness_TrimmedAverageWithinSamples :
    let xs : List (BitVec 12) := [0, 4095, 7]
    3 ≤ xs.length ∧ xs.length ≤ 65535 ∧ ∀ x ∈ xs, 0 ≤ x.toNat ∧ x.toNat ≤ 4095 :=
  ⟨by decide, by decide, fun x _ => ⟨Nat.zero_le _, Nat.le_of_lt_succ x.isLt⟩⟩
/-- The command; and a step of the pass it left in progress. -/
theorem witness_AdcIsIsolated :
    exec .adcPass (sA [.err 7]) = .next (after .adcPass (sA [.err 7])) ∧
      (after .adcPass (sA [.err 7])).env.resetRequest = .none ∧ (after .adcPass (sA [.err 7])).cpState = .running ∧
      ∃ t, step (after .adcPass (sA [.err 7])) = .next t := by
  have hr : (after .adcPass (sA [.err 7])).env.resetRequest = .none := by decide +kernel
  have hc : (after .adcPass (sA [.err 7])).cpState = .running := by decide +kernel
  exact ⟨next_adcPass _, hr, hc, _, by simp only [step, fetch, hr, hc]; rfl⟩
/-- A command; and a step of a pass. -/
theorem witness_CommandsOwnTheirState :
    exec (.brSend .g0 0xB4 0) s0 = .next (after (.brSend .g0 0xB4 0) s0) ∧
      (sP 0 0 []).env.resetRequest = .none ∧ (sP 0 0 []).cpState = .running ∧ ∃ t, step (sP 0 0 []) = .next t :=
  ⟨next_brSend .., rfl, rfl, _, rfl⟩
/-- The reset state meets the invariant under `cfg0` too, and its step answers a next state. -/
theorem witness_StepKeepsInv : s0.Inv ∧ ∃ t, step s0 = .next t := ⟨by decide +kernel, _, rfl⟩

end Sys2Proof.Tests
end

/-! PROOFS. The command port: what it fetches in IDLE, and the step of an accepted command. -/

namespace Sys2Proof.Machine

section
variable {s : State} {w : Word} {ws : List Word} {i : Instr}

/-- In IDLE under a legal configuration the port fetches the command that the host's next word decodes to, unless a
reset is asked for at once (spec/10_state.md R16, spec/30_encoding.md R72). -/
theorem fetch_command (hreset : s.env.resetRequest ≠ .now) (hidle : s.cpState = .idle) (hlegal : s.cfg.legal = true)
    (hwords : s.env.hostWrites = w :: ws) (hdecode : decode w = .ok i) : fetch s = .command w i := by
  simp only [fetch, if_neg hreset, hidle, hwords, if_pos hlegal, hdecode]

/-- Without a reset input nothing is cut (R227). -/
theorem underReset_of_none (hreset : s.env.resetRequest = .none) (o : Host.Outcome State Fault Refusal) :
    underReset s o = o :=
  underReset_of_ne (fun n => by simp [hreset]) o

/-- A fetched command is accepted and executed, under the reset input (spec/00_scope.md R7). -/
theorem step_of_fetch_command (hfetch : fetch s = .command w i) :
    step s = underReset s (exec i (acceptCommand w s)) := by
  simp only [step, hfetch]

/-- Latching takes the host's next word and changes no other item (spec/10_state.md R16, R17). -/
theorem latchWord_of_hostWrites_cons (v : Word) (hwords : s.env.hostWrites = w :: ws) :
    latchWord v s = { s with cmd := v, cpState := .running, env := { s.env with hostWrites := ws } } := by
  simp only [latchWord, hwords, List.drop_one, List.tail_cons]

end

/-- Settles O5: the port fetches the decoded command, and with no reset asked for its step is `exec` uncut. -/
theorem stepRunsDecodedCommand : Obligations.StepRunsDecodedCommand := by
  intro s w ws i hreset hidle hlegal hwords hdecode
  have hnow : s.env.resetRequest ≠ .now := by simp [hreset]
  have hfetch : fetch s = .command w i := fetch_command hnow hidle hlegal hwords hdecode
  refine ⟨?_, latchWord_of_hostWrites_cons w hwords⟩
  calc step s = underReset s (exec i (acceptCommand w s)) := step_of_fetch_command hfetch
    _ = exec i (acceptCommand w s) := underReset_of_none hreset _

end Sys2Proof.Machine

/-! PROOFS. What a sampling pass may change, and the port while it waits or runs. -/

namespace Sys2Proof.Machine

/-- A round of a sampling pass may change the port's state, the sampler, transport T[ADC] and the event record, and
writes the result registers only to end the command with success (spec/10_state.md R33, spec/45_adc.md R185). -/
def PassFrame (s t : State) : Prop :=
  t = { s with
    cpState := t.cpState
    res := t.res
    adc := t.adc
    env := { s.env with
      transports := { s.env.transports with tadc := t.env.transports.tadc }
      events := t.env.events } } ∧
  (t.res = s.res ∨ t.res = okResult s.res.value)

theorem passFrame_composes : Composes PassFrame where
  refl _ := ⟨rfl, .inl rfl⟩
  trans := by
    rintro s t u ⟨hst, hres⟩ ⟨htu, hres'⟩
    have hvalue : t.res.value = s.res.value := by
      rcases hres with e | e
      · rw [e]
      · rw [e, okResult]
    refine ⟨by rw [htu, hst], ?_⟩
    rcases hres' with e | e
    · rwa [e]
    · exact .inr (by rw [e, hvalue])

theorem passFrame_transact (s : State) (x : Transport) (e : Event) :
    PassFrame s ((s.setTransport .adc x).emit e) := ⟨rfl, .inl rfl⟩

theorem passFrame_report (s : State) (k : ErrorKind) (loc extra : Half) : PassFrame s (s.report none k loc extra) :=
  ⟨rfl, .inl rfl⟩

theorem passFrame_setAdcAcc (s : State) (c : Fin 8) (a : AdcAcc) : PassFrame s (s.setAdcAcc c a) := ⟨rfl, .inl rfl⟩

theorem adcSample_passFrame (c : Fin 8) (s : State) : PassFrame s ((adcSample c).run s).2 := by
  have hselected : PassFrame s (adcSelected c s) := passFrame_transact s _ _
  have hread : PassFrame s (adcReadBack (adcSelected c s)) :=
    passFrame_composes.trans hselected (passFrame_transact _ _ _)
  rcases adcSample_cases c s with ⟨_, _, h⟩ | ⟨_, _, _, _, _, h⟩ | ⟨_, _, _, _, _, _, h⟩ <;> rw [h]
  · exact passFrame_composes.trans hselected (passFrame_report _ _ _ _)
  · exact passFrame_composes.trans hread (passFrame_report _ _ _ _)
  · exact passFrame_composes.trans hread (passFrame_setAdcAcc _ _ _)

theorem adcBegin_passFrame (c : Fin 8) (s : State) : PassFrame s (adcBegin c s) := ⟨rfl, .inl rfl⟩

theorem adcClose_passFrame (c : Fin 8) (s : State) : PassFrame s (adcClose c s) := by
  unfold adcClose
  dsimp only
  split
  · exact ⟨rfl, .inl rfl⟩
  · exact ⟨rfl, .inr rfl⟩

theorem adcRound_passFrame (c : Fin 8) (s : State) : PassFrame s (adcRound c s) := by
  have hsample : PassFrame s (if (s.adcAcc c).count < s.cfg.adcSamples then ((adcSample c).run s).2 else s) := by
    split
    · exact adcSample_passFrame c s
    · exact passFrame_composes.refl s
  unfold adcRound
  generalize (if (s.adcAcc c).count < s.cfg.adcSamples then ((adcSample c).run s).2 else s) = s' at hsample ⊢
  dsimp only
  split
  · exact hsample
  · exact passFrame_composes.trans hsample (adcClose_passFrame c s')

theorem continueCommand_passFrame (s : State) : PassFrame s (continueCommand s) := by
  unfold continueCommand
  split
  · exact adcRound_passFrame _ s
  · exact passFrame_composes.refl s

theorem adcPlay_passFrame (n : Nat) (s : State) : PassFrame s (adcPlay n s) := by
  induction n generalizing s with
  | zero => exact passFrame_composes.refl s
  | succ n ih =>
    unfold adcPlay
    split
    · exact passFrame_composes.trans (adcRound_passFrame _ s) (ih _)
    · exact passFrame_composes.refl s

/-- In IDLE with nothing written by the host a step changes nothing (spec/70_reset_and_hazards.md R225). -/
theorem step_of_waiting {s : State} (hreset : s.env.resetRequest ≠ .now) (hidle : s.cpState = .idle)
    (hwords : s.env.hostWrites = []) : step s = .next s := by
  have hfetch : fetch s = .waiting := by simp only [fetch, if_neg hreset, hidle, hwords]
  simp only [step, hfetch]

/-- While RUNNING with no reset asked for, a step goes on with the running command (spec/10_state.md R16). -/
theorem step_of_running {s : State} (hreset : s.env.resetRequest = .none) (hrunning : s.cpState = .running) :
    step s = .next (continueCommand s) := by
  have hfetch : fetch s = .running := by simp [fetch, hreset, hrunning]
  simp only [step, hfetch, underReset_of_none hreset]

/-- Settles O8: in IDLE with no word the port fetches nothing; while RUNNING it goes on with the pass, whose frame
leaves CMD and the host's words. -/
theorem portWaitsOrGoesOn : Obligations.PortWaitsOrGoesOn := by
  intro s
  refine ⟨step_of_waiting, fun hreset hrunning => ?_⟩
  obtain ⟨hframe, -⟩ := continueCommand_passFrame s
  exact ⟨continueCommand s, step_of_running hreset hrunning, by rw [hframe], by rw [hframe]⟩

end Sys2Proof.Machine

/-! PROOFS. The cycle commands: one probe after the other, each with its own outcome
(spec/44_probe_manager.md R165, R166, R169). -/

namespace Sys2Proof.Machine

/-! ### A cycle over some probes -/

/-- A cycle over the probes may change BUF, the bridges, the probes, the transports of the groups, the event record and
the draws of free Fahrenheit whole parts (spec/44_probe_manager.md R172). -/
def CycleFrame (s t : State) : Prop :=
  t = { s with
    buf := t.buf
    bridges := t.bridges
    probes := t.probes
    env := { s.env with
      transports := { t.env.transports with tadc := s.env.transports.tadc }
      events := t.env.events
      freeDraws := t.env.freeDraws } }

theorem cycleFrame_composes : Composes CycleFrame where
  refl _ := rfl
  trans := by
    intro s t u h h'
    rw [CycleFrame] at *
    rw [h', h]

theorem ProbeFrame.cycleFrame {i : Fin 16} {s t : State} (h : ProbeFrame i s t) : CycleFrame s t := by
  rw [ProbeFrame] at h
  rw [CycleFrame, h]
  cases probeGroup i <;> rfl

/-- What every probe's part keeps, the cycle keeps. -/
theorem foldl_keeps {R : State → State → Prop} (hR : Composes R) {f : State → Fin 16 → State}
    (hf : ∀ s i, R s (f s i)) (is : List (Fin 16)) (s : State) : R s (is.foldl f s) := by
  induction is generalizing s with
  | nil => exact hR.refl s
  | cons i is ih => exact hR.trans (hf s i) (ih (f s i))

/-- In a cycle over distinct probes each probe is left as its own part leaves it, started from a state with the same
configuration, ACTIVE_RES and fields of that probe; the other probes are untouched (spec/44_probe_manager.md R165). -/
theorem foldl_probe {f : State → Fin 16 → State} (hf : ∀ s i, ProbeFrame i s (f s i)) {is : List (Fin 16)}
    (hdistinct : is.Nodup) (s : State) (i : Fin 16) :
    (i ∉ is → (is.foldl f s).probe i = s.probe i) ∧
    (i ∈ is → ∃ u, u.cfg = s.cfg ∧ u.activeRes = s.activeRes ∧ u.probe i = s.probe i ∧
      (is.foldl f s).probe i = (f u i).probe i) := by
  induction is generalizing s with
  | nil => exact ⟨fun _ => rfl, nofun⟩
  | cons j js ih =>
    obtain ⟨hj, hjs⟩ := List.nodup_cons.mp hdistinct
    obtain ⟨hout, hin⟩ := ih hjs (f s j)
    simp only [List.mem_cons, not_or, List.foldl_cons]
    constructor
    · rintro ⟨hne, hnot⟩
      rw [hout hnot, (hf s j).probe_ne hne]
    · rintro (rfl | hmem)
      · exact ⟨s, rfl, rfl, rfl, hout hj⟩
      · have hne : i ≠ j := fun e => hj (e ▸ hmem)
        obtain ⟨u, hcfg, hres, hprobe, hend⟩ := hin hmem
        exact ⟨u, hcfg.trans (hf s j).cfg, hres.trans (hf s j).activeRes,
          hprobe.trans ((hf s j).probe_ne hne), hend⟩

/-- The cycle commands process every probe once (spec/44_probe_manager.md R165). -/
theorem foldl_probeIndices {f : State → Fin 16 → State} (hf : ∀ s i, ProbeFrame i s (f s i)) (s : State) (i : Fin 16) :
    ∃ u, u.cfg = s.cfg ∧ u.activeRes = s.activeRes ∧ u.probe i = s.probe i ∧
      (probeIndices.foldl f s).probe i = (f u i).probe i := by
  have hdistinct : probeIndices.Nodup := by decide
  have hall : ∀ i, i ∈ probeIndices := by decide
  exact (foldl_probe hf hdistinct s i).2 (hall i)

/-- Bit i of the mask of errored probes (spec/44_probe_manager.md R165). -/
theorem errorMask_getLsbD (s : State) (i : Fin 16) :
    (errorMask s).getLsbD i.val = decide ((s.probe i).lastError ≠ .none) := by
  simp [errorMask, bne, BEq.beq]

/-- The end of a cycle command, written out (spec/44_probe_manager.md R165). -/
theorem endCycle_eq (s : State) : endCycle s = { s with cpState := .idle, res := ⟨0, 0, errorMask s, s.res.value⟩ } :=
  rfl

@[simp] theorem endCycle_probe (s : State) (i : Fin 16) : (endCycle s).probe i = s.probe i := rfl

/-- RES_EXTRA after a cycle command is the mask of its errored probes. -/
theorem endCycle_extra (s : State) (i : Fin 16) :
    (endCycle s).res.extra.getLsbD i.val = decide (((endCycle s).probe i).lastError ≠ .none) :=
  errorMask_getLsbD s i

theorem CycleFrame.endCycle {s t : State} (h : CycleFrame s t) :
    endCycle t = { s with
      cpState := .idle
      res := ⟨0, 0, errorMask t, s.res.value⟩
      buf := t.buf
      bridges := t.bridges
      probes := t.probes
      env := { s.env with
        transports := { t.env.transports with tadc := s.env.transports.tadc }
        events := t.env.events
        freeDraws := t.env.freeDraws } } := by
  have hvalue : t.res.value = s.res.value := by rw [h]
  rw [endCycle_eq, hvalue]
  exact congrArg (fun u : State => { u with cpState := .idle, res := ⟨0, 0, errorMask t, s.res.value⟩ }) h

/-! ### PM_INITIATE_ALL -/

theorem initiateProbe_frame (s : State) (i : Fin 16) : ProbeFrame i s (initiateProbe s i) :=
  (initiateProbe_outcome s i).1.frame

/-- `initiate_all` draws no free Fahrenheit whole part. -/
theorem initiateAll_freeDraws (is : List (Fin 16)) (s : State) :
    (is.foldl initiateProbe s).env.freeDraws = s.env.freeDraws :=
  foldl_keeps (R := fun s t => t.env.freeDraws = s.env.freeDraws) ⟨fun _ => rfl, fun h h' => h'.trans h⟩
    (fun s i => (initiateProbe_outcome s i).1.draws) is s

theorem initiateAll_frame (s : State) : CycleFrame s (probeIndices.foldl initiateProbe s) :=
  foldl_keeps cycleFrame_composes (fun s i => (initiateProbe_frame s i).cycleFrame) probeIndices s

/-- Settles O45: each probe of the cycle is left as its own part of `initiate_all` leaves it
(`initiateProbe_outcome`). -/
theorem initiateAllOutcome : Obligations.InitiateAllOutcome := by
  intro s
  have hframe := initiateAll_frame s
  have hdraws := initiateAll_freeDraws probeIndices s
  refine ⟨endCycle (probeIndices.foldl initiateProbe s), rfl, ?_, fun i => ?_⟩
  · rw [hframe.endCycle, hdraws]
  · obtain ⟨u, -, hres, hprobe, hend⟩ := foldl_probeIndices initiateProbe_frame s i
    obtain ⟨hprogress, hstatus⟩ := initiateProbe_outcome u i
    obtain ⟨-, -, hdecoded, hrom, hconf⟩ := hprogress
    rw [hprobe] at hdecoded hrom hconf
    rw [hres] at hconf
    refine ⟨endCycle_extra _ i, ?_⟩
    rw [endCycle_probe, hend]
    exact ⟨hdecoded, hrom, hconf, hstatus⟩

/-! ### PM_GET_ALL -/

theorem getProbe_frame (s : State) (i : Fin 16) : ProbeFrame i s (getProbe s i).1 := by
  rcases getProbe_outcome s i with ⟨-, h⟩ | ⟨-, hframe, -⟩
  · rw [h]
    exact (probeFrame_composes i).refl s
  · exact hframe

theorem getProbes_eq_foldl (is : List (Fin 16)) (s : State) :
    (getProbes s is).1 = is.foldl (fun s i => (getProbe s i).1) s := by
  induction is generalizing s with
  | nil => rfl
  | cons i is ih => exact ih (getProbe s i).1

theorem getAll_frame (s : State) : CycleFrame s (getProbes s probeIndices).1 := by
  rw [getProbes_eq_foldl]
  exact foldl_keeps cycleFrame_composes (fun s i => (getProbe_frame s i).cycleFrame) probeIndices s

/-- A probe is eligible unless it is errored by another cycle than GET (spec/44_probe_manager.md R169). -/
theorem Probe.eligible_iff (p : Probe) : p.eligible = true ↔ p.lastError = .none ∨ p.errorOrigin = .get := by
  simp [Probe.eligible]

theorem activeIndex_val (s : State) : s.activeIndex.val = s.activeRes.toNat :=
  Nat.mod_eq_of_lt s.activeRes.isLt

/-- Under ONES_COMPLEMENT PM_GET_ALL is not refused (spec/43_temperature.md R149). -/
theorem exec_pmGetAll {s : State} (hmode : s.cfg.negMode = .onesComplement) :
    exec .pmGetAll s = .next (endCycle (getProbes s probeIndices).1) := by
  change execPmGetAll s = _
  simp only [execPmGetAll, hmode]

/-- PM_GET_ALL answers a next state only at the end of its cycle (spec/43_temperature.md R149). -/
theorem exec_pmGetAll_next {s t : State} (h : exec .pmGetAll s = .next t) :
    t = endCycle (getProbes s probeIndices).1 := by
  change execPmGetAll s = _ at h
  rw [execPmGetAll] at h
  split at h
  · exact (Host.Outcome.next.inj h).symm
  · split at h
    · cases h
    · exact (Host.Outcome.next.inj h).symm

/-- Settles O48: each probe of the cycle is left as its own part of `get_all` leaves it (`getProbe_outcome`). -/
theorem getAllOutcome : Obligations.GetAllOutcome := by
  intro s hmode
  have hframe := getAll_frame s
  refine ⟨endCycle (getProbes s probeIndices).1, exec_pmGetAll hmode, ?_, fun i => ?_⟩
  · rw [hframe.endCycle]
  · obtain ⟨u, hcfg, hres, hprobe, hend⟩ := foldl_probeIndices getProbe_frame s i
    rw [← getProbes_eq_foldl] at hend
    have hindex : u.activeIndex.val = s.activeRes.toNat := by rw [activeIndex_val, hres]
    have helig := Probe.eligible_iff (s.probe i)
    refine ⟨endCycle_extra _ i, ?_⟩
    rw [endCycle_probe, hend]
    refine ⟨fun herr horigin => ?_, fun hel => ?_⟩
    · rcases getProbe_outcome u i with ⟨-, h⟩ | ⟨he, -⟩
      · rw [h, hprobe]
      · rw [hprobe, helig] at he
        exact absurd he (by simp [herr, horigin])
    · rcases getProbe_outcome u i with ⟨he, -⟩ | ⟨-, -, h⟩
      · rw [hprobe, helig.mpr hel] at he
        cases he
      · rw [hprobe, hcfg] at h
        rcases h with hmarked | ⟨sp, v, hcrc, h4, h5, h7, ⟨hc, hsign, hfrac, hwhole⟩, hread⟩
        · exact .inl hmarked
        · refine .inr ⟨sp, u.activeIndex, v.fWhole, _, _, hindex, hcrc, h4, h5, h7, hc, rfl, hwhole, ?_⟩
          rw [hread, hsign, hfrac]

end Sys2Proof.Machine

/-! PROOFS. What each family of commands may change (spec/10_state.md R33), and who owns which item of state. -/

namespace Sys2Proof.Machine

/-! ### Operations that leave BUF -/

/-- BUF is as before. -/
abbrev SameBuf (s t : State) : Prop := t.buf = s.buf

theorem sameBuf_composes : Composes SameBuf where
  refl _ := rfl
  trans h h' := h'.trans h

section SameBuf
variable (ctx : Option (Fin 16)) (g : Group)

theorem bridgeWrite_sameBuf (loc : Half) (wb : List Byte) : (bridgeWrite ctx g loc wb).Keeps SameBuf :=
  Op.keeps_bind sameBuf_composes (Op.keeps_read sameBuf_composes _) fun _ =>
    Op.keeps_bind sameBuf_composes (keeps_transact fun _ _ _ => rfl) fun a => by
      cases a
      · exact Op.keeps_pure sameBuf_composes _
      · exact keeps_raise fun _ => rfl

theorem bridgeRead_sameBuf (loc : Half) : (bridgeRead ctx g loc).Keeps SameBuf :=
  Op.keeps_bind sameBuf_composes (Op.keeps_read sameBuf_composes _) fun _ =>
    Op.keeps_bind sameBuf_composes (keeps_transact fun _ _ _ => rfl) fun a => by
      cases a
      · exact Op.keeps_pure sameBuf_composes _
      · exact keeps_raise fun _ => rfl

theorem pollLoop_sameBuf (cmd1 : Byte) (left i : Nat) : (pollLoop ctx g cmd1 left i).Keeps SameBuf := by
  induction left generalizing i with
  | zero => exact Op.keeps_bind sameBuf_composes (Op.keeps_read sameBuf_composes _) fun _ => keeps_raise fun _ => rfl
  | succ n ih =>
    refine Op.keeps_bind sameBuf_composes (bridgeRead_sameBuf _ _ _) fun st => ?_
    refine Op.keeps_bind sameBuf_composes (Op.keeps_modify fun _ => rfl) fun _ => ?_
    refine Op.keeps_bind sameBuf_composes (Op.keeps_read sameBuf_composes _) fun cfg => ?_
    split
    · exact Op.keeps_bind sameBuf_composes (keeps_delay fun _ => rfl) fun _ => ih _
    · split
      · exact keeps_raise fun _ => rfl
      · exact Op.keeps_pure sameBuf_composes _

theorem sendCommand_sameBuf (cmd1 cmd2 : Byte) : (sendCommand ctx g cmd1 cmd2).Keeps SameBuf := by
  refine Op.keeps_bind sameBuf_composes (bridgeWrite_sameBuf _ _ _ _) fun _ => ?_
  refine Op.keeps_bind sameBuf_composes (Op.keeps_read sameBuf_composes _) fun cfg => ?_
  split
  · exact Op.keeps_pure sameBuf_composes _
  · exact Op.keeps_bind sameBuf_composes (Op.keeps_modify fun _ => rfl) fun _ => pollLoop_sameBuf _ _ _ _ _

theorem oneWireReset_sameBuf : (oneWireReset ctx g).Keeps SameBuf :=
  Op.keeps_bind sameBuf_composes (Op.keeps_read sameBuf_composes _) fun _ => sendCommand_sameBuf _ _ _ _

theorem writeByte_sameBuf (b : Byte) : (writeByte ctx g b).Keeps SameBuf :=
  Op.keeps_bind sameBuf_composes (Op.keeps_read sameBuf_composes _) fun _ => sendCommand_sameBuf _ _ _ _

theorem readByte_sameBuf : (readByte ctx g).Keeps SameBuf :=
  Op.keeps_bind sameBuf_composes (Op.keeps_read sameBuf_composes _) fun _ =>
    Op.keeps_bind sameBuf_composes (sendCommand_sameBuf _ _ _ _) fun _ =>
      Op.keeps_bind sameBuf_composes (sendCommand_sameBuf _ _ _ _) fun _ => bridgeRead_sameBuf _ _ _

theorem selectChannel_sameBuf (w v : Byte) : (selectChannel ctx g w v).Keeps SameBuf := by
  refine Op.keeps_bind sameBuf_composes (Op.keeps_read sameBuf_composes _) fun cfg => ?_
  refine Op.keeps_bind sameBuf_composes (sendCommand_sameBuf _ _ _ _) fun _ => ?_
  refine Op.keeps_bind sameBuf_composes (bridgeRead_sameBuf _ _ _) fun rb => ?_
  split
  · exact Op.keeps_pure sameBuf_composes _
  · exact keeps_raise fun _ => rfl

theorem resetAndConfigure_sameBuf (force : Bool) : (resetAndConfigure ctx g force).Keeps SameBuf := by
  cases force with
  | false => exact Op.keeps_pure sameBuf_composes _
  | true =>
    refine Op.keeps_bind sameBuf_composes (Op.keeps_read sameBuf_composes _) fun cfg => ?_
    iterate 2 refine Op.keeps_bind sameBuf_composes (sendCommand_sameBuf _ _ _ _) fun _ => ?_
    refine Op.keeps_bind sameBuf_composes (bridgeRead_sameBuf _ _ _) fun rb => ?_
    split
    · exact Op.keeps_pure sameBuf_composes _
    · exact keeps_raise fun _ => rfl

theorem copyPoll_sameBuf (left : Nat) : (copyPoll ctx g left).Keeps SameBuf := by
  induction left with
  | zero => exact keeps_raise fun _ => rfl
  | succ n ih =>
    refine Op.keeps_bind sameBuf_composes (readByte_sameBuf _ _) fun b => ?_
    split
    · exact ih
    · exact Op.keeps_pure sameBuf_composes _

theorem configureProbe_sameBuf (bits : Nat) : (configureProbe ctx g bits).Keeps SameBuf := by
  refine Op.keeps_bind sameBuf_composes (Op.keeps_read sameBuf_composes _) fun cfg => ?_
  refine Op.keeps_bind sameBuf_composes (oneWireReset_sameBuf _ _) fun _ => ?_
  iterate 5 refine Op.keeps_bind sameBuf_composes (writeByte_sameBuf _ _ _) fun _ => ?_
  refine Op.keeps_bind sameBuf_composes (oneWireReset_sameBuf _ _) fun _ => ?_
  iterate 2 refine Op.keeps_bind sameBuf_composes (writeByte_sameBuf _ _ _) fun _ => ?_
  refine Op.keeps_bind sameBuf_composes (keeps_delay fun _ => rfl) fun _ => ?_
  refine Op.keeps_bind sameBuf_composes (oneWireReset_sameBuf _ _) fun _ => ?_
  exact copyPoll_sameBuf _ _ _

theorem triggerConversion_sameBuf : (triggerConversion ctx g).Keeps SameBuf := by
  refine Op.keeps_bind sameBuf_composes (Op.keeps_read sameBuf_composes _) fun cfg => ?_
  refine Op.keeps_bind sameBuf_composes (oneWireReset_sameBuf _ _) fun _ => ?_
  exact Op.keeps_bind sameBuf_composes (writeByte_sameBuf _ _ _) fun _ => writeByte_sameBuf _ _ _

end SameBuf

/-! ### Bridge commands -/

theorem ifLegal_cases (i : Instr) (s : State) (o : Host.Outcome State Fault Refusal) :
    ifLegal i s o = .next (illegalCommand s) ∨ ifLegal i s o = o := by
  cases h : i.wf with
  | false => exact .inl (ifLegal_of_not_wf h s o)
  | true => exact .inr (ifLegal_of_wf h s o)

/-- A case split over the commands that takes the ten bridge commands as one (spec/30_encoding.md R71). -/
theorem Instr.byFamily {P : Instr → Prop} (bufLoad : ∀ k v, P (.bufLoad k v)) (crcCompute : ∀ n, P (.crcCompute n))
    (crcValidate : ∀ n, P (.crcValidate n)) (setLogging : ∀ f, P (.setLogging f))
    (bridge : ∀ g i, IsBridgeCommand g i → P i) (tdDecode : ∀ a, P (.tdDecode a))
    (tdCToF : ∀ n w f, P (.tdCToF n w f)) (pmInitiateAll : P .pmInitiateAll) (pmGetAll : P .pmGetAll)
    (pmSetResolution : ∀ x, P (.pmSetResolution x)) (adcPass : P .adcPass) (i : Instr) : P i := by
  cases i with
  | bufLoad k v => exact bufLoad k v
  | crcCompute n => exact crcCompute n
  | crcValidate n => exact crcValidate n
  | setLogging f => exact setLogging f
  | tdDecode a => exact tdDecode a
  | tdCToF n w f => exact tdCToF n w f
  | pmInitiateAll => exact pmInitiateAll
  | pmGetAll => exact pmGetAll
  | pmSetResolution x => exact pmSetResolution x
  | adcPass => exact adcPass
  | _ g => exact bridge g _ (by simp [IsBridgeCommand])

/-- An operation of bridge steps on group g and of writes of RES_VALUE: it ends in every relation that those keep. -/
def Op.OfBridge (g : Group) (x : Op Unit) : Prop :=
  ∀ {R : State → State → Prop} {E : Failure → State → State → Prop}, BridgeSteps none g R E →
    (∀ s v, R s (s.setResValue v)) → x.Ends R E

/-- A bridge command runs an operation of bridge steps on its group, or its operands are illegal; only the two read
sequences write BUF (spec/40_bridge.md, spec/41_bridge_sequences.md: "State written" of each rule). -/
theorem exec_bridge {g : Group} {i : Instr} (h : IsBridgeCommand g i) (s : State) :
    exec i s = .next (illegalCommand s) ∨ ∃ x : Op Unit, exec i s = .next (runCommand x s) ∧ x.OfBridge g ∧
      (i ≠ .brReadRom g → i ≠ .brRetrieveSp g → x.Keeps SameBuf) := by
  rcases h with ⟨a, b, rfl⟩ | ⟨f, rfl⟩ | ⟨w, v, rfl⟩ | rfl | ⟨b, rfl⟩ | rfl | rfl | ⟨b, rfl⟩ | rfl | rfl
  · exact .inr ⟨_, rfl, fun h _ => sendCommand_ends h a b, fun _ _ => sendCommand_sameBuf none g a b⟩
  · exact (ifLegal_cases _ s _).imp id fun h =>
      ⟨_, h, fun h _ => resetAndConfigure_ends h _, fun _ _ => resetAndConfigure_sameBuf none g _⟩
  · exact .inr ⟨_, rfl, fun h _ => selectChannel_ends h w v, fun _ _ => selectChannel_sameBuf none g w v⟩
  · exact .inr ⟨_, rfl, fun h _ => oneWireReset_ends h, fun _ _ => oneWireReset_sameBuf none g⟩
  · exact .inr ⟨_, rfl, fun h _ => writeByte_ends h b, fun _ _ => writeByte_sameBuf none g b⟩
  · refine .inr ⟨_, rfl, fun h hv => ?_, fun _ _ => ?_⟩
    · exact Op.ends_bind h.toEndsCompose (readByte_ends h) fun b => Op.ends_modify fun s => hv s b
    · exact Op.keeps_bind sameBuf_composes (readByte_sameBuf none g) fun b => Op.keeps_modify fun _ => rfl
  · exact .inr ⟨_, rfl, fun h _ => Op.ends_bind h.toEndsCompose (readRom_ends h) fun _ => Op.ends_pure h.toEndsCompose _,
      fun hne => absurd rfl hne⟩
  · exact (ifLegal_cases _ s _).imp id fun h =>
      ⟨_, h, fun h _ => configureProbe_ends h _, fun _ _ => configureProbe_sameBuf none g _⟩
  · exact .inr ⟨_, rfl, fun h _ => triggerConversion_ends h, fun _ _ => triggerConversion_sameBuf none g⟩
  · exact .inr ⟨_, rfl,
      fun h _ => Op.ends_bind h.toEndsCompose (retrieveScratchpad_ends h) fun _ => Op.ends_pure h.toEndsCompose _,
      fun _ hne => absurd rfl hne⟩

/-! ### Who owns what -/

/-- `t` differs from `s` only in the items of state that command i owns (spec/10_state.md R20, R21, R28, R33, R34). -/
structure OwnedChange (i : Instr) (s t : State) : Prop where
  cfg : t.cfg = s.cfg
  cmd : t.cmd = s.cmd
  hostWrites : t.env.hostWrites = s.env.hostWrites
  resetRequest : t.env.resetRequest = s.env.resetRequest
  logVerbose : (∀ f, i ≠ .setLogging f) → t.logVerbose = s.logVerbose
  activeRes : (∀ x, i ≠ .pmSetResolution x) → t.activeRes = s.activeRes
  td : (∀ r, i ≠ .tdDecode r) → (∀ n w f, i ≠ .tdCToF n w f) → t.td = s.td
  probes : i ≠ .pmInitiateAll → i ≠ .pmGetAll → (∀ x, i ≠ .pmSetResolution x) → t.probes = s.probes
  adc : i ≠ .adcPass → t.adc = s.adc ∧ t.transport .adc = s.transport .adc
  bridges : (∀ g, ¬ IsBridgeCommand g i) → i ≠ .pmInitiateAll → i ≠ .pmGetAll →
    t.bridges = s.bridges ∧ t.transport (.grp .g0) = s.transport (.grp .g0) ∧
      t.transport (.grp .g1) = s.transport (.grp .g1)
  buf : (∀ k v, i ≠ .bufLoad k v) → (∀ g, i ≠ .brReadRom g) → (∀ g, i ≠ .brRetrieveSp g) → i ≠ .pmInitiateAll →
    i ≠ .pmGetAll → t.buf = s.buf

/-- An operation of bridge steps changes what `BridgeFrame g` admits, and RES_VALUE. -/
def BridgeValueFrame (g : Group) (s t : State) : Prop := ∃ v, BridgeFrame g (s.setResValue v) t

theorem bridgeValueFrame_steps (ctx : Option (Fin 16)) (g : Group) :
    BridgeSteps ctx g (BridgeValueFrame g) fun _ => BridgeValueFrame g := by
  have keep : ∀ {s t}, BridgeFrame g s t → BridgeValueFrame g s t := fun {s t} h => ⟨s.res.value, h⟩
  have trans : ∀ {s t u}, BridgeValueFrame g s t → BridgeValueFrame g t u → BridgeValueFrame g s u := by
    rintro s t u ⟨v, h⟩ ⟨w, h'⟩
    refine ⟨w, (bridgeFrame_composes g).trans (t := t.setResValue w) ?_ h'⟩
    exact congrArg (State.setResValue · w) h
  have steps := bridgeFrame_steps ctx g
  exact {
    refl := fun s => keep (steps.refl s)
    trans := trans
    transE := trans
    setBuf := fun s k v => keep (steps.setBuf s k v)
    setBridge := fun s b hb => keep (steps.setBridge s b hb)
    resetPolls := fun s => keep (steps.resetPolls s)
    delay := fun s d => keep (steps.delay s d)
    report := fun s k loc extra hk hl => keep (steps.report s k loc extra hk hl)
    write := fun s x wb a hw => keep (steps.write s x wb a hw)
    read := fun s x a => keep (steps.read s x a) }

/-- What a command that runs an operation leaves is what the operation leaves, but for the result registers and the
port's state (spec/60_exceptions.md R203). -/
theorem runCommand_eq (x : Op Unit) (s : State) :
    runCommand x s = { (x.run s).2 with res := (runCommand x s).res, cpState := .idle } := by
  rcases runCommand_cases x s with ⟨t, hx, h⟩ | ⟨f, t, hx, h⟩ <;> rw [h, hx]

theorem runCommand_bridgeFrame {g : Group} {x : Op Unit} (hx : x.OfBridge g) (s : State) :
    BridgeCommandFrame g s (runCommand x s) := by
  obtain ⟨v, h⟩ := (hx (bridgeValueFrame_steps none g) fun s v => ⟨v, (bridgeFrame_composes g).refl _⟩).keeps s
  rw [BridgeCommandFrame, runCommand_eq]
  exact congrArg (fun t : State => { t with res := (runCommand x s).res, cpState := .idle }) h

section Owned
variable {i : Instr}

theorem ownedChange_composes (i : Instr) : Composes (OwnedChange i) where
  refl s := by constructor <;> simp
  trans h h' := {
    cfg := h'.cfg.trans h.cfg
    cmd := h'.cmd.trans h.cmd
    hostWrites := h'.hostWrites.trans h.hostWrites
    resetRequest := h'.resetRequest.trans h.resetRequest
    logVerbose := fun a => (h'.logVerbose a).trans (h.logVerbose a)
    activeRes := fun a => (h'.activeRes a).trans (h.activeRes a)
    td := fun a b => (h'.td a b).trans (h.td a b)
    probes := fun a b c => (h'.probes a b c).trans (h.probes a b c)
    adc := fun a => ⟨(h'.adc a).1.trans (h.adc a).1, (h'.adc a).2.trans (h.adc a).2⟩
    bridges := fun a b c => by
      obtain ⟨hb, h0, h1⟩ := h.bridges a b c
      obtain ⟨hb', h0', h1'⟩ := h'.bridges a b c
      exact ⟨hb'.trans hb, h0'.trans h0, h1'.trans h1⟩
    buf := fun a b c d e => (h'.buf a b c d e).trans (h.buf a b c d e) }

/-- Every command may emit a record. -/
theorem ownedChange_report (s : State) (ctx : Option (Fin 16)) (k : ErrorKind) (loc extra : Half) :
    OwnedChange i s (s.report ctx k loc extra) := by
  constructor <;> simp [State.transport]

/-- Every command writes the result registers and the port's state. -/
theorem ownedChange_result (s : State) (r : ResultRegs) (p : CpState) :
    OwnedChange i s { s with res := r, cpState := p } := by
  constructor <;> simp [State.transport]

/-- Every command may draw a free Fahrenheit whole part. -/
theorem ownedChange_freeDraws (s : State) (n : Nat) :
    OwnedChange i s { s with env := { s.env with freeDraws := n } } := by
  constructor <;> simp [State.transport]

theorem runCommand_owned {x : Op Unit} (hx : x.Keeps (OwnedChange i)) (s : State) :
    OwnedChange i s (runCommand x s) := by
  rw [runCommand_eq]
  exact (ownedChange_composes i).trans (hx s) (ownedChange_result _ _ _)

theorem illegalCommand_owned (s : State) : OwnedChange i s (illegalCommand s) :=
  runCommand_owned (keeps_raise fun _ => ownedChange_report _ _ _ _ _) s

/-- A command with operands to check owns what its operation owns. -/
theorem ifLegal_owned {j : Instr} {x : Op Unit} (hx : x.Keeps (OwnedChange i)) {s t : State}
    (h : ifLegal j s (.next (runCommand x s)) = .next t) : OwnedChange i s t := by
  rcases ifLegal_cases j s (.next (runCommand x s)) with e | e <;> rw [e] at h <;> cases h
  · exact illegalCommand_owned s
  · exact runCommand_owned hx s

theorem bridge_owned {g : Group} (hi : IsBridgeCommand g i) {s t : State} (h : exec i s = .next t) :
    OwnedChange i s t := by
  rcases exec_bridge hi s with e | ⟨x, e, hx, hbuf⟩ <;> rw [e] at h <;> cases h
  · exact illegalCommand_owned s
  · have hframe := runCommand_bridgeFrame hx s
    have hsame : i ≠ .brReadRom g → i ≠ .brRetrieveSp g → (runCommand x s).buf = s.buf := fun a b => by
      rw [runCommand_eq]
      exact hbuf a b s
    rw [BridgeCommandFrame] at hframe
    generalize runCommand x s = t at hframe hsame
    refine {
      cfg := by rw [hframe]
      cmd := by rw [hframe]
      hostWrites := by rw [hframe]
      resetRequest := by rw [hframe]
      logVerbose := fun _ => by rw [hframe]
      activeRes := fun _ => by rw [hframe]
      td := fun _ _ => by rw [hframe]
      probes := fun _ _ _ => by rw [hframe]
      adc := fun _ => ⟨by rw [hframe], by rw [hframe]; exact Transports.get_set_ne _ _ nofun⟩
      bridges := fun a => absurd hi (a g)
      buf := fun _ a b _ _ => hsame (a g) (b g) }

theorem cycle_owned (hi : i = .pmInitiateAll ∨ i = .pmGetAll) {s t : State} (h : CycleFrame s t) :
    OwnedChange i s (endCycle t) := by
  rw [h.endCycle]
  rcases hi with rfl | rfl <;> constructor <;> simp [State.transport, Transports.get]

theorem adcPass_owned (s : State) (n : Nat) :
    OwnedChange .adcPass s (adcPlay n (adcBegin 0 { s with cpState := .running })) := by
  obtain ⟨h, -⟩ := passFrame_composes.trans (adcBegin_passFrame 0 { s with cpState := .running })
    (adcPlay_passFrame n (adcBegin 0 { s with cpState := .running }))
  rw [h]
  constructor <;> simp [State.transport, Transports.get]

end Owned

/-! ### The commands without ports -/

theorem crcValidate_owned (n : Byte) (p : Nat) : (crcValidate p).Keeps (OwnedChange (.crcValidate n)) := by
  have hR := ownedChange_composes (.crcValidate n)
  refine Op.keeps_bind hR (Op.keeps_read hR _) fun c => Op.keeps_bind hR (Op.keeps_read hR _) fun received => ?_
  refine Op.keeps_bind hR (Op.keeps_modify fun s => ownedChange_result s _ _) fun _ => ?_
  split
  · exact Op.keeps_pure hR _
  · exact keeps_raise fun s => ownedChange_report s _ _ _ _

theorem storedWhole_owned (i : Instr) (whole : Nat) : (storedWhole whole).Keeps (OwnedChange i) := by
  intro s
  rcases storedWhole_cases whole s with ⟨-, e⟩ | ⟨-, e⟩ <;> rw [e]
  · exact (ownedChange_composes i).refl s
  · exact ownedChange_freeDraws s _

/-- TD_DECODE is illegal, decodes, or is refused under another NEG_MODE (spec/43_temperature.md R145, R149). -/
theorem exec_tdDecode_cases (a : Byte) (s : State) :
    exec (.tdDecode a) s = .next (illegalCommand s) ∨
    exec (.tdDecode a) s = .next (runCommand (tdDecode (resIndexOfByte a)) s) ∨
    exec (.tdDecode a) s = .refused .negModeUndefined := by
  refine (ifLegal_cases _ s _).imp id fun h => ?_
  replace h : exec (.tdDecode a) s = _ := h
  cases hmode : s.cfg.negMode <;> rw [hmode] at h
  · exact .inl h
  · exact .inr h

theorem tdDecode_owned (a : Byte) (r : Fin 4) : (tdDecode r).Keeps (OwnedChange (.tdDecode a)) := by
  have hR := ownedChange_composes (.tdDecode a)
  refine Op.keeps_bind hR (Op.keeps_read hR _) fun sp => ?_
  refine Op.keeps_bind hR (fun s => ?_) fun v => Op.keeps_modify fun s => ?_
  · rcases decodeScratchpad_cases none sp r s with ⟨-, e⟩ | ⟨-, -, e⟩ | ⟨-, -, -, v, n, e, -⟩ <;> rw [e]
    · exact ownedChange_report s _ _ _ _
    · exact ownedChange_report s _ _ _ _
    · exact ownedChange_freeDraws s n
  · constructor <;> simp [State.transport]

theorem tdCToF_owned (n : Bool) (w f : Byte) (whole tenths : Nat) :
    (tdCToF n whole tenths).Keeps (OwnedChange (.tdCToF n w f)) := by
  have hR := ownedChange_composes (.tdCToF n w f)
  refine Op.keeps_bind hR (Op.keeps_read hR _) fun cfg => ?_
  refine Op.keeps_bind hR (storedWhole_owned _ _) fun fw => Op.keeps_modify fun s => ?_
  constructor <;> simp [State.transport]

/-- `set_resolution`, written out (spec/44_probe_manager.md R174). -/
theorem run_setResolution (x : Byte) (s : State) :
    (setResolution x).run s =
      (.ok (), if x.toNat = s.activeRes.toNat then s
        else { s with
          activeRes := if 3 < x.toNat then 0 else x.setWidth 2
          probes := s.probes.map fun p => { p with configured := false }
          env := (if 3 < x.toNat then s.report none .none (locCode 0x32 1) (zext16 x) else s).env }) := by
  rw [setResolution, Op.run_read_bind]
  split
  · rfl
  · rw [Op.run_modify_bind, Op.run_modify_bind, Op.run_modify]
    split <;> rfl

theorem setResolution_owned (x : Byte) : (setResolution x).Keeps (OwnedChange (.pmSetResolution x)) := by
  intro s
  rw [run_setResolution]
  dsimp only
  split
  · exact (ownedChange_composes _).refl s
  · split <;> constructor <;> simp [State.transport]

theorem exec_owned {i : Instr} {s t : State} (h : exec i s = .next t) : OwnedChange i s t := by
  cases i using Instr.byFamily with
  | bufLoad k v => exact ifLegal_owned (Op.keeps_modify fun s => by constructor <;> simp [State.transport]) h
  | crcCompute n => exact ifLegal_owned (Op.keeps_modify fun s => ownedChange_result s _ _) h
  | crcValidate n => exact ifLegal_owned (crcValidate_owned n _) h
  | setLogging f => exact ifLegal_owned (Op.keeps_modify fun s => by constructor <;> simp [State.transport]) h
  | bridge g i hi => exact bridge_owned hi h
  | tdDecode a =>
    rcases exec_tdDecode_cases a s with e | e | e <;> rw [e] at h <;> cases h
    · exact illegalCommand_owned s
    · exact runCommand_owned (tdDecode_owned a _) s
  | tdCToF n w f => exact ifLegal_owned (tdCToF_owned n w f _ _) h
  | pmInitiateAll =>
    rw [← Host.Outcome.next.inj h]
    exact cycle_owned (.inl rfl) (initiateAll_frame s)
  | pmGetAll =>
    rw [exec_pmGetAll_next h]
    exact cycle_owned (.inr rfl) (getAll_frame s)
  | pmSetResolution x =>
    cases h
    exact runCommand_owned (setResolution_owned x) s
  | adcPass =>
    cases h
    exact adcPass_owned s _

/-- Settles O57: a later round of a pass keeps `PassFrame`, and every command changes only what it owns. -/
theorem commandsOwnTheirState : Obligations.CommandsOwnTheirState := by
  refine ⟨fun s t hreset hrunning h => ?_, fun i s t h => ?_⟩
  · rw [step_of_running hreset hrunning] at h
    cases h
    exact (continueCommand_passFrame s).1
  · obtain ⟨hcfg, hcmd, hwords, hreset, hlog, hres, htd, hprobes, hadc, hbridges, hbuf⟩ := exec_owned h
    exact ⟨hcfg, hcmd, hwords, hreset, hlog, hres, htd, hprobes, hadc, hbridges, hbuf⟩

end Sys2Proof.Machine

/-! PROOFS. The invariant: every operation keeps the registers well formed, and every step the invariant. -/

namespace Sys2Proof.Machine

/-! ### The registers -/

/-- Well-formed registers stay so, and the sampler is as before. -/
def KeepsRegisters (s t : State) : Prop := (s.RegistersWellFormed → t.RegistersWellFormed) ∧ t.adc = s.adc

theorem keepsRegisters_composes : Composes KeepsRegisters where
  refl _ := ⟨id, rfl⟩
  trans h h' := ⟨fun hs => h'.1 (h.1 hs), h'.2.trans h.2⟩

/-- RES_KIND holds a code of an ErrorKind (spec/60_exceptions.md R200). -/
theorem ErrorKind.code_le (k : ErrorKind) : k.code.toNat ≤ 11 := by
  cases k <;> decide

theorem State.RegistersWellFormed.withResult {s : State} (h : s.RegistersWellFormed) {r : ResultRegs}
    (hkind : r.kind.toNat ≤ 11) (p : CpState) : State.RegistersWellFormed { s with res := r, cpState := p } :=
  ⟨hkind, h.2⟩

/-- What an operation that keeps the registers leaves at the end of its command meets the invariant when no pass is in
progress (spec/60_exceptions.md R203). -/
theorem runCommand_inv {x : Op Unit} (hx : x.Keeps KeepsRegisters) {s : State} (hs : s.RegistersWellFormed)
    (hpass : s.adc.channel = none) : (runCommand x s).Inv := by
  obtain ⟨hwf, hadc⟩ := hx s
  have hnone : (x.run s).2.adc.channel = none := by rw [hadc, hpass]
  rcases runCommand_cases x s with ⟨t, e, h⟩ | ⟨f, t, e, h⟩ <;> rw [e] at hwf hnone <;> rw [h]
  · exact ⟨(hwf hs).withResult (Nat.zero_le _) _, by simpa using hnone⟩
  · exact ⟨(hwf hs).withResult f.kind.code_le _, by simpa using hnone⟩

theorem illegalCommand_inv {s : State} (hs : s.RegistersWellFormed) (hpass : s.adc.channel = none) :
    (illegalCommand s).Inv :=
  runCommand_inv (keeps_raise fun _ => ⟨id, rfl⟩) hs hpass

theorem ifLegal_inv {i : Instr} {x : Op Unit} (hx : x.Keeps KeepsRegisters) {s t : State} (hs : s.RegistersWellFormed)
    (hpass : s.adc.channel = none) (h : ifLegal i s (.next (runCommand x s)) = .next t) : t.Inv := by
  rcases ifLegal_cases i s (.next (runCommand x s)) with e | e <;> rw [e] at h <;> cases h
  · exact illegalCommand_inv hs hpass
  · exact runCommand_inv hx hs hpass

/-! ### Bridge commands -/

/-- BR_POLLS[g] is within BUSY_POLL_LIMIT (spec/10_state.md R23). -/
abbrev PollsBounded (s : State) : Prop :=
  (s.bridge .g0).polls ≤ Config.busyPollLimit ∧ (s.bridge .g1).polls ≤ Config.busyPollLimit

theorem PollsBounded.setBridge {s : State} (h : PollsBounded s) (g : Group) {b : Bridge}
    (hb : b.polls ≤ Config.busyPollLimit) : PollsBounded (s.setBridge g b) := by
  cases g
  · exact ⟨hb, h.2⟩
  · exact ⟨h.1, hb⟩

theorem keepsRegisters_steps (ctx : Option (Fin 16)) (g : Group) :
    BridgeSteps ctx g KeepsRegisters fun _ => KeepsRegisters where
  toComposes := keepsRegisters_composes
  transE := keepsRegisters_composes.trans
  setBuf _ _ _ := ⟨id, rfl⟩
  setBridge _ _ hb := ⟨fun ⟨hkind, hpolls, hrest⟩ => ⟨hkind, PollsBounded.setBridge hpolls g hb, hrest⟩, rfl⟩
  resetPolls _ := ⟨fun ⟨hkind, hpolls, hrest⟩ => ⟨hkind, PollsBounded.setBridge hpolls g (Nat.zero_le _), hrest⟩, rfl⟩
  delay _ _ := ⟨id, rfl⟩
  report _ _ _ _ _ _ := ⟨id, rfl⟩
  write _ _ _ _ _ := ⟨id, rfl⟩
  read _ _ _ := ⟨id, rfl⟩

theorem bridge_inv {g : Group} {i : Instr} (hi : IsBridgeCommand g i) {s t : State} (hs : s.RegistersWellFormed)
    (hpass : s.adc.channel = none) (h : exec i s = .next t) : t.Inv := by
  rcases exec_bridge hi s with e | ⟨x, e, hx, -⟩ <;> rw [e] at h <;> cases h
  · exact illegalCommand_inv hs hpass
  · exact runCommand_inv (hx (keepsRegisters_steps none g) fun _ _ => ⟨id, rfl⟩).keeps hs hpass

/-! ### The commands without ports -/

theorem setBuf_keepsRegisters (k : Fin 9) (v : Byte) : (Op.modify fun s => s.setBuf k v).Keeps KeepsRegisters :=
  Op.keeps_modify fun s => (⟨id, rfl⟩ : KeepsRegisters s (s.setBuf k v))

theorem setLogVerbose_keepsRegisters (f : Bool) : (Op.modify fun s => s.setLogVerbose f).Keeps KeepsRegisters :=
  Op.keeps_modify fun s => (⟨id, rfl⟩ : KeepsRegisters s (s.setLogVerbose f))

theorem crcCompute_keepsRegisters (n : Nat) :
    (Op.modify fun s => s.setResValue (crc8 (bufPrefix s n))).Keeps KeepsRegisters :=
  Op.keeps_modify fun s => (⟨id, rfl⟩ : KeepsRegisters s (s.setResValue _))

theorem crcValidate_keepsRegisters (p : Nat) : (crcValidate p).Keeps KeepsRegisters := by
  have hR := keepsRegisters_composes
  refine Op.keeps_bind hR (Op.keeps_read hR _) fun c => Op.keeps_bind hR (Op.keeps_read hR _) fun received => ?_
  refine Op.keeps_bind hR (Op.keeps_modify fun s => ⟨id, rfl⟩) fun _ => ?_
  split
  · exact Op.keeps_pure hR _
  · exact keeps_raise fun s => ⟨id, rfl⟩

/-- The decoder's registers keep their ranges: a reading has them (spec/10_state.md R28). -/
theorem tdDecode_keepsRegisters (r : Fin 4) : (tdDecode r).Keeps KeepsRegisters := by
  intro s
  rw [tdDecode, Op.run_read_bind]
  rcases decodeScratchpad_cases none s.buf r s with ⟨-, e⟩ | ⟨-, -, e⟩ | ⟨-, -, -, v, n, e, hv, -⟩
  · rw [Op.run_bind_error e]
    exact ⟨id, rfl⟩
  · rw [Op.run_bind_error e]
    exact ⟨id, rfl⟩
  · rw [Op.run_bind_ok e]
    exact ⟨fun ⟨hkind, hpolls, hprobes, _, hadc⟩ => ⟨hkind, hpolls, hprobes, hv.ranges, hadc⟩, rfl⟩

theorem tdCToF_keepsRegisters (n : Bool) (whole tenths : Nat) : (tdCToF n whole tenths).Keeps KeepsRegisters := by
  intro s
  have hfrac := fahrenheit_frac_le s.cfg n whole tenths
  rw [tdCToF, Op.run_read_bind]
  rcases storedWhole_cases (fahrenheit s.cfg n whole tenths).whole s with ⟨-, e⟩ | ⟨-, e⟩
  all_goals
    rw [Op.run_bind_ok e]
    exact ⟨fun ⟨hkind, hpolls, hprobes, ⟨hwhole, htenths, _⟩, hadc⟩ =>
      ⟨hkind, hpolls, hprobes, ⟨hwhole, htenths, hfrac⟩, hadc⟩, rfl⟩

/-- A probe that is not configured is well formed at every ACTIVE_RES (spec/10_state.md R25). -/
theorem Probe.WellFormed.unconfigured {active : BitVec 2} {p : Probe} (h : p.WellFormed active) (active' : BitVec 2) :
    Probe.WellFormed active' { p with configured := false } := by
  obtain ⟨hbits, hdecoded, horigin, hphase, -, hrom⟩ := h
  exact ⟨hbits, hdecoded, horigin, hphase, nofun, hrom⟩

theorem setResolution_keepsRegisters (x : Byte) : (setResolution x).Keeps KeepsRegisters := by
  intro s
  rw [run_setResolution]
  dsimp only
  generalize (if 3 < x.toNat then (0 : BitVec 2) else x.setWidth 2) = active
  split
  · exact keepsRegisters_composes.refl s
  · refine ⟨fun ⟨hkind, hpolls, hprobes, htd, hadc⟩ => ⟨hkind, hpolls, fun i => ?_, htd, hadc⟩, rfl⟩
    simpa [State.probe] using (hprobes i).unconfigured active

/-! ### The cycle commands -/

/-- Processing probe i keeps the registers well formed when it leaves the probe and the polls so. -/
theorem ProbeFrame.registersWellFormed {i : Fin 16} {s t : State} (h : ProbeFrame i s t) (hs : s.RegistersWellFormed)
    (hpolls : PollsBounded t) (hprobe : (t.probe i).WellFormed s.activeRes) : t.RegistersWellFormed := by
  obtain ⟨hkind, -, hprobes, htd, hadc⟩ := hs
  refine ⟨by rwa [h.res], hpolls, fun j => ?_, by rwa [h.td], by rwa [h.adc, h.cfg]⟩
  rw [h.activeRes]
  by_cases hj : j = i
  · rwa [hj]
  · rw [h.probe_ne hj]
    exact hprobes j

abbrev KeepsPolls (s t : State) : Prop := PollsBounded s → PollsBounded t

theorem keepsPolls_composes : Composes KeepsPolls where
  refl _ := id
  trans h h' hs := h' (h hs)

theorem keepsPolls_steps (ctx : Option (Fin 16)) (g : Group) : BridgeSteps ctx g KeepsPolls fun _ => KeepsPolls where
  toComposes := keepsPolls_composes
  transE := keepsPolls_composes.trans
  setBuf _ _ _ := id
  setBridge _ _ hb h := h.setBridge g hb
  resetPolls _ h := h.setBridge g (Nat.zero_le _)
  delay _ _ := id
  report _ _ _ _ _ _ := id
  write _ _ _ _ _ := id
  read _ _ _ := id

/-- What the bridge steps and the writes of PROBE[i] keep, the steps of `initiate_all` for probe i keep
(spec/44_probe_manager.md R166). -/
theorem initiateSteps_keeps {i : Fin 16} {R : State → State → Prop}
    (h : BridgeSteps (some i) (probeGroup i) R fun _ => R) (hprobe : ∀ s f, R s (s.updateProbe i f)) :
    (initiateSteps i).Keeps R := by
  have hR := h.toComposes
  have hphase : ∀ p, (setPhase i p).Keeps R := fun p => Op.keeps_modify fun s => hprobe s _
  have hidentify : (identifyProbe i).Keeps R := by
    refine Op.keeps_bind hR (Op.keeps_read hR _) fun known => ?_
    split
    · exact hphase _
    · refine Op.keeps_bind hR (Op.keeps_attempt (readRom_ends h).keeps) fun r => ?_
      cases r with
      | ok bytes => exact Op.keeps_bind hR (Op.keeps_modify fun s => hprobe s _) fun _ => hphase _
      | error f => exact Op.keeps_pure hR _
  have hconfigure : (configureStep i).Keeps R := by
    refine Op.keeps_bind hR (Op.keeps_read hR _) fun done => ?_
    split
    · exact Op.keeps_pure hR _
    · refine Op.keeps_bind hR (Op.keeps_read hR _) fun bits => ?_
      refine Op.keeps_bind hR (Op.keeps_attempt (configureProbe_ends h bits).keeps) fun r => ?_
      cases r with
      | ok _ => exact Op.keeps_modify fun s => hprobe s _
      | error f => exact Op.keeps_bind hR (Op.keeps_modify fun s => hprobe s _) fun _ => Op.keeps_propagate hR f
  refine Op.keeps_bind hR (Op.keeps_modify fun s => hprobe s _) fun _ => ?_
  refine Op.keeps_bind hR (resetAndConfigure_ends h _).keeps fun _ => Op.keeps_bind hR (hphase _) fun _ => ?_
  refine Op.keeps_bind hR (Op.keeps_read hR _) fun cfg => ?_
  refine Op.keeps_bind hR (selectChannel_ends h _ _).keeps fun _ => Op.keeps_bind hR (hphase _) fun _ => ?_
  refine Op.keeps_bind hR hidentify fun _ => Op.keeps_bind hR hconfigure fun _ => ?_
  exact Op.keeps_bind hR (hphase _) fun _ => Op.keeps_bind hR (triggerConversion_ends h).keeps fun _ => hphase _

theorem initiateProbe_keepsPolls (s : State) (i : Fin 16) : KeepsPolls s (initiateProbe s i) := by
  have h := initiateSteps_keeps (keepsPolls_steps (some i) (probeGroup i)) (fun _ _ => id) s
  unfold initiateProbe
  split <;> rename_i e <;> rw [e] at h <;> exact h

/-- A probe is well formed after its part of `initiate_all`: Converting without error, or Errored with one
(spec/44_probe_manager.md R165 to R168). -/
theorem initiateProbe_keepsRegisters (s : State) (i : Fin 16) : KeepsRegisters s (initiateProbe s i) := by
  obtain ⟨⟨hframe, -, hdecoded, hrom, hconf⟩, hstatus⟩ := initiateProbe_outcome s i
  refine ⟨fun hs => hframe.registersWellFormed hs (initiateProbe_keepsPolls s i hs.2.1) ?_, hframe.adc⟩
  obtain ⟨hbits, hranges, -, -, hactive, hcrc⟩ := hs.2.2.1 i
  obtain ⟨-, hcw, hcf, -, -, hff⟩ := hdecoded
  have hres := s.activeRes.isLt
  generalize (initiateProbe s i).probe i = p at *
  refine ⟨?_, by rwa [hcw, hcf, hff], ?_, ?_, ?_, ?_⟩
  · rcases hconf with ⟨-, e⟩ | ⟨-, -, e⟩ <;> omega
  · rcases hstatus with ⟨hnone, horigin, -⟩ | ⟨herr, horigin, -⟩
    · simp [hnone, horigin]
    · simp [herr, horigin]
  · rcases hstatus with ⟨hnone, -, hphase, -⟩ | ⟨herr, -, hphase⟩
    · simp [hnone, hphase]
    · simp [herr, hphase]
  · rcases hconf with ⟨ec, eb⟩ | ⟨-, -, e⟩
    · rwa [ec, eb]
    · exact fun _ => e
  · rcases hrom with ⟨-, e⟩ | ⟨-, -, e⟩
    · rwa [e]
    · exact e

theorem getProbe_keepsPolls (s : State) (i : Fin 16) : KeepsPolls s (getProbe s i).1 := by
  have h := keepsPolls_steps (some i) (probeGroup i)
  have hR := h.toComposes
  have hfetch : (fetchScratchpad i).Keeps KeepsPolls :=
    Op.keeps_bind hR (Op.keeps_read hR _) fun _ =>
      Op.keeps_bind hR (selectChannel_ends h _ _).keeps fun _ => (retrieveScratchpad_ends h).keeps
  have hdecode : ∀ sp t, KeepsPolls t (decodeStep i sp t) := fun sp t => by
    unfold decodeStep
    rcases decodeScratchpad_cases (some i) sp t.activeIndex t with ⟨-, e⟩ | ⟨-, -, e⟩ | ⟨-, -, -, v, n, e, -⟩ <;>
      rw [e] <;> exact id
  unfold getProbe
  split
  · have hs := hfetch s
    split <;> rename_i e <;> rw [e] at hs
    · exact hR.trans hs (hdecode _ _)
    · exact hs
  · exact hR.refl s

/-- A byte holds a decimal digit of 4 bits unchanged. -/
theorem digit_setWidth {d : BitVec 4} (h : d.toNat ≤ 9) : (d.setWidth 8).toNat ≤ 9 := by
  rw [BitVec.toNat_setWidth]
  omega

/-- A probe is well formed after its part of `get_all`: untouched, Errored with an error, or holding a reading
(spec/44_probe_manager.md R169, R170). -/
theorem getProbe_keepsRegisters (s : State) (i : Fin 16) : KeepsRegisters s (getProbe s i).1 := by
  have hframe := getProbe_frame s i
  refine ⟨fun hs => hframe.registersWellFormed hs (getProbe_keepsPolls s i hs.2.1) ?_, hframe.adc⟩
  have hwf := hs.2.2.1 i
  rcases getProbe_outcome s i with ⟨-, e⟩ | ⟨-, -, ⟨k, hk, e⟩ | ⟨sp, v, -, -, -, -, hv, e⟩⟩ <;> rw [e]
  · exact hwf
  · obtain ⟨hbits, hranges, -, -, hactive, hcrc⟩ := hwf
    exact ⟨hbits, hranges, by simp [hk], by simp [hk], hactive, hcrc⟩
  · obtain ⟨hbits, -, -, -, hactive, hcrc⟩ := hwf
    obtain ⟨hcw, hcf, hff⟩ := hv.ranges
    exact ⟨hbits, ⟨hcw, digit_setWidth hcf, digit_setWidth hff⟩, by simp, by simp, hactive, hcrc⟩

theorem endCycle_inv {s t : State} (h : KeepsRegisters s t) (hs : s.RegistersWellFormed)
    (hpass : s.adc.channel = none) : (endCycle t).Inv := by
  obtain ⟨hwf, hadc⟩ := h
  exact ⟨(hwf hs).withResult (Nat.zero_le _) _, by simp [endCycle_eq, hadc, hpass]⟩

/-! ### The sampling pass -/

/-- A pass keeps the registers outside the sampler as they are, so they stay well formed with the sampler's. -/
theorem PassFrame.registersWellFormed {s t : State} (h : PassFrame s t) (hs : s.RegistersWellFormed)
    (hadc : t.adc.WellFormed s.cfg.adcSamples) : t.RegistersWellFormed := by
  obtain ⟨h, hres⟩ := h
  obtain ⟨hkind, hpolls, hprobes, htd, -⟩ := hs
  have hkind' : t.res.kind.toNat ≤ 11 := by
    rcases hres with e | e <;> rw [e]
    · exact hkind
    · exact Nat.zero_le _
  rw [h]
  exact ⟨hkind', hpolls, hprobes, htd, hadc⟩

/-- One round keeps the invariant: the pass goes on RUNNING, or it ends IDLE (spec/45_adc.md R185). -/
theorem adcRound_inv {s : State} (hs : s.Inv) {c : Fin 8} (hc : s.adc.channel = some c) : (adcRound c s).Inv := by
  obtain ⟨hwf, hport⟩ := hs
  have hrunning : s.cpState = .running := hport.mpr (by simp [hc])
  obtain ⟨hadc, hend⟩ := adcRound_wf hwf.2.2.2.2 hc
  refine ⟨(adcRound_passFrame c s).registersWellFormed hwf hadc, ?_⟩
  rcases hend with ⟨hchannel, hcp⟩ | ⟨hchannel, hcp⟩
  · simp [hchannel, hcp, hrunning]
  · simp [hchannel, hcp]

theorem continueCommand_inv {s : State} (hs : s.Inv) : (continueCommand s).Inv := by
  unfold continueCommand
  split
  · rename_i c hc
    exact adcRound_inv hs hc
  · exact hs

theorem adcPlay_inv (n : Nat) {s : State} (hs : s.Inv) : (adcPlay n s).Inv := by
  induction n generalizing s with
  | zero => exact hs
  | succ n ih =>
    unfold adcPlay
    split
    · rename_i c _ _ hc _
      exact ih (adcRound_inv hs hc)
    · exact hs

/-- A pass begins with the invariant: RUNNING, channel 0 in progress and without samples (spec/45_adc.md R185). -/
theorem adcBegin_inv {s : State} (hs : s.RegistersWellFormed) : (adcBegin 0 { s with cpState := .running }).Inv := by
  obtain ⟨hkind, hpolls, hprobes, htd, hadc⟩ := hs
  have hsamples := adcSamples_range s.cfg
  refine ⟨⟨hkind, hpolls, hprobes, htd, hadc.setAcc 0 (AdcAcc.start_wf _) fun d hd => ?_⟩, by simp [adcBegin]⟩
  obtain rfl := Option.some.inj hd
  simp [AdcAcc.start]
  omega

/-! ### Every command -/

/-- A command that starts with well-formed registers and no pass in progress ends with the invariant. -/
theorem exec_inv {i : Instr} {s t : State} (hs : s.RegistersWellFormed) (hpass : s.adc.channel = none)
    (h : exec i s = .next t) : t.Inv := by
  cases i using Instr.byFamily with
  | bufLoad k v => exact ifLegal_inv (setBuf_keepsRegisters _ v) hs hpass h
  | crcCompute n => exact ifLegal_inv (crcCompute_keepsRegisters _) hs hpass h
  | crcValidate n => exact ifLegal_inv (crcValidate_keepsRegisters _) hs hpass h
  | setLogging f => exact ifLegal_inv (setLogVerbose_keepsRegisters _) hs hpass h
  | bridge g i hi => exact bridge_inv hi hs hpass h
  | tdDecode a =>
    rcases exec_tdDecode_cases a s with e | e | e <;> rw [e] at h <;> cases h
    · exact illegalCommand_inv hs hpass
    · exact runCommand_inv (tdDecode_keepsRegisters _) hs hpass
  | tdCToF n w f => exact ifLegal_inv (tdCToF_keepsRegisters n _ _) hs hpass h
  | pmInitiateAll =>
    rw [← Host.Outcome.next.inj h]
    exact endCycle_inv (foldl_keeps keepsRegisters_composes initiateProbe_keepsRegisters probeIndices s) hs hpass
  | pmGetAll =>
    rw [exec_pmGetAll_next h, getProbes_eq_foldl]
    exact endCycle_inv (foldl_keeps keepsRegisters_composes getProbe_keepsRegisters probeIndices s) hs hpass
  | pmSetResolution x =>
    cases h
    exact runCommand_inv (setResolution_keepsRegisters x) hs hpass
  | adcPass =>
    cases h
    exact adcPlay_inv _ (adcBegin_inv hs)

/-! ### Every step -/

/-- The reset state meets the invariant under every configuration (spec/70_reset_and_hazards.md R225). -/
theorem applyReset_inv (s : State) : (applyReset s).Inv := by
  have hprobe : Probe.reset.WellFormed Config.defaultRes := by decide +kernel
  have hadc : Adc.reset.WellFormed s.cfg.adcSamples := by
    refine ⟨fun c => ?_, fun c => ?_, fun j => ?_, by decide +kernel, nofun⟩
    · simpa [Adc.reset] using AdcAcc.start_wf s.cfg.adcSamples
    · simp [Adc.reset]
    · simp [Adc.reset]
  refine ⟨⟨Nat.zero_le _, ⟨Nat.zero_le _, Nat.zero_le _⟩, fun i => ?_,
    ⟨Nat.zero_le _, Nat.zero_le _, Nat.zero_le _⟩, hadc⟩, nofun, nofun⟩
  have hi : (applyReset s).probe i = Probe.reset := by simp [applyReset, State.probe, State.reset]
  rw [hi]
  exact hprobe

/-- A reset inside a command leaves the reset state, or what the command left with the request nearer (R227). -/
theorem landReset_inv (n : Nat) (s : State) {t : State} (ht : t.Inv) : (landReset n s t).Inv := by
  unfold landReset
  dsimp only
  split
  · exact applyReset_inv _
  · exact ht

theorem underReset_inv {s t : State} {o : Host.Outcome State Fault Refusal} (ho : ∀ u, o = .next u → u.Inv)
    (h : underReset s o = .next t) : t.Inv := by
  unfold underReset at h
  split at h
  · cases h
    exact landReset_inv _ s (ho _ rfl)
  all_goals exact ho t h

/-- Taking a command word leaves the registers (spec/10_state.md R16, R17, spec/60_exceptions.md R207). -/
theorem latchWord_keepsRegisters (w : Word) (s : State) : KeepsRegisters s (latchWord w s) := ⟨id, rfl⟩

theorem acceptCommand_keepsRegisters (w : Word) (s : State) : KeepsRegisters s (acceptCommand w s) := by
  unfold acceptCommand traceCommand
  split <;> exact ⟨id, rfl⟩

/-- The port takes a word only in IDLE (spec/10_state.md R16). -/
theorem idle_of_fetch {s : State} {w : Word} (h : (∃ i, fetch s = .command w i) ∨ fetch s = .illegal w) :
    s.cpState = .idle := by
  unfold fetch at h
  split at h
  · simp at h
  · split at h
    · simp at h
    · assumption

/-- Settles O59: a step takes a reset, goes on with a pass, waits, or runs one command from IDLE, under the reset
input. -/
theorem stepKeepsInv : Obligations.StepKeepsInv := by
  intro s t hs h
  have hpass : s.cpState = .idle → s.adc.channel = none := fun hidle => by
    simpa [hidle] using hs.2
  rw [step] at h
  cases hfetch : fetch s with
  | reset =>
    rw [hfetch] at h
    exact Host.Outcome.next.inj h ▸ applyReset_inv s
  | running =>
    rw [hfetch] at h
    exact underReset_inv (fun u hu => Host.Outcome.next.inj hu ▸ continueCommand_inv hs) h
  | waiting =>
    rw [hfetch] at h
    exact Host.Outcome.next.inj h ▸ hs
  | badConfiguration =>
    rw [hfetch] at h
    cases h
  | command w i =>
    rw [hfetch] at h
    obtain ⟨hwf, hadc⟩ := acceptCommand_keepsRegisters w s
    have hnone := hpass (idle_of_fetch (.inl ⟨i, hfetch⟩))
    exact underReset_inv (fun u hu => exec_inv (hwf hs.1) (hadc ▸ hnone) hu) h
  | illegal w =>
    rw [hfetch] at h
    obtain ⟨hwf, hadc⟩ := latchWord_keepsRegisters w s
    have hnone := hpass (idle_of_fetch (.inr hfetch))
    exact underReset_inv (fun u hu => Host.Outcome.next.inj hu ▸ illegalCommand_inv (hwf hs.1) (hadc ▸ hnone)) h

end Sys2Proof.Machine

/-! PROOFS. The read sequences: which data bytes their transactions deliver, and what they leave in BUF. -/

namespace Sys2Proof.Machine

/-! ### Data bytes among events -/

theorem dataBytes_cons_of_not_points {c : Config} {e : Event} (he : e.pointsAtData c = false) (l : List Event) :
    dataBytes c (e :: l) = dataBytes c l := by
  cases l with
  | nil => rfl
  | cons e' l => simp [dataBytes, he]

/-- What follows a read-pointer write delivers its byte, if any (spec/40_bridge.md R103). -/
theorem dataBytes_cons_of_points {c : Config} {e : Event} (he : e.pointsAtData c = true) (e' : Event) (l : List Event) :
    dataBytes c (e :: e' :: l) = e'.byteRead.toList ++ dataBytes c (e' :: l) := by
  simp only [dataBytes, List.drop_one, List.tail_cons, List.zip_cons_cons, List.filterMap_cons, he, if_true]
  cases e'.byteRead <;> rfl

/-- The data bytes of two stretches of events are those of each, when the first does not end with a read-pointer
write. -/
theorem dataBytes_append {c : Config} {l : List Event} (hl : ∀ e ∈ l.getLast?, e.pointsAtData c = false)
    (m : List Event) : dataBytes c (l ++ m) = dataBytes c l ++ dataBytes c m := by
  induction l with
  | nil => rfl
  | cons e l ih =>
    cases l with
    | nil =>
      have he := hl e rfl
      rw [List.singleton_append, dataBytes_cons_of_not_points he, dataBytes_cons_of_not_points he]
      rfl
    | cons e' l =>
      have ih' := ih fun x hx => hl x (by rwa [List.getLast?_cons_cons])
      rw [List.cons_append] at ih'
      rw [List.cons_append, List.cons_append]
      cases he : e.pointsAtData c with
      | true => rw [dataBytes_cons_of_points he, dataBytes_cons_of_points he, ih', List.append_assoc]
      | false => rw [dataBytes_cons_of_not_points he, dataBytes_cons_of_not_points he, ih']

/-- The events from `s` to `t` deliver the data bytes `bytes`, and the last of them is no read-pointer write. -/
def Delivers (c : Config) (s t : State) (bytes : List Byte) : Prop :=
  ∃ new, NewEvents s t new ∧ dataBytes c new.reverse = bytes ∧ ∀ e ∈ new.head?, e.pointsAtData c = false

theorem Delivers.trans {c : Config} {s t u : State} {l m : List Byte} (h : Delivers c s t l) (h' : Delivers c t u m) :
    Delivers c s u (l ++ m) := by
  obtain ⟨new, hnew, rfl, hlast⟩ := h
  obtain ⟨new', hnew', rfl, hlast'⟩ := h'
  refine ⟨new' ++ new, by rw [NewEvents, hnew', hnew, List.append_assoc], ?_, ?_⟩
  · rw [List.reverse_append, dataBytes_append (by rwa [List.getLast?_reverse])]
  · cases new' with
    | nil => exact hlast
    | cons e new' => exact hlast'

/-- Without a new event nothing is delivered. -/
theorem delivers_of_events_eq (c : Config) {s t : State} (h : t.env.events = s.env.events) : Delivers c s t [] :=
  ⟨[], h, rfl, nofun⟩

/-- One new event that is no read-pointer write delivers nothing by itself. -/
theorem delivers_of_event {c : Config} {s t : State} {e : Event} (h : t.env.events = e :: s.env.events)
    (he : e.pointsAtData c = false) : Delivers c s t [] := by
  refine ⟨[e], h, rfl, fun e' h' => ?_⟩
  obtain rfl := Option.some.inj h'
  exact he

/-- A read-pointer write and the event after it deliver the byte of the latter, if any. -/
theorem delivers_of_pointed {c : Config} {s t : State} {e e' : Event} (h : t.env.events = e' :: e :: s.env.events)
    (he : e.pointsAtData c = true) (he' : e'.pointsAtData c = false) : Delivers c s t e'.byteRead.toList := by
  refine ⟨[e', e], h, ?_, fun x hx => ?_⟩
  · exact (dataBytes_cons_of_points he e' []).trans (List.append_nil _)
  · obtain rfl := Option.some.inj hx
    exact he'

/-! ### Quiet operations -/

/-- Under the configuration c, BUF stays and the events deliver the data bytes `bytes`. -/
structure Reads (c : Config) (s t : State) (bytes : List Byte) : Prop where
  cfg : t.cfg = c
  buf : t.buf = s.buf
  delivers : Delivers c s t bytes

theorem Reads.trans {c : Config} {s t u : State} {l m : List Byte} (h : Reads c s t l) (h' : Reads c t u m) :
    Reads c s u (l ++ m) :=
  ⟨h'.cfg, h'.buf.trans h.buf, h.delivers.trans h'.delivers⟩

/-- From a state with the configuration c nothing is written to BUF and nothing delivered. -/
def Quiet (c : Config) (s t : State) : Prop := s.cfg = c → Reads c s t []

/-- A failure before the closing CRC test of a read sequence (spec/60_exceptions.md R201). -/
def Failure.Early (f : Failure) : Prop := f.kind ≠ .none ∧ f.loc ≠ 0x1804 ∧ f.loc ≠ 0x1B06

def QuietFailure (c : Config) (f : Failure) (s t : State) : Prop := s.cfg = c → Reads c s t [] ∧ f.Early

theorem quiet_endsCompose (c : Config) : EndsCompose (Quiet c) (QuietFailure c) where
  refl _ hs := ⟨hs, rfl, delivers_of_events_eq c rfl⟩
  trans h h' hs := (h hs).trans (h' (h hs).cfg)
  transE h h' hs := ⟨(h hs).trans (h' (h hs).cfg).1, (h' (h hs).cfg).2⟩

/-- An operation that begins by reading the configuration reads c. -/
theorem quiet_read_cfg {α : Type} {c : Config} {k : Config → Op α} (h : (k c).Ends (Quiet c) (QuietFailure c)) :
    (Op.read State.cfg >>= k).Ends (Quiet c) (QuietFailure c) := by
  intro s
  rw [Op.run_read_bind]
  by_cases hs : s.cfg = c
  · rw [hs]
    exact h s
  · split
    · exact fun hc => absurd hc hs
    · exact fun hc => absurd hc hs

theorem reads_report {c : Config} {s : State} (hs : s.cfg = c) (ctx : Option (Fin 16)) (k : ErrorKind)
    (loc extra : Half) : Reads c s (s.report ctx k loc extra) [] :=
  ⟨hs, rfl, delivers_of_event rfl rfl⟩

/-! ### Transactions -/

/-- The state after a transaction with bridge g. -/
def transacted (g : Group) (wb : List Byte) (rc : Nat) (s : State) : State :=
  (s.setTransport (.grp g) (Transport.draw (.grp g) (s.transport (.grp g))).2).emit
    (.transact (.grp g) (s.cfg.brAddrOf g) wb rc (Transport.draw (.grp g) (s.transport (.grp g))).1)

theorem transacted_cfg (g : Group) (wb : List Byte) (rc : Nat) (s : State) : (transacted g wb rc s).cfg = s.cfg := rfl

theorem transacted_buf (g : Group) (wb : List Byte) (rc : Nat) (s : State) : (transacted g wb rc s).buf = s.buf := rfl

theorem transacted_events (g : Group) (wb : List Byte) (rc : Nat) (s : State) :
    (transacted g wb rc s).env.events =
      .transact (.grp g) (s.cfg.brAddrOf g) wb rc (Transport.draw (.grp g) (s.transport (.grp g))).1 ::
        s.env.events := rfl

/-- What a write to bridge g can do: succeed, or fail with a record (spec/60_exceptions.md R202). -/
theorem bridgeWrite_cases (ctx : Option (Fin 16)) (g : Group) (loc : Half) (wb : List Byte) (s : State) :
    (∃ b0 b1, (Transport.draw (.grp g) (s.transport (.grp g))).1 = .ok b0 b1 ∧
      (bridgeWrite ctx g loc wb).run s = (.ok (), transacted g wb 0 s)) ∨
    (∃ code, (Transport.draw (.grp g) (s.transport (.grp g))).1 = .err code ∧
      (bridgeWrite ctx g loc wb).run s = (.error ⟨.transportFailure, loc, code⟩,
        (transacted g wb 0 s).report ctx .transportFailure loc code)) := by
  rw [bridgeWrite, Op.run_read_bind, Op.run_bind, run_transact]
  dsimp only
  cases ha : (Transport.draw (.grp g) (s.transport (.grp g))).1 with
  | ok b0 b1 => exact .inl ⟨b0, b1, rfl, by rw [transacted, ha]; rfl⟩
  | err code => exact .inr ⟨code, rfl, by rw [transacted, ha]; rfl⟩

/-- What a read from bridge g can do: deliver a byte, or fail with a record (spec/60_exceptions.md R202). -/
theorem bridgeRead_cases (ctx : Option (Fin 16)) (g : Group) (loc : Half) (s : State) :
    (∃ b0 b1, (Transport.draw (.grp g) (s.transport (.grp g))).1 = .ok b0 b1 ∧
      (bridgeRead ctx g loc).run s = (.ok b0, transacted g [] 1 s)) ∨
    (∃ code, (Transport.draw (.grp g) (s.transport (.grp g))).1 = .err code ∧
      (bridgeRead ctx g loc).run s = (.error ⟨.transportFailure, loc, code⟩,
        (transacted g [] 1 s).report ctx .transportFailure loc code)) := by
  rw [bridgeRead, Op.run_read_bind, Op.run_bind, run_transact]
  dsimp only
  cases ha : (Transport.draw (.grp g) (s.transport (.grp g))).1 with
  | ok b0 b1 => exact .inl ⟨b0, b1, rfl, by rw [transacted, ha]; rfl⟩
  | err code => exact .inr ⟨code, rfl, by rw [transacted, ha]; rfl⟩

section Quiet
variable {ctx : Option (Fin 16)} {g : Group} {c : Config}

/-- A transaction that writes no read pointer delivers nothing by itself. -/
theorem reads_transacted {s : State} (hs : s.cfg = c) {wb : List Byte} (hw : wb ≠ [c.cmdSetReadPtr, c.ptrData])
    (rc : Nat) : Reads c s (transacted g wb rc s) [] :=
  ⟨hs, rfl, delivers_of_event rfl (beq_false_of_ne hw)⟩

/-- A failed one delivers nothing either; its record follows. -/
theorem reads_transacted_report {s : State} (hs : s.cfg = c) {wb : List Byte} (hw : wb ≠ [c.cmdSetReadPtr, c.ptrData])
    (rc : Nat) (k : ErrorKind) (loc extra : Half) :
    Reads c s ((transacted g wb rc s).report ctx k loc extra) [] :=
  (reads_transacted hs hw rc).trans (reads_report (s := transacted g wb rc s) hs ctx k loc extra)

theorem raise_quiet {α : Type} {k : ErrorKind} {loc extra : Half} (h : (Failure.mk k loc extra).Early) :
    (raise ctx k loc extra : Op α).Ends (Quiet c) (QuietFailure c) :=
  ends_raise fun _ hs => ⟨reads_report hs ctx k loc extra, h⟩

theorem bridgeWrite_quiet {loc : Half} {wb : List Byte} (hw : wb ≠ [c.cmdSetReadPtr, c.ptrData])
    (hl : loc ≠ 0x1804 ∧ loc ≠ 0x1B06) : (bridgeWrite ctx g loc wb).Ends (Quiet c) (QuietFailure c) := by
  intro s
  rcases bridgeWrite_cases ctx g loc wb s with ⟨_, _, -, e⟩ | ⟨code, -, e⟩ <;> rw [e]
  · exact fun hs => reads_transacted hs hw 0
  · exact fun hs => ⟨reads_transacted_report hs hw 0 _ _ _, nofun, hl⟩

theorem bridgeRead_quiet {loc : Half} (hl : loc ≠ 0x1804 ∧ loc ≠ 0x1B06) :
    (bridgeRead ctx g loc).Ends (Quiet c) (QuietFailure c) := by
  intro s
  have hw : [] ≠ [c.cmdSetReadPtr, c.ptrData] := (List.cons_ne_nil _ _).symm
  rcases bridgeRead_cases ctx g loc s with ⟨_, _, -, e⟩ | ⟨code, -, e⟩ <;> rw [e]
  · exact fun hs => reads_transacted hs hw 1
  · exact fun hs => ⟨reads_transacted_report hs hw 1 _ _ _, nofun, hl⟩

theorem setBridge_quiet (f : State → Bridge) :
    (Op.modify fun s => s.setBridge g (f s)).Ends (Quiet c) (QuietFailure c) :=
  Op.ends_modify fun _ hs => ⟨hs, rfl, delivers_of_events_eq c rfl⟩

theorem pollLoop_quiet (cmd1 : Byte) (left i : Nat) :
    (pollLoop ctx g cmd1 left i).Ends (Quiet c) (QuietFailure c) := by
  have hQ := quiet_endsCompose c
  induction left generalizing i with
  | zero => exact Op.ends_bind hQ (Op.ends_read hQ _) fun _ => raise_quiet ⟨nofun, nofun, nofun⟩
  | succ n ih =>
    refine Op.ends_bind hQ (bridgeRead_quiet ⟨nofun, nofun⟩) fun st => ?_
    refine Op.ends_bind hQ (setBridge_quiet fun _ => ⟨st, i⟩) fun _ => ?_
    refine Op.ends_bind hQ (Op.ends_read hQ _) fun cfg => ?_
    split
    · exact Op.ends_bind hQ (ends_delay fun _ hs => ⟨hs, rfl, delivers_of_event rfl rfl⟩) fun _ => ih _
    · split
      · exact raise_quiet ⟨nofun, nofun, nofun⟩
      · exact Op.ends_pure hQ _

/-- A `send_command` of another command than set-read-pointer is quiet. -/
theorem sendCommand_quiet {cmd1 : Byte} (h : cmd1 ≠ c.cmdSetReadPtr) (cmd2 : Byte) :
    (sendCommand ctx g cmd1 cmd2).Ends (Quiet c) (QuietFailure c) := by
  have hQ := quiet_endsCompose c
  have hw : commandBytes cmd1 cmd2 ≠ [c.cmdSetReadPtr, c.ptrData] := by
    unfold commandBytes
    split <;> simp [h]
  refine Op.ends_bind hQ (bridgeWrite_quiet hw ⟨nofun, nofun⟩) fun _ => ?_
  refine Op.ends_bind hQ (Op.ends_read hQ _) fun cfg => ?_
  split
  · exact Op.ends_pure hQ _
  · exact Op.ends_bind hQ (setBridge_quiet fun s => { s.bridge g with polls := 0 }) fun _ => pollLoop_quiet _ _ _

/-- The 1-Wire commands are not the set-read-pointer command (spec/93_implementation_defined.md X15). -/
theorem legal_setReadPtr (hc : c.legal = true) :
    c.cmd1wReset ≠ c.cmdSetReadPtr ∧ c.cmd1wWriteByte ≠ c.cmdSetReadPtr ∧ c.cmd1wReadByte ≠ c.cmdSetReadPtr := by
  obtain ⟨⟨hreset, hwrite, hread, -⟩, -⟩ := legal_commands hc
  have himm : c.immediate c.cmdSetReadPtr = true := by simp [Config.immediate]
  refine ⟨fun e => ?_, fun e => ?_, fun e => ?_⟩
  · rw [e, himm] at hreset
    cases hreset
  · rw [e, himm] at hwrite
    cases hwrite
  · rw [e, himm] at hread
    cases hread

theorem oneWireReset_quiet (hc : c.legal = true) : (oneWireReset ctx g).Ends (Quiet c) (QuietFailure c) :=
  quiet_read_cfg (sendCommand_quiet (legal_setReadPtr hc).1 _)

theorem writeByte_quiet (hc : c.legal = true) (b : Byte) : (writeByte ctx g b).Ends (Quiet c) (QuietFailure c) :=
  quiet_read_cfg (sendCommand_quiet (legal_setReadPtr hc).2.1 _)

theorem checkShort_quiet : (checkShort ctx g).Ends (Quiet c) (QuietFailure c) := by
  have hQ := quiet_endsCompose c
  refine Op.ends_bind hQ (Op.ends_read hQ _) fun cfg => Op.ends_bind hQ (Op.ends_read hQ _) fun st => ?_
  split
  · exact raise_quiet ⟨nofun, nofun, nofun⟩
  · exact Op.ends_pure hQ _

/-! ### `read_byte` -/

/-- The pointer write and the data read of `read_byte`: a byte is delivered exactly when both succeed
(spec/40_bridge.md R103). -/
theorem pointAndRead_reads (hc : c.legal = true) {s : State} (hs : s.cfg = c) :
    match (sendCommand ctx g c.cmdSetReadPtr c.ptrData >>= fun _ => bridgeRead ctx g (locCode 0x15 3)).run s with
    | (.ok b, t) => Reads c s t [b]
    | (.error f, t) => Reads c s t [] ∧ f.Early := by
  have hbytes : commandBytes c.cmdSetReadPtr c.ptrData = [c.cmdSetReadPtr, c.ptrData] :=
    if_neg (legal_commands hc).2.2.1
  have himm : c.immediate c.cmdSetReadPtr = true := by simp [Config.immediate]
  have hsend : ∀ {r t}, (bridgeWrite ctx g (locCode 0x10 1) [c.cmdSetReadPtr, c.ptrData]).run s = (r, t) →
      t.cfg = c → (sendCommand ctx g c.cmdSetReadPtr c.ptrData).run s = (r, t) := by
    intro r t e ht
    rw [sendCommand, hbytes]
    cases r with
    | ok u => rw [Op.run_bind_ok e, Op.run_read_bind, ht, if_pos himm, Op.run_pure]
    | error f => rw [Op.run_bind_error e]
  have hpoints : ∀ a, (Event.transact (.grp g) (s.cfg.brAddrOf g) [c.cmdSetReadPtr, c.ptrData] 0 a).pointsAtData c =
      true := fun a => beq_self_eq_true _
  rcases bridgeWrite_cases ctx g (locCode 0x10 1) [c.cmdSetReadPtr, c.ptrData] s with
    ⟨_, _, -, e⟩ | ⟨code, -, e⟩
  · rw [Op.run_bind_ok (hsend e hs)]
    have hreads : Reads c s (transacted g [] 1 (transacted g [c.cmdSetReadPtr, c.ptrData] 0 s)) _ :=
      ⟨by rw [transacted_cfg, transacted_cfg, hs], by rw [transacted_buf, transacted_buf],
        delivers_of_pointed (by rw [transacted_events, transacted_events]) (hpoints _) rfl⟩
    rcases bridgeRead_cases ctx g (locCode 0x15 3) (transacted g [c.cmdSetReadPtr, c.ptrData] 0 s) with
      ⟨b0, b1, ha, e'⟩ | ⟨code, ha, e'⟩ <;> rw [e'] <;> rw [ha] at hreads
    · exact hreads
    · exact ⟨hreads.trans (reads_report hreads.cfg ctx _ _ _), nofun, nofun, nofun⟩
  · rw [Op.run_bind_error (hsend e hs)]
    have hdelivers : Delivers c s ((transacted g [c.cmdSetReadPtr, c.ptrData] 0 s).report ctx .transportFailure
        (locCode 0x10 1) code) _ :=
      delivers_of_pointed (by rw [State.report_env_events, transacted_events]) (hpoints _) rfl
    have hbuf := transacted_buf g [c.cmdSetReadPtr, c.ptrData] 0 s
    exact ⟨⟨hs, hbuf, hdelivers⟩, nofun, nofun, nofun⟩

/-- `read_byte` answers the one byte its events deliver, or fails and none is delivered (spec/40_bridge.md R103). -/
theorem readByte_reads (hc : c.legal = true) {s : State} (hs : s.cfg = c) :
    match (readByte ctx g).run s with
    | (.ok b, t) => Reads c s t [b]
    | (.error f, t) => Reads c s t [] ∧ f.Early := by
  have hsend := sendCommand_quiet (ctx := ctx) (g := g) (legal_setReadPtr hc).2.2 0
  rw [readByte, Op.run_read_bind, hs]
  rcases hx : (sendCommand ctx g c.cmd1wReadByte 0).run s with ⟨f | u, t⟩
  · rw [Op.run_bind_error hx]
    exact hsend.error hx hs
  · rw [Op.run_bind_ok hx]
    have hquiet := hsend.ok hx hs
    have hread := pointAndRead_reads (ctx := ctx) (g := g) hc hquiet.cfg
    rcases hr : (sendCommand ctx g c.cmdSetReadPtr c.ptrData >>= fun _ =>
      bridgeRead ctx g (locCode 0x15 3)).run t with ⟨f | b, u⟩ <;> rw [hr] at hread
    · exact ⟨hquiet.trans hread.1, hread.2⟩
    · exact hquiet.trans hread

end Quiet

/-! ### The read sequences -/

/-- Under the configuration c, BUF at the indices `ks` holds the data bytes delivered so far, in order, and is else
unchanged. -/
structure Filled (c : Config) (ks : List (Fin 9)) (s t : State) (bytes : List Byte) : Prop where
  cfg : t.cfg = c
  buf : t.buf = writeBuf s.buf (ks.zip bytes)
  delivers : Delivers c s t bytes

/-- How a read sequence over the indices `ks` ends: the bytes read so far are in BUF, and all have been read on success
and on a failure at `loc`. -/
def Fetches {α : Type} (c : Config) (ks : List (Fin 9)) (loc : Half) (s : State) : Except Failure α × State → Prop
  | (.ok _, t) => ∃ bytes, Filled c ks s t bytes ∧ bytes.length = ks.length
  | (.error f, t) => f.kind ≠ .none ∧
      ∃ bytes, Filled c ks s t bytes ∧ bytes.length ≤ ks.length ∧ (f.loc = loc → bytes.length = ks.length)

/-- The locations of the closing CRC tests (spec/60_exceptions.md R201). -/
abbrev IsCrcLocation (loc : Half) : Prop := loc = 0x1804 ∨ loc = 0x1B06

theorem Failure.Early.loc_ne {f : Failure} (hf : f.Early) {loc : Half} (hl : IsCrcLocation loc) : f.loc ≠ loc := by
  obtain ⟨-, hrom, hsp⟩ := hf
  rcases hl with rfl | rfl
  · exact hrom
  · exact hsp

section Sequences
variable {ctx : Option (Fin 16)} {g : Group} {c : Config} {α β : Type} {ks : List (Fin 9)} {loc : Half} {s : State}

/-- What is quiet before a fill belongs to it. -/
theorem Reads.filled {t u : State} {bytes : List Byte} (h : Reads c s t []) (h' : Filled c ks t u bytes) :
    Filled c ks s u bytes :=
  ⟨h'.cfg, by rw [h'.buf, h.buf], h.delivers.trans h'.delivers⟩

/-- What is quiet after a fill belongs to it. -/
theorem Filled.reads {t u : State} {bytes : List Byte} (h : Filled c ks s t bytes) (h' : Reads c t u []) :
    Filled c ks s u bytes :=
  ⟨h'.cfg, by rw [h'.buf, h.buf], by simpa using h.delivers.trans h'.delivers⟩

/-- A fill begins with nothing read. -/
theorem Reads.filled_nil {t : State} (h : Reads c s t []) (ks : List (Fin 9)) : Filled c ks s t [] :=
  ⟨h.cfg, by rw [h.buf, List.zip_nil_right]; rfl, h.delivers⟩

/-- An early failure leaves the bytes read so far. -/
theorem fetches_early {f : Failure} (hf : f.Early) (hl : IsCrcLocation loc) {t : State} {bytes : List Byte}
    (h : Filled c ks s t bytes) (hlen : bytes.length ≤ ks.length) :
    Fetches c ks loc s ((.error f, t) : Except Failure α × State) :=
  ⟨hf.1, bytes, h, hlen, fun e => absurd e (hf.loc_ne hl)⟩

/-- A quiet operation before a fill. -/
theorem fetches_bind (hl : IsCrcLocation loc) {x : Op α} {f : α → Op β} (hx : x.Ends (Quiet c) (QuietFailure c))
    (hs : s.cfg = c) (hf : ∀ a t, t.cfg = c → Fetches c ks loc t ((f a).run t)) :
    Fetches c ks loc s ((x >>= f).run s) := by
  rcases hxs : x.run s with ⟨e | a, t⟩
  · rw [Op.run_bind_error hxs]
    obtain ⟨hreads, hearly⟩ := hx.error hxs hs
    exact fetches_early hearly hl (hreads.filled_nil ks) (Nat.zero_le _)
  · rw [Op.run_bind_ok hxs]
    have hreads := hx.ok hxs hs
    have h := hf a t hreads.cfg
    rcases hfs : (f a).run t with ⟨e | b, u⟩ <;> rw [hfs] at h
    · obtain ⟨hkind, bytes, hfilled, hlen⟩ := h
      exact ⟨hkind, bytes, hreads.filled hfilled, hlen⟩
    · obtain ⟨bytes, hfilled, hlen⟩ := h
      exact ⟨bytes, hreads.filled hfilled, hlen⟩

/-- Each byte is stored as it is read (spec/41_bridge_sequences.md R120 step 3, R124 step 5). -/
theorem Reads.filled_cons {t u : State} {k : Fin 9} {b : Byte} {bytes : List Byte} (h : Reads c s t [b])
    (h' : Filled c ks (t.setBuf k b) u bytes) : Filled c (k :: ks) s u (b :: bytes) :=
  ⟨h'.cfg, by rw [h'.buf, State.setBuf_buf, h.buf]; rfl,
    h.delivers.trans ((delivers_of_events_eq c (s := t) (t := t.setBuf k b) rfl).trans h'.delivers)⟩

theorem readIntoBuf_fetches (hc : c.legal = true) (hl : IsCrcLocation loc) (hs : s.cfg = c) :
    Fetches c ks loc s ((readIntoBuf ctx g ks).run s) := by
  induction ks generalizing s with
  | nil => exact ⟨[], ⟨hs, rfl, delivers_of_events_eq c rfl⟩, rfl⟩
  | cons k ks ih =>
    have hread := readByte_reads (ctx := ctx) (g := g) hc hs
    rw [readIntoBuf]
    rcases hx : (readByte ctx g).run s with ⟨f | b, t⟩ <;> rw [hx] at hread
    · rw [Op.run_bind_error hx]
      exact fetches_early hread.2 hl (hread.1.filled_nil _) (Nat.zero_le _)
    · rw [Op.run_bind_ok hx, Op.run_modify_bind]
      have h := ih (s := t.setBuf k b) hread.cfg
      rcases hks : (readIntoBuf ctx g ks).run (t.setBuf k b) with ⟨f | _, u⟩ <;> rw [hks] at h
      · obtain ⟨hkind, bytes, hfilled, hlen, hall⟩ := h
        exact ⟨hkind, b :: bytes, hread.filled_cons hfilled, Nat.succ_le_succ hlen, fun e => congrArg _ (hall e)⟩
      · obtain ⟨bytes, hfilled, hlen⟩ := h
        exact ⟨b :: bytes, hread.filled_cons hfilled, congrArg _ hlen⟩

/-- A fill and its closing CRC test, then a value read from the state (spec/41_bridge_sequences.md R120 step 4, R124
step 6). -/
theorem fillAndCheck_fetches (hc : c.legal = true) (hl : IsCrcLocation loc) (n : Nat) (f : State → α) (hs : s.cfg = c) :
    Fetches c ks loc s
      ((readIntoBuf ctx g ks >>= fun _ => checkBufCrc ctx n loc >>= fun _ => Op.read f).run s) := by
  have h := readIntoBuf_fetches (ctx := ctx) (g := g) (ks := ks) hc hl hs
  rcases hx : (readIntoBuf ctx g ks).run s with ⟨e | _, t⟩ <;> rw [hx] at h
  · rw [Op.run_bind_error hx]
    exact h
  · obtain ⟨bytes, hfilled, hlen⟩ := h
    have hcheck := run_checkBufCrc ctx t n loc
    rw [Op.run_bind_ok hx]
    split at hcheck
    · rw [Op.run_bind_ok hcheck]
      exact ⟨bytes, hfilled, hlen⟩
    · rw [Op.run_bind_error hcheck]
      exact ⟨nofun, bytes, hfilled.reads (reads_report hfilled.cfg _ _ _ _), hlen.le, fun _ => hlen⟩

theorem readRom_fetches (hc : c.legal = true) (hs : s.cfg = c) :
    Fetches c romIndices 0x1804 s ((readRom ctx g).run s) := by
  rw [readRom, Op.run_read_bind]
  exact fetches_bind (.inl rfl) (oneWireReset_quiet hc) hs fun _ t ht =>
    fetches_bind (.inl rfl) (writeByte_quiet hc _) ht fun _ u hu => fillAndCheck_fetches hc (.inl rfl) 7 romBytes hu

theorem retrieveScratchpad_fetches (hc : c.legal = true) (hs : s.cfg = c) :
    Fetches c scratchpadIndices 0x1B06 s ((retrieveScratchpad ctx g).run s) := by
  rw [retrieveScratchpad, Op.run_read_bind]
  exact fetches_bind (.inr rfl) (oneWireReset_quiet hc) hs fun _ t ht =>
    fetches_bind (.inr rfl) checkShort_quiet ht fun _ u hu =>
      fetches_bind (.inr rfl) (writeByte_quiet hc _) hu fun _ v hv =>
        fetches_bind (.inr rfl) (writeByte_quiet hc _) hv fun _ w hw =>
          fillAndCheck_fetches hc (.inr rfl) 8 State.buf hw

end Sequences

/-! ### What is in BUF -/

/-- Bytes written in turn at consecutive indices from i (spec/10_state.md R19). -/
theorem writeBuf_zip_getElem {ks : List (Fin 9)} {i : Nat} (hks : ∀ (j : Nat) (hj : j < ks.length), ks[j].val = i + j)
    {bytes : List Byte} (hlen : bytes.length ≤ ks.length) (b : Vector Byte 9) (k : Fin 9) :
    (writeBuf b (ks.zip bytes))[k] = if i ≤ k.val then bytes.getD (k.val - i) b[k] else b[k] := by
  induction ks generalizing i bytes b with
  | nil =>
    obtain rfl : bytes = [] := List.length_eq_zero_iff.mp (Nat.le_zero.mp hlen)
    simp [writeBuf]
  | cons k₀ ks ih =>
    cases bytes with
    | nil => simp [writeBuf]
    | cons v bytes =>
      have hk₀ : k₀.val = i := hks 0 (Nat.zero_lt_succ _)
      have htail : ∀ (j : Nat) (hj : j < ks.length), ks[j].val = (i + 1) + j := fun j hj => by
        have := hks (j + 1) (Nat.succ_lt_succ hj)
        rw [List.getElem_cons_succ] at this
        omega
      have hset : k.val ≠ i → (b.set k₀ v)[k] = b[k] := fun hne =>
        Vector.getElem_set_ne _ _ (by omega)
      rw [List.zip_cons_cons, writeBuf, ih htail (Nat.le_of_succ_le_succ hlen)]
      rcases Nat.lt_trichotomy k.val i with hlt | heq | hgt
      · rw [if_neg (by omega), if_neg (by omega), hset (by omega)]
      · obtain rfl : k₀ = k := Fin.ext (by omega)
        rw [if_neg (by omega), if_pos (by omega)]
        simp [heq]
      · obtain ⟨m, hm⟩ : ∃ m, k.val - i = m + 1 := ⟨k.val - i - 1, by omega⟩
        rw [if_pos (by omega), if_pos (by omega), hset (by omega), hm, List.getD_cons_succ]
        congr 1
        omega

/-- The indices that the read sequences fill are consecutive from 0. -/
theorem scratchpadIndices_val : ∀ (j : Nat) (hj : j < scratchpadIndices.length), scratchpadIndices[j].val = 0 + j := by
  decide

theorem romIndices_val : ∀ (j : Nat) (hj : j < romIndices.length), romIndices[j].val = 0 + j := by
  decide

theorem ErrorKind.code_ne_zero {k : ErrorKind} (hk : k ≠ .none) : k.code ≠ 0 := by
  cases k <;> simp_all [ErrorKind.code]

/-- The command of a read sequence, however it ends: its data bytes are in BUF (spec/10_state.md R19). -/
theorem Fetches.command {α : Type} {c : Config} {ks : List (Fin 9)} {loc : Half} {s : State} {x : Op α}
    (h : Fetches c ks loc s (x.run s)) (hks : ∀ (j : Nat) (hj : j < ks.length), ks[j].val = 0 + j) :
    ∃ new, NewEvents s (runCommand (x >>= fun _ => pure ()) s) new ∧ ∀ bytes, bytes = dataBytes c new.reverse →
      bytes.length ≤ ks.length ∧
      ((runCommand (x >>= fun _ => pure ()) s).res.kind = 0 ∨ (runCommand (x >>= fun _ => pure ()) s).res.loc = loc →
        bytes.length = ks.length) ∧
      ∀ k : Fin 9, (runCommand (x >>= fun _ => pure ()) s).buf[k] = bytes.getD k.val s.buf[k] := by
  have hbuf : ∀ {t bytes}, Filled c ks s t bytes → bytes.length ≤ ks.length → ∀ k : Fin 9,
      t.buf[k] = bytes.getD k.val s.buf[k] := fun hfilled hlen k => by
    rw [hfilled.buf, writeBuf_zip_getElem hks hlen, if_pos (Nat.zero_le _), Nat.sub_zero]
  rcases hx : x.run s with ⟨f | a, t⟩ <;> rw [hx] at h
  · have hrun : runCommand (x >>= fun _ => pure ()) s = endCommand (.error f) t := by
      rw [runCommand, Op.run_bind_error hx]
    rw [hrun]
    obtain ⟨hkind, bytes, hfilled, hlen, hall⟩ := h
    obtain ⟨new, hnew, rfl, -⟩ := hfilled.delivers
    have hread := hbuf hfilled hlen
    refine ⟨new, hnew, fun bytes hbytes => hbytes ▸ ⟨hlen, fun hend => hall ?_, hread⟩⟩
    exact hend.resolve_left (ErrorKind.code_ne_zero hkind)
  · have hrun : runCommand (x >>= fun _ => pure ()) s = endCommand (.ok 0) t := by
      rw [runCommand, Op.run_bind_ok hx, Op.run_pure]
    rw [hrun]
    obtain ⟨bytes, hfilled, hlen⟩ := h
    obtain ⟨new, hnew, rfl, -⟩ := hfilled.delivers
    have hread := hbuf hfilled hlen.le
    exact ⟨new, hnew, fun bytes hbytes => hbytes ▸ ⟨hlen.le, fun _ => hlen, hread⟩⟩

/-! ### A transport error at a data read -/

section Cut
variable (ctx : Option (Fin 16)) (g : Group) (s : State)

/-- `read_byte` whose data read fails (spec/40_bridge.md R103). -/
theorem readByte_cut (hleg : s.cfg.legal = true) (l : PollScript) (hl : l.Clears s.cfg) (a : Byte × Byte) (code : Half)
    {rest : List Answer}
    (h : (s.transport (.grp g)).answers = l.answers ++ okAnswers [a] ++ [.err code] ++ rest) :
    ∃ t b evs, (readByte ctx g).run s = (.error ⟨.transportFailure, 0x1503, code⟩, t) ∧
      Played g s t s.buf b rest evs := by
  obtain ⟨t, hr, ht⟩ := sendCommand_script ctx g s.cfg.cmd1wReadByte 0 s (legal_commands hleg).1.2.2.1 l hl
    (rest := okAnswers [a] ++ ([.err code] ++ rest)) (by rw [h]; simp)
  simp only [beq_eq_false_iff_ne.mpr (legal_commands hleg).2.1.2.1, Bool.false_and, Bool.false_eq_true, if_false]
    at hr ht
  obtain ⟨u, hu, hq⟩ := sendCommand_immediate ctx g s.cfg.cmdSetReadPtr s.cfg.ptrData t
    (by simp [Config.immediate, ht.cfg]) a ht.answers
  obtain ⟨v, hv, hw⟩ := bridgeRead_err ctx g (locCode 0x15 3) u code hq.answers
  have hplayed := (ht.trans hq).trans hw
  rw [hq.buf, ht.buf] at hplayed
  exact ⟨v, _, _, by rw [readByte, Op.run_read_bind, Op.run_bind_ok hr, Op.run_bind_ok hu, hv]; rfl, hplayed⟩

theorem readIntoBuf_append (ks ks' : List (Fin 9)) :
    readIntoBuf ctx g (ks ++ ks') = readIntoBuf ctx g ks >>= fun _ => readIntoBuf ctx g ks' := by
  induction ks with
  | nil => simp [readIntoBuf]
  | cons k ks ih => simp [readIntoBuf, ih]

/-- A fill that a transport error at the data read of its next byte ends leaves the bytes already read
(spec/41_bridge_sequences.md R120). -/
theorem readIntoBuf_cut (hleg : s.cfg.legal = true) (ks : List (Fin 9)) (rs : List ReadScript)
    (hlen : rs.length < ks.length) (hrs : ∀ r ∈ rs, r.poll.Clears s.cfg) (l : PollScript) (hl : l.Clears s.cfg)
    (a : Byte × Byte) (code : Half) {rest : List Answer}
    (h : (s.transport (.grp g)).answers =
      readAnswers rs ++ (l.answers ++ okAnswers [a] ++ [.err code] ++ rest)) :
    ∃ t b evs, (readIntoBuf ctx g ks).run s = (.error ⟨.transportFailure, 0x1503, code⟩, t) ∧
      Played g s t (writeBuf s.buf ((ks.take rs.length).zip (rs.map ReadScript.byte))) b rest evs := by
  obtain ⟨t, ht, hp⟩ := readIntoBuf_script ctx g (ks.take rs.length) rs s _ hleg
    (by rw [List.length_take]; omega) hrs rfl h
  obtain ⟨u, b, evs, hu, hq⟩ := readByte_cut ctx g t (by rw [hp.cfg]; exact hleg) l (by rw [hp.cfg]; exact hl) a code
    hp.answers
  have hplayed := hp.trans hq
  rw [hp.buf] at hplayed
  have hks : readIntoBuf ctx g ks =
      readIntoBuf ctx g (ks.take rs.length) >>= fun _ => readIntoBuf ctx g (ks.drop rs.length) := by
    rw [← readIntoBuf_append, List.take_append_drop]
  refine ⟨u, b, _, ?_, hplayed⟩
  rw [hks, Op.run_bind_ok ht, List.drop_eq_getElem_cons hlen, readIntoBuf, Op.run_bind_error hu]

end Cut

/-- A bridge command that ended on its script kept the frame of its group. -/
theorem BridgeEnds.commandFrame {g : Group} {s t : State} {res : ResultRegs} {bf : Vector Byte 9} {b : Bridge}
    {rest : List Answer} (h : BridgeEnds g s t res bf b rest) :
    BridgeCommandFrame g s t ∧ t.res = res ∧ t.buf = bf := by
  rw [BridgeEnds] at h
  generalize t.env.events = evs at h
  subst h
  simp [BridgeCommandFrame]

/-- Settles O29: a read sequence is quiet up to its fill, each `read_byte` of which delivers one data byte that goes to
the next index of BUF. -/
theorem readSequencesPartialBuffer : Obligations.ReadSequencesPartialBuffer := by
  constructor
  · intro g i n crcLoc s t hi hc h
    rcases hi with ⟨rfl, rfl, rfl⟩ | ⟨rfl, rfl, rfl⟩ <;> rw [← Host.Outcome.next.inj h]
    · exact (readRom_fetches hc rfl).command romIndices_val
    · exact (retrieveScratchpad_fetches hc rfl).command scratchpadIndices_val
  · intro s g p q rs l a code rest hc hp hq hlen hrs hl h
    obtain ⟨t, et, ht⟩ := oneWireReset_script none g s hc p hp
      (rest := q.answers ++ (readAnswers rs ++ (l.answers ++ okAnswers [a] ++ [.err code] ++ rest)))
      (by rw [h]; simp only [List.append_assoc])
    obtain ⟨u, eu, hu⟩ := writeByte_script none g t (by rw [ht.cfg]; exact hc) s.cfg.owReadRom q
      (by rw [ht.cfg]; exact hq) ht.answers
    replace hu := ht.trans hu
    obtain ⟨v, b, evs, ev, hv⟩ := readIntoBuf_cut none g u (by rw [hu.cfg]; exact hc) romIndices rs hlen
      (by rw [hu.cfg]; exact hrs) l (by rw [hu.cfg]; exact hl) a code hu.answers
    replace hv := hu.trans hv
    have hrun : (readRom none g >>= fun _ => pure ()).run s = (.error ⟨.transportFailure, 0x1503, code⟩, v) := by
      refine Op.run_bind_error ?_
      rw [readRom, Op.run_read_bind, Op.run_bind_ok et, Op.run_bind_ok eu, Op.run_bind_error ev]
    obtain ⟨hframe, hres, hbuf⟩ := (hv.runCommand_error hrun).1.commandFrame
    refine ⟨_, rfl, hframe, hres, fun k => ?_⟩
    have hval : ∀ (j : Nat) (hj : j < (romIndices.take rs.length).length),
        (romIndices.take rs.length)[j].val = 0 + j := fun j hj => by
      rw [List.getElem_take]
      exact romIndices_val j _
    have hlen' : (rs.map ReadScript.byte).length ≤ (romIndices.take rs.length).length := by
      rw [List.length_map, List.length_take]
      exact le_min le_rfl hlen.le
    rw [hbuf, writeBuf_zip_getElem hval hlen', if_pos (Nat.zero_le _), Nat.sub_zero, hu.buf, ht.buf]

end Sys2Proof.Machine

/-! PROOFS. Every transaction goes to the endpoint and has the widths of spec/20_memory.md R54 and R58: the events that
commands, rounds of a pass and steps add. -/

namespace Sys2Proof.Machine

/-! ### The relation, and the elementary changes that meet it -/

/-- Between `s` and `t` the configuration stays, events are only added, and the transactions among them have a legal
endpoint and legal widths (spec/20_memory.md R54, R58, R59). -/
def EmitsLegal (s t : State) : Prop :=
  t.cfg = s.cfg ∧ ∃ new, NewEvents s t new ∧ ∀ e ∈ new, e.LegalTransaction s.cfg

theorem emitsLegal_of_events_eq {s t : State} (hcfg : t.cfg = s.cfg) (hevents : t.env.events = s.env.events) :
    EmitsLegal s t :=
  ⟨hcfg, [], hevents, nofun⟩

theorem emitsLegal_of_event {s t : State} {e : Event} (hcfg : t.cfg = s.cfg)
    (hevents : t.env.events = e :: s.env.events) (he : e.LegalTransaction s.cfg) : EmitsLegal s t :=
  ⟨hcfg, [e], hevents, by simpa using he⟩

theorem emitsLegal_composes : Composes EmitsLegal where
  refl _ := emitsLegal_of_events_eq rfl rfl
  trans := by
    rintro s t u ⟨hcfg, new, hnew, hlegal⟩ ⟨hcfg', new', hnew', hlegal'⟩
    refine ⟨hcfg'.trans hcfg, new' ++ new, ?_, fun e he => ?_⟩
    · rw [NewEvents, hnew', hnew, List.append_assoc]
    · rcases List.mem_append.mp he with he | he
      · exact hcfg ▸ hlegal' e he
      · exact hlegal e he

theorem emitsLegal_report (s : State) (ctx : Option (Fin 16)) (k : ErrorKind) (loc extra : Half) :
    EmitsLegal s (s.report ctx k loc extra) :=
  emitsLegal_of_event rfl rfl trivial

theorem emitsLegal_updateProbe (s : State) (i : Fin 16) (f : Probe → Probe) : EmitsLegal s (s.updateProbe i f) :=
  emitsLegal_of_events_eq rfl rfl

theorem emitsLegal_freeDraws (s : State) (n : Nat) :
    EmitsLegal s { s with env := { s.env with freeDraws := n } } :=
  emitsLegal_of_events_eq rfl rfl

/-- The bridge transactions are the writes of one or two bytes and the reads of one byte, at BR_ADDR[g]
(spec/20_memory.md R54, R58). -/
theorem emitsLegal_steps (ctx : Option (Fin 16)) (g : Group) :
    BridgeSteps ctx g EmitsLegal fun _ => EmitsLegal where
  toComposes := emitsLegal_composes
  transE := emitsLegal_composes.trans
  setBuf _ _ _ := emitsLegal_of_events_eq rfl rfl
  setBridge _ _ _ := emitsLegal_of_events_eq rfl rfl
  resetPolls _ := emitsLegal_of_events_eq rfl rfl
  delay _ _ := emitsLegal_of_event rfl rfl trivial
  report s k loc extra _ _ := emitsLegal_report s ctx k loc extra
  write _ _ _ _ hw := emitsLegal_of_event rfl rfl ⟨rfl, .inl ⟨rfl, hw⟩⟩
  read _ _ _ := emitsLegal_of_event rfl rfl ⟨rfl, .inr ⟨rfl, rfl⟩⟩

/-! ### Commands that run an operation -/

theorem runCommand_emitsLegal {x : Op Unit} (hx : x.Keeps EmitsLegal) (s : State) :
    EmitsLegal s (runCommand x s) := by
  rw [runCommand_eq]
  exact emitsLegal_composes.trans (hx s) (emitsLegal_of_events_eq rfl rfl)

theorem illegalCommand_emitsLegal (s : State) : EmitsLegal s (illegalCommand s) :=
  runCommand_emitsLegal (keeps_raise fun s => emitsLegal_report s _ _ _ _) s

theorem ifLegal_emitsLegal {i : Instr} {x : Op Unit} (hx : x.Keeps EmitsLegal) {s t : State}
    (h : ifLegal i s (.next (runCommand x s)) = .next t) : EmitsLegal s t := by
  rcases ifLegal_cases i s (.next (runCommand x s)) with e | e <;> rw [e] at h <;> cases h
  · exact illegalCommand_emitsLegal s
  · exact runCommand_emitsLegal hx s

theorem bridge_emitsLegal {g : Group} {i : Instr} (hi : IsBridgeCommand g i) {s t : State} (h : exec i s = .next t) :
    EmitsLegal s t := by
  rcases exec_bridge hi s with e | ⟨x, e, hx, -⟩ <;> rw [e] at h <;> cases h
  · exact illegalCommand_emitsLegal s
  · have hends := hx (emitsLegal_steps none g) fun _ _ => emitsLegal_of_events_eq rfl rfl
    exact runCommand_emitsLegal hends.keeps s

/-- An operation that writes registers alone causes no event. -/
theorem modify_emitsLegal {f : State → State} (hcfg : ∀ s, (f s).cfg = s.cfg)
    (hevents : ∀ s, (f s).env.events = s.env.events) : (Op.modify f).Keeps EmitsLegal :=
  Op.keeps_modify fun s => emitsLegal_of_events_eq (hcfg s) (hevents s)

theorem crcValidate_emitsLegal (p : Nat) : (crcValidate p).Keeps EmitsLegal := by
  have hR := emitsLegal_composes
  refine Op.keeps_bind hR (Op.keeps_read hR _) fun c => Op.keeps_bind hR (Op.keeps_read hR _) fun received => ?_
  refine Op.keeps_bind hR (modify_emitsLegal (fun _ => rfl) fun _ => rfl) fun _ => ?_
  split
  · exact Op.keeps_pure hR _
  · exact keeps_raise fun s => emitsLegal_report s _ _ _ _

/-- A decode causes no event but the record of its failure (spec/43_temperature.md R145). -/
theorem decodeScratchpad_emitsLegal (ctx : Option (Fin 16)) (sp : Vector Byte 9) (r : Fin 4) :
    (decodeScratchpad ctx sp r).Keeps EmitsLegal := by
  intro s
  rcases decodeScratchpad_cases ctx sp r s with ⟨-, e⟩ | ⟨-, -, e⟩ | ⟨-, -, -, v, n, e, -⟩ <;> rw [e]
  · exact emitsLegal_report s _ _ _ _
  · exact emitsLegal_report s _ _ _ _
  · exact emitsLegal_freeDraws s n

theorem tdDecode_emitsLegal (r : Fin 4) : (tdDecode r).Keeps EmitsLegal := by
  have hR := emitsLegal_composes
  refine Op.keeps_bind hR (Op.keeps_read hR _) fun sp => ?_
  refine Op.keeps_bind hR (decodeScratchpad_emitsLegal none sp r) fun v => ?_
  exact modify_emitsLegal (fun _ => rfl) fun _ => rfl

theorem storedWhole_emitsLegal (whole : Nat) : (storedWhole whole).Keeps EmitsLegal := by
  intro s
  rcases storedWhole_cases whole s with ⟨-, e⟩ | ⟨-, e⟩ <;> rw [e]
  · exact emitsLegal_composes.refl s
  · exact emitsLegal_freeDraws s _

theorem tdCToF_emitsLegal (n : Bool) (whole tenths : Nat) : (tdCToF n whole tenths).Keeps EmitsLegal := by
  have hR := emitsLegal_composes
  refine Op.keeps_bind hR (Op.keeps_read hR _) fun cfg => Op.keeps_bind hR (storedWhole_emitsLegal _) fun fw => ?_
  exact modify_emitsLegal (fun _ => rfl) fun _ => rfl

/-- `set_resolution` causes no event but the record of a clamped request (spec/44_probe_manager.md R174). -/
theorem setResolution_emitsLegal (x : Byte) : (setResolution x).Keeps EmitsLegal := by
  intro s
  rw [run_setResolution]
  dsimp only
  split
  · exact emitsLegal_composes.refl s
  · split
    · exact emitsLegal_of_event rfl rfl trivial
    · exact emitsLegal_of_events_eq rfl rfl

/-! ### The cycle commands -/

/-- What the bridge steps and the writes of PROBE[i] keep, the part of `initiate_all` for probe i keeps
(spec/44_probe_manager.md R166). -/
theorem initiateProbe_keeps {i : Fin 16} {R : State → State → Prop}
    (h : BridgeSteps (some i) (probeGroup i) R fun _ => R) (hprobe : ∀ s f, R s (s.updateProbe i f)) (s : State) :
    R s (initiateProbe s i) := by
  have hsteps := initiateSteps_keeps h hprobe s
  unfold initiateProbe
  split <;> rename_i e <;> rw [e] at hsteps
  · exact hsteps
  · exact h.trans hsteps (hprobe _ _)

/-- What the bridge steps, the writes of PROBE[i] and the decode keep, the part of `get_all` for probe i keeps
(spec/44_probe_manager.md R169). -/
theorem getProbe_keeps {i : Fin 16} {R : State → State → Prop}
    (h : BridgeSteps (some i) (probeGroup i) R fun _ => R) (hprobe : ∀ s f, R s (s.updateProbe i f))
    (hdecode : ∀ sp r, (decodeScratchpad (some i) sp r).Keeps R) (s : State) : R s (getProbe s i).1 := by
  have hfetch : (fetchScratchpad i).Keeps R :=
    Op.keeps_bind h.toComposes (Op.keeps_read h.toComposes _) fun _ =>
      Op.keeps_bind h.toComposes (selectChannel_ends h _ _).keeps fun _ => (retrieveScratchpad_ends h).keeps
  have hfailure : ∀ k o t, R t (recordFailure i k o t) := fun _ _ _ => hprobe _ _
  have hstep : ∀ sp t, R t (decodeStep i sp t) := fun sp t => by
    have ht := hdecode sp t.activeIndex t
    unfold decodeStep
    split <;> rename_i e <;> rw [e] at ht <;> exact h.trans ht (hprobe _ _)
  unfold getProbe
  split
  · have hs := hfetch s
    split <;> rename_i e <;> rw [e] at hs
    · exact h.trans hs (hstep _ _)
    · exact h.trans hs (hfailure _ _ _)
  · exact h.refl s

theorem endCycle_emitsLegal {s t : State} (h : EmitsLegal s t) : EmitsLegal s (endCycle t) :=
  emitsLegal_composes.trans h (emitsLegal_of_events_eq rfl rfl)

theorem initiateAll_emitsLegal (s : State) : EmitsLegal s (probeIndices.foldl initiateProbe s) :=
  foldl_keeps emitsLegal_composes
    (fun s i => initiateProbe_keeps (emitsLegal_steps _ _) (fun s f => emitsLegal_updateProbe s i f) s) probeIndices s

theorem getAll_emitsLegal (s : State) : EmitsLegal s (getProbes s probeIndices).1 := by
  rw [getProbes_eq_foldl]
  exact foldl_keeps emitsLegal_composes (fun s i => getProbe_keeps (emitsLegal_steps _ _)
    (fun s f => emitsLegal_updateProbe s i f) (decodeScratchpad_emitsLegal _) s) probeIndices s

/-! ### The sampling pass -/

/-- A sample attempt writes one byte and reads two, at ADC_ADDR (spec/20_memory.md R54, R58). -/
theorem adcSample_emitsLegal (c : Fin 8) (s : State) : EmitsLegal s ((adcSample c).run s).2 := by
  have hselected : EmitsLegal s (adcSelected c s) := emitsLegal_of_event rfl rfl ⟨rfl, .inl ⟨rfl, rfl⟩⟩
  have hread : EmitsLegal s (adcReadBack (adcSelected c s)) :=
    emitsLegal_composes.trans hselected (emitsLegal_of_event rfl rfl ⟨rfl, .inr ⟨rfl, rfl⟩⟩)
  rcases adcSample_cases c s with ⟨_, _, h⟩ | ⟨_, _, _, _, _, h⟩ | ⟨_, _, _, _, _, _, h⟩ <;> rw [h]
  · exact emitsLegal_composes.trans hselected (emitsLegal_report _ _ _ _ _)
  · exact emitsLegal_composes.trans hread (emitsLegal_report _ _ _ _ _)
  · exact emitsLegal_composes.trans hread (emitsLegal_of_events_eq rfl rfl)

theorem adcClose_emitsLegal (c : Fin 8) (s : State) : EmitsLegal s (adcClose c s) := by
  unfold adcClose
  dsimp only
  split <;> exact emitsLegal_of_events_eq rfl rfl

theorem adcRound_emitsLegal (c : Fin 8) (s : State) : EmitsLegal s (adcRound c s) := by
  have hsample : EmitsLegal s (if (s.adcAcc c).count < s.cfg.adcSamples then ((adcSample c).run s).2 else s) := by
    split
    · exact adcSample_emitsLegal c s
    · exact emitsLegal_composes.refl s
  unfold adcRound
  generalize (if (s.adcAcc c).count < s.cfg.adcSamples then ((adcSample c).run s).2 else s) = s' at hsample ⊢
  dsimp only
  split
  · exact hsample
  · exact emitsLegal_composes.trans hsample (adcClose_emitsLegal c s')

theorem continueCommand_emitsLegal (s : State) : EmitsLegal s (continueCommand s) := by
  unfold continueCommand
  split
  · exact adcRound_emitsLegal _ s
  · exact emitsLegal_composes.refl s

theorem adcPlay_emitsLegal (n : Nat) (s : State) : EmitsLegal s (adcPlay n s) := by
  induction n generalizing s with
  | zero => exact emitsLegal_composes.refl s
  | succ n ih =>
    unfold adcPlay
    split
    · exact emitsLegal_composes.trans (adcRound_emitsLegal _ s) (ih _)
    · exact emitsLegal_composes.refl s

/-! ### Every command and every step -/

theorem exec_emitsLegal {i : Instr} {s t : State} (h : exec i s = .next t) : EmitsLegal s t := by
  cases i using Instr.byFamily with
  | bufLoad k v =>
    refine ifLegal_emitsLegal ?_ h
    exact modify_emitsLegal (fun _ => rfl) fun _ => rfl
  | crcCompute n =>
    refine ifLegal_emitsLegal ?_ h
    exact modify_emitsLegal (fun _ => rfl) fun _ => rfl
  | crcValidate n => exact ifLegal_emitsLegal (crcValidate_emitsLegal _) h
  | setLogging f =>
    refine ifLegal_emitsLegal ?_ h
    exact modify_emitsLegal (fun _ => rfl) fun _ => rfl
  | bridge g i hi => exact bridge_emitsLegal hi h
  | tdDecode a =>
    rcases exec_tdDecode_cases a s with e | e | e <;> rw [e] at h <;> cases h
    · exact illegalCommand_emitsLegal s
    · exact runCommand_emitsLegal (tdDecode_emitsLegal _) s
  | tdCToF n w f => exact ifLegal_emitsLegal (tdCToF_emitsLegal n _ _) h
  | pmInitiateAll =>
    rw [← Host.Outcome.next.inj h]
    exact endCycle_emitsLegal (initiateAll_emitsLegal s)
  | pmGetAll =>
    rw [exec_pmGetAll_next h]
    exact endCycle_emitsLegal (getAll_emitsLegal s)
  | pmSetResolution x =>
    cases h
    exact runCommand_emitsLegal (setResolution_emitsLegal x) s
  | adcPass =>
    cases h
    have hbegin : EmitsLegal s (adcBegin 0 { s with cpState := .running }) := emitsLegal_of_events_eq rfl rfl
    exact emitsLegal_composes.trans hbegin (adcPlay_emitsLegal _ _)

/-- Taking a command word causes no event but its trace record (spec/60_exceptions.md R207). -/
theorem acceptCommand_emitsLegal (w : Word) (s : State) : EmitsLegal s (acceptCommand w s) := by
  unfold acceptCommand traceCommand
  split
  · exact emitsLegal_of_event rfl rfl trivial
  · exact emitsLegal_of_events_eq rfl rfl

/-- A reset that cuts a command leaves its oldest events, so only legal transactions (R227). -/
theorem landReset_emitsLegal (n : Nat) {s t : State} (h : EmitsLegal s t) : EmitsLegal s (landReset n s t) := by
  obtain ⟨hcfg, new, hnew, hlegal⟩ := h
  by_cases hn : n ≤ new.length
  · have e : landReset n s t = cutByReset s t (new.drop (new.length - n)) := by
      simp only [landReset, hnew.take_new, if_pos hn]
    rw [e]
    exact ⟨hcfg, _, cutByReset_events _ _ _, fun e he => hlegal e (List.mem_of_mem_drop he)⟩
  · rw [landReset_later hnew (Nat.not_le.mp hn)]
    exact ⟨hcfg, new, hnew, hlegal⟩

theorem underReset_emitsLegal {s t : State} {o : Host.Outcome State Fault Refusal}
    (ho : ∀ u, o = .next u → EmitsLegal s u) (h : underReset s o = .next t) : EmitsLegal s t := by
  unfold underReset at h
  split at h
  · cases h
    exact landReset_emitsLegal _ (ho _ rfl)
  all_goals exact ho t h

theorem step_emitsLegal {s t : State} (h : step s = .next t) : EmitsLegal s t := by
  rw [step] at h
  cases hfetch : fetch s with
  | reset =>
    rw [hfetch] at h
    cases h
    exact emitsLegal_of_events_eq rfl rfl
  | running =>
    rw [hfetch] at h
    exact underReset_emitsLegal (fun u hu => Host.Outcome.next.inj hu ▸ continueCommand_emitsLegal s) h
  | waiting =>
    rw [hfetch] at h
    cases h
    exact emitsLegal_composes.refl s
  | badConfiguration =>
    rw [hfetch] at h
    cases h
  | command w i =>
    rw [hfetch] at h
    exact underReset_emitsLegal
      (fun u hu => emitsLegal_composes.trans (acceptCommand_emitsLegal w s) (exec_emitsLegal hu)) h
  | illegal w =>
    rw [hfetch] at h
    have hlatch : EmitsLegal s (latchWord w s) := emitsLegal_of_events_eq rfl rfl
    exact underReset_emitsLegal (fun u hu => Host.Outcome.next.inj hu ▸
      emitsLegal_composes.trans hlatch (illegalCommand_emitsLegal _)) h

/-- Settles O36: every command and every step, a cut one included, keeps `EmitsLegal`. -/
theorem everyTransactionIsLegal : Obligations.EveryTransactionIsLegal := by
  intro i s t h
  rcases h with h | h
  · exact (exec_emitsLegal h).2
  · exact (step_emitsLegal h).2

end Sys2Proof.Machine

/-! PROOFS. Encoding: a word decodes to a command exactly when the command is legal and the word is its encoding
(spec/30_encoding.md R70 to R74). -/

namespace Sys2Proof

/-! ### Words and their fields -/

/-- A word whose reserved field is 0 is packed from its other fields (spec/30_encoding.md R70). -/
theorem packWord_of_fields {w : Word} (hz : zField w = 0) :
    packWord (opField w) (aField w) (bField w) (gField w) = w := by
  have hz' : (zField w).toNat = 0 := by rw [hz]; rfl
  have hw := w.isLt
  apply BitVec.eq_of_toNat_eq
  simp only [packWord_toNat, opField, aField, bField, zField, gField, BitVec.extractLsb'_toNat,
    Nat.shiftRight_eq_div_pow] at hz' ⊢
  omega

@[simp] theorem groupBit_groupOf (g : BitVec 1) : groupBit (groupOf g) = g := by
  revert g
  decide

@[simp] theorem groupOf_groupBit (g : Group) : groupOf (groupBit g) = g := by
  cases g <;> rfl

/-- G encoded from the sign of TD_C_TO_F that is read from it (spec/30_encoding.md R71). -/
@[simp] theorem signBit_of_eq_one (g : BitVec 1) : (if g = 1#1 then 1#1 else 0#1) = g := by
  revert g
  decide

/-- The sign of TD_C_TO_F read from the G that encodes it (spec/30_encoding.md R71). -/
@[simp] theorem signBit_eq_one (negative : Bool) : ((if negative = true then 1#1 else 0#1) == 1#1) = negative := by
  cases negative <;> rfl

/-! ### One row -/

theorem checkRow_eq_ok_iff {zeroFields : Bool} {i j : Instr} :
    checkRow zeroFields i = .ok j ↔ zeroFields = true ∧ i.wf = true ∧ i = j := by
  unfold checkRow checkOperands
  cases zeroFields <;> cases i.wf <;> simp

theorem exists_checkRow_eq_ok_iff {zeroFields : Bool} {i : Instr} :
    (∃ j, checkRow zeroFields i = .ok j) ↔ zeroFields = true ∧ i.wf = true := by
  simp only [checkRow_eq_ok_iff, exists_and_left, exists_eq', and_true]

/-- A row answers only legal commands, and each is encoded to the row's own fields (spec/30_encoding.md R71, R72). -/
theorem encode_of_decodeRow {op a b : Byte} {g : BitVec 1} {i : Instr} (h : decodeRow op a b g = .ok i) :
    i.wf = true ∧ encode i = packWord op a b g := by
  unfold decodeRow at h
  split at h
  case h_21 => cases h
  all_goals
    obtain ⟨hzero, hwf, rfl⟩ := checkRow_eq_ok_iff.mp h
    refine ⟨hwf, ?_⟩
    simp only [Bool.and_eq_true, beq_iff_eq] at hzero
    simp [encode, hzero]

/-- The row of a legal command answers it (spec/30_encoding.md R71, R72). -/
theorem decode_encode {i : Instr} (h : i.wf = true) : decode (encode i) = .ok i := by
  have hpacked : ∀ op a b g, decode (packWord op a b g) = decodeRow op a b g := fun op a b g => by
    obtain ⟨hop, ha, hb, hz, hg⟩ := packWord_fields op a b g
    simp only [decode, hop, ha, hb, hz, hg, if_true]
  have hrow : ∀ zeroFields j, zeroFields = true → j = i → checkRow zeroFields j = .ok i := fun _ _ hz hj =>
    checkRow_eq_ok_iff.mpr ⟨hz, hj ▸ h, hj⟩
  cases i <;> exact (hpacked ..).trans (hrow _ _ rfl (by simp))

/-- A word decodes to a command exactly when the command is legal and the word is its encoding
(spec/30_encoding.md R72, R74). -/
theorem decode_eq_ok_iff {w : Word} {i : Instr} : decode w = .ok i ↔ i.wf = true ∧ encode i = w := by
  refine ⟨fun h => ?_, fun ⟨hwf, hw⟩ => hw ▸ decode_encode hwf⟩
  unfold decode at h
  split at h
  case isTrue hz =>
    obtain ⟨hwf, henc⟩ := encode_of_decodeRow h
    exact ⟨hwf, henc.trans (packWord_of_fields hz)⟩
  case isFalse => cases h

/-- Settles O2: the row that a command's opcode selects answers the command. -/
theorem decodeInvertsEncode : Obligations.DecodeInvertsEncode :=
  fun _ h => decode_encode h

/-- Settles O3: the row that answers a command has checked its operands and every field that the encoding sets to 0. -/
theorem encodeInvertsDecode : Obligations.EncodeInvertsDecode :=
  fun _ _ h => decode_eq_ok_iff.mp h

/-! ### The rows of the table -/

open Machine

/-- The encoding of a command has its opcode in OP (spec/30_encoding.md R74). -/
theorem opField_encode (i : Instr) : opField (encode i) = opcode i := by
  cases i <;> exact (packWord_fields ..).1

/-- The opcode of every command is in the table (spec/30_encoding.md R71). -/
theorem exists_row_of_opcode (i : Instr) : ∃ r ∈ commandRows, opcode i = r.op := by
  have hall : ∀ op ∈ commandRows.map CommandRow.op, ∃ r ∈ commandRows, op = r.op := by decide
  refine hall _ ?_
  cases i <;> simp [commandRows, opcode]

/-- A row of the table answers exactly the fields in its ranges (spec/30_encoding.md R71, R72). -/
theorem decodeRow_ok_iff_of_row {r : CommandRow} (hr : r ∈ commandRows) (a b : Byte) (g : BitVec 1) :
    (∃ i, decodeRow r.op a b g = .ok i) ↔
      r.aLow ≤ a.toNat ∧ a.toNat ≤ r.aHigh ∧ b.toNat ≤ r.bHigh ∧ g.toNat ≤ r.gHigh := by
  simp only [commandRows, List.mem_cons, List.not_mem_nil, or_false] at hr
  rcases hr with rfl | rfl | rfl | rfl | rfl | rfl | rfl | rfl | rfl | rfl | rfl | rfl | rfl | rfl | rfl | rfl | rfl |
    rfl | rfl | rfl
  all_goals
    refine exists_checkRow_eq_ok_iff.trans ?_
    simp only [Instr.wf, Bool.and_eq_true, Bool.or_eq_true, beq_iff_eq, decide_eq_true_eq, true_and, and_true, true_iff]
    bv_omega

/-- Settles O4: the opcode of a command selects its row, and the row answers exactly the fields in its ranges. -/
theorem decodeAcceptsExactlyTheRows : Obligations.DecodeAcceptsExactlyTheRows := by
  intro w
  by_cases hz : zField w = 0
  · have hdecode : decode w = decodeRow (opField w) (aField w) (bField w) (gField w) := if_pos hz
    constructor
    · rintro ⟨i, h⟩
      obtain ⟨r, hr, hop⟩ := exists_row_of_opcode i
      have hw : opField w = r.op := by
        rw [← hop, ← opField_encode, (decode_eq_ok_iff.mp h).2]
      rw [hdecode, hw] at h
      exact ⟨r, hr, hw, hz, (decodeRow_ok_iff_of_row hr _ _ _).mp ⟨i, h⟩⟩
    · rintro ⟨r, hr, hw, -, hranges⟩
      rw [hdecode, hw]
      exact (decodeRow_ok_iff_of_row hr _ _ _).mpr hranges
  · constructor
    · rintro ⟨i, h⟩
      cases (if_neg hz).symm.trans h
    · rintro ⟨r, -, -, hz', -⟩
      exact absurd hz' hz

/-! ### Words of the specification -/

/-- Settles O1: each word is the encoding of its command. -/
theorem decodeOfSpecWords : Obligations.DecodeOfSpecWords := by
  have h : ∀ (w : Word) (i : Instr), i.wf = true ∧ encode i = w → decode w = .ok i := fun _ _ => decode_eq_ok_iff.mpr
  refine ⟨h _ _ ?_, h _ _ ?_, h _ _ ?_, h _ _ ?_, h _ _ ?_, h _ _ ?_, h _ _ ?_, h _ _ ?_⟩ <;> decide

end Sys2Proof

/-! PROOFS. Illegal words and illegal operands (spec/30_encoding.md R73), and BR_SEND of an immediate command. -/

namespace Sys2Proof.Machine

/-- In IDLE under a legal configuration the port fetches an illegal word as such, unless a reset is asked for at once
(spec/10_state.md R16, spec/30_encoding.md R73). -/
theorem fetch_illegal {s : State} {w : Word} {ws : List Word} {e : DecodeReject} (hreset : s.env.resetRequest ≠ .now)
    (hidle : s.cpState = .idle) (hlegal : s.cfg.legal = true) (hwords : s.env.hostWrites = w :: ws)
    (hdecode : decode w = .error e) : fetch s = .illegal w := by
  simp only [fetch, if_neg hreset, hidle, hwords, if_pos hlegal, hdecode]

/-- Settles O7: the port fetches the word as illegal, latches it, and the illegal command ends with its one record. -/
theorem stepOnIllegalWord : Obligations.StepOnIllegalWord := by
  intro s w ws e hreset hidle hlegal hwords hdecode
  have hfetch : fetch s = .illegal w := fetch_illegal (by simp [hreset]) hidle hlegal hwords hdecode
  have hextra : w.setWidth 16 = w.extractLsb' 0 16 := BitVec.setWidth_eq_extractLsb' (by decide)
  have hstep : step s = .next (illegalCommand (latchWord w s)) := by
    simp only [step, hfetch, underReset_of_none hreset]
  refine ⟨Config.freeMessage s.env.events.length, ?_⟩
  rw [hstep, illegalCommand_eq, latchWord_of_hostWrites_cons w hwords, ← hextra, ← hidle]
  rfl

/-- Settles O60: the commands whose operands can be illegal check them first, and the others are never ill-formed. -/
theorem illFormedTermIsIllegalCommand : Obligations.IllFormedTermIsIllegalCommand := by
  intro i s h
  cases i with
  | bufLoad | crcCompute | crcValidate | setLogging | brResetCfg | brConfigProbe | tdDecode | tdCToF =>
    exact ifLegal_of_not_wf h s _
  | brSend | brSelect | br1wReset | brWriteByte | brReadByte | brReadRom | brTriggerConv | brRetrieveSp | pmInitiateAll
    | pmGetAll | pmSetResolution | adcPass => cases h

/-- Settles O19: the command writes its bytes and, being immediate, ends there (spec/40_bridge.md R100 step 2). -/
theorem brSendImmediateDoesNotPoll : Obligations.BrSendImmediateDoesNotPoll := by
  intro s g c1 c2 a rest himmediate h
  have himm : s.cfg.immediate c1 = true := by
    simpa [Config.immediate, or_assoc] using himmediate
  obtain ⟨t, hrun, hplayed⟩ := sendCommand_immediate none g c1 c2 s himm a h
  obtain ⟨hends, htrace⟩ := hplayed.runCommand_ok hrun
  exact ⟨runCommand (sendCommand none g c1 c2) s, rfl, hends, htrace⟩

end Sys2Proof.Machine

/-! PROOFS. The cycle commands on clean transports: what an operation does with PROBE[i] and with the answers listed on
the transport of its group, and the probes one after the other (spec/44_probe_manager.md R165, R166, R169). -/

namespace Sys2Proof.Machine

/-! ### Processing one probe on a script -/

/-- Probe i has been processed from `s` to `t`: within the frame of R172 its fields are now `p`, the listed answers of
its group's transport are down to `rest`, and the port events are `l`. -/
structure Processed (i : Fin 16) (s t : State) (p : Probe) (rest : List Answer) (l : List Event) : Prop where
  frame : ProbeFrame i s t
  probe : t.probe i = p
  answers : (t.transport (.grp (probeGroup i))).answers = rest
  trace : Trace s t l

theorem Processed.trans {i : Fin 16} {s t u : State} {p q : Probe} {as bs : List Answer} {l m : List Event}
    (h : Processed i s t p as l) (h' : Processed i t u q bs m) : Processed i s u q bs (l ++ m) :=
  ⟨(probeFrame_composes i).trans h.frame h'.frame, h'.probe, h'.answers, h.trace.append h'.trace⟩

theorem processed_refl (i : Fin 16) (s : State) :
    Processed i s s (s.probe i) (s.transport (.grp (probeGroup i))).answers [] :=
  ⟨(probeFrame_composes i).refl s, rfl, rfl, Trace.refl s⟩

/-- Writing fields of PROBE[i] takes no answer and causes no event. -/
theorem processed_updateProbe (i : Fin 16) (s : State) (f : Probe → Probe) :
    Processed i s (s.updateProbe i f) (f (s.probe i)) (s.transport (.grp (probeGroup i))).answers [] :=
  ⟨probeFrame_update f, State.probe_updateProbe_same s i f, rfl, (Trace.refl s).congr rfl rfl⟩

theorem Played.bridgeFrame {g : Group} {s t : State} {bf : Vector Byte 9} {b : Bridge} {rest : List Answer}
    {l : List Event} (h : Played g s t bf b rest l) : BridgeFrame g s t := by
  have hbuf := h.buf
  have hbridge : t.bridges.get g = b := h.bridge
  have htransport : t.env.transports.get (.grp g) = { s.transport (.grp g) with answers := rest } := h.transport
  rw [BridgeFrame, hbuf, hbridge, htransport]
  exact h.1

/-- A bridge operation of the probe's group leaves the probe. -/
theorem Played.processed {i : Fin 16} {s t : State} {bf : Vector Byte 9} {b : Bridge} {rest : List Answer}
    {l : List Event} (h : Played (probeGroup i) s t bf b rest l) : Processed i s t (s.probe i) rest l :=
  ⟨h.bridgeFrame.probeFrame, by simp only [State.probe, h.bridgeFrame.probes], h.answers, h.2⟩

/-- The operation `x`, run while probe i has the fields `p` and its group's transport lists `as`, under configuration `c`
and ACTIVE_RES `a`, answers `v` and leaves the fields `q`, the listed answers `bs` and the new port events `l`. -/
def Op.Serves {α : Type} (c : Config) (a : BitVec 2) (i : Fin 16) (x : Op α) (p : Probe) (as : List Answer) (v : α)
    (q : Probe) (bs : List Answer) (l : List Event) : Prop :=
  ∀ s : State, s.cfg = c → s.activeRes = a → s.probe i = p → (s.transport (.grp (probeGroup i))).answers = as →
    ∃ t, x.run s = (.ok v, t) ∧ Processed i s t q bs l

section Serves
variable {α β : Type} {c : Config} {a : BitVec 2} {i : Fin 16} {p q q' : Probe} {as bs bs' : List Answer}
  {l m : List Event} {v : α} {w : β}

theorem Op.serves_bind {x : Op α} {f : α → Op β} (hx : x.Serves c a i p as v q bs l)
    (hf : (f v).Serves c a i q bs w q' bs' m) : (x >>= f).Serves c a i p as w q' bs' (l ++ m) := by
  intro s hc ha hp has
  obtain ⟨t, hrun, ht⟩ := hx s hc ha hp has
  obtain ⟨u, hrun', hu⟩ := hf t (ht.frame.cfg.trans hc) (ht.frame.activeRes.trans ha) ht.probe ht.answers
  exact ⟨u, (Op.run_bind_ok hrun).trans hrun', ht.trans hu⟩

theorem Op.serves_pure (v : α) : (pure v : Op α).Serves c a i p as v p as [] := by
  rintro s - - rfl rfl
  exact ⟨s, rfl, processed_refl i s⟩

theorem Op.serves_modify (f : Probe → Probe) :
    (Op.modify fun s => s.updateProbe i f).Serves c a i p as () (f p) as [] := by
  rintro s - - rfl rfl
  exact ⟨_, rfl, processed_updateProbe i s f⟩

/-- A read, whatever it answers, then what follows. -/
theorem Op.serves_read {f : State → α} {k : α → Op β} (v : α)
    (hv : ∀ s : State, s.cfg = c → s.activeRes = a → s.probe i = p → f s = v)
    (hk : (k v).Serves c a i p as w q bs l) : (Op.read f >>= k).Serves c a i p as w q bs l := by
  intro s hc ha hp has
  rw [Op.run_read_bind, hv s hc ha hp]
  exact hk s hc ha hp has

theorem Op.serves_attempt {x : Op α} (hx : x.Serves c a i p as v q bs l) :
    (Op.attempt x).Serves c a i p as (.ok v) q bs l := by
  intro s hc ha hp has
  obtain ⟨t, hrun, ht⟩ := hx s hc ha hp has
  exact ⟨t, by rw [Op.run_attempt, hrun], ht⟩

/-- The same with the answers, the fields and the events written in another way. -/
theorem Op.Serves.congr {x : Op α} {as' : List Answer} {l' : List Event} (h : x.Serves c a i p as v q bs l)
    (has : as' = as) (hq : q = q') (hl : l = l') : x.Serves c a i p as' v q' bs l' := by
  subst has hq hl
  exact h

/-- A bridge operation of the probe's group on its script. -/
theorem Op.serves_of_bridge {x : Op α}
    (h : ∀ s : State, s.cfg = c → (s.transport (.grp (probeGroup i))).answers = as →
      ∃ t, x.run s = (.ok v, t) ∧ Processed i s t (s.probe i) bs l) : x.Serves c a i p as v p bs l := by
  rintro s hc - rfl has
  exact h s hc has

end Serves

/-! ### The bridge operations of a cycle on their scripts -/

theorem busGroup_eq_probeGroup : ∀ i : Fin 16, busGroup i = probeGroup i := by decide

theorem busChannel_eq_probeChannel : ∀ i : Fin 16, busChannel i = probeChannel i := by decide

/-- The answers to the chip reset of an init script (spec/40_bridge.md R105). -/
abbrev InitScript.chipAnswers (x : InitScript) : List Answer :=
  x.chipReset.answers ++ okAnswers [x.writeConfig, x.configBack]

/-- The events of the chip reset of an init script (spec/40_bridge.md R105). -/
abbrev InitScript.chipEvents (c : Config) (g : Group) (x : InitScript) : List Event :=
  x.chipReset.events c g [c.cmdDeviceReset] ++
    [writeEvent c g [c.cmdWriteConfig, c.brConfig] x.writeConfig, readEvent c g x.configBack]

/-- The answers to the ROM read of an init script (spec/41_bridge_sequences.md R120). -/
abbrev InitScript.romAnswers (x : InitScript) : List Answer :=
  x.romReset.answers ++ x.romCommand.answers ++ readAnswers x.romReads

/-- The events of the ROM read of an init script (spec/41_bridge_sequences.md R120). -/
abbrev InitScript.romEvents (c : Config) (g : Group) (x : InitScript) : List Event :=
  pollEvents c g [[c.cmd1wReset], commandBytes c.cmd1wWriteByte c.owReadRom] [x.romReset, x.romCommand] ++
    readEvents c g x.romReads

/-- The answers to the configuration of an init script (spec/41_bridge_sequences.md R121, R122). -/
abbrev InitScript.configAnswers (x : InitScript) : List Answer :=
  x.resetA.answers ++ x.writesA.flatMap PollScript.answers ++ x.resetB.answers ++
    x.writesB.flatMap PollScript.answers ++ x.resetC.answers ++ readAnswers x.waiting ++ x.confirm.answers

/-- The events of the configuration of an init script (spec/41_bridge_sequences.md R121, R122). -/
abbrev InitScript.configEvents (c : Config) (g : Group) (r : Fin 4) (x : InitScript) : List Event :=
  x.resetA.events c g [c.cmd1wReset] ++
    pollEvents c g
      [commandBytes c.cmd1wWriteByte c.owSkipRom, commandBytes c.cmd1wWriteByte c.owWriteScratchpad,
        commandBytes c.cmd1wWriteByte c.triggerByte0, commandBytes c.cmd1wWriteByte c.triggerByte1,
        [c.cmd1wWriteByte, c.resCfg[r]]] x.writesA ++
    x.resetB.events c g [c.cmd1wReset] ++
    pollEvents c g
      [commandBytes c.cmd1wWriteByte c.owSkipRom, commandBytes c.cmd1wWriteByte c.owCopyScratchpad] x.writesB ++
    [.delay (2 * c.eepromWriteLatency)] ++ x.resetC.events c g [c.cmd1wReset] ++
    readEvents c g (x.waiting ++ [x.confirm])

section Bridge
variable {c : Config} {a : BitVec 2} {i : Fin 16} {p : Probe} {rest : List Answer}

/-- A verified channel select for probe i (spec/40_bridge.md R104, spec/30_encoding.md R84). -/
theorem selectChannel_serves (hleg : c.legal = true) {select readBack : Byte × Byte}
    (hverify : readBack.1 = c.chVerify[busChannel i]) :
    (selectChannel (some i) (probeGroup i) c.chWrite[probeChannel i] c.chVerify[probeChannel i]).Serves c a i p
      (okAnswers [select, readBack] ++ rest) () p rest (selectEvents c i select readBack) := by
  refine Op.serves_of_bridge fun s hc h => ?_
  obtain ⟨t, hrun, hplayed⟩ := selectChannel_script (some i) (probeGroup i) s c.chWrite[probeChannel i]
    c.chVerify[probeChannel i] select readBack h
  have hverify' : readBack.1 = c.chVerify[probeChannel i] := by
    simp only [hverify, busChannel_eq_probeChannel]
  obtain ⟨-, -, -, -, -, hwrite⟩ := legal_commands hleg
  have hbytes : commandBytes c.cmdChannelSelect c.chWrite[probeChannel i] =
      [c.cmdChannelSelect, c.chWrite[probeChannel i]] := if_neg (hwrite _)
  simp only [if_pos hverify', hc, hbytes, List.append_nil] at hrun hplayed
  simp only [selectEvents, busGroup_eq_probeGroup, busChannel_eq_probeChannel]
  exact ⟨t, hrun, hplayed.processed⟩

/-- The chip reset and BR_CONFIG, verified (spec/40_bridge.md R105). -/
theorem resetAndConfigure_serves (hleg : c.legal = true) {x : InitScript} (hx : x.Clean c i) :
    (resetAndConfigure (some i) (probeGroup i) true).Serves c a i p (x.chipAnswers ++ rest) () p rest
      (x.chipEvents c (probeGroup i)) := by
  refine Op.serves_of_bridge fun s hc h => ?_
  subst hc
  obtain ⟨⟨hclears, hsame⟩, -⟩ := hx
  obtain ⟨t, hrun, hplayed⟩ := resetAndConfigure_script (some i) (probeGroup i) s hleg x.chipReset x.writeConfig
    x.configBack hclears h
  simp only [if_pos hsame, List.append_nil] at hrun hplayed
  exact ⟨t, hrun, hplayed.processed⟩

/-- A ROM read whose CRC is right (spec/41_bridge_sequences.md R120). -/
theorem readRom_serves (hleg : c.legal = true) {x : InitScript} (hx : x.Clean c i) :
    (readRom (some i) (probeGroup i)).Serves c a i p (x.romAnswers ++ rest) x.rom p rest
      (x.romEvents c (probeGroup i)) := by
  refine Op.serves_of_bridge fun s hc h => ?_
  subst hc
  obtain ⟨-, -, ⟨hreset, hcommand, hlength, hreads⟩, hcrc, -⟩ := hx
  have hbytes : x.rom = Vector.ofFn fun k => (x.romReads.map ReadScript.byte).getD k.val 0 := rfl
  unfold InitScript.romAnswers at h
  unfold InitScript.romEvents
  generalize x.romReads = reads at *
  match reads, hlength with
  | [r0, r1, r2, r3, r4, r5, r6, r7], _ =>
    replace hbytes : x.rom = #v[r0.byte, r1.byte, r2.byte, r3.byte, r4.byte, r5.byte, r6.byte, r7.byte] := hbytes
    obtain ⟨t, hrun, hplayed⟩ := readRom_script (some i) (probeGroup i) s hleg x.romReset x.romCommand hreset hcommand
      r0 r1 r2 r3 r4 r5 r6 r7 hreads h _ rfl
    have hgood : crc8 [r0.byte, r1.byte, r2.byte, r3.byte, r4.byte, r5.byte, r6.byte] = r7.byte := by
      rw [hbytes] at hcrc
      exact hcrc
    simp only [if_pos hgood, List.append_nil, ← hbytes] at hrun hplayed
    refine ⟨t, hrun, ?_⟩
    simpa [pollEvents] using hplayed.processed

/-- The configuration of a probe, confirmed by its copy poll (spec/41_bridge_sequences.md R121, R122). -/
theorem configureProbe_serves (hleg : c.legal = true) {bits : Nat} {r : Fin 4} (hr : resIndexOfBits bits = r)
    {x : InitScript} (hx : x.Clean c i) :
    (configureProbe (some i) (probeGroup i) bits).Serves c a i p (x.configAnswers ++ rest) () p rest
      (x.configEvents c (probeGroup i) r) := by
  refine Op.serves_of_bridge fun s hc h => ?_
  subst hc
  obtain ⟨-, -, -, -, ⟨hresetA, hlengthA, hclearA⟩, ⟨hresetB, hlengthB, hclearB⟩, hresetC, ⟨hlimit, hzeros⟩,
    ⟨hconfirm, hnonzero⟩, -⟩ := hx
  unfold InitScript.configAnswers at h
  unfold InitScript.configEvents
  generalize x.writesA = writesA at *
  generalize x.writesB = writesB at *
  match writesA, hlengthA, writesB, hlengthB with
  | [p2, p3, p4, p5, p6], _, [p8, p9], _ =>
    have hclears : ∀ y ∈ [p2, p3, p4, p5, p6, p8, p9], y.Clears s.cfg := fun y hy =>
      (List.mem_append.mp (show y ∈ [p2, p3, p4, p5, p6] ++ [p8, p9] from hy)).elim (hclearA y) (hclearB y)
    obtain ⟨t, hrun, hplayed⟩ := configureProbe_script (some i) (probeGroup i) s hleg bits r hr x.resetA p2 p3 p4 p5 p6
      x.resetB p8 p9 x.resetC ⟨hresetA, hresetB, hresetC⟩ hclears (rest := readAnswers (x.waiting ++ [x.confirm]) ++ rest)
      (by rw [h]; simp [readAnswers])
    obtain ⟨left, hleft⟩ : ∃ left, left + 1 + x.waiting.length = Config.copyPollLimit :=
      ⟨Config.copyPollLimit - x.waiting.length - 1, by omega⟩
    rw [← hplayed.cfg] at hleg hzeros hconfirm
    obtain ⟨u, hrun', hplayed'⟩ := copyPoll_script (some i) (probeGroup i) x.waiting left x.confirm t hleg hzeros
      hconfirm hnonzero hplayed.answers
    have hall := hplayed.trans hplayed'
    rw [hplayed.cfg] at hall
    refine ⟨u, hrun.trans (hleft ▸ hrun'), ?_⟩
    simpa [configureEvents, pollEvents, Config.copySettleDelay] using hall.processed

/-- The trigger of a conversion (spec/41_bridge_sequences.md R123). -/
theorem triggerConversion_serves (hleg : c.legal = true) {trigger : List PollScript} (hlength : trigger.length = 3)
    (hclears : ∀ y ∈ trigger, y.Clears c) (hpresence : ∀ y ∈ trigger.head?, c.presence y.last.1 = true) :
    (triggerConversion (some i) (probeGroup i)).Serves c a i p (trigger.flatMap PollScript.answers ++ rest) () p rest
      (pollEvents c (probeGroup i)
        [[c.cmd1wReset], commandBytes c.cmd1wWriteByte c.owSkipRom, commandBytes c.cmd1wWriteByte c.owConvertT]
        trigger) := by
  refine Op.serves_of_bridge fun s hc h => ?_
  subst hc
  obtain ⟨p1, p2, p3, rfl⟩ := List.length_eq_three.mp hlength
  obtain ⟨t, hrun, hplayed⟩ := triggerConversion_script (some i) (probeGroup i) s hleg p1 p2 p3
    ⟨hclears p1 (by simp), hpresence p1 rfl⟩ (hclears p2 (by simp)) (hclears p3 (by simp))
    (rest := rest) (by rw [h]; simp)
  refine ⟨t, hrun, ?_⟩
  simpa [pollEvents] using hplayed.processed

/-- The retrieval of a scratchpad whose CRC is right (spec/41_bridge_sequences.md R124). -/
theorem retrieveScratchpad_serves (hleg : c.legal = true) {x : GetScript} (hx : x.Retrieves c i) :
    (retrieveScratchpad (some i) (probeGroup i)).Serves c a i p
      (x.reset.answers ++ x.skipRom.answers ++ x.readCommand.answers ++ readAnswers x.reads ++ rest) x.scratchpad p rest
      (pollEvents c (probeGroup i)
        [[c.cmd1wReset], commandBytes c.cmd1wWriteByte c.owSkipRom, commandBytes c.cmd1wWriteByte c.owReadScratchpad]
        [x.reset, x.skipRom, x.readCommand] ++
      readEvents c (probeGroup i) x.reads) := by
  refine Op.serves_of_bridge fun s hc h => ?_
  subst hc
  obtain ⟨-, ⟨hreset, hpresence, hshort⟩, ⟨hskip, hcommand⟩, ⟨hlength, hreads⟩, hcrc⟩ := hx
  have hbytes : x.scratchpad = Vector.ofFn fun k => (x.reads.map ReadScript.byte).getD k.val 0 := rfl
  generalize x.reads = reads at *
  match reads, hlength with
  | [r0, r1, r2, r3, r4, r5, r6, r7, r8], _ =>
    replace hbytes : x.scratchpad =
        #v[r0.byte, r1.byte, r2.byte, r3.byte, r4.byte, r5.byte, r6.byte, r7.byte, r8.byte] := hbytes
    obtain ⟨t, hrun, hplayed⟩ := retrieveScratchpad_script (some i) (probeGroup i) s hleg x.reset x.skipRom
      x.readCommand ⟨hreset, hpresence⟩ hshort hskip hcommand r0 r1 r2 r3 r4 r5 r6 r7 r8 hreads h _ rfl
    have hgood : crc8 [r0.byte, r1.byte, r2.byte, r3.byte, r4.byte, r5.byte, r6.byte, r7.byte] = r8.byte := by
      rw [hbytes] at hcrc
      exact hcrc
    simp only [if_pos hgood, List.append_nil, ← hbytes] at hrun hplayed
    refine ⟨t, hrun, ?_⟩
    simpa [pollEvents] using hplayed.processed

end Bridge

/-! ### `initiate_all` on clean transports, one probe -/

section Initiate
variable {c : Config} {a : BitVec 2} {i : Fin 16} {p : Probe} {rest : List Answer} {x : InitScript}

theorem setPhase_serves (phase : ProbePhase) {as : List Answer} :
    (setPhase i phase).Serves c a i p as () { p with phase := phase } as [] :=
  Op.serves_modify _

/-- Step 1: the chip reset, for the leaders alone (spec/44_probe_manager.md R166). -/
theorem chipReset_serves (hleg : c.legal = true) (hx : x.Clean c i) :
    (resetAndConfigure (some i) (probeGroup i) (isLeader i)).Serves c a i p
      ((if i = 0 ∨ i = 8 then x.chipAnswers else []) ++ rest) () p rest
      (if i = 0 ∨ i = 8 then x.chipEvents c (probeGroup i) else []) := by
  have hleader : isLeader i = decide (i = 0 ∨ i = 8) := by simp [isLeader, BEq.beq]
  rw [hleader]
  by_cases hi : i = 0 ∨ i = 8
  · simp only [hi, decide_true, if_true]
    exact resetAndConfigure_serves hleg hx
  · simp only [hi, decide_false, if_false]
    exact Op.serves_pure ()

/-- Step 3: a ROM that is not known is read (spec/44_probe_manager.md R166, R168). -/
theorem identifyProbe_serves (hleg : c.legal = true) (hx : x.Clean c i) :
    (identifyProbe i).Serves c a i p ((if p.romKnown then [] else x.romAnswers) ++ rest) ()
      { p with rom := if p.romKnown then p.rom else x.rom, romKnown := true, phase := .romKnown } rest
      (if p.romKnown then [] else x.romEvents c (probeGroup i)) := by
  refine Op.serves_read p.romKnown (fun s _ _ hp => by rw [hp]) ?_
  cases hknown : p.romKnown with
  | true => exact (setPhase_serves .romKnown).congr rfl (by simp [hknown]) rfl
  | false =>
    exact (Op.serves_bind (Op.serves_attempt (readRom_serves hleg hx)) <|
      Op.serves_bind (Op.serves_modify _) (setPhase_serves _)).congr rfl rfl (by simp)

/-- Step 4: a probe that is not configured is configured at the active resolution (spec/44_probe_manager.md R166,
R167). -/
theorem configureStep_serves (hleg : c.legal = true) (hx : x.Clean c i) {r : Fin 4} (hr : r.val = a.toNat) :
    (configureStep i).Serves c a i p ((if p.configured then [] else x.configAnswers) ++ rest) ()
      { p with
        configured := true, resolutionBits := if p.configured then p.resolutionBits else 9 + a.toNat } rest
      (if p.configured then [] else x.configEvents c (probeGroup i) r) := by
  have hindex : resIndexOfBits (9 + a.toNat) = r := by
    apply Fin.ext
    simp only [resIndexOfBits, Fin.val_ofNat]
    omega
  refine Op.serves_read p.configured (fun s _ _ hp => by rw [hp]) ?_
  cases hdone : p.configured with
  | true => exact (Op.serves_pure ()).congr rfl (by simp [← hdone]) rfl
  | false =>
    refine Op.serves_read (9 + a.toNat) (fun s _ ha _ => by rw [State.activeBits, ha]) ?_
    exact (Op.serves_bind (Op.serves_attempt (configureProbe_serves hleg hindex hx)) (Op.serves_modify _)).congr
      rfl rfl (by simp)

/-- The fields of a probe that has been initiated cleanly (spec/44_probe_manager.md R166). -/
def Probe.initiated (p : Probe) (active : BitVec 2) (rom : Vector Byte 8) : Probe :=
  { p with
    lastError := .none
    errorOrigin := .none
    phase := .converting
    rom := if p.romKnown then p.rom else rom
    romKnown := true
    configured := true
    resolutionBits := if p.configured then p.resolutionBits else 9 + active.toNat }

/-- The steps of `initiate_all` for probe i on its clean script (spec/44_probe_manager.md R166). -/
theorem initiateSteps_serves (hleg : c.legal = true) (hx : x.Clean c i) {r : Fin 4} (hr : r.val = a.toNat) :
    (initiateSteps i).Serves c a i p (x.answers i p ++ rest) () (p.initiated a x.rom) rest (x.events c r i p) := by
  have ⟨_, hverify, _, _, _, _, _, _, _, htrigger, hclears, hpresence⟩ := hx
  unfold initiateSteps
  refine Op.Serves.congr (Op.serves_bind (Op.serves_modify _) <| Op.serves_bind (chipReset_serves hleg hx) <|
    Op.serves_bind (setPhase_serves _) <| Op.serves_read c (fun s hc _ _ => hc) <|
    Op.serves_bind (selectChannel_serves (select := x.select) hleg hverify) <| Op.serves_bind (setPhase_serves _) <|
    Op.serves_bind (identifyProbe_serves hleg hx) <| Op.serves_bind (configureStep_serves hleg hx hr) <|
    Op.serves_bind (setPhase_serves _) <|
    Op.serves_bind (triggerConversion_serves hleg htrigger hclears hpresence) (setPhase_serves _)) ?_ rfl ?_
  · simp only [InitScript.answers, List.append_assoc]
  · simp only [InitScript.events, busGroup_eq_probeGroup, List.append_assoc, List.nil_append, List.append_nil]

/-- Probe i in `initiate_all` on its clean script (spec/44_probe_manager.md R166). -/
theorem initiateProbe_processed (hleg : c.legal = true) (hx : x.Clean c i) {r : Fin 4} (hr : r.val = a.toNat) {s : State}
    (hcfg : s.cfg = c) (hactive : s.activeRes = a)
    (h : (s.transport (.grp (probeGroup i))).answers = x.answers i (s.probe i) ++ rest) :
    Processed i s (initiateProbe s i) ((s.probe i).initiated a x.rom) rest (x.events c r i (s.probe i)) := by
  obtain ⟨t, hrun, ht⟩ := initiateSteps_serves hleg hx hr s hcfg hactive rfl h
  rw [initiateProbe, hrun]
  exact ht

end Initiate

/-! ### `get_all` on clean transports, one probe -/

section Get
variable {c : Config} {a : BitVec 2} {i : Fin 16} {p : Probe} {rest : List Answer} {x : GetScript}

/-- The channel select and the retrieval for probe i (spec/44_probe_manager.md R169). -/
theorem fetchScratchpad_serves (hleg : c.legal = true) (hx : x.Retrieves c i) :
    (fetchScratchpad i).Serves c a i p (x.answers ++ rest) x.scratchpad p rest (x.events c i) := by
  unfold fetchScratchpad
  refine Op.Serves.congr (Op.serves_read c (fun s hc _ _ => hc) <|
    Op.serves_bind (selectChannel_serves (select := x.select) hleg hx.1) (retrieveScratchpad_serves hleg hx)) ?_ rfl ?_
  · simp only [GetScript.answers, List.append_assoc]
  · simp only [GetScript.events, busGroup_eq_probeGroup, List.append_assoc]

/-- The fields of a probe whose reading has been stored (spec/44_probe_manager.md R170). -/
def Probe.withReading (p : Probe) (v : Reading) : Probe :=
  { p with
    celsiusSign := v.cSign, celsiusWhole := v.cWhole, celsiusFractionTenths := v.cFrac.setWidth 8,
    fahrenheitSign := v.fSign, fahrenheitWhole := v.fWhole, fahrenheitFractionTenths := v.fFrac.setWidth 8,
    lastError := .none, errorOrigin := .none, phase := .readingReady }

/-- Drawing free Fahrenheit whole parts takes no answer and causes no event. -/
theorem processed_freeDraws (i : Fin 16) (s : State) (n : Nat) :
    Processed i s { s with env := { s.env with freeDraws := n } } (s.probe i)
      (s.transport (.grp (probeGroup i))).answers [] :=
  ⟨by simp [ProbeFrame, State.probe], rfl, rfl, (Trace.refl s).congr rfl rfl⟩

/-- The decode and the store of a scratchpad with the right echo and reserved bytes (spec/44_probe_manager.md R170). -/
theorem decodeStep_processed {sp : Vector Byte 9} {r : Fin 4} {s : State} (hr : s.activeIndex = r)
    (hecho : sp[4] = s.cfg.resCfg[r]) (hreserved : sp[5] = 0xFF ∧ sp[7] = 0x10) :
    ∃ v, IsReading s.cfg sp r v ∧
      Processed i s (decodeStep i sp s) ((s.probe i).withReading v) (s.transport (.grp (probeGroup i))).answers [] := by
  obtain ⟨h5, h7⟩ := hreserved
  rcases decodeScratchpad_cases (some i) sp r s with ⟨hne, -⟩ | ⟨-, hne, -⟩ | ⟨-, -, -, v, n, hrun, hv, -⟩
  · exact absurd hecho hne
  · exact absurd hne (by simp [h5, h7])
  · refine ⟨v, hv, ?_⟩
    rw [decodeStep, hr, hrun]
    exact (processed_freeDraws i s n).trans (processed_updateProbe i _ _)

/-- An eligible probe i in `get_all` on its clean script (spec/44_probe_manager.md R169, R170). -/
theorem getProbe_processed (hleg : c.legal = true) {r : Fin 4} (hr : r.val = a.toNat) (hx : x.Clean c i r) {s : State}
    (hcfg : s.cfg = c) (hactive : s.activeRes = a) (heligible : (s.probe i).eligible = true)
    (h : (s.transport (.grp (probeGroup i))).answers = x.answers ++ rest) :
    ∃ v, IsReading c x.scratchpad r v ∧
      Processed i s (getProbe s i).1 ((s.probe i).withReading v) rest (x.events c i) := by
  obtain ⟨hretrieves, hecho, hreserved⟩ := hx
  obtain ⟨t, hrun, ht⟩ := fetchScratchpad_serves hleg hretrieves s hcfg hactive rfl h
  have hcfg' : t.cfg = c := ht.frame.cfg.trans hcfg
  have hindex : t.activeIndex = r :=
    Fin.ext (by rw [activeIndex_val, ht.frame.activeRes, hactive, hr])
  obtain ⟨v, hv, hdecode⟩ := decodeStep_processed (i := i) hindex (by rw [hcfg']; exact hecho) hreserved
  rw [hcfg'] at hv
  rw [ht.probe, ht.answers] at hdecode
  refine ⟨v, hv, ?_⟩
  simp only [getProbe, if_pos heligible, hrun]
  simpa using ht.trans hdecode

/-- What `get_all` on clean transports makes of a probe with the fields `p`: untouched when it is not eligible, else
holding a reading of its script's scratchpad (spec/44_probe_manager.md R169, R170). -/
def GotCleanly (c : Config) (r : Fin 4) (x : GetScript) (p q : Probe) : Prop :=
  (p.eligible = false → q = p) ∧
  (p.eligible = true → ∃ v, IsReading c x.scratchpad r v ∧ q = p.withReading v)

/-- Exactly the skipped probes still have their error. -/
theorem GotCleanly.lastError {r : Fin 4} {q : Probe} (h : GotCleanly c r x p q) :
    decide (q.lastError ≠ .none) = !p.eligible := by
  cases he : p.eligible with
  | true =>
    obtain ⟨v, -, rfl⟩ := h.2 he
    rfl
  | false =>
    have hnot : ¬ (p.lastError = .none ∨ p.errorOrigin = .get) := by rw [← Probe.eligible_iff, he]; simp
    rw [h.1 he]
    simpa using (not_or.mp hnot).1

/-- Probe i in `get_all`, on its clean script when it is eligible and on none when it is not. -/
theorem getProbe_cleanly (hleg : c.legal = true) {r : Fin 4} (hr : r.val = a.toNat)
    (hx : p.eligible = true → x.Clean c i r) {s : State} (hcfg : s.cfg = c) (hactive : s.activeRes = a)
    (hp : s.probe i = p)
    (h : (s.transport (.grp (probeGroup i))).answers = (if p.eligible then x.answers else []) ++ rest) :
    ∃ q, GotCleanly c r x p q ∧
      Processed i s (getProbe s i).1 q rest (if p.eligible then x.events c i else []) := by
  subst hp
  cases he : (s.probe i).eligible with
  | true =>
    rw [he, if_pos rfl] at h
    obtain ⟨v, hv, hprocessed⟩ := getProbe_processed hleg hr (hx he) hcfg hactive he h
    exact ⟨_, ⟨fun hnot => by simp [he] at hnot, fun _ => ⟨v, hv, rfl⟩⟩, hprocessed⟩
  | false =>
    rw [he, if_neg Bool.false_ne_true, List.nil_append] at h
    have hskip : getProbe s i = (s, false) := by
      simp only [getProbe, he, Bool.false_eq_true, if_false]
    refine ⟨s.probe i, ⟨fun _ => rfl, fun hel => by simp [he] at hel⟩, ?_⟩
    rw [hskip, ← h]
    exact processed_refl i s

end Get

/-! ### One probe after the other -/

/-- Processing a probe leaves the transport of the other group (spec/44_probe_manager.md R172). -/
theorem ProbeFrame.transport_ne {i : Fin 16} {s t : State} (h : ProbeFrame i s t) {g : Group} (hg : g ≠ probeGroup i) :
    t.transport (.grp g) = s.transport (.grp g) := by
  rw [State.transport, h]
  exact Transports.get_set_ne _ _ fun e => hg (TransportId.grp.inj e)

/-- The probes `is`, processed in order from `s` to `t`: each has ended with fields that `Q` admits, the others are
untouched, the listed answers of each group are down to `rest`, and the port events are `l`. -/
structure CycleProcessed (is : List (Fin 16)) (s t : State) (Q : Fin 16 → Probe → Prop) (rest : Group → List Answer)
    (l : List Event) : Prop where
  processed : ∀ i ∈ is, Q i (t.probe i)
  untouched : ∀ i, i ∉ is → t.probe i = s.probe i
  answers : ∀ g, (t.transport (.grp g)).answers = rest g
  trace : Trace s t l

/-- The end of a cycle command leaves the probes, the transports and the events (spec/60_exceptions.md R203). -/
theorem CycleProcessed.endCycle {is : List (Fin 16)} {s t : State} {Q : Fin 16 → Probe → Prop}
    {rest : Group → List Answer} {l : List Event} (h : CycleProcessed is s t Q rest l) :
    CycleProcessed is s (endCycle t) Q rest l :=
  ⟨h.processed, h.untouched, h.answers, h.trace.congr rfl rfl⟩

/-- When each probe i of `p` is processed on the answers `A i` with the events `E i`, a cycle over distinct probes is, on
the answers of each group's probes in order, with the events of all of them in order (spec/44_probe_manager.md R165). -/
theorem foldl_cycleProcessed {c : Config} {a : BitVec 2} {p : Fin 16 → Probe} {f : State → Fin 16 → State}
    {A : Fin 16 → List Answer} {E : Fin 16 → List Event} {Q : Fin 16 → Probe → Prop}
    (hf : ∀ i s rest, s.cfg = c → s.activeRes = a → s.probe i = p i →
      (s.transport (.grp (probeGroup i))).answers = A i ++ rest → ∃ q, Q i q ∧ Processed i s (f s i) q rest (E i))
    (is : List (Fin 16)) (hdistinct : is.Nodup) (rest : Group → List Answer) (s : State) (hcfg : s.cfg = c)
    (hactive : s.activeRes = a) (hp : ∀ i ∈ is, s.probe i = p i)
    (h : ∀ g, (s.transport (.grp g)).answers = (is.filter fun i => probeGroup i = g).flatMap A ++ rest g) :
    CycleProcessed is s (is.foldl f s) Q rest (is.flatMap E) := by
  induction is generalizing s with
  | nil => exact ⟨nofun, fun _ _ => rfl, h, Trace.refl s⟩
  | cons j js ih =>
    obtain ⟨hj, hjs⟩ := List.nodup_cons.mp hdistinct
    obtain ⟨q, hq, ht⟩ := hf j s ((js.filter fun i => probeGroup i = probeGroup j).flatMap A ++ rest (probeGroup j))
      hcfg hactive (hp j List.mem_cons_self) (by simp [h])
    have hne : ∀ {i}, i ∈ js → i ≠ j := fun hi e => hj (e ▸ hi)
    have hothers : ∀ g, ((f s j).transport (.grp g)).answers =
        (js.filter fun i => probeGroup i = g).flatMap A ++ rest g := fun g => by
      by_cases hg : g = probeGroup j
      · rw [hg, ht.answers]
      · rw [ht.frame.transport_ne hg, h g, List.filter_cons_of_neg (by simpa using Ne.symm hg)]
    obtain ⟨hprocessed, huntouched, hanswers, htrace⟩ := ih hjs (f s j) (ht.frame.cfg.trans hcfg)
      (ht.frame.activeRes.trans hactive)
      (fun i hi => (ht.frame.probe_ne (hne hi)).trans (hp i (List.mem_cons_of_mem _ hi))) hothers
    refine ⟨fun i hi => ?_, fun i hi => ?_, hanswers, ht.trace.append htrace⟩
    · rcases List.mem_cons.mp hi with rfl | hi
      · rw [List.foldl_cons, huntouched i hj, ht.probe]
        exact hq
      · exact hprocessed i hi
    · obtain ⟨hij, hijs⟩ := not_or.mp (List.mem_cons.not.mp hi)
      rw [List.foldl_cons, huntouched i hijs, ht.frame.probe_ne hij]

/-- The probes of a group are those that its transport serves (spec/30_encoding.md R84). -/
theorem groupProbes_eq_filter (g : Group) : groupProbes g = (List.finRange 16).filter fun i => probeGroup i = g := by
  cases g <;> decide

theorem probeIndices_eq_finRange : probeIndices = List.finRange 16 := by decide

/-- `foldl_cycleProcessed` for the cycle over all probes (spec/44_probe_manager.md R165). -/
theorem foldl_probeIndices_cycleProcessed {f : State → Fin 16 → State} {A : Fin 16 → List Answer}
    {E : Fin 16 → List Event} {Q : Fin 16 → Probe → Prop} {s : State}
    (hf : ∀ i u rest, u.cfg = s.cfg → u.activeRes = s.activeRes → u.probe i = s.probe i →
      (u.transport (.grp (probeGroup i))).answers = A i ++ rest → ∃ q, Q i q ∧ Processed i u (f u i) q rest (E i))
    {rest : Group → List Answer} (h : ∀ g, Answers s g ((groupProbes g).flatMap A) (rest g)) :
    CycleProcessed (List.finRange 16) s (probeIndices.foldl f s) Q rest ((List.finRange 16).flatMap E) := by
  rw [probeIndices_eq_finRange]
  refine foldl_cycleProcessed hf _ (List.nodup_finRange 16) rest s rfl rfl (fun _ _ => rfl) fun g => ?_
  rw [← groupProbes_eq_filter]
  exact h g

/-! ### The cycle commands -/

/-- The mask of errored probes is 0 when no probe is errored (spec/44_probe_manager.md R165). -/
theorem errorMask_eq_zero {s : State} (h : ∀ i, (s.probe i).lastError = .none) : errorMask s = 0 := by
  apply BitVec.eq_of_getLsbD_eq
  intro k hk
  have hbit := errorMask_getLsbD s ⟨k, hk⟩
  simp only [h, ne_eq, not_true_eq_false, decide_false] at hbit
  exact hbit.trans BitVec.getLsbD_zero.symm

/-- Settles O46: each probe's part of `initiate_all` plays its own script (`initiateProbe_processed`), one after the
other. -/
theorem initiateAllClean : Obligations.InitiateAllClean := by
  intro s x r rest hleg hr hx h
  have hcycle := foldl_probeIndices_cycleProcessed (f := initiateProbe)
    (E := fun i => (x i).events s.cfg r i (s.probe i))
    (Q := fun i q => q = (s.probe i).initiated s.activeRes (x i).rom)
    (fun i u rest hcfg hactive hp has =>
      ⟨_, rfl, hp ▸ initiateProbe_processed hleg (hx i) hr hcfg hactive (hp ▸ has)⟩) h
  have hfields := fun i => hcycle.processed i (List.mem_finRange i)
  have hmask : errorMask (probeIndices.foldl initiateProbe s) = 0 := errorMask_eq_zero fun i => by rw [hfields i]; rfl
  have hres : (endCycle (probeIndices.foldl initiateProbe s)).res = okResult s.res.value := by
    rw [(initiateAll_frame s).endCycle, hmask]
    rfl
  obtain ⟨hprocessed, -, hanswers, htrace⟩ := hcycle.endCycle
  exact ⟨endCycle (probeIndices.foldl initiateProbe s), rfl, hres, rfl, htrace, hanswers,
    fun i => hprocessed i (List.mem_finRange i)⟩

/-- Settles O49: each eligible probe's part of `get_all` plays its own script (`getProbe_cleanly`), one after the other;
the others have none. -/
theorem getAllClean : Obligations.GetAllClean := by
  intro s x eligible r rest hleg hmode hr heligible hx h
  obtain rfl : eligible = fun i => (s.probe i).eligible := funext heligible
  have hcycle := foldl_probeIndices_cycleProcessed (f := fun s i => (getProbe s i).1)
    (E := fun i => if (s.probe i).eligible then (x i).events s.cfg i else [])
    (Q := fun i q => GotCleanly s.cfg r (x i) (s.probe i) q)
    (fun i _ _ hcfg hactive hp has => getProbe_cleanly hleg hr (hx i) hcfg hactive hp has) h
  rw [← getProbes_eq_foldl] at hcycle
  obtain ⟨hprocessed, -, hanswers, htrace⟩ := hcycle.endCycle
  have hfields := fun i => hprocessed i (List.mem_finRange i)
  refine ⟨endCycle (getProbes s probeIndices).1, exec_pmGetAll hmode, rfl, ?_, fun i => ?_, htrace, hanswers,
    fun i => (hfields i).1, fun i he => ?_⟩
  · rw [(getAll_frame s).endCycle]
  · rw [endCycle_extra, (hfields i).lastError]
  · obtain ⟨v, ⟨hcelsius, hsign, hfrac, hwhole⟩, hq⟩ := (hfields i).2 he
    refine ⟨v.fWhole, _, _, hcelsius, rfl, hwhole, ?_⟩
    rw [hq, Probe.withReading, hsign, hfrac]

end Sys2Proof.Machine

/-! PROOFS. The bridge primitives on listed answers (spec/40_bridge.md R100 to R105). -/

namespace Sys2Proof.Machine

/-! ### How a primitive ends -/

section Ending
variable {g : Group} {s t : State} {bf : Vector Byte 9} {b : Bridge} {rest : List Answer} {l : List Event}

/-- An operation that comes to a status or data read fails there when the transport does (spec/60_exceptions.md
R202). -/
theorem Played.read_fails {α : Type} {ctx : Option (Fin 16)} {x : Op α} {k : Byte → Op α} {loc code : Half}
    (h : Played g s t bf b (.err code :: rest) l) (hrun : x.run s = (bridgeRead ctx g loc >>= k).run t) :
    ∃ u, x.run s = (.error ⟨.transportFailure, loc, code⟩, u) ∧
      Played g s u bf b rest (l ++ [.transact (.grp g) (s.cfg.brAddrOf g) [] 1 (.err code),
        failureRecord ctx .transportFailure loc code]) := by
  obtain ⟨u, hread, hplayed⟩ := bridgeRead_err ctx g loc t code h.answers
  have hall := h.trans hplayed
  rw [h.buf, h.bridge, h.cfg] at hall
  exact ⟨u, hrun.trans (Op.run_bind_error hread), hall⟩

/-- An operation that comes to a failure fails with it and with its record (spec/60_exceptions.md R205). -/
theorem Played.raises {α : Type} {ctx : Option (Fin 16)} {x : Op α} {kind : ErrorKind} {loc extra : Half}
    (h : Played g s t bf b rest l) (hrun : x.run s = (raise ctx kind loc extra : Op α).run t) :
    ∃ u, x.run s = (.error ⟨kind, loc, extra⟩, u) ∧
      Played g s u bf b rest (l ++ [failureRecord ctx kind loc extra]) := by
  have hall := h.trans (played_report g t ctx kind loc extra h.answers)
  rw [h.buf, h.bridge] at hall
  exact ⟨_, hrun, hall⟩

/-- A bridge command whose operation succeeds exactly under a condition (spec/60_exceptions.md R203). -/
theorem Played.runCommand_ite {c : Prop} [Decidable c] {x : Op Unit} {f : Failure} (h : Played g s t bf b rest l)
    (hrun : x.run s = if c then (.ok (), t) else (.error f, t)) :
    BridgeEnds g s (runCommand x s)
      (if c then okResult s.res.value else errResult f.kind f.loc f.extra s.res.value) bf b rest ∧
      Trace s (runCommand x s) l := by
  by_cases hc : c
  · rw [if_pos hc] at hrun ⊢
    exact h.runCommand_ok hrun
  · rw [if_neg hc] at hrun ⊢
    exact h.runCommand_error hrun

/-- A bridge command that puts the byte of its operation in RES_VALUE (spec/40_bridge.md R103). -/
theorem Played.runCommand_setResValue {x : Op Byte} {v : Byte} (h : Played g s t bf b rest l)
    (hrun : x.run s = (.ok v, t)) :
    BridgeEnds g s (runCommand (x >>= fun v => Op.modify fun s => s.setResValue v) s) (okResult v) bf b rest ∧
      Trace s (runCommand (x >>= fun v => Op.modify fun s => s.setResValue v) s) l := by
  have hcommand : runCommand (x >>= fun v => Op.modify fun s => s.setResValue v) s =
      endCommand (.ok 0) (t.setResValue v) := by
    rw [runCommand, Op.run_bind_ok hrun, Op.run_modify]
  rw [hcommand]
  obtain ⟨hstate, htrace⟩ := h
  refine ⟨?_, htrace.congr rfl rfl⟩
  generalize t.env.events = evs at hstate
  subst hstate
  rfl

end Ending

/-! ### BR_SEND -/

section Send
variable (ctx : Option (Fin 16)) (g : Group) (s : State) (cmd1 cmd2 : Byte)

/-- A poll that reads busy clear ends a polled command with success, unless it is a 1-Wire reset without presence
(spec/40_bridge.md R100 step 3). -/
theorem sendCommand_clears (himm : s.cfg.immediate cmd1 = false) (p : PollScript) (hclears : p.Clears s.cfg)
    (hpresence : cmd1 = s.cfg.cmd1wReset → s.cfg.presence p.last.1 = true) {rest : List Answer}
    (h : (s.transport (.grp g)).answers = p.answers ++ rest) :
    ∃ t, (sendCommand ctx g cmd1 cmd2).run s = (.ok (), t) ∧
      Played g s t s.buf ⟨p.last.1, p.polls⟩ rest (p.events s.cfg g (commandBytes cmd1 cmd2)) := by
  have hpresent : (cmd1 == s.cfg.cmd1wReset && !s.cfg.presence p.last.1) = false := by
    simpa using hpresence
  obtain ⟨t, hrun, hplayed⟩ := sendCommand_script ctx g cmd1 cmd2 s himm p hclears h
  simp only [hpresent, Bool.false_eq_true, if_false, List.append_nil] at hrun hplayed
  exact ⟨t, hrun, hplayed⟩

/-- A 1-Wire reset whose poll reads busy clear and presence clear (spec/40_bridge.md R100 step 3). -/
theorem sendCommand_noPresence (himm : s.cfg.immediate s.cfg.cmd1wReset = false) (p : PollScript)
    (hclears : p.Clears s.cfg) (hpresence : s.cfg.presence p.last.1 = false) {rest : List Answer}
    (h : (s.transport (.grp g)).answers = p.answers ++ rest) :
    ∃ t, (sendCommand ctx g s.cfg.cmd1wReset cmd2).run s =
        (.error ⟨.noPresencePulse, 0x1003, zext16 p.last.1⟩, t) ∧
      Played g s t s.buf ⟨p.last.1, p.polls⟩ rest (p.events s.cfg g (commandBytes s.cfg.cmd1wReset cmd2) ++
        [failureRecord ctx .noPresencePulse 0x1003 (zext16 p.last.1)]) := by
  obtain ⟨t, hrun, hplayed⟩ := sendCommand_script ctx g s.cfg.cmd1wReset cmd2 s himm p hclears h
  simp only [hpresence, BEq.rfl, Bool.not_false, Bool.and_self, if_true] at hrun hplayed
  exact ⟨t, hrun, hplayed⟩

/-- A polled command whose every poll reads busy set (spec/40_bridge.md R100 step 4). -/
theorem sendCommand_busyTimeout (himm : s.cfg.immediate cmd1 = false) (a last : Byte × Byte)
    (busy : List (Byte × Byte)) (hlength : busy.length = 599)
    (hbusy : ∀ b ∈ busy ++ [last], s.cfg.busy b.1 = true) {rest : List Answer}
    (h : (s.transport (.grp g)).answers = okAnswers (a :: busy ++ [last]) ++ rest) :
    ∃ t, (sendCommand ctx g cmd1 cmd2).run s = (.error ⟨.busyTimeout, 0x1004, zext16 last.1⟩, t) ∧
      Played g s t s.buf ⟨last.1, 600⟩ rest
        (writeEvent s.cfg g (commandBytes cmd1 cmd2) a :: busyEvents s.cfg g (busy ++ [last]) ++
          [failureRecord ctx .busyTimeout 0x1004 (zext16 last.1)]) := by
  have hpolls : (busy ++ [last]).length = 600 := by simp [hlength]
  obtain ⟨t, hrun, hplayed⟩ := sendCommand_polled ctx g cmd1 cmd2 s himm a (busy ++ [last]) 0
    (by rw [hpolls]; rfl) h hbusy
  simp only [hpolls, List.map_append, List.map_cons, List.map_nil, List.getLast?_concat, Option.getD_some]
    at hrun hplayed
  refine hplayed.raises ?_
  rw [hrun, pollLoop, Op.run_read_bind, hplayed.bridge]
  rfl

/-- A transport error at the command write (spec/40_bridge.md R100 step 1). -/
theorem sendCommand_writeFails (code : Half) {rest : List Answer}
    (h : (s.transport (.grp g)).answers = .err code :: rest) :
    ∃ t, (sendCommand ctx g cmd1 cmd2).run s = (.error ⟨.transportFailure, 0x1001, code⟩, t) ∧
      Played g s t s.buf (s.bridge g) rest
        [.transact (.grp g) (s.cfg.brAddrOf g) (commandBytes cmd1 cmd2) 0 (.err code),
          failureRecord ctx .transportFailure 0x1001 code] := by
  obtain ⟨t, hwrite, hplayed⟩ := bridgeWrite_err ctx g 0x1001 s (commandBytes cmd1 cmd2) code h
  exact ⟨t, Op.run_bind_error hwrite, hplayed⟩

/-- A transport error at a poll read, after some busy polls: it is not counted as a poll
(spec/40_bridge.md R100 step 2). -/
theorem sendCommand_pollFails (himm : s.cfg.immediate cmd1 = false) (a : Byte × Byte) (busy : List (Byte × Byte))
    (hlength : busy.length < 600) (hbusy : ∀ b ∈ busy, s.cfg.busy b.1 = true) (code : Half) {rest : List Answer}
    (h : (s.transport (.grp g)).answers = okAnswers (a :: busy) ++ (.err code :: rest)) :
    ∃ t, (sendCommand ctx g cmd1 cmd2).run s = (.error ⟨.transportFailure, 0x1002, code⟩, t) ∧
      Played g s t s.buf ⟨(busy.map Prod.fst).getLast?.getD (s.bridge g).status, busy.length⟩ rest
        (writeEvent s.cfg g (commandBytes cmd1 cmd2) a :: busyEvents s.cfg g busy ++
          [.transact (.grp g) (s.cfg.brAddrOf g) [] 1 (.err code),
            failureRecord ctx .transportFailure 0x1002 code]) := by
  obtain ⟨left, hleft⟩ : ∃ left, left + 1 + busy.length = Config.busyPollLimit :=
    ⟨599 - busy.length, by rw [Config.busyPollLimit]; omega⟩
  obtain ⟨t, hrun, hplayed⟩ := sendCommand_polled ctx g cmd1 cmd2 s himm a busy (left + 1) hleft h hbusy
  exact hplayed.read_fails hrun

end Send

/-- Settles O20: busy clears within the limit, with presence if the command is the 1-Wire reset
(`sendCommand_clears`). -/
theorem brSendPolledSucceeds : Obligations.BrSendPolledSucceeds := by
  intro s g c1 c2 p rest himm hclears hpresence h
  obtain ⟨t, hrun, hplayed⟩ := sendCommand_clears none g s c1 c2 himm p hclears hpresence h
  exact ⟨_, rfl, hplayed.runCommand_ok hrun⟩

/-- Settles O21: busy clears without presence (`sendCommand_noPresence`). -/
theorem brSendResetWithoutPresence : Obligations.BrSendResetWithoutPresence := by
  intro s g c2 p rest himm hclears hpresence h
  obtain ⟨t, hrun, hplayed⟩ := sendCommand_noPresence none g s c2 himm p hclears hpresence h
  exact ⟨_, rfl, hplayed.runCommand_error hrun⟩

/-- Settles O22: all 600 polls are busy, so that none is left (`sendCommand_busyTimeout`). -/
theorem brSendBusyTimeout : Obligations.BrSendBusyTimeout := by
  intro s g c1 c2 a last busy rest himm hlength hbusy h
  obtain ⟨t, hrun, hplayed⟩ := sendCommand_busyTimeout none g s c1 c2 himm a last busy hlength hbusy h
  exact ⟨_, rfl, hplayed.runCommand_error hrun⟩

/-- Settles O23: the write fails (`sendCommand_writeFails`), or a poll does (`sendCommand_pollFails`). -/
theorem brSendTransportFailure : Obligations.BrSendTransportFailure := by
  intro s g c1 c2 code rest
  constructor
  · intro h
    obtain ⟨t, hrun, hplayed⟩ := sendCommand_writeFails none g s c1 c2 code h
    exact ⟨_, rfl, hplayed.runCommand_error hrun⟩
  · intro a busy himm hlength hbusy h
    obtain ⟨t, hrun, hplayed⟩ := sendCommand_pollFails none g s c1 c2 himm a busy hlength hbusy code
      (rest := rest) (by rw [h, List.append_assoc]; rfl)
    exact ⟨_, rfl, hplayed.runCommand_error hrun⟩

/-! ### BR_1W_RESET, BR_WRITE_BYTE and BR_READ_BYTE -/

section Bytes
variable (ctx : Option (Fin 16)) (g : Group) (s : State)

/-- `one_wire_reset` without presence (spec/40_bridge.md R101). -/
theorem oneWireReset_noPresence (hlegal : s.cfg.legal = true) (p : PollScript) (hclears : p.Clears s.cfg)
    (hpresence : s.cfg.presence p.last.1 = false) {rest : List Answer}
    (h : (s.transport (.grp g)).answers = p.answers ++ rest) :
    ∃ t, (oneWireReset ctx g).run s = (.error ⟨.noPresencePulse, 0x1003, zext16 p.last.1⟩, t) ∧
      Played g s t s.buf ⟨p.last.1, p.polls⟩ rest (p.events s.cfg g [s.cfg.cmd1wReset] ++
        [failureRecord ctx .noPresencePulse 0x1003 (zext16 p.last.1)]) := by
  obtain ⟨⟨himm, -⟩, -⟩ := legal_commands hlegal
  exact sendCommand_noPresence ctx g s 0 himm p hclears hpresence h

/-- `read_byte` up to its data read: the read command is polled, then the read pointer is set
(spec/40_bridge.md R103). -/
theorem readByte_pointed (hlegal : s.cfg.legal = true) (p : PollScript) (hclears : p.Clears s.cfg) (a : Byte × Byte)
    {rest : List Answer} (h : (s.transport (.grp g)).answers = p.answers ++ (okAnswers [a] ++ rest)) :
    ∃ t, (readByte ctx g).run s = (bridgeRead ctx g 0x1503).run t ∧
      Played g s t s.buf ⟨p.last.1, p.polls⟩ rest (p.events s.cfg g [s.cfg.cmd1wReadByte] ++
        [writeEvent s.cfg g [s.cfg.cmdSetReadPtr, s.cfg.ptrData] a]) := by
  obtain ⟨⟨-, -, himm, -⟩, ⟨-, hne, -⟩, hptr, -⟩ := legal_commands hlegal
  obtain ⟨t, hsend, ht⟩ := sendCommand_clears ctx g s s.cfg.cmd1wReadByte 0 himm p hclears (fun e => absurd e hne) h
  obtain ⟨u, hpoint, hu⟩ := sendCommand_immediate ctx g s.cfg.cmdSetReadPtr s.cfg.ptrData t
    (by simp [Config.immediate, ht.cfg]) a ht.answers
  have hall := ht.trans hu
  have hbytes : commandBytes s.cfg.cmdSetReadPtr s.cfg.ptrData = [s.cfg.cmdSetReadPtr, s.cfg.ptrData] := if_neg hptr
  rw [ht.buf, ht.bridge, ht.cfg, hbytes] at hall
  refine ⟨u, ?_, hall⟩
  rw [readByte, Op.run_read_bind, Op.run_bind_ok hsend, Op.run_bind_ok hpoint]
  rfl

end Bytes

/-- Settles O24: each is a polled `send_command`, the reset with the presence test. -/
theorem resetAndWriteByteSucceed : Obligations.ResetAndWriteByteSucceed := by
  intro s g p rest hlegal hclears h
  refine ⟨fun hpresence => ?_, fun hpresence => ?_, fun b => ?_⟩
  · obtain ⟨t, hrun, hplayed⟩ := oneWireReset_script none g s hlegal p ⟨hclears, hpresence⟩ h
    exact ⟨_, rfl, hplayed.runCommand_ok hrun⟩
  · obtain ⟨t, hrun, hplayed⟩ := oneWireReset_noPresence none g s hlegal p hclears hpresence h
    exact ⟨_, rfl, hplayed.runCommand_error hrun⟩
  · obtain ⟨t, hrun, hplayed⟩ := writeByte_script none g s hlegal b p hclears h
    exact ⟨_, rfl, hplayed.runCommand_ok hrun⟩

/-- Settles O25: after the read pointer is set the data read delivers the byte or fails (`readByte_pointed`). -/
theorem readByteDelivers : Obligations.ReadByteDelivers := by
  intro s g p a d rest hlegal hclears h
  obtain ⟨t, hrun, hplayed⟩ := readByte_pointed none g s hlegal p hclears a (rest := d :: rest)
    (by rw [h, List.append_assoc, List.append_assoc]; rfl)
  refine ⟨_, rfl, fun b b' hd => ?_, fun code hd => ?_⟩
  · subst hd
    obtain ⟨u, hread, hplayed'⟩ := bridgeRead_ok none g 0x1503 t (b, b') hplayed.answers
    have hall := hplayed.trans hplayed'
    rw [hplayed.buf, hplayed.bridge, hplayed.cfg, List.append_assoc] at hall
    exact hall.runCommand_setResValue (hrun.trans hread)
  · subst hd
    have hcommand : (readByte none g >>= fun b => Op.modify fun s => s.setResValue b).run s =
        (bridgeRead none g 0x1503 >>= fun b => Op.modify fun s => s.setResValue b).run t := by
      rw [Op.run_bind, hrun, ← Op.run_bind]
    obtain ⟨u, hfail, hall⟩ := hplayed.read_fails hcommand
    rw [List.append_assoc] at hall
    exact hall.runCommand_error hfail

/-! ### BR_SELECT and BR_RESET_CFG -/

/-- The low nibbles agree (spec/30_encoding.md R83). -/
theorem sameNibble_iff (c : Config) (rb : Byte) :
    c.sameNibble rb = true ↔ rb.extractLsb' 0 4 = c.brConfig.extractLsb' 0 4 := by
  have hnibble : ∀ x : Byte, (x &&& 0x0F).toNat = (x.extractLsb' 0 4).toNat := fun x => by
    rw [BitVec.toNat_and, BitVec.extractLsb'_toNat]
    exact Nat.and_two_pow_sub_one_eq_mod x.toNat 4
  rw [Config.sameNibble, beq_iff_eq, ← BitVec.toNat_inj, ← BitVec.toNat_inj, hnibble, hnibble]

section Verified
variable (ctx : Option (Fin 16)) (g : Group) (s : State)

/-- `select_channel` whose read-back fails (spec/40_bridge.md R104). -/
theorem selectChannel_readFails (w v : Byte) (a : Byte × Byte) (code : Half) {rest : List Answer}
    (h : (s.transport (.grp g)).answers = okAnswers [a] ++ (.err code :: rest)) :
    ∃ t, (selectChannel ctx g w v).run s = (.error ⟨.transportFailure, 0x1202, code⟩, t) ∧
      Played g s t s.buf (s.bridge g) rest
        [writeEvent s.cfg g (commandBytes s.cfg.cmdChannelSelect w) a,
          .transact (.grp g) (s.cfg.brAddrOf g) [] 1 (.err code), failureRecord ctx .transportFailure 0x1202 code] := by
  obtain ⟨t, hsend, hplayed⟩ := sendCommand_immediate ctx g s.cfg.cmdChannelSelect w s (by simp [Config.immediate]) a h
  exact hplayed.read_fails (by rw [selectChannel, Op.run_read_bind, Op.run_bind_ok hsend]; rfl)

/-- `reset_and_configure` with force whose read-back fails (spec/40_bridge.md R105). -/
theorem resetAndConfigure_readFails (hlegal : s.cfg.legal = true) (p : PollScript) (hclears : p.Clears s.cfg)
    (a : Byte × Byte) (code : Half) {rest : List Answer}
    (h : (s.transport (.grp g)).answers = p.answers ++ (okAnswers [a] ++ (.err code :: rest))) :
    ∃ t, (resetAndConfigure ctx g true).run s = (.error ⟨.transportFailure, 0x1103, code⟩, t) ∧
      Played g s t s.buf ⟨p.last.1, p.polls⟩ rest
        (p.events s.cfg g [s.cfg.cmdDeviceReset] ++
          [writeEvent s.cfg g [s.cfg.cmdWriteConfig, s.cfg.brConfig] a] ++
          [.transact (.grp g) (s.cfg.brAddrOf g) [] 1 (.err code),
            failureRecord ctx .transportFailure 0x1103 code]) := by
  obtain ⟨⟨-, -, -, himm⟩, ⟨-, -, hne⟩, -, hcfg, -⟩ := legal_commands hlegal
  obtain ⟨t, hreset, ht⟩ := sendCommand_clears ctx g s s.cfg.cmdDeviceReset 0 himm p hclears (fun e => absurd e hne) h
  obtain ⟨u, hwrite, hu⟩ := sendCommand_immediate ctx g s.cfg.cmdWriteConfig s.cfg.brConfig t
    (by simp [Config.immediate, ht.cfg]) a ht.answers
  have hall := ht.trans hu
  have hbytes : commandBytes s.cfg.cmdWriteConfig s.cfg.brConfig = [s.cfg.cmdWriteConfig, s.cfg.brConfig] :=
    if_neg hcfg
  rw [ht.buf, ht.bridge, ht.cfg, hbytes] at hall
  exact hall.read_fails (by
    rw [resetAndConfigure, if_pos rfl, Op.run_read_bind, Op.run_bind_ok hreset, Op.run_bind_ok hwrite]
    rfl)

end Verified

/-- Settles O26: the read-back decides (`selectChannel_script`), or fails (`selectChannel_readFails`). -/
theorem selectChannelVerifies : Obligations.SelectChannelVerifies := by
  rintro s g w v a rest sel rfl
  constructor
  · intro rb h
    obtain ⟨t, hrun, hplayed⟩ := selectChannel_script none g s w v a rb h
    exact ⟨_, rfl, hplayed.runCommand_ite hrun⟩
  · intro code h
    obtain ⟨t, hrun, hplayed⟩ := selectChannel_readFails none g s w v a code (rest := rest)
      (by rw [h, List.append_assoc]; rfl)
    exact ⟨_, rfl, hplayed.runCommand_error hrun⟩

/-- Settles O27: with force the read-back's low nibble decides (`resetAndConfigure_script`), or the read-back fails
(`resetAndConfigure_readFails`). -/
theorem resetAndConfigureVerifies : Obligations.ResetAndConfigureVerifies := by
  intro s g
  refine ⟨rfl, ?_⟩
  rintro p a rest sent hlegal hclears rfl
  constructor
  · intro rb h
    obtain ⟨t, hrun, hplayed⟩ := resetAndConfigure_script none g s hlegal p a rb hclears h
    simp only [sameNibble_iff] at hrun hplayed
    simp only [List.append_assoc, List.cons_append, List.nil_append] at hplayed ⊢
    exact ⟨_, rfl, hplayed.runCommand_ite hrun⟩
  · intro code h
    obtain ⟨t, hrun, hplayed⟩ := resetAndConfigure_readFails none g s hlegal p hclears a code (rest := rest)
      (by rw [h]; simp only [List.append_assoc]; rfl)
    exact ⟨_, rfl, hplayed.runCommand_error hrun⟩

end Sys2Proof.Machine

/-! PROOFS. What every bridge command leaves unchanged, whatever the transport answers (spec/40_bridge.md,
spec/41_bridge_sequences.md). -/

namespace Sys2Proof.Machine

/-- A legal bridge command runs an operation of bridge steps on its group, which writes RES_VALUE only in BR_READ_BYTE
(spec/40_bridge.md R103). -/
theorem exec_bridge_of_wf {g : Group} {i : Instr} (hi : IsBridgeCommand g i) (hwf : i.wf = true) (s : State) :
    ∃ x : Op Unit, exec i s = .next (runCommand x s) ∧ x.OfBridge g ∧
      (i ≠ .brReadByte g → x.Keeps (BridgeFrame g)) := by
  have of_steps : ∀ x : Op Unit, exec i s = .next (runCommand x s) →
      (∀ {R : State → State → Prop} {E : Failure → State → State → Prop}, BridgeSteps none g R E → x.Ends R E) →
      ∃ x : Op Unit, exec i s = .next (runCommand x s) ∧ x.OfBridge g ∧
        (i ≠ .brReadByte g → x.Keeps (BridgeFrame g)) :=
    fun x hexec hends => ⟨x, hexec, fun h _ => hends h, fun _ => (hends (bridgeFrame_steps none g)).keeps⟩
  rcases hi with ⟨a, b, rfl⟩ | ⟨f, rfl⟩ | ⟨w, v, rfl⟩ | rfl | ⟨b, rfl⟩ | rfl | rfl | ⟨b, rfl⟩ | rfl | rfl
  · exact of_steps _ rfl fun h => sendCommand_ends h a b
  · exact of_steps _ (ifLegal_of_wf hwf s _) fun h => resetAndConfigure_ends h _
  · exact of_steps _ rfl fun h => selectChannel_ends h w v
  · exact of_steps _ rfl fun h => oneWireReset_ends h
  · exact of_steps _ rfl fun h => writeByte_ends h b
  · refine ⟨_, rfl, fun h hvalue => ?_, fun hne => absurd rfl hne⟩
    exact Op.ends_bind h.toEndsCompose (readByte_ends h) fun b => Op.ends_modify fun s => hvalue s b
  · exact of_steps _ rfl fun h =>
      Op.ends_bind h.toEndsCompose (readRom_ends h) fun _ => Op.ends_pure h.toEndsCompose _
  · exact of_steps _ (ifLegal_of_wf hwf s _) fun h => configureProbe_ends h _
  · exact of_steps _ rfl fun h => triggerConversion_ends h
  · exact of_steps _ rfl fun h =>
      Op.ends_bind h.toEndsCompose (retrieveScratchpad_ends h) fun _ => Op.ends_pure h.toEndsCompose _

/-- The end of a command leaves RES_VALUE to the operation (spec/60_exceptions.md R203). -/
theorem runCommand_resValue (x : Op Unit) (s : State) : (runCommand x s).res.value = (x.run s).2.res.value := by
  rcases runCommand_cases x s with ⟨t, hrun, h⟩ | ⟨f, t, hrun, h⟩ <;> rw [h, hrun] <;> rfl

/-- A bridge command other than the two read sequences leaves BUF (spec/41_bridge_sequences.md R120, R124). -/
theorem bridge_buf {g : Group} {i : Instr} {s t : State} (hi : IsBridgeCommand g i) (hrom : i ≠ .brReadRom g)
    (hsp : i ≠ .brRetrieveSp g) (h : exec i s = .next t) : t.buf = s.buf := by
  refine (bridge_owned hi h).buf ?_ ?_ ?_ ?_ ?_
  · rintro k v rfl
    simp [IsBridgeCommand] at hi
  · rintro g' rfl
    obtain rfl : g' = g := by simpa [IsBridgeCommand] using hi
    exact hrom rfl
  · rintro g' rfl
    obtain rfl : g' = g := by simpa [IsBridgeCommand] using hi
    exact hsp rfl
  · rintro rfl
    simp [IsBridgeCommand] at hi
  · rintro rfl
    simp [IsBridgeCommand] at hi

/-- Settles O35: the operation of a bridge command keeps the frame of its group, and the end of the command writes the
result registers alone. -/
theorem bridgeCommandsChangeOnlyTheirGroup : Obligations.BridgeCommandsChangeOnlyTheirGroup := by
  intro g i s hi hwf
  obtain ⟨x, hexec, hsteps, hframe⟩ := exec_bridge_of_wf hi hwf s
  refine ⟨runCommand x s, hexec, runCommand_bridgeFrame hsteps s, fun hne => ?_, fun hrom hsp => ?_⟩
  · rw [runCommand_resValue, (hframe hne s).res]
  · exact bridge_buf hi hrom hsp hexec

end Sys2Proof.Machine

/-! PROOFS. The bridge sequences on listed answers (spec/41_bridge_sequences.md R120 to R124). -/

namespace Sys2Proof.Machine

/-! ### BR_TRIGGER_CONV -/

/-- Settles O32: the command ends with the write of the convert command (`triggerConversion_script`). -/
theorem triggerConversionSucceeds : Obligations.TriggerConversionSucceeds := by
  intro s g p q r rest hlegal hp hq hr h
  obtain ⟨t, hrun, hplayed⟩ := triggerConversion_script none g s hlegal p q r hp hq hr h
  exact ⟨_, rfl, hplayed.runCommand_ok hrun⟩

/-! ### BR_READ_ROM and BR_RETRIEVE_SP -/

/-- An operation whose value is dropped ends as it does (spec/00_scope.md R13). -/
theorem Op.run_drop_ite {α : Type} {c : Prop} [Decidable c] {x : Op α} {v : α} {f : Failure} {s t : State}
    (h : x.run s = if c then (.ok v, t) else (.error f, t)) :
    (x >>= fun _ => pure ()).run s = if c then (.ok (), t) else (.error f, t) := by
  by_cases hc : c
  · rw [if_pos hc] at h ⊢
    exact Op.run_bind_ok h
  · rw [if_neg hc] at h ⊢
    exact Op.run_bind_error h

/-- Settles O28: the eight bytes read fill BUF[0..7], and the CRC test on them decides (`readRom_script`). -/
theorem readRomFillsBuffer : Obligations.ReadRomFillsBuffer := by
  intro s g p q r0 r1 r2 r3 r4 r5 r6 r7 rest hlegal hp hq hr h c hc
  obtain ⟨t, hrun, hplayed⟩ := readRom_script none g s hlegal p q hp hq r0 r1 r2 r3 r4 r5 r6 r7 hr h c hc
  exact ⟨_, rfl, hplayed.runCommand_ite (Op.run_drop_ite hrun)⟩

/-- Settles O33: the nine bytes read fill BUF, and the CRC test on them decides (`retrieveScratchpad_script`). -/
theorem retrieveScratchpadFillsBuffer : Obligations.RetrieveScratchpadFillsBuffer := by
  intro s g p q q' r0 r1 r2 r3 r4 r5 r6 r7 r8 rest hlegal hp hshort hq hq' hr h c hc
  obtain ⟨t, hrun, hplayed⟩ := retrieveScratchpad_script none g s hlegal p q q' hp hshort hq hq' r0 r1 r2 r3 r4 r5 r6
    r7 r8 hr h c hc
  exact ⟨_, rfl, hplayed.runCommand_ite (Op.run_drop_ite hrun)⟩

section Short
variable (ctx : Option (Fin 16)) (g : Group) (s : State)

/-- `retrieve_scratchpad` whose reset meets no presence ends there: the short is not tested
(spec/41_bridge_sequences.md R124 step 1). -/
theorem retrieveScratchpad_noPresence (hlegal : s.cfg.legal = true) (p : PollScript) (hclears : p.Clears s.cfg)
    (hpresence : s.cfg.presence p.last.1 = false) {rest : List Answer}
    (h : (s.transport (.grp g)).answers = p.answers ++ rest) :
    ∃ t, (retrieveScratchpad ctx g).run s = (.error ⟨.noPresencePulse, 0x1003, zext16 p.last.1⟩, t) ∧
      Played g s t s.buf ⟨p.last.1, p.polls⟩ rest (resetEvents s.cfg g p ++
        [failureRecord ctx .noPresencePulse 0x1003 (zext16 p.last.1)]) := by
  obtain ⟨t, hreset, hplayed⟩ := oneWireReset_noPresence ctx g s hlegal p hclears hpresence h
  exact ⟨t, by rw [retrieveScratchpad, Op.run_read_bind, Op.run_bind_error hreset], hplayed⟩

/-- The short check reads BR_STATUS[g] and makes no transaction (spec/41_bridge_sequences.md R124 step 2). -/
theorem checkShort_short (hshort : s.cfg.short (s.bridge g).status = true) :
    (checkShort ctx g).run s =
      (raise ctx .shortDetected 0x1B02 (zext16 (s.bridge g).status) : Op Unit).run s := by
  rw [checkShort, Op.run_read_bind, Op.run_read_bind, if_pos hshort]
  rfl

/-- `retrieve_scratchpad` whose reset meets presence and a short (spec/41_bridge_sequences.md R124 step 2). -/
theorem retrieveScratchpad_short (hlegal : s.cfg.legal = true) (p : PollScript) (hpresent : p.Present s.cfg)
    (hshort : s.cfg.short p.last.1 = true) {rest : List Answer}
    (h : (s.transport (.grp g)).answers = p.answers ++ rest) :
    ∃ t, (retrieveScratchpad ctx g).run s = (.error ⟨.shortDetected, 0x1B02, zext16 p.last.1⟩, t) ∧
      Played g s t s.buf ⟨p.last.1, p.polls⟩ rest (resetEvents s.cfg g p ++
        [failureRecord ctx .shortDetected 0x1B02 (zext16 p.last.1)]) := by
  obtain ⟨t, hreset, hplayed⟩ := oneWireReset_script ctx g s hlegal p hpresent h
  have hcheck := checkShort_short ctx g t (by rw [hplayed.cfg, hplayed.bridge]; exact hshort)
  rw [hplayed.bridge] at hcheck
  refine hplayed.raises ?_
  rw [retrieveScratchpad, Op.run_read_bind, Op.run_bind_ok hreset, Op.run_bind_error hcheck]
  rfl

end Short

/-- Settles O34: the presence test of the reset comes first (`retrieveScratchpad_noPresence`), then the short check on
the same status byte (`retrieveScratchpad_short`). -/
theorem retrieveScratchpadShort : Obligations.RetrieveScratchpadShort := by
  intro s g p rest hlegal hclears hshort h
  cases hpresence : s.cfg.presence p.last.1 with
  | false =>
    obtain ⟨t, hrun, hplayed⟩ := retrieveScratchpad_noPresence none g s hlegal p hclears hpresence h
    exact ⟨_, rfl, hplayed.runCommand_error (Op.run_bind_error hrun)⟩
  | true =>
    obtain ⟨t, hrun, hplayed⟩ := retrieveScratchpad_short none g s hlegal p ⟨hclears, hpresence⟩ hshort h
    exact ⟨_, rfl, hplayed.runCommand_error (Op.run_bind_error hrun)⟩

/-! ### BR_CONFIG_PROBE -/

/-- The legal numbers of bits 9 to 12 select the resolution indices 0 to 3 in order (spec/41_bridge_sequences.md R121,
decision D41). -/
theorem resIndexOfBits_eq {bits : Nat} {r : Fin 4} (h : bits = 9 + r.val) : resIndexOfBits bits = r := by
  apply Fin.ext
  rw [resIndexOfBits, Fin.val_ofNat]
  omega

/-- BR_CONFIG_PROBE with a legal number of bits runs `configure_probe` (spec/30_encoding.md R71). -/
theorem exec_brConfigProbe {bits : Byte} {r : Fin 4} (h : bits.toNat = 9 + r.val) (g : Group) (s : State) :
    exec (.brConfigProbe g bits) s = .next (runCommand (configureProbe none g bits.toNat) s) := by
  have hwf : (Instr.brConfigProbe g bits).wf = true := by
    rw [Instr.wf, Bool.and_eq_true, decide_eq_true_iff, decide_eq_true_iff]
    omega
  exact ifLegal_of_wf hwf s _

section Configure
variable {ctx : Option (Fin 16)} {g : Group} {s : State} {bits : Nat} {r : Fin 4}
  {p1 p2 p3 p4 p5 p6 p7 p8 p9 p11 : PollScript} {zeros : List ReadScript} {last : ReadScript} {rest : List Answer}

/-- `configure_probe` confirmed by the first nonzero byte of its copy poll (spec/41_bridge_sequences.md R122). -/
theorem configureProbe_confirmed (hlegal : s.cfg.legal = true) (hbits : resIndexOfBits bits = r)
    (hpresent : p1.Present s.cfg ∧ p7.Present s.cfg ∧ p11.Present s.cfg)
    (hclears : ∀ p ∈ [p2, p3, p4, p5, p6, p8, p9], p.Clears s.cfg)
    (hzeros : ∀ z ∈ zeros, z.poll.Clears s.cfg ∧ z.byte = 0) (hlength : zeros.length < Config.copyPollLimit)
    (hlast : last.poll.Clears s.cfg) (hnonzero : last.byte ≠ 0)
    (h : (s.transport (.grp g)).answers =
      [p1, p2, p3, p4, p5, p6, p7, p8, p9, p11].flatMap PollScript.answers ++ (readAnswers (zeros ++ [last]) ++ rest)) :
    ∃ t, (configureProbe ctx g bits).run s = (.ok (), t) ∧
      Played g s t s.buf ⟨last.poll.last.1, last.poll.polls⟩ rest
        (configureEvents s.cfg g r p1 p2 p3 p4 p5 p6 p7 p8 p9 p11 ++ readEvents s.cfg g (zeros ++ [last])) := by
  obtain ⟨t, hrun, hplayed⟩ := configureProbe_script ctx g s hlegal bits r hbits p1 p2 p3 p4 p5 p6 p7 p8 p9 p11 hpresent
    hclears h
  obtain ⟨left, hleft⟩ : ∃ left, left + 1 + zeros.length = Config.copyPollLimit :=
    ⟨Config.copyPollLimit - zeros.length - 1, by omega⟩
  rw [← hplayed.cfg] at hlegal hzeros hlast
  obtain ⟨u, hpoll, hplayed'⟩ := copyPoll_script ctx g zeros left last t hlegal hzeros hlast hnonzero hplayed.answers
  have hall := hplayed.trans hplayed'
  rw [hplayed.buf, hplayed.cfg] at hall
  exact ⟨u, hrun.trans (hleft ▸ hpoll), hall⟩

/-- `configure_probe` whose copy poll reads 0x00 on every iteration (spec/41_bridge_sequences.md R121 step 13). -/
theorem configureProbe_notConfirmed (hlegal : s.cfg.legal = true) (hbits : resIndexOfBits bits = r)
    (hpresent : p1.Present s.cfg ∧ p7.Present s.cfg ∧ p11.Present s.cfg)
    (hclears : ∀ p ∈ [p2, p3, p4, p5, p6, p8, p9], p.Clears s.cfg)
    (hzeros : ∀ z ∈ zeros ++ [last], z.poll.Clears s.cfg ∧ z.byte = 0)
    (hlength : (zeros ++ [last]).length = Config.copyPollLimit)
    (h : (s.transport (.grp g)).answers =
      [p1, p2, p3, p4, p5, p6, p7, p8, p9, p11].flatMap PollScript.answers ++ (readAnswers (zeros ++ [last]) ++ rest)) :
    ∃ t, (configureProbe ctx g bits).run s = (.error ⟨.copyNotConfirmed, 0x190D, 0⟩, t) ∧
      Played g s t s.buf ⟨last.poll.last.1, last.poll.polls⟩ rest
        (configureEvents s.cfg g r p1 p2 p3 p4 p5 p6 p7 p8 p9 p11 ++ readEvents s.cfg g (zeros ++ [last]) ++
          [failureRecord ctx .copyNotConfirmed 0x190D 0]) := by
  obtain ⟨t, hrun, hplayed⟩ := configureProbe_script ctx g s hlegal bits r hbits p1 p2 p3 p4 p5 p6 p7 p8 p9 p11 hpresent
    hclears h
  rw [← hplayed.cfg] at hlegal hzeros
  obtain ⟨u, hpoll, hplayed'⟩ := copyPoll_exhausted ctx g (zeros ++ [last]) t _ hlegal rfl hzeros hplayed.answers
  have hall := hplayed.trans hplayed'
  rw [hplayed.buf, hplayed.cfg, ← List.append_assoc, List.map_append, List.map_singleton, List.getLast?_concat] at hall
  rw [hlength] at hpoll
  exact ⟨u, hrun.trans hpoll, hall⟩

end Configure

/-- Settles O30: the copy poll meets its first nonzero byte within COPY_POLL_LIMIT (`configureProbe_confirmed`). -/
theorem configProbeConfirms : Obligations.ConfigProbeConfirms := by
  intro s g bits r p1 p2 p3 p4 p5 p6 p7 p8 p9 p11 zeros last rest hlegal hbits hpresent hclears hzeros hlength hlast
    hnonzero h
  obtain ⟨t, hrun, hplayed⟩ := configureProbe_confirmed (ctx := none) hlegal (resIndexOfBits_eq hbits) hpresent hclears
    hzeros hlength hlast hnonzero (h.trans (List.append_assoc ..))
  exact ⟨_, exec_brConfigProbe hbits g s, hplayed.runCommand_ok hrun⟩

/-- Settles O31: the 10000 zero bytes use up COPY_POLL_LIMIT (`configureProbe_notConfirmed`). -/
theorem configProbeNotConfirmed : Obligations.ConfigProbeNotConfirmed := by
  intro s g bits r p1 p2 p3 p4 p5 p6 p7 p8 p9 p11 zeros last rest hlegal hbits hpresent hclears hzeros hlength h
  have hlimit : (zeros ++ [last]).length = Config.copyPollLimit := by
    rw [List.length_append, hlength, List.length_singleton, Config.copyPollLimit]
  obtain ⟨t, hrun, hplayed⟩ := configureProbe_notConfirmed (ctx := none) hlegal (resIndexOfBits_eq hbits) hpresent
    hclears hzeros hlimit (h.trans (List.append_assoc ..))
  exact ⟨_, exec_brConfigProbe hbits g s, hplayed.runCommand_error hrun⟩

end Sys2Proof.Machine

/-! PROOFS. The CRC-8 validator and the byte buffer (spec/42_crc8.md R135 to R138). -/

namespace Sys2Proof

/-! ### Words of BUF_LOAD and CRC_VALIDATE -/

theorem decode_packWord (op a b : Byte) (g : BitVec 1) : decode (packWord op a b g) = decodeRow op a b g := by
  obtain ⟨hop, ha, hb, hz, hg⟩ := packWord_fields op a b g
  rw [decode, if_pos hz, hop, ha, hb, hg]

/-- A word whose low byte is 0 has Z = 0 and G = 0 (spec/30_encoding.md R70). -/
theorem append_zero_eq_packWord (op a b : Byte) : op ++ a ++ b ++ (0x00 : Byte) = packWord op a b 0 := by
  apply BitVec.eq_of_toNat_eq
  have happend : (op ++ a ++ b ++ (0x00 : Byte)).toNat = (op ++ a ++ b).toNat * 2 ^ 8 := by
    rw [BitVec.toNat_append]
    exact (Nat.or_zero _).trans (Nat.shiftLeft_eq ..)
  have ha := a.isLt
  have hb := b.isLt
  rw [packWord_toNat, happend, BitVec.toNat_append, ← Nat.shiftLeft_add_eq_or_of_lt hb, BitVec.toNat_append,
    ← Nat.shiftLeft_add_eq_or_of_lt ha, Nat.shiftLeft_eq, Nat.shiftLeft_eq]
  change _ = _ + 0
  omega

theorem decode_bufLoad_word (k v : Byte) :
    decode ((0x01 : Byte) ++ k ++ v ++ (0x00 : Byte)) = checkOperands (.bufLoad k v) := by
  rw [append_zero_eq_packWord, decode_packWord]
  rfl

theorem decode_crcValidate_word (p : Byte) :
    decode ((0x03 : Byte) ++ p ++ (0x0000 : Half)) = checkOperands (.crcValidate p) := by
  have hword : (0x03 : Byte) ++ p ++ (0x0000 : Half) = (0x03 : Byte) ++ p ++ (0x00 : Byte) ++ (0x00 : Byte) :=
    (BitVec.append_assoc (x₁ := (0x03 : Byte) ++ p) (x₂ := (0x00 : Byte)) (x₃ := (0x00 : Byte))).symm
  rw [hword, append_zero_eq_packWord, decode_packWord]
  rfl

theorem checkOperands_of_wf {i : Instr} (h : i.wf = true) : checkOperands i = .ok i := if_pos h

theorem checkOperands_of_not_wf {i : Instr} (h : ¬ i.wf = true) : checkOperands i = .error .operandRange := if_neg h

theorem bufLoad_wf_iff {k v : Byte} : (Instr.bufLoad k v).wf = true ↔ k.toNat < 9 := by
  rw [Instr.wf, decide_eq_true_iff, Nat.lt_succ_iff]

theorem crcCompute_wf_iff {n : Byte} : (Instr.crcCompute n).wf = true ↔ 1 ≤ n.toNat ∧ n.toNat ≤ 9 := by
  rw [Instr.wf, Bool.and_eq_true, decide_eq_true_iff, decide_eq_true_iff]

theorem crcValidate_wf_iff {p : Byte} : (Instr.crcValidate p).wf = true ↔ p.toNat = 7 ∨ p.toNat = 8 := by
  rw [Instr.wf, Bool.or_eq_true, beq_iff_eq, beq_iff_eq, ← BitVec.toNat_inj, ← BitVec.toNat_inj]
  rfl

/-- The payload lengths 7 and 8 as indices of the byte that follows the payload (spec/42_crc8.md R137). -/
theorem crcValidate_wf {p : Byte} {n : Fin 9} (hn : n = 7 ∨ n = 8) (hp : p.toNat = n.val) :
    (Instr.crcValidate p).wf = true := by
  rw [crcValidate_wf_iff, hp]
  exact hn.imp (congrArg Fin.val) (congrArg Fin.val)

namespace Machine

/-! ### The CRC register -/

/-- A register that holds what is left of the byte it is fed shifts it out: every bit meets itself
(spec/42_crc8.md R136). -/
theorem crcBit_foldl_self (b : Byte) (n : Nat) :
    (List.range n).foldl (fun r i => crcBit r (b.getLsbD i)) b = b >>> n := by
  induction n with
  | zero => exact (BitVec.ushiftRight_zero b).symm
  | succ n ih =>
    have hbit : ((b >>> n).getLsbD 0 ^^ b.getLsbD n) = false := by
      rw [BitVec.getLsbD_ushiftRight, Nat.add_zero, Bool.xor_self]
    rw [List.range_succ, List.foldl_append, ih, List.foldl_cons, List.foldl_nil, crcBit, hbit,
      BitVec.shiftRight_add]
    rfl

/-- The register run over a byte equal to it is 0 (spec/42_crc8.md R136). -/
theorem crcByte_self (b : Byte) : crcByte b b = 0 :=
  (crcBit_foldl_self b 8).trans (BitVec.ushiftRight_eq_zero (le_refl 8))

/-- Different registers stay different over the same byte. -/
theorem crcByte_left_injective {a b y : Byte} (h : crcByte a y = crcByte b y) : a = b := by
  have hdiff : crcByte (a ^^^ b) 0 = 0 := by
    have hxor := crcByte_xor a b y y
    rwa [h, BitVec.xor_self, BitVec.xor_self] at hxor
  exact BitVec.xor_eq_zero_iff.mp ((crcByte_zero_iff _).mp hdiff)

/-- A byte takes the register to 0 exactly when it equals the register. -/
theorem crcByte_eq_zero_iff {r b : Byte} : crcByte r b = 0 ↔ r = b := by
  constructor
  · intro h
    exact crcByte_left_injective (h.trans (crcByte_self b).symm)
  · rintro rfl
    exact crcByte_self r

/-- Different bytes take the same register to different registers. -/
theorem crcByte_right_injective {r x y : Byte} (h : crcByte r x = crcByte r y) : x = y := by
  have hdiff : crcByte 0 (x ^^^ y) = 0 := by
    have hxor := crcByte_xor r r x y
    rwa [h, BitVec.xor_self, BitVec.xor_self] at hxor
  exact BitVec.xor_eq_zero_iff.mp (crcByte_eq_zero_iff.mp hdiff).symm

theorem crcByte_foldl_left_injective {m : List Byte} {a b : Byte} (h : m.foldl crcByte a = m.foldl crcByte b) :
    a = b := by
  induction m generalizing a b with
  | nil => exact h
  | cons y m ih => exact crcByte_left_injective (ih h)

/-- A change of one byte changes the CRC. -/
theorem eq_of_crc8_set_eq {l : List Byte} {k : Nat} (hk : k < l.length) {v : Byte} (h : crc8 (l.set k v) = crc8 l) :
    v = l[k] := by
  have hsplit (x : Byte) : crc8 (l.set k x) = (l.drop (k + 1)).foldl crcByte (crcByte (crc8 (l.take k)) x) := by
    rw [List.set_eq_take_append_cons_drop, if_pos hk, crc8_append, List.foldl_cons]
  have hsame : l.set k l[k] = l := List.set_getElem_self hk
  rw [← hsame, List.set_set, hsplit, hsplit] at h
  exact crcByte_right_injective (crcByte_foldl_left_injective h)

/-- Settles O16: the last byte equals the register it meets. -/
theorem crcOfAppendedCrcIsZero : Obligations.CrcOfAppendedCrcIsZero := by
  intro p
  rw [crc8_append_one]
  exact crcByte_self (crc8 p)

/-! ### CRC_VALIDATE -/

section Validate
variable {s : State} {p c : Byte} {n : Fin 9}

/-- `validate` writes the CRC to RES_VALUE and compares it with the byte that follows the payload
(spec/42_crc8.md R137). -/
theorem run_crcValidate (hc : c = crc8 (s.buf.toList.take n.val)) :
    (crcValidate n.val).run s =
      if c = s.buf[n] then (.ok (), s.setResValue c)
      else (.error ⟨.checksumMismatch, 0x0301, c ++ s.buf[n]⟩,
        (s.setResValue c).report none .checksumMismatch 0x0301 (c ++ s.buf[n])) := by
  have hindex : s.buf[Fin.ofNat 9 n.val] = s.buf[n] := congrArg (s.buf[·]) (Fin.ofNat_val_eq_self n)
  rw [crcValidate, Op.run_read_bind, Op.run_read_bind, Op.run_modify_bind, hindex, bufPrefix, ← hc]
  by_cases heq : c = s.buf[n]
  · rw [if_pos heq, if_pos heq, Op.run_pure]
  · rw [if_neg heq, if_neg heq, run_raise]
    rfl

theorem exec_crcValidate (hn : n = 7 ∨ n = 8) (hp : p.toNat = n.val) :
    exec (.crcValidate p) s = .next (runCommand (crcValidate n.val) s) := by
  rw [← hp]
  exact ifLegal_of_wf (crcValidate_wf hn hp) s _

/-- CRC_VALIDATE on a payload whose CRC follows it (spec/42_crc8.md R137). -/
theorem exec_crcValidate_match (hn : n = 7 ∨ n = 8) (hp : p.toNat = n.val) (hc : c = crc8 (s.buf.toList.take n.val))
    (h : c = s.buf[n]) :
    exec (.crcValidate p) s = .next { s with res := okResult c, cpState := .idle } := by
  rw [exec_crcValidate hn hp, runCommand, run_crcValidate hc, if_pos h]
  rfl

/-- CRC_VALIDATE on a payload that another byte than its CRC follows (spec/42_crc8.md R137). -/
theorem exec_crcValidate_mismatch (hn : n = 7 ∨ n = 8) (hp : p.toNat = n.val)
    (hc : c = crc8 (s.buf.toList.take n.val)) (h : c ≠ s.buf[n]) :
    exec (.crcValidate p) s =
      .next { s.report none .checksumMismatch 0x0301 (c ++ s.buf[n]) with
        res := errResult .checksumMismatch 0x0301 (c ++ s.buf[n]) c
        cpState := .idle } := by
  rw [exec_crcValidate hn hp, runCommand, run_crcValidate hc, if_neg h]
  rfl

end Validate

/-- Settles O15: a legal word runs `validate`, whose test decides how it ends. -/
theorem crcValidateResult : Obligations.CrcValidateResult := by
  intro s p
  rw [decode_crcValidate_word]
  constructor
  · intro n hn hp
    refine ⟨checkOperands_of_wf (crcValidate_wf hn hp), fun c hc => ?_⟩
    exact ⟨exec_crcValidate_match hn hp hc, fun hne => ⟨_, exec_crcValidate_mismatch hn hp hc hne⟩⟩
  · intro h7 h8
    refine ⟨_, checkOperands_of_not_wf ?_⟩
    rw [crcValidate_wf_iff, not_or]
    exact ⟨h7, h8⟩

/-- A payload is followed by its CRC exactly when the CRC of both is 0 (spec/42_crc8.md R138 b). -/
theorem crc8_take_succ_eq_zero_iff (buf : Vector Byte 9) (n : Fin 9) :
    crc8 (buf.toList.take (n.val + 1)) = 0 ↔ crc8 (buf.toList.take n.val) = buf[n] := by
  have hn : n.val < buf.toList.length := by
    rw [Vector.length_toList]
    exact n.isLt
  rw [List.take_succ_eq_append_getElem hn, crc8_append_one, crcByte_eq_zero_iff, Vector.getElem_toList]
  rfl

/-- A change of one byte of a payload or of the CRC that follows it is detected (spec/42_crc8.md R138 c). -/
theorem crc8_take_set_ne (buf : Vector Byte 9) {n k : Fin 9} (hk : k ≤ n) {v : Byte} (hv : v ≠ buf[k])
    (h : crc8 (buf.toList.take n.val) = buf[n]) :
    crc8 ((buf.set k v).toList.take n.val) ≠ (buf.set k v)[n] := by
  intro hset
  rw [← crc8_take_succ_eq_zero_iff] at h hset
  rw [Vector.toList_set, List.take_set] at hset
  have hlength : k.val < (buf.toList.take (n.val + 1)).length := by
    rw [List.length_take, Vector.length_toList]
    omega
  have hsame := eq_of_crc8_set_eq hlength (hset.trans h.symm)
  rw [List.getElem_take, Vector.getElem_toList] at hsame
  exact hv hsame

theorem twoPow_ne_zero (j : Fin 8) : BitVec.twoPow 8 j.val ≠ 0 := by
  revert j
  decide

/-- Settles O17: a flip changes one byte of BUF[0..p], so the changed payload is not followed by its CRC. -/
theorem validateRejectsSingleBitFlip : Obligations.ValidateRejectsSingleBitFlip := by
  intro s p k j hp hk h
  have hlength : (BitVec.ofNat 8 p.val).toNat = p.val := by
    rw [BitVec.toNat_ofNat]
    omega
  have hflip : s.buf[k] ^^^ BitVec.twoPow 8 j.val ≠ s.buf[k] := fun hsame =>
    twoPow_ne_zero j ((BitVec.xor_right_inj _).mp (hsame.trans BitVec.xor_zero.symm))
  exact ⟨⟨_, exec_crcValidate_match hp hlength rfl h, rfl⟩,
    _, exec_crcValidate_mismatch hp hlength rfl (crc8_take_set_ne s.buf hk hflip h), rfl, rfl⟩

/-! ### BUF_LOAD -/

/-- BUF_LOAD with a legal index (spec/42_crc8.md R135). -/
theorem exec_bufLoad {k v : Byte} (h : k.toNat < 9) (s : State) :
    exec (.bufLoad k v) s =
      .next { s with buf := s.buf.set k.toNat v h, res := okResult s.res.value, cpState := .idle } := by
  have hindex : bufIndex k = ⟨k.toNat, h⟩ := Fin.ext (Nat.mod_eq_of_lt h)
  have hrun : exec (.bufLoad k v) s = .next (endCommand (.ok 0) (s.setBuf (bufIndex k) v)) :=
    ifLegal_of_wf (bufLoad_wf_iff.mpr h) s _
  rw [hrun, hindex]
  rfl

/-- Settles O13: the word is legal exactly when its index is, and then the command writes one byte. -/
theorem bufLoadWritesOneByte : Obligations.BufLoadWritesOneByte := by
  intro s k v
  rw [decode_bufLoad_word]
  constructor
  · intro h
    exact ⟨checkOperands_of_wf (bufLoad_wf_iff.mpr h), exec_bufLoad h s⟩
  · intro h
    refine ⟨_, checkOperands_of_not_wf ?_⟩
    rw [bufLoad_wf_iff]
    omega

/-! ### CRC_COMPUTE -/

/-- One bit of the CRC on bytes, as spec/42_crc8.md R136 writes it. -/
theorem crcBit_eq (reg b : Byte) (i : Nat) :
    crcBit reg (b.getLsbD i) =
      if (reg ^^^ ((b >>> i) &&& 1)) &&& 1 = 1 then (reg >>> 1) ^^^ 0x8C else reg >>> 1 := by
  have hbit : (reg ^^^ ((b >>> i) &&& 1#8)) &&& 1#8 =
      (BitVec.ofBool (reg.getLsbD 0 ^^ b.getLsbD i)).setWidth 8 := by
    rw [BitVec.and_one_eq_setWidth_ofBool_getLsbD, BitVec.getLsbD_xor, BitVec.getLsbD_and, BitVec.getLsbD_ushiftRight]
    simp
  have hone : ∀ x : Bool, (BitVec.ofBool x).setWidth 8 = 1 ↔ x = true := by decide
  refine if_congr ?_ rfl rfl
  rw [← hone, ← hbit]
  rfl

theorem crcByte_eq (reg b : Byte) :
    crcByte reg b = (List.range 8).foldl (init := reg) fun (reg : Byte) (i : Nat) =>
      if (reg ^^^ ((b >>> i) &&& 1)) &&& 1 = 1 then (reg >>> 1) ^^^ 0x8C else reg >>> 1 := by
  simp only [← crcBit_eq]
  rfl

/-- Settles O14: each byte goes through the loop of R136 as `crcByte_eq` says. -/
theorem crcComputeResult : Obligations.CrcComputeResult := by
  intro crc hcrc
  have hloop : crc8 = crc := by
    rw [hcrc]
    funext bytes
    exact congrArg (fun step => bytes.foldl step 0x00) (funext₂ crcByte_eq)
  rw [← hloop]
  exact ⟨fun _ => rfl, fun s n hlow hhigh => ifLegal_of_wf (crcCompute_wf_iff.mpr ⟨hlow, hhigh⟩) s _⟩

end Machine
end Sys2Proof

/-! PROOFS. The temperature decoder and the Fahrenheit converter (spec/43_temperature.md R145 to R152), and PM_GET_ALL
under a NEG_MODE that refuses the decode (R149). -/

namespace Sys2Proof.Machine

/-! ### The Celsius value -/

/-- The whole-number byte is the low nibble of byte 1 followed by the high nibble of byte 0
(spec/43_temperature.md R147). -/
theorem wholeByte_eq_append (sp : Vector Byte 9) :
    wholeByte sp = (sp[1].extractLsb' 0 4 : BitVec 4) ++ (sp[0].extractLsb' 4 4 : BitVec 4) := by
  apply BitVec.eq_of_getLsbD_eq
  intro k hk
  rw [wholeByte, BitVec.getLsbD_or, BitVec.getLsbD_ushiftRight, BitVec.getLsbD_shiftLeft, BitVec.getLsbD_append]
  by_cases hlow : k < 4
  · simp [hlow]
  · have hzero : sp[0].getLsbD (4 + k) = false := BitVec.getLsbD_of_ge _ _ (by omega)
    have hnibble : k - 4 < 4 := by omega
    simp [hlow, hk, hzero, hnibble]

/-- The sign is bit 3 of byte 1 (spec/43_temperature.md R147). -/
theorem wholeByte_sign (sp : Vector Byte 9) : (wholeByte sp).getLsbD 7 = sp[1].getLsbD 3 := by
  rw [wholeByte_eq_append, BitVec.getLsbD_append]
  simp

/-- The fraction index is the low nibble of the masked byte 0 (spec/43_temperature.md R146, log entry 17). -/
theorem fractionIndex_eq_extractLsb' (c : Config) (sp : Vector Byte 9) (r : Fin 4) :
    fractionIndex c sp r = (sp[0] &&& c.resMask[r]).extractLsb' 0 4 :=
  BitVec.setWidth_eq_extractLsb' (by decide)

/-- The Celsius value by the one's-complement rule, its fraction as the table's digit (spec/43_temperature.md R148). -/
theorem celsiusOf_eq (c : Config) {sp : Vector Byte 9} {r : Fin 4} {w : Byte} {fi : BitVec 4} {cs : Bool}
    (hw : wholeByte sp = w) (hfi : fractionIndex c sp r = fi) (hcs : w.getLsbD 7 = cs) :
    celsiusOf c sp r = (cs, if cs then ~~~w else w,
      BitVec.ofNat 4 (if cs then (c.negFraction[fi.toFin]).val else (c.posFraction[fi.toFin]).val)) := by
  subst hw hfi
  cases cs <;> simp only [celsiusOf, hcs] <;> rfl

/-- A reading of a scratchpad whose Celsius value is known (spec/43_temperature.md R145). -/
theorem IsReading.eq_of_celsius {c : Config} {sp : Vector Byte 9} {r : Fin 4} {v : Reading} (h : IsReading c sp r v)
    {cs : Bool} {cw : Byte} {cf : Nat} (hcelsius : celsiusOf c sp r = (cs, cw, BitVec.ofNat 4 cf)) (hcf : cf ≤ 9)
    {f : Fahrenheit} (hf : f = fahrenheit c cs cw.toNat cf) :
    fahrenheit c v.cSign v.cWhole.toNat v.cFrac.toNat = f ∧
      v = ⟨cs, cw, BitVec.ofNat 4 cf, f.sign, v.fWhole, f.frac⟩ ∧ (f.whole ≤ 255 → v.fWhole.toNat = f.whole) := by
  obtain ⟨cSign, cWhole, cFrac, fSign, fWhole, fFrac⟩ := v
  obtain ⟨hc, hsign, hfrac, hwhole⟩ := h
  obtain ⟨rfl, rfl, rfl⟩ : cSign = cs ∧ cWhole = cw ∧ cFrac = BitVec.ofNat 4 cf := by
    simpa only [Prod.mk.injEq] using hc.trans hcelsius
  have hdigit : (BitVec.ofNat 4 cf).toNat = cf := Nat.mod_eq_of_lt (by omega)
  rw [hdigit, ← hf] at hsign hfrac hwhole
  subst hsign hfrac
  exact ⟨by rw [hdigit, hf], rfl, hwhole⟩

/-! ### The Fahrenheit value -/

/-- The Fahrenheit value in exact arithmetic, from fiftieths of a degree (spec/43_temperature.md R150). -/
theorem exactFahrenheit_eq {cs : Bool} {cw cf : Nat} {n : Int}
    (hn : n = 9 * ((if cs then -1 else 1) * (10 * (cw : Int) + cf)) + 1600) :
    exactFahrenheit cs cw cf = ⟨decide (n < 0), n.natAbs / 50, BitVec.ofNat 4 (n.natAbs % 50 / 5)⟩ := by
  have htenths : celsiusTenths cs cw cf = (if cs then -1 else 1) * (10 * (cw : Int) + cf) := by
    cases cs <;> simp [celsiusTenths]
  rw [exactFahrenheit, htenths, ← hn]

theorem fahrenheit_of_exact {c : Config} (hexact : c.fArith = .exact) (cs : Bool) (cw cf : Nat) :
    fahrenheit c cs cw cf = exactFahrenheit cs cw cf := by
  simp only [fahrenheit, hexact]

/-! ### TD_DECODE -/

theorem tdDecode_wf_iff {a : Byte} : (Instr.tdDecode a).wf = true ↔ a.toNat ≤ 3 := decide_eq_true_iff

/-- TD_DECODE with a legal index under ONES_COMPLEMENT decodes BUF (spec/43_temperature.md R145). -/
theorem exec_tdDecode {s : State} {a : Byte} {r : Fin 4} (ha : a.toNat = r.val)
    (hmode : s.cfg.negMode = .onesComplement) : exec (.tdDecode a) s = .next (runCommand (tdDecode r) s) := by
  have hindex : resIndexOfByte a = r := by
    rw [resIndexOfByte, ha, Fin.ofNat_val_eq_self]
  have hlegal := ifLegal_of_wf (tdDecode_wf_iff.mpr (by omega : a.toNat ≤ 3)) s
  change execTdDecode a s = _
  simp only [execTdDecode, hlegal, hmode, hindex]

/-- Under another NEG_MODE TD_DECODE is refused (spec/43_temperature.md R149). -/
theorem exec_tdDecode_other {s : State} {a : Byte} (ha : a.toNat ≤ 3) (hmode : s.cfg.negMode = .other) :
    exec (.tdDecode a) s = .refused .negModeUndefined := by
  have hlegal := ifLegal_of_wf (tdDecode_wf_iff.mpr ha) s
  change execTdDecode a s = _
  simp only [execTdDecode, hlegal, hmode]

section Decode
variable {s t : State} {r : Fin 4}

/-- TD_DECODE whose decode answers a reading writes it (spec/43_temperature.md R145). -/
theorem runCommand_tdDecode_ok {v : Reading} (h : (decodeScratchpad none s.buf r).run s = (.ok v, t)) :
    runCommand (tdDecode r) s = { t with td := v, res := okResult t.res.value, cpState := .idle } := by
  have hrun : (tdDecode r).run s = (.ok (), t.setTd v) := by
    rw [tdDecode, Op.run_read_bind, Op.run_bind_ok h, Op.run_modify]
  rw [runCommand, hrun]
  rfl

/-- TD_DECODE whose decode fails leaves the TD registers (spec/43_temperature.md R145). -/
theorem runCommand_tdDecode_error {f : Failure} (h : (decodeScratchpad none s.buf r).run s = (.error f, t)) :
    runCommand (tdDecode r) s =
      { t with res := errResult f.kind f.loc f.extra t.res.value, cpState := .idle } := by
  have hrun : (tdDecode r).run s = (.error f, t) := by
    rw [tdDecode, Op.run_read_bind, Op.run_bind_error h]
  rw [runCommand, hrun]
  rfl

end Decode

/-- Settles O40: the decode answers a reading (`decodeScratchpad_cases`), whose Celsius value `celsiusOf_eq` gives. -/
theorem tdDecodeResult : Obligations.TdDecodeResult := by
  intro s a r w fi cs cw cf n f ha hmode hecho h5 h7 hw hfi hcs hcw hcf hn hf
  have hsign : w.getLsbD 7 = cs := by rw [hw, ← wholeByte_eq_append, wholeByte_sign, hcs]
  have hcelsius : celsiusOf s.cfg s.buf r = (cs, cw, BitVec.ofNat 4 cf) := by
    rw [hcw, hcf]
    exact celsiusOf_eq s.cfg ((wholeByte_eq_append _).trans hw.symm)
      ((fractionIndex_eq_extractLsb' ..).trans hfi.symm) hsign
  have hdigit : cf ≤ 9 := by
    rw [hcf]
    split <;> exact Nat.le_of_lt_succ (Fin.isLt _)
  refine ⟨fun hexact => ?_, ?_⟩
  · rw [hf, fahrenheit_of_exact hexact, exactFahrenheit_eq hn]
  · rcases decodeScratchpad_cases none s.buf r s with ⟨hne, -⟩ | ⟨-, hne, -⟩ | ⟨-, -, -, v, draws, hrun, hv, hdraws⟩
    · exact absurd hecho hne
    · exact absurd hne (by simp [h5, h7])
    · obtain ⟨hfahrenheit, hreading, hwhole⟩ := hv.eq_of_celsius hcelsius hdigit hf
      rw [hfahrenheit] at hdraws
      refine ⟨_, v.fWhole, exec_tdDecode ha hmode, ?_, ?_, fun hle => ⟨hwhole hle, ?_⟩⟩
      · rw [runCommand_tdDecode_ok hrun, ← hreading]
      · rw [hf]
        exact fahrenheit_frac_le _ _ _ _
      · rw [runCommand_tdDecode_ok hrun]
        exact hdraws hle

/-- Settles O41: `decode` tests the echo, then the reserved bytes (`decodeScratchpad_cases`). -/
theorem tdDecodeFailures : Obligations.TdDecodeFailures := by
  intro s a r ha hmode
  rw [exec_tdDecode ha hmode]
  rcases decodeScratchpad_cases none s.buf r s with ⟨hne, hrun⟩ | ⟨heq, hbad, hrun⟩ | ⟨heq, h5, h7, -⟩
  · exact ⟨fun _ => ⟨_, congrArg _ (runCommand_tdDecode_error hrun)⟩, fun heq => absurd heq hne⟩
  · exact ⟨fun hne => absurd heq hne, fun _ _ => ⟨_, congrArg _ (runCommand_tdDecode_error hrun)⟩⟩
  · exact ⟨fun hne => absurd heq hne, fun _ hbad => absurd hbad (by simp [h5, h7])⟩

/-! ### TD_C_TO_F -/

/-- Storing a whole part changes the number of draws alone, and nothing when the part is at most 255
(spec/43_temperature.md R151). -/
theorem run_storedWhole (whole : Nat) (s : State) :
    ∃ fw n, (storedWhole whole).run s = (.ok fw, { s with env := { s.env with freeDraws := n } }) ∧
      (whole ≤ 255 → fw.toNat = whole ∧ n = s.env.freeDraws) := by
  rcases storedWhole_cases whole s with ⟨hle, hrun⟩ | ⟨hgt, hrun⟩
  · exact ⟨_, _, hrun, fun _ => ⟨Nat.mod_eq_of_lt (by omega), rfl⟩⟩
  · exact ⟨_, _, hrun, fun hle => by omega⟩

/-- TD_C_TO_F with legal operands (spec/43_temperature.md R152). -/
theorem exec_tdCToF (s : State) {sign : Bool} {whole tenths : Byte} (hwhole : whole.toNat ≤ 127)
    (htenths : tenths.toNat ≤ 9) {f : Fahrenheit} (hf : f = fahrenheit s.cfg sign whole.toNat tenths.toNat) :
    ∃ fw n, exec (.tdCToF sign whole tenths) s = .next { s with
        td := { s.td with fSign := f.sign, fWhole := fw, fFrac := f.frac }
        res := okResult s.res.value
        cpState := .idle
        env := { s.env with freeDraws := n } } ∧
      (f.whole ≤ 255 → fw.toNat = f.whole ∧ n = s.env.freeDraws) := by
  have hwf : (Instr.tdCToF sign whole tenths).wf = true := by simp [Instr.wf, hwhole, htenths]
  obtain ⟨fw, n, hstored, hsmall⟩ := run_storedWhole f.whole s
  refine ⟨fw, n, (ifLegal_of_wf hwf s _).trans ?_, hsmall⟩
  rw [runCommand, tdCToF, Op.run_read_bind, ← hf, Op.run_bind_ok hstored]
  rfl

/-- Whole part and tenths of the fiftieths of a degree truncate their value. -/
theorem fiftieths_truncated (k : Nat) {d : Nat} (hd : d = k % 50 / 5) :
    ((k / 50 : Nat) : ℚ) + (d : ℚ) / 10 ≤ (k : ℚ) / 50 ∧
      (k : ℚ) / 50 < ((k / 50 : Nat) : ℚ) + (d : ℚ) / 10 + 1 / 10 := by
  have hlow : ((50 * (k / 50) + 5 * d : Nat) : ℚ) ≤ (k : ℚ) := Nat.cast_le.mpr (by omega)
  have hhigh : (k : ℚ) < ((50 * (k / 50) + 5 * d + 5 : Nat) : ℚ) := Nat.cast_lt.mpr (by omega)
  push_cast at hlow hhigh
  constructor <;> linarith

/-- The fiftieths of a degree Fahrenheit are 50 times 1.8 C + 32 (spec/43_temperature.md R150). -/
theorem fiftieths_cast {sign : Bool} {whole tenths : Nat} {n : Int} {c : ℚ}
    (hn : n = 9 * ((if sign then -1 else 1) * (10 * (whole : Int) + tenths)) + 1600)
    (hc : c = (if sign then -1 else 1) * ((whole : ℚ) + (tenths : ℚ) / 10)) :
    (n : ℚ) = 50 * (c * (9 / 5) + 32) := by
  rw [hn, hc]
  push_cast
  ring

/-- Settles O42: F = 1.8 C + 32 is n fiftieths of a degree, which `exactFahrenheit` truncates. -/
theorem fahrenheitIsTruncatedExactly : Obligations.FahrenheitIsTruncatedExactly := by
  intro s sign whole tenths hwhole htenths
  obtain ⟨fw, draws, hexec, hstored⟩ := exec_tdCToF s (sign := sign) hwhole htenths rfl
  refine ⟨_, hexec, rfl, fahrenheit_frac_le _ _ _ _, ?_, fun hexact c f hc hf => ?_⟩
  · rintro v rfl
    exact ⟨rfl, rfl, hstored⟩
  · obtain ⟨n, hn⟩ : ∃ n : Int, n = 9 * ((if sign then -1 else 1) * (10 * (whole.toNat : Int) + tenths.toNat)) + 1600 :=
      ⟨_, rfl⟩
    have hcast : (n : ℚ) = 50 * f := by rw [hf, fiftieths_cast hn hc]
    have habs : |f| = (n.natAbs : ℚ) / 50 := by
      rw [Nat.cast_natAbs, Int.cast_abs, hcast, abs_mul]
      norm_num
    rw [fahrenheit_of_exact hexact, exactFahrenheit_eq hn] at hstored ⊢
    have hfrac : (BitVec.ofNat 4 (n.natAbs % 50 / 5)).toNat = n.natAbs % 50 / 5 :=
      Nat.mod_eq_of_lt (by omega)
    obtain ⟨hlow, hhigh⟩ := fiftieths_truncated n.natAbs hfrac
    refine ⟨?_, n.natAbs / 50, habs ▸ hlow, habs ▸ hhigh, fun hbound => hstored ?_⟩
    · have hneg : n < 0 ↔ f < 0 := by
        rw [← Int.cast_lt_zero (R := ℚ), hcast]
        constructor <;> intro h <;> linarith
      simp only [hneg]
    · have hupper : n < 12805 := by
        have : (n : ℚ) < 12805 := by
          rw [hcast, hf]
          linarith
        exact_mod_cast this
      -- the tenths of C are whole, so at most 1244 here, and n is at most 12796 (R151)
      change n.natAbs / 50 ≤ 255
      split at hn <;> omega

/-! ### PM_GET_ALL under another NEG_MODE -/

/-- Under another NEG_MODE PM_GET_ALL is refused when a decode is called (spec/43_temperature.md R149). -/
theorem exec_pmGetAll_other {s : State} (hmode : s.cfg.negMode = .other) :
    exec .pmGetAll s =
      if (getProbes s probeIndices).2 then .refused .negModeUndefined
      else .next (endCycle (getProbes s probeIndices).1) := by
  change execPmGetAll s = _
  simp only [execPmGetAll, hmode]

theorem mem_probeIndices : ∀ i : Fin 16, i ∈ probeIndices := by decide

theorem getProbe_of_not_eligible {s : State} {i : Fin 16} (h : (s.probe i).eligible = false) :
    getProbe s i = (s, false) := by
  simp [getProbe, h]

/-- A scratchpad that is retrieved is decoded (spec/44_probe_manager.md R169). -/
theorem getProbe_decodes_of_retrieves {s : State} {i : Fin 16} {x : GetScript} {rest : List Answer}
    (hlegal : s.cfg.legal = true) (heligible : (s.probe i).eligible = true) (hx : x.Retrieves s.cfg i)
    (h : Answers s (busGroup i) x.answers rest) : (getProbe s i).2 = true := by
  rw [busGroup_eq_probeGroup] at h
  obtain ⟨t, hrun, -⟩ := fetchScratchpad_serves hlegal hx s rfl rfl rfl h
  simp only [getProbe, if_pos heligible, hrun]

/-- In a cycle in index order the probes before the first eligible one are skipped (spec/44_probe_manager.md R169). -/
theorem getProbes_decodes_of_first {s : State} {i : Fin 16} (hskip : ∀ j < i, (s.probe j).eligible = false)
    (hdecodes : (getProbe s i).2 = true) {is : List (Fin 16)} (hsorted : is.Pairwise (· < ·)) (hi : i ∈ is) :
    (getProbes s is).2 = true := by
  induction is with
  | nil => cases hi
  | cons j js ih =>
    obtain ⟨hbefore, hjs⟩ := List.pairwise_cons.mp hsorted
    rw [getProbes]
    rcases List.mem_cons.mp hi with rfl | hmem
    · simp [hdecodes]
    · rw [getProbe_of_not_eligible (hskip j (hbefore i hmem))]
      exact ih hjs hmem

/-- A cycle over distinct probes calls a decode exactly when some eligible probe ends without error or with one of the
decode's own (spec/44_probe_manager.md R169, spec/43_temperature.md R145). -/
theorem getProbes_decodes {is : List (Fin 16)} (hdistinct : is.Nodup) (s : State) :
    (getProbes s is).2 = true ↔ ∃ i ∈ is, (s.probe i).eligible = true ∧
      ((getProbes s is).1.probe i).lastError ∈ [.none, .resolutionMismatch, .scratchpadCorrupt] := by
  induction is generalizing s with
  | nil => simp [getProbes]
  | cons j js ih =>
    obtain ⟨hj, hjs⟩ := List.nodup_cons.mp hdistinct
    have hfirst : (getProbes (getProbe s j).1 js).1.probe j = (getProbe s j).1.probe j := by
      rw [getProbes_eq_foldl]
      exact (foldl_probe getProbe_frame hjs _ j).1 hj
    have hlater : ∀ k ∈ js, (getProbe s j).1.probe k = s.probe k := fun k hk =>
      (getProbe_frame s j).probe_ne fun e => hj (e ▸ hk)
    rw [getProbes, Bool.or_eq_true, getProbe_decodes, ih hjs, List.exists_mem_cons_iff, hfirst]
    refine or_congr_right (exists_congr fun k => and_congr_right fun hk => ?_)
    rw [hlater k hk]

/-- The end of a cycle does not depend on NEG_MODE. -/
theorem endCycle_withNegMode (m : NegMode) (s : State) :
    { endCycle (s.withNegMode m) with cfg := s.cfg } = endCycle s := rfl

/-- Settles O43: the cycle reaches a decode under both modes or under none, and ends alike when it reaches none
(`getProbes_blind`); `getProbes_decodes` says when it reaches one. -/
theorem otherNegModeRefusesDecode : Obligations.OtherNegModeRefusesDecode := by
  intro s hmode
  refine ⟨fun a ha => exec_tdDecode_other ha hmode, ?_, ?_⟩
  · intro i x rest hlegal hskip heligible hx h
    have hskipped : ∀ j < i, (s.probe j).eligible = false := fun j hj => by
      rw [Bool.eq_false_iff, ne_eq, Probe.eligible_iff]
      exact not_or.mpr (hskip j hj)
    have hdecodes := getProbe_decodes_of_retrieves hlegal ((Probe.eligible_iff _).mpr heligible) hx h
    have hcycle := getProbes_decodes_of_first hskipped hdecodes (by decide) (mem_probeIndices i)
    rw [exec_pmGetAll_other hmode, if_pos hcycle]
  · obtain ⟨hsame, hend⟩ := getProbes_blind .onesComplement probeIndices s
    refine ⟨endCycle (getProbes (s.withNegMode .onesComplement) probeIndices).1, exec_pmGetAll rfl, ?_⟩
    intro decodes hiff
    have hdecodes : decodes ↔ (getProbes s probeIndices).2 = true := by
      rw [hiff, ← hsame, getProbes_decodes (by decide)]
      refine exists_congr fun k => ?_
      simp only [mem_probeIndices, true_and, Probe.eligible_iff, endCycle_probe]
      rfl
    rw [hdecodes, exec_pmGetAll_other hmode]
    refine ⟨fun h => if_pos h, fun h => ?_⟩
    have hcfg : (getProbes s probeIndices).1.cfg = s.cfg := by rw [getAll_frame s]
    rw [if_neg h, hend (Bool.eq_false_iff.mpr h), ← hcfg, endCycle_withNegMode]

end Sys2Proof.Machine

/-! PROOFS. The probe sequencer: PM_SET_RESOLUTION, PM_GET_ALL with no probe eligible, and PM_INITIATE_ALL on dead
transports (spec/44_probe_manager.md R165, R166, R169, R174). -/

namespace Sys2Proof.Machine

/-! ### PM_SET_RESOLUTION -/

theorem exec_pmSetResolution_same {s : State} {x : Byte} (h : x.toNat = s.activeRes.toNat) :
    exec (.pmSetResolution x) s = .next { s with res := okResult s.res.value, cpState := .idle } := by
  change Host.Outcome.next (runCommand (setResolution x) s) = _
  rw [runCommand, run_setResolution, if_pos h]
  rfl

/-- A request other than the active index is stored, a request above 3 as 0 and with a record
(spec/44_probe_manager.md R174). -/
theorem exec_pmSetResolution_ne {s : State} {x : Byte} (h : x.toNat ≠ s.activeRes.toNat) :
    exec (.pmSetResolution x) s = .next { s with
      activeRes := if 3 < x.toNat then 0 else x.setWidth 2
      probes := s.probes.map fun p => { p with configured := false }
      res := okResult s.res.value
      cpState := .idle
      env := (if 3 < x.toNat then s.report none .none (locCode 0x32 1) (zext16 x) else s).env } := by
  change Host.Outcome.next (runCommand (setResolution x) s) = _
  rw [runCommand, run_setResolution, if_neg h]
  rfl

/-- Settles O44: the raw request is compared with ACTIVE_RES, which is at most 3, before it is clamped. -/
theorem setResolutionResult : Obligations.SetResolutionResult := by
  intro s x
  refine ⟨exec_pmSetResolution_same, fun hne hle => ?_, fun habove => ?_⟩
  · rw [exec_pmSetResolution_ne hne, if_neg (Nat.not_lt.mpr hle), if_neg (Nat.not_lt.mpr hle)]
    rfl
  · have hne : x.toNat ≠ s.activeRes.toNat := by
      have := s.activeRes.isLt
      omega
    refine ⟨Config.freeMessage s.env.events.length, ?_⟩
    rw [exec_pmSetResolution_ne hne, if_pos habove, if_pos habove]
    rfl

/-! ### The mask of errored probes -/

/-- The mask is 0xFFFF when every probe is errored (spec/44_probe_manager.md R165). -/
theorem errorMask_eq_allOnes {s : State} (h : ∀ i, (s.probe i).lastError ≠ .none) : errorMask s = 0xFFFF := by
  have hones : (0xFFFF : Half) = BitVec.allOnes 16 := by decide
  rw [hones]
  apply BitVec.eq_of_getLsbD_eq
  intro k hk
  have hbit := errorMask_getLsbD s ⟨k, hk⟩
  simp only [h, ne_eq, not_false_eq_true, decide_true] at hbit
  rw [hbit, BitVec.getLsbD_allOnes, decide_eq_true hk]

/-! ### PM_GET_ALL with no probe eligible -/

/-- A cycle that finds no probe eligible does nothing and reaches no decode (spec/44_probe_manager.md R169). -/
theorem getProbes_of_none_eligible {s : State} (h : ∀ i, (s.probe i).eligible = false) (is : List (Fin 16)) :
    getProbes s is = (s, false) := by
  induction is with
  | nil => rfl
  | cons i is ih => rw [getProbes, getProbe_of_not_eligible (h i), ih, Bool.or_self]

/-- A PM_GET_ALL that reaches no decode completes under every NEG_MODE (spec/43_temperature.md R149). -/
theorem exec_pmGetAll_of_no_decode {s : State} (h : (getProbes s probeIndices).2 = false) :
    exec .pmGetAll s = .next (endCycle (getProbes s probeIndices).1) := by
  cases hmode : s.cfg.negMode with
  | onesComplement => exact exec_pmGetAll hmode
  | other => rw [exec_pmGetAll_other hmode, if_neg (Bool.eq_false_iff.mp h)]

/-- Settles O50: the cycle does nothing (`getProbes_of_none_eligible`), and every probe is errored. -/
theorem getAllSkipsIneligible : Obligations.GetAllSkipsIneligible := by
  intro s h
  have hskip : ∀ i, (s.probe i).eligible = false := fun i => by
    rw [Bool.eq_false_iff, ne_eq, Probe.eligible_iff, not_or]
    exact h i
  have hcycle := getProbes_of_none_eligible hskip probeIndices
  rw [exec_pmGetAll_of_no_decode (by rw [hcycle]), hcycle, endCycle_eq, errorMask_eq_allOnes fun i => (h i).1]

/-! ### PM_INITIATE_ALL on dead transports -/

/-- Probe i as `initiate_all` leaves it when its first transaction fails (spec/44_probe_manager.md R166). -/
def Probe.dead (p : Probe) : Probe :=
  { p with lastError := .transportFailure, errorOrigin := .init, phase := .errored }

/-- The events of probe i on a dead transport: one write, the chip reset of a leader or the channel select of another
probe, and its record (spec/44_probe_manager.md R166). -/
def deadEvents (c : Config) (i : Fin 16) (code : Half) : List Event :=
  [.transact (.grp (probeGroup i)) (c.brAddrOf (probeGroup i))
    (if isLeader i then commandBytes c.cmdDeviceReset 0
      else commandBytes c.cmdChannelSelect c.chWrite[probeChannel i]) 0 (.err code),
    failureRecord (some i) .transportFailure 0x1001 code]

/-- `reset_and_configure` ends at its first write when it fails (spec/40_bridge.md R105). -/
theorem resetAndConfigure_writeFails (ctx : Option (Fin 16)) (g : Group) (s : State) (code : Half) {rest : List Answer}
    (h : (s.transport (.grp g)).answers = .err code :: rest) :
    ∃ t, (resetAndConfigure ctx g true).run s = (.error ⟨.transportFailure, 0x1001, code⟩, t) ∧
      Played g s t s.buf (s.bridge g) rest
        [.transact (.grp g) (s.cfg.brAddrOf g) (commandBytes s.cfg.cmdDeviceReset 0) 0 (.err code),
          failureRecord ctx .transportFailure 0x1001 code] := by
  obtain ⟨t, hrun, hplayed⟩ := sendCommand_writeFails ctx g s s.cfg.cmdDeviceReset 0 code h
  refine ⟨t, ?_, hplayed⟩
  rw [resetAndConfigure, if_pos rfl, Op.run_read_bind, Op.run_bind_error hrun]

/-- `select_channel` ends at its first write when it fails (spec/40_bridge.md R104). -/
theorem selectChannel_writeFails (ctx : Option (Fin 16)) (g : Group) (s : State) (w v : Byte) (code : Half)
    {rest : List Answer} (h : (s.transport (.grp g)).answers = .err code :: rest) :
    ∃ t, (selectChannel ctx g w v).run s = (.error ⟨.transportFailure, 0x1001, code⟩, t) ∧
      Played g s t s.buf (s.bridge g) rest
        [.transact (.grp g) (s.cfg.brAddrOf g) (commandBytes s.cfg.cmdChannelSelect w) 0 (.err code),
          failureRecord ctx .transportFailure 0x1001 code] := by
  obtain ⟨t, hrun, hplayed⟩ := sendCommand_writeFails ctx g s s.cfg.cmdChannelSelect w code h
  refine ⟨t, ?_, hplayed⟩
  rw [selectChannel, Op.run_read_bind, Op.run_bind_error hrun]

/-- Steps of `initiate_all` that fail with TransportFailure mark probe i (spec/44_probe_manager.md R166). -/
theorem initiateProbe_of_transportFailure {i : Fin 16} {s t : State} {p : Probe} {loc code : Half}
    {rest : List Answer} {l : List Event}
    (hrun : (initiateSteps i).run s = (.error ⟨.transportFailure, loc, code⟩, t)) (h : Processed i s t p rest l) :
    Processed i s (initiateProbe s i) p.dead rest l := by
  have hmark := h.trans (processed_updateProbe i t Probe.dead)
  rw [h.probe, h.answers, List.append_nil] at hmark
  rw [initiateProbe, hrun]
  exact hmark

/-- Probe i in `initiate_all` on a dead transport: its first transaction is that of the chip reset for a leader, and of
the channel select for another probe (spec/44_probe_manager.md R166). -/
theorem initiateProbe_dead (i : Fin 16) (s : State) (code : Half) {rest : List Answer}
    (h : (s.transport (.grp (probeGroup i))).answers = .err code :: rest) :
    Processed i s (initiateProbe s i) (s.probe i).dead rest (deadEvents s.cfg i code) := by
  have hreset := processed_updateProbe i s fun p =>
    { p with lastError := .none, errorOrigin := .none, phase := .uninitialized }
  cases hleader : isLeader i with
  | true =>
    obtain ⟨t, hrun, hplayed⟩ := resetAndConfigure_writeFails (some i) (probeGroup i) _ code (hreset.answers.trans h)
    have hsteps : (initiateSteps i).run s = (.error ⟨.transportFailure, 0x1001, code⟩, t) := by
      rw [initiateSteps, resetTelemetry, Op.run_modify_bind, hleader, Op.run_bind_error hrun]
    have hdead := initiateProbe_of_transportFailure hsteps (hreset.trans hplayed.processed)
    rw [hreset.probe] at hdead
    rw [deadEvents, hleader]
    exact hdead
  | false =>
    have hready := hreset.trans (processed_updateProbe i _ fun p => { p with phase := .chipReady })
    obtain ⟨t, hrun, hplayed⟩ := selectChannel_writeFails (some i) (probeGroup i) _ s.cfg.chWrite[probeChannel i]
      s.cfg.chVerify[probeChannel i] code (hready.answers.trans (hreset.answers.trans h))
    have hsteps : (initiateSteps i).run s = (.error ⟨.transportFailure, 0x1001, code⟩, t) := by
      rw [initiateSteps, resetTelemetry, Op.run_modify_bind, hleader, Op.run_bind_ok (by rfl), setPhase,
        Op.run_modify_bind, Op.run_read_bind]
      exact Op.run_bind_error hrun
    have hdead := initiateProbe_of_transportFailure hsteps (hready.trans hplayed.processed)
    rw [hready.probe, hreset.probe] at hdead
    rw [deadEvents, hleader]
    exact hdead

/-- Counting events that leave the message texts out counts the events. -/
theorem Trace.countP {s t : State} {l : List Event} (h : Trace s t l) :
    ∃ new, NewEvents s t new ∧ new.countP Event.isTransact = l.countP Event.isTransact ∧
      new.countP Event.isReport = l.countP Event.isReport ∧ new.countP Event.isDelay = l.countP Event.isDelay := by
  obtain ⟨new, hnew, rfl⟩ := h
  have hcount : ∀ q : Event → Bool, (∀ e, q e.textless = q e) → (new.reverse.map Event.textless).countP q = new.countP q :=
    fun q hq => by
      rw [List.countP_map, List.countP_reverse]
      exact List.countP_congr fun e _ => by rw [Function.comp_apply, hq]
  refine ⟨new, hnew, (hcount _ ?_).symm, (hcount _ ?_).symm, (hcount _ ?_).symm⟩ <;> intro e <;> cases e <;> rfl

/-- Settles O47: each probe's part of `initiate_all` ends at its first transaction (`initiateProbe_dead`). -/
theorem initiateAllOnDeadTransports : Obligations.InitiateAllOnDeadTransports := by
  intro s codes rest h
  have hcycle := foldl_probeIndices_cycleProcessed (f := initiateProbe) (s := s) (rest := rest)
    (A := fun i => [.err (codes (probeGroup i) (probeChannel i))])
    (E := fun i => deadEvents s.cfg i (codes (probeGroup i) (probeChannel i)))
    (Q := fun i q => q = (s.probe i).dead)
    (fun i u _ hcfg _ hp has => ⟨_, rfl, hp ▸ hcfg ▸ initiateProbe_dead i u _ has⟩)
    (fun g => by cases g <;> exact h _)
  have hfields := fun i => hcycle.processed i (List.mem_finRange i)
  have hmask : errorMask (probeIndices.foldl initiateProbe s) = 0xFFFF := errorMask_eq_allOnes fun i => by
    rw [hfields i]
    exact nofun
  have hres : (endCycle (probeIndices.foldl initiateProbe s)).res = ⟨0, 0, 0xFFFF, s.res.value⟩ := by
    rw [(initiateAll_frame s).endCycle, hmask]
  obtain ⟨hprocessed, -, hanswers, htrace⟩ := hcycle.endCycle
  obtain ⟨new, hnew, htransact, hreport, hdelay⟩ := htrace.countP
  refine ⟨_, rfl, hres, fun i => hprocessed i (List.mem_finRange i), hanswers, new, hnew, ?_, ?_, ?_⟩
  · exact htransact.trans rfl
  · exact hreport.trans rfl
  · exact hdelay.trans rfl

end Sys2Proof.Machine

/-! PROOFS. The failure records: one for each failure of a command, and of each probe and ROM read in a cycle
(spec/60_exceptions.md R203, R205; spec/44_probe_manager.md R166, R168, R169). -/

namespace Sys2Proof.Machine

/-! ### The records of an operation -/

/-- Events are only added, and no sink record is among them. -/
def Silent (s t : State) : Prop := ∃ new, NewEvents s t new ∧ ∀ e ∈ new, e.isReport = false

/-- Events are only added, and the one sink record among them is the last event, that of the failure `f`
(spec/60_exceptions.md R205). -/
def FailedWith (ctx : Option (Fin 16)) (f : Failure) (s t : State) : Prop :=
  f.kind ≠ .none ∧ ∃ msg old, NewEvents s t (.report ⟨f.loc, f.kind, f.extra, msg, ctx⟩ :: old) ∧
    ∀ e ∈ old, e.isReport = false

theorem silent_of_events_eq {s t : State} (h : t.env.events = s.env.events) : Silent s t := ⟨[], h, nofun⟩

theorem silent_of_event {s t : State} {e : Event} (h : t.env.events = e :: s.env.events) (he : e.isReport = false) :
    Silent s t :=
  ⟨[e], h, by simpa using he⟩

theorem failedWith_report {k : ErrorKind} (hk : k ≠ .none) (s : State) (ctx : Option (Fin 16)) (loc extra : Half) :
    FailedWith ctx ⟨k, loc, extra⟩ s (s.report ctx k loc extra) :=
  ⟨hk, _, [], rfl, nofun⟩

theorem silent_endsCompose (ctx : Option (Fin 16)) : EndsCompose Silent (FailedWith ctx) where
  refl _ := silent_of_events_eq rfl
  trans := by
    rintro s t u ⟨new, hnew, hsilent⟩ ⟨new', hnew', hsilent'⟩
    refine ⟨new' ++ new, by rw [NewEvents, hnew', hnew, List.append_assoc], fun e he => ?_⟩
    exact (List.mem_append.mp he).elim (hsilent' e) (hsilent e)
  transE := by
    rintro f s t u ⟨new, hnew, hsilent⟩ ⟨hk, msg, old, hold, hsilent'⟩
    refine ⟨hk, msg, old ++ new, by rw [NewEvents, hold, hnew, List.cons_append, List.cons_append, List.append_assoc],
      fun e he => ?_⟩
    exact (List.mem_append.mp he).elim (hsilent' e) (hsilent e)

/-- A bridge operation reports nothing unless it fails, and then its failure (spec/60_exceptions.md R205). -/
theorem silent_steps (ctx : Option (Fin 16)) (g : Group) : BridgeSteps ctx g Silent (FailedWith ctx) where
  toEndsCompose := silent_endsCompose ctx
  setBuf _ _ _ := silent_of_events_eq rfl
  setBridge _ _ _ := silent_of_events_eq rfl
  resetPolls _ := silent_of_events_eq rfl
  delay _ _ := silent_of_event rfl rfl
  report s _ loc extra hk _ := failedWith_report hk s ctx loc extra
  write _ _ _ _ _ := silent_of_event rfl rfl
  read _ _ _ := silent_of_event rfl rfl

/-- A decode reports nothing unless it fails, and then its failure (spec/43_temperature.md R145). -/
theorem decodeScratchpad_silent (ctx : Option (Fin 16)) (sp : Vector Byte 9) (r : Fin 4) :
    (decodeScratchpad ctx sp r).Ends Silent (FailedWith ctx) := by
  intro s
  rcases decodeScratchpad_cases ctx sp r s with ⟨-, e⟩ | ⟨-, -, e⟩ | ⟨-, -, -, v, n, e, -⟩ <;> rw [e]
  · exact failedWith_report (by decide) s ctx _ _
  · exact failedWith_report (by decide) s ctx _ _
  · exact silent_of_events_eq rfl

/-! ### The commands that are no cycle -/

/-- A command has emitted exactly one failure record, its last event, that of the failure in the result registers, or it
has ended with success and emitted none (spec/60_exceptions.md R203, R205). -/
def RecordsOutcome (s t : State) : Prop :=
  ∃ new, NewEvents s t new ∧
    ((t.res.kind = 0 ∧ ∀ r, Event.report r ∈ new → r.kind = .none) ∨
      ∃ r old, new = .report r :: old ∧ r.kind ≠ .none ∧ r.kind.code = t.res.kind ∧ r.loc = t.res.loc ∧
        r.extra = t.res.extra ∧ r.probe = none ∧ ∀ e ∈ old, e.isReport = false)

/-- A command that runs an operation ends with the operation's failure, or with success (R203). -/
theorem runCommand_recordsOutcome {x : Op Unit} (hx : x.Ends Silent (FailedWith none)) (s : State) :
    RecordsOutcome s (runCommand x s) := by
  rcases runCommand_cases x s with ⟨t, hrun, e⟩ | ⟨f, t, hrun, e⟩ <;> rw [e]
  · obtain ⟨new, hnew, hsilent⟩ := hx.ok hrun
    exact ⟨new, hnew, .inl ⟨rfl, fun r hr => nomatch hsilent _ hr⟩⟩
  · obtain ⟨hk, msg, old, hnew, hsilent⟩ := hx.error hrun
    exact ⟨_, hnew, .inr ⟨_, old, rfl, hk, rfl, rfl, rfl, rfl, hsilent⟩⟩

theorem illegalCommand_recordsOutcome (s : State) : RecordsOutcome s (illegalCommand s) :=
  runCommand_recordsOutcome (ends_raise fun s => failedWith_report (by decide) s none _ _) s

theorem ifLegal_recordsOutcome {i : Instr} {x : Op Unit} (hx : x.Ends Silent (FailedWith none)) {s t : State}
    (h : ifLegal i s (.next (runCommand x s)) = .next t) : RecordsOutcome s t := by
  rcases ifLegal_cases i s (.next (runCommand x s)) with e | e <;> rw [e] at h <;> cases h
  · exact illegalCommand_recordsOutcome s
  · exact runCommand_recordsOutcome hx s

/-- An operation that writes registers alone reports nothing. -/
theorem modify_silent {f : State → State} (h : ∀ s, (f s).env.events = s.env.events) :
    (Op.modify f).Ends Silent (FailedWith none) :=
  Op.ends_modify fun s => silent_of_events_eq (h s)

theorem crcValidate_silent (p : Nat) : (crcValidate p).Ends Silent (FailedWith none) := by
  have hE := silent_endsCompose none
  refine Op.ends_bind hE (Op.ends_read hE _) fun c => Op.ends_bind hE (Op.ends_read hE _) fun received => ?_
  refine Op.ends_bind hE (modify_silent fun _ => rfl) fun _ => ?_
  split
  · exact Op.ends_pure hE _
  · exact ends_raise fun s => failedWith_report (by decide) s none _ _

theorem tdDecode_silent (r : Fin 4) : (tdDecode r).Ends Silent (FailedWith none) := by
  have hE := silent_endsCompose none
  refine Op.ends_bind hE (Op.ends_read hE _) fun sp => ?_
  exact Op.ends_bind hE (decodeScratchpad_silent none sp r) fun v => modify_silent fun _ => rfl

theorem storedWhole_silent (whole : Nat) : (storedWhole whole).Ends Silent (FailedWith none) := by
  intro s
  rcases storedWhole_cases whole s with ⟨-, e⟩ | ⟨-, e⟩ <;> rw [e] <;> exact silent_of_events_eq rfl

theorem tdCToF_silent (sign : Bool) (whole tenths : Nat) :
    (tdCToF sign whole tenths).Ends Silent (FailedWith none) := by
  have hE := silent_endsCompose none
  refine Op.ends_bind hE (Op.ends_read hE _) fun cfg => ?_
  exact Op.ends_bind hE (storedWhole_silent _) fun fw => modify_silent fun _ => rfl

/-- PM_SET_RESOLUTION succeeds, and its record of a clamped request is no failure record
(spec/44_probe_manager.md R174). -/
theorem setResolution_recordsOutcome (x : Byte) (s : State) : RecordsOutcome s (runCommand (setResolution x) s) := by
  rw [runCommand, run_setResolution]
  dsimp only
  split
  · exact ⟨[], rfl, .inl ⟨rfl, nofun⟩⟩
  · split
    · refine ⟨[_], rfl, .inl ⟨rfl, fun r hr => ?_⟩⟩
      cases List.mem_singleton.mp hr
      rfl
    · exact ⟨[], rfl, .inl ⟨rfl, nofun⟩⟩

theorem exec_recordsOutcome {i : Instr} {s t : State} (hinitiate : i ≠ .pmInitiateAll) (hget : i ≠ .pmGetAll)
    (hpass : i ≠ .adcPass) (h : exec i s = .next t) : RecordsOutcome s t := by
  cases i using Instr.byFamily with
  | bufLoad k v =>
    refine ifLegal_recordsOutcome ?_ h
    exact modify_silent fun _ => rfl
  | crcCompute n =>
    refine ifLegal_recordsOutcome ?_ h
    exact modify_silent fun _ => rfl
  | crcValidate n => exact ifLegal_recordsOutcome (crcValidate_silent _) h
  | setLogging f =>
    refine ifLegal_recordsOutcome ?_ h
    exact modify_silent fun _ => rfl
  | bridge g i hi =>
    rcases exec_bridge hi s with e | ⟨x, e, hx, -⟩ <;> rw [e] at h <;> cases h
    · exact illegalCommand_recordsOutcome s
    · exact runCommand_recordsOutcome (hx (silent_steps none g) fun _ _ => silent_of_events_eq rfl) s
  | tdDecode a =>
    rcases exec_tdDecode_cases a s with e | e | e <;> rw [e] at h <;> cases h
    · exact illegalCommand_recordsOutcome s
    · exact runCommand_recordsOutcome (tdDecode_silent _) s
  | tdCToF n w f => exact ifLegal_recordsOutcome (tdCToF_silent n _ _) h
  | pmInitiateAll => exact absurd rfl hinitiate
  | pmGetAll => exact absurd rfl hget
  | pmSetResolution x =>
    cases h
    exact setResolution_recordsOutcome x s
  | adcPass => exact absurd rfl hpass

/-! ### The records of one probe -/

/-- Events are only added, and the sink records among them are failures of probe i of the given kinds, the newest
first. -/
def Recorded (i : Fin 16) (s t : State) (kinds : List ErrorKind) : Prop :=
  ∃ new, NewEvents s t new ∧ (new.filterMap Event.record).map SinkRecord.kind = kinds ∧
    ∀ r ∈ new.filterMap Event.record, r.kind ≠ .none ∧ r.probe = some i

theorem Recorded.trans {i : Fin 16} {s t u : State} {ks ks' : List ErrorKind} (h : Recorded i s t ks)
    (h' : Recorded i t u ks') : Recorded i s u (ks' ++ ks) := by
  obtain ⟨new, hnew, rfl, hall⟩ := h
  obtain ⟨new', hnew', rfl, hall'⟩ := h'
  refine ⟨new' ++ new, by rw [NewEvents, hnew', hnew, List.append_assoc], by simp, fun r hr => ?_⟩
  rw [List.filterMap_append, List.mem_append] at hr
  exact hr.elim (hall' r) (hall r)

theorem filterMap_record_of_silent {l : List Event} (h : ∀ e ∈ l, e.isReport = false) :
    l.filterMap Event.record = [] := by
  rw [List.filterMap_eq_nil_iff]
  intro e he
  have := h e he
  cases e with
  | transact | delay => rfl
  | report => cases this

theorem Silent.recorded {s t : State} (h : Silent s t) (i : Fin 16) : Recorded i s t [] := by
  obtain ⟨new, hnew, hsilent⟩ := h
  have hnil := filterMap_record_of_silent hsilent
  exact ⟨new, hnew, by rw [hnil, List.map_nil], by rw [hnil]; exact nofun⟩

theorem FailedWith.recorded {i : Fin 16} {f : Failure} {s t : State} (h : FailedWith (some i) f s t) :
    Recorded i s t [f.kind] := by
  obtain ⟨hk, msg, old, hnew, hsilent⟩ := h
  have hone : (Event.report ⟨f.loc, f.kind, f.extra, msg, some i⟩ :: old).filterMap Event.record =
      [⟨f.loc, f.kind, f.extra, msg, some i⟩] := by
    exact congrArg (List.cons _) (filterMap_record_of_silent hsilent)
  refine ⟨_, hnew, by rw [hone, List.map_singleton], fun r hr => ?_⟩
  rw [hone, List.mem_singleton] at hr
  subst hr
  exact ⟨hk, rfl⟩

/-! ### `get_all`, one probe -/

/-- The records of a probe in `get_all`, whose fields are `p` before and `q` after: one if the probe is eligible and has
been marked (spec/44_probe_manager.md R169). -/
def GetRecords (p q : Probe) (kinds : List ErrorKind) : Prop :=
  kinds = if (p.lastError = .none ∨ p.errorOrigin = .get) ∧ q.lastError ≠ .none then [q.lastError] else []

theorem fetchScratchpad_silent (i : Fin 16) : (fetchScratchpad i).Ends Silent (FailedWith (some i)) := by
  have h := silent_steps (some i) (probeGroup i)
  refine Op.ends_bind h.toEndsCompose (Op.ends_read h.toEndsCompose _) fun cfg => ?_
  exact Op.ends_bind h.toEndsCompose (selectChannel_ends h _ _) fun _ => retrieveScratchpad_ends h

/-- A decode that fails has one record, of the kind that marks the probe; one that is stored has none
(spec/44_probe_manager.md R169, R170). -/
theorem decodeStep_recorded (i : Fin 16) (sp : Vector Byte 9) (s : State) :
    ∃ kinds, Recorded i s (decodeStep i sp s) kinds ∧ kinds =
      if ((decodeStep i sp s).probe i).lastError ≠ .none then [((decodeStep i sp s).probe i).lastError] else [] := by
  have hends := decodeScratchpad_silent (some i) sp s.activeIndex
  rcases hrun : (decodeScratchpad (some i) sp s.activeIndex).run s with ⟨f | v, t⟩
  · have hfailed := hends.error hrun
    refine ⟨[f.kind], ?_, ?_⟩ <;> simp only [decodeStep, hrun]
    · exact hfailed.recorded
    · rw [recordFailure, State.probe_updateProbe_same, if_pos hfailed.1]
  · refine ⟨[], ?_, ?_⟩ <;> simp only [decodeStep, hrun]
    · exact (hends.ok hrun).recorded i
    · rw [storeReading, State.probe_updateProbe_same, if_neg (not_not.mpr rfl)]

theorem getProbe_recorded (s : State) (i : Fin 16) :
    ∃ kinds, Recorded i s (getProbe s i).1 kinds ∧ GetRecords (s.probe i) ((getProbe s i).1.probe i) kinds := by
  by_cases he : (s.probe i).eligible = true
  · have heligible := (Probe.eligible_iff _).mp he
    simp only [GetRecords, heligible, true_and]
    rcases hrun : (fetchScratchpad i).run s with ⟨f | sp, t⟩
    · have hfailed := (fetchScratchpad_silent i).error hrun
      refine ⟨[f.kind], ?_, ?_⟩ <;> simp only [getProbe, if_pos he, hrun]
      · exact hfailed.recorded
      · rw [recordFailure, State.probe_updateProbe_same, if_pos hfailed.1]
    · obtain ⟨kinds, hrecorded, hkinds⟩ := decodeStep_recorded i sp t
      refine ⟨kinds, ?_, ?_⟩ <;> simp only [getProbe, if_pos he, hrun]
      · simpa using (((fetchScratchpad_silent i).ok hrun).recorded i).trans hrecorded
      · exact hkinds
  · have hnot : ¬ ((s.probe i).lastError = .none ∨ (s.probe i).errorOrigin = .get) := by rwa [← Probe.eligible_iff]
    rw [getProbe_of_not_eligible (Bool.eq_false_iff.mpr he)]
    exact ⟨[], (silent_of_events_eq rfl).recorded i, by rw [GetRecords, if_neg fun h => hnot h.1]⟩

/-! ### `initiate_all`, one probe -/

/-- The records of a failed ROM read: none when the ROM is known after it (spec/44_probe_manager.md R168). -/
structure RomRecords (known : Bool) (kinds : List ErrorKind) : Prop where
  length_le : kinds.length ≤ 1
  of_known : known = true → kinds = []
  of_unknown : known = false → kinds.length = 1

/-- The records of a probe in `initiate_all`, whose fields are `q` after: one if it has been marked, and before it one if
a ROM read has failed (spec/44_probe_manager.md R166, R168). -/
def InitRecords (q : Probe) (kinds : List ErrorKind) : Prop :=
  ∃ romKinds, kinds = (if q.lastError ≠ .none then [q.lastError] else []) ++ romKinds ∧ romKinds.length ≤ 1 ∧
    (q.romKnown = true → romKinds = []) ∧ (q.romKnown = false → q.lastError = .none → romKinds.length = 1)

/-- Nothing is reported, and whether the ROM of probe i is known is as before. -/
def SilentFor (i : Fin 16) (s t : State) : Prop := Silent s t ∧ (t.probe i).romKnown = (s.probe i).romKnown

/-- The failure alone is reported, and whether the ROM of probe i is known is as before. -/
def FailedFor (i : Fin 16) (f : Failure) (s t : State) : Prop :=
  FailedWith (some i) f s t ∧ (t.probe i).romKnown = (s.probe i).romKnown

theorem silentFor_steps (i : Fin 16) (g : Group) : BridgeSteps (some i) g (SilentFor i) (FailedFor i) :=
  have h := silent_steps (some i) g
  { refl := fun s => ⟨h.refl s, rfl⟩
    trans := fun h₁ h₂ => ⟨h.trans h₁.1 h₂.1, h₂.2.trans h₁.2⟩
    transE := fun h₁ h₂ => ⟨h.transE h₁.1 h₂.1, h₂.2.trans h₁.2⟩
    setBuf := fun s k v => ⟨h.setBuf s k v, rfl⟩
    setBridge := fun s b hb => ⟨h.setBridge s b hb, rfl⟩
    resetPolls := fun s => ⟨h.resetPolls s, rfl⟩
    delay := fun s d => ⟨h.delay s d, rfl⟩
    report := fun s k loc extra hk hl => ⟨h.report s k loc extra hk hl, rfl⟩
    write := fun s x wb a hw => ⟨h.write s x wb a hw, rfl⟩
    read := fun s x a => ⟨h.read s x a, rfl⟩ }

theorem silentFor_endsCompose (i : Fin 16) : EndsCompose (SilentFor i) (FailedFor i) :=
  (silentFor_steps i .g0).toEndsCompose

theorem silentFor_updateProbe {i : Fin 16} {f : Probe → Probe} (hf : ∀ p, (f p).romKnown = p.romKnown) (s : State) :
    SilentFor i s (s.updateProbe i f) :=
  ⟨silent_of_events_eq rfl, by rw [State.probe_updateProbe_same, hf]⟩

theorem setPhase_silentFor (i : Fin 16) (p : ProbePhase) : (setPhase i p).Ends (SilentFor i) (FailedFor i) :=
  Op.ends_modify (silentFor_updateProbe fun _ => rfl)

theorem configureStep_silentFor (i : Fin 16) : (configureStep i).Ends (SilentFor i) (FailedFor i) := by
  intro s
  rw [configureStep, Op.run_read_bind]
  by_cases hdone : (s.probe i).configured = true
  · rw [if_pos hdone]
    exact (silentFor_endsCompose i).refl s
  · have hends := configureProbe_ends (silentFor_steps i (probeGroup i)) s.activeBits
    rw [if_neg hdone, Op.run_read_bind, Op.run_bind, Op.run_attempt]
    rcases hrun : (configureProbe (some i) (probeGroup i) s.activeBits).run s with ⟨f | u, t⟩
    · obtain ⟨hfailed, hrom⟩ := hends.error hrun
      refine ⟨hfailed, Eq.trans ?_ hrom⟩
      dsimp only
      rw [State.probe_updateProbe_same]
    · refine (silentFor_endsCompose i).trans (hends.ok hrun) ?_
      exact silentFor_updateProbe (f := fun p => { p with configured := true, resolutionBits := s.activeBits })
        (fun _ => rfl) t

/-- The steps of `initiate_all` before step 3, the ROM (spec/44_probe_manager.md R166). -/
def selectSteps (i : Fin 16) : Op Unit := do
  resetTelemetry i
  resetAndConfigure (some i) (probeGroup i) (isLeader i)
  setPhase i .chipReady
  let cfg ← Op.read State.cfg
  selectChannel (some i) (probeGroup i) cfg.chWrite[probeChannel i] cfg.chVerify[probeChannel i]
  setPhase i .channelSelected

/-- The steps of `initiate_all` after step 3, the ROM (spec/44_probe_manager.md R166). -/
def convertSteps (i : Fin 16) : Op Unit := do
  configureStep i
  setPhase i .configured
  triggerConversion (some i) (probeGroup i)
  setPhase i .converting

theorem initiateSteps_eq (i : Fin 16) :
    initiateSteps i = selectSteps i >>= fun _ => identifyProbe i >>= fun _ => convertSteps i := by
  simp only [initiateSteps, selectSteps, convertSteps, bind_assoc]

theorem selectSteps_silentFor (i : Fin 16) : (selectSteps i).Ends (SilentFor i) (FailedFor i) := by
  have h := silentFor_steps i (probeGroup i)
  have hE := h.toEndsCompose
  refine Op.ends_bind hE (Op.ends_modify (silentFor_updateProbe fun _ => rfl)) fun _ => ?_
  refine Op.ends_bind hE (resetAndConfigure_ends h _) fun _ => Op.ends_bind hE (setPhase_silentFor i _) fun _ => ?_
  refine Op.ends_bind hE (Op.ends_read hE _) fun cfg => ?_
  exact Op.ends_bind hE (selectChannel_ends h _ _) fun _ => setPhase_silentFor i _

theorem convertSteps_silentFor (i : Fin 16) : (convertSteps i).Ends (SilentFor i) (FailedFor i) := by
  have h := silentFor_steps i (probeGroup i)
  have hE := h.toEndsCompose
  refine Op.ends_bind hE (configureStep_silentFor i) fun _ => Op.ends_bind hE (setPhase_silentFor i _) fun _ => ?_
  exact Op.ends_bind hE (triggerConversion_ends h) fun _ => setPhase_silentFor i _

/-- Step 3 of `initiate_all` succeeds, and reports a ROM read that fails (spec/44_probe_manager.md R168). -/
theorem identifyProbe_recorded (i : Fin 16) (s : State) :
    ∃ t kinds, (identifyProbe i).run s = (.ok (), t) ∧ Recorded i s t kinds ∧
      RomRecords (t.probe i).romKnown kinds := by
  rw [identifyProbe, Op.run_read_bind]
  by_cases hknown : (s.probe i).romKnown = true
  · rw [if_pos hknown]
    obtain ⟨hsilent, hrom⟩ := (setPhase_silentFor i .romKnown).ok (s := s) rfl
    exact ⟨_, [], rfl, hsilent.recorded i, Nat.zero_le _, fun _ => rfl,
      fun h => absurd (hrom.symm.trans h) (by simp [hknown])⟩
  · have hends := readRom_ends (silentFor_steps i (probeGroup i))
    rw [if_neg hknown, Op.run_bind, Op.run_attempt]
    rcases hrun : (readRom (some i) (probeGroup i)).run s with ⟨f | bytes, t⟩
    · obtain ⟨hfailed, hrom⟩ := hends.error hrun
      exact ⟨t, [f.kind], rfl, hfailed.recorded, by simp, fun h => absurd (hrom ▸ h) hknown, fun _ => rfl⟩
    · exact ⟨_, [], rfl, (hends.ok hrun).1.recorded i, by simp, fun _ => rfl, fun h => by simp at h⟩

/-- A probe that has been marked: the failure's record comes after those before it. -/
theorem Recorded.initFailed {i : Fin 16} {f : Failure} {s t : State} {kinds : List ErrorKind}
    (h : Recorded i s t (f.kind :: kinds)) (hk : f.kind ≠ .none) (hlength : kinds.length ≤ 1)
    (hknown : (t.probe i).romKnown = true → kinds = []) :
    ∃ ks, Recorded i s (recordFailure i f.kind .init t) ks ∧
      InitRecords ((recordFailure i f.kind .init t).probe i) ks := by
  refine ⟨f.kind :: kinds, h, kinds, ?_⟩
  rw [recordFailure, State.probe_updateProbe_same]
  exact ⟨by rw [if_pos hk]; rfl, hlength, hknown, fun _ hnone => absurd hnone hk⟩

theorem initiateProbe_recorded (s : State) (i : Fin 16) :
    ∃ kinds, Recorded i s (initiateProbe s i) kinds ∧ InitRecords ((initiateProbe s i).probe i) kinds := by
  have hsteps := initiateSteps_eq i
  rcases hselect : (selectSteps i).run s with ⟨f | _, t⟩
  · have hrun : (initiateSteps i).run s = (.error f, t) := by rw [hsteps, Op.run_bind_error hselect]
    obtain ⟨hfailed, -⟩ := (selectSteps_silentFor i).error hselect
    rw [initiateProbe, hrun]
    exact hfailed.recorded.initFailed hfailed.1 (Nat.zero_le _) fun _ => rfl
  · obtain ⟨u, romKinds, hidentify, hroms, hlength, hknown, hunknown⟩ := identifyProbe_recorded i t
    have hbefore := (((selectSteps_silentFor i).ok hselect).1.recorded i).trans hroms
    rw [List.append_nil] at hbefore
    rcases hconvert : (convertSteps i).run u with ⟨f | _, v⟩
    · have hrun : (initiateSteps i).run s = (.error f, v) := by
        rw [hsteps, Op.run_bind_ok hselect, Op.run_bind_ok hidentify, hconvert]
      obtain ⟨hfailed, hrom⟩ := (convertSteps_silentFor i).error hconvert
      rw [initiateProbe, hrun]
      exact (hbefore.trans hfailed.recorded).initFailed hfailed.1 hlength (hrom ▸ hknown)
    · have hrun : (initiateSteps i).run s = (.ok (), v) := by
        rw [hsteps, Op.run_bind_ok hselect, Op.run_bind_ok hidentify, hconvert]
      obtain ⟨hsilent, hrom⟩ := (convertSteps_silentFor i).ok hconvert
      have hnone : (v.probe i).lastError = .none := by
        rcases initiateSteps_ends i s with ⟨w, hw, -, hnone, -⟩ | ⟨f, w, hw, -⟩ <;> rw [hrun] at hw <;> cases hw
        exact hnone
      rw [initiateProbe, hrun]
      refine ⟨romKinds, hbefore.trans (hsilent.recorded i), romKinds, ?_, hlength, hrom ▸ hknown,
        fun h _ => hunknown (hrom ▸ h)⟩
      rw [if_neg (not_not.mpr hnone), List.nil_append]

/-! ### The cycle commands -/

/-- The kinds of the sink records of probe k among some events. -/
abbrev recordKinds (k : Fin 16) (evs : List Event) : List ErrorKind :=
  ((evs.filterMap Event.record).filter fun r => r.probe = some k).map SinkRecord.kind

theorem recordKinds_append (k : Fin 16) (l m : List Event) :
    recordKinds k (l ++ m) = recordKinds k l ++ recordKinds k m := by
  simp [recordKinds]

/-- In a cycle over distinct probes the records of each probe are those of its own part, and every record is a failure
of some probe (spec/44_probe_manager.md R165, spec/60_exceptions.md R205). -/
theorem foldl_recorded {f : State → Fin 16 → State} {P : Probe → Probe → List ErrorKind → Prop}
    (hframe : ∀ s i, ProbeFrame i s (f s i))
    (hf : ∀ s i, ∃ kinds, Recorded i s (f s i) kinds ∧ P (s.probe i) ((f s i).probe i) kinds) {is : List (Fin 16)}
    (hdistinct : is.Nodup) (s : State) :
    ∃ new, NewEvents s (is.foldl f s) new ∧
      (∀ r, Event.report r ∈ new → r.kind ≠ .none ∧ r.probe.isSome = true) ∧
      ∀ k, (k ∈ is → P (s.probe k) ((is.foldl f s).probe k) (recordKinds k new)) ∧
        (k ∉ is → recordKinds k new = []) := by
  induction is generalizing s with
  | nil => exact ⟨[], rfl, nofun, fun k => ⟨nofun, fun _ => rfl⟩⟩
  | cons j js ih =>
    obtain ⟨hj, hjs⟩ := List.nodup_cons.mp hdistinct
    obtain ⟨kinds, ⟨first, hfirst, rfl, hown⟩, hP⟩ := hf s j
    obtain ⟨later, hlater, hfailures, hkinds⟩ := ih hjs (f s j)
    have hsame : recordKinds j first = (first.filterMap Event.record).map SinkRecord.kind := by
      rw [recordKinds, List.filter_eq_self.mpr fun r hr => by simpa using (hown r hr).2]
    have hother : ∀ k, k ≠ j → recordKinds k first = [] := fun k hk => by
      rw [recordKinds, List.filter_eq_nil_iff.mpr fun r hr => by simpa [(hown r hr).2] using hk.symm, List.map_nil]
    refine ⟨later ++ first, ?_, fun r hr => ?_, fun k => ⟨fun hk => ?_, fun hk => ?_⟩⟩
    · rw [NewEvents, List.foldl_cons, hlater, hfirst, List.append_assoc]
    · rcases List.mem_append.mp hr with hr | hr
      · exact hfailures r hr
      · obtain ⟨hkind, hprobe⟩ := hown r (List.mem_filterMap.mpr ⟨_, hr, rfl⟩)
        exact ⟨hkind, by rw [hprobe]; rfl⟩
    · rw [recordKinds_append, List.foldl_cons]
      rcases List.mem_cons.mp hk with rfl | hk
      · rw [(hkinds k).2 hj, List.nil_append, hsame, (foldl_probe hframe hjs (f s k) k).1 hj]
        exact hP
      · have hne : k ≠ j := fun e => hj (e ▸ hk)
        rw [hother k hne, List.append_nil, ← (hframe s j).probe_ne hne]
        exact (hkinds k).1 hk
    · obtain ⟨hne, hk⟩ := not_or.mp (List.mem_cons.not.mp hk)
      rw [recordKinds_append, hother k hne, (hkinds k).2 hk, List.nil_append]

/-- The end of a cycle command causes no event (spec/60_exceptions.md R203). -/
theorem NewEvents.endCycle {s t : State} {new : List Event} (h : NewEvents s t new) :
    NewEvents s (endCycle t) new := h

/-- Settles O38: outside the cycles every operation reports its failure and nothing else (`exec_recordsOutcome`); in a
cycle the records of a probe are those of its own part (`initiateProbe_recorded`, `getProbe_recorded`). -/
theorem oneRecordPerFailure : Obligations.OneRecordPerFailure := by
  refine ⟨fun i s t => exec_recordsOutcome, fun i s t hi h => ?_⟩
  rcases hi with rfl | rfl
  · obtain ⟨new, hnew, hfailures, hkinds⟩ := foldl_recorded (P := fun _ q kinds => InitRecords q kinds)
      initiateProbe_frame initiateProbe_recorded (is := probeIndices) (by decide) s
    rw [← Host.Outcome.next.inj h]
    refine ⟨new, hnew.endCycle, hfailures, fun k kinds hk => ⟨nofun, fun _ => ?_⟩⟩
    rw [hk, endCycle_probe]
    exact (hkinds k).1 (mem_probeIndices k)
  · obtain ⟨new, hnew, hfailures, hkinds⟩ := foldl_recorded (P := GetRecords) (f := fun s i => (getProbe s i).1)
      getProbe_frame getProbe_recorded (is := probeIndices) (by decide) s
    rw [← getProbes_eq_foldl] at hnew hkinds
    rw [exec_pmGetAll_next h]
    refine ⟨new, hnew.endCycle, hfailures, fun k kinds hk => ⟨fun _ => ?_, nofun⟩⟩
    rw [hk, endCycle_probe]
    exact (hkinds k).1 (mem_probeIndices k)

end Sys2Proof.Machine

/-! PROOFS. The probe groups do not interfere: two states that agree on a group still agree on it after the same
operation on the group, and after different runs of an operation on the other group (spec/44_probe_manager.md R172). -/

namespace Sys2Proof.Machine

/-! ### States that agree on a group -/

/-- The probe with another Fahrenheit whole part. -/
def Probe.withWhole (p : Probe) (b : Byte) : Probe := { p with fahrenheitWhole := b }

/-- Two probes are the same but for the stored Fahrenheit whole part, and the same altogether unless that is the free
byte of a whole part above 255 (spec/43_temperature.md R151, log entry 12). -/
def Probe.Alike (c : Config) (p q : Probe) : Prop :=
  p.withWhole 0 = q.withWhole 0 ∧
    ((fahrenheit c p.celsiusSign p.celsiusWhole.toNat p.celsiusFractionTenths.toNat).whole ≤ 255 → p = q)

theorem Probe.Alike.refl (c : Config) (p : Probe) : p.Alike c p := ⟨rfl, fun _ => rfl⟩

/-- Alike probes are the same in every field but the Fahrenheit whole part. -/
theorem Probe.Alike.eq_withWhole {c : Config} {p q : Probe} (h : p.Alike c q) : q = p.withWhole q.fahrenheitWhole :=
  calc q = (q.withWhole 0).withWhole q.fahrenheitWhole := rfl
    _ = (p.withWhole 0).withWhole q.fahrenheitWhole := by rw [h.1]
    _ = p.withWhole q.fahrenheitWhole := rfl

/-- Two states agree on group g and on the entries `ks` of BUF: the configuration and ACTIVE_RES, the transport and the
bridge of the group, its probes but for free bytes, and the transactions on its transport so far. -/
structure Agree (g : Group) (ks : List (Fin 9)) (s t : State) : Prop where
  cfg : s.cfg = t.cfg
  activeRes : s.activeRes = t.activeRes
  transport : s.transport (.grp g) = t.transport (.grp g)
  bridge : s.bridge g = t.bridge g
  buf : ∀ k ∈ ks, s.buf[k] = t.buf[k]
  probes : ∀ i, probeGroup i = g → (s.probe i).Alike s.cfg (t.probe i)
  events : s.env.events.filter (Event.onTransport (.grp g)) = t.env.events.filter (Event.onTransport (.grp g))

section Agree
variable {g : Group} {ks : List (Fin 9)} {s t : State}

theorem Agree.mono {ks' : List (Fin 9)} (h : Agree g ks s t) (hks : ∀ k ∈ ks', k ∈ ks) : Agree g ks' s t :=
  { h with buf := fun k hk => h.buf k (hks k hk) }

theorem Agree.forget (h : Agree g ks s t) : Agree g [] s t := h.mono nofun

/-- An event that is no transaction of the group may differ. -/
theorem Agree.emit (h : Agree g ks s t) {e e' : Event} (he : e.onTransport (.grp g) = false)
    (he' : e'.onTransport (.grp g) = false) : Agree g ks (s.emit e) (t.emit e') :=
  { h with events := by simp [he, he', h.events] }

theorem Agree.report (h : Agree g ks s t) (ctx : Option (Fin 16)) (k : ErrorKind) (loc extra : Half) :
    Agree g ks (s.report ctx k loc extra) (t.report ctx k loc extra) :=
  h.emit rfl rfl

theorem Agree.setBridge (h : Agree g ks s t) (b : Bridge) : Agree g ks (s.setBridge g b) (t.setBridge g b) :=
  { h with bridge := by rw [State.bridge_setBridge_same, State.bridge_setBridge_same] }

/-- The same byte written to both buffers is one entry more on which they agree. -/
theorem Agree.setBuf (h : Agree g ks s t) (k : Fin 9) (v : Byte) :
    Agree g (k :: ks) (s.setBuf k v) (t.setBuf k v) := by
  refine { h with buf := fun j hj => ?_ }
  by_cases hjk : k.val = j.val
  · simp [State.setBuf, hjk]
  · rcases List.mem_cons.mp hj with rfl | hj
    · exact absurd rfl hjk
    · simpa [State.setBuf, hjk] using h.buf j hj

/-- The same transaction on both transports of the group has the same answer. -/
theorem Agree.transacted (h : Agree g ks s t) (wb : List Byte) (rc : Nat) :
    Agree g ks (transacted g wb rc s) (transacted g wb rc t) :=
  { h with
    transport := by
      simp only [Machine.transacted, State.transport_emit, State.transport_setTransport_same, h.transport]
    events := by
      rw [transacted_events, transacted_events, h.transport, h.cfg, List.filter_cons, List.filter_cons, h.events] }

theorem Agree.updateProbe (h : Agree g ks s t) (i : Fin 16) {f f' : Probe → Probe}
    (hf : ∀ p q, p.Alike s.cfg q → (f p).Alike s.cfg (f' q)) :
    Agree g ks (s.updateProbe i f) (t.updateProbe i f') := by
  refine { h with probes := fun j hj => ?_ }
  by_cases hji : j = i
  · subst hji
    rw [State.probe_updateProbe_same, State.probe_updateProbe_same]
    exact hf _ _ (h.probes j hj)
  · rw [State.updateProbe, State.updateProbe, State.probe_setProbe_ne _ _ hji, State.probe_setProbe_ne _ _ hji]
    exact h.probes j hj

end Agree

/-! ### Operations that keep the agreement -/

/-- From two states that agree on group g and on the entries `ks` of BUF the operation ends alike: with the same value in
states that agree on the group and on the entries `ks'`, or with the same failure in states that agree on the group. -/
def Op.Agrees {α : Type} (g : Group) (ks ks' : List (Fin 9)) (x : Op α) : Prop :=
  ∀ s t, Agree g ks s t → (x.run s).1 = (x.run t).1 ∧ Agree g [] (x.run s).2 (x.run t).2 ∧
    ((x.run s).1.isOk = true → Agree g ks' (x.run s).2 (x.run t).2)

section Combinators
variable {α β : Type} {g : Group} {ks ks' ks'' : List (Fin 9)}

theorem Op.agrees_pure (a : α) : (pure a : Op α).Agrees g ks ks := fun _ _ h => ⟨rfl, h.forget, fun _ => h⟩

theorem Op.agrees_bind {x : Op α} {f : α → Op β} (hx : x.Agrees g ks ks') (hf : ∀ a, (f a).Agrees g ks' ks'') :
    (x >>= f).Agrees g ks ks'' := by
  intro s t h
  obtain ⟨hres, hfail, hok⟩ := hx s t h
  rw [Op.run_bind, Op.run_bind]
  rcases hs : x.run s with ⟨e | a, s'⟩ <;> rcases ht : x.run t with ⟨e' | b, t'⟩ <;> rw [hs, ht] at hres hfail hok <;>
    cases hres
  · exact ⟨rfl, hfail, nofun⟩
  · exact hf a s' t' (hok rfl)

/-- A read of what the states agree on. -/
theorem Op.agrees_read {f : State → α} (hf : ∀ s t, Agree g ks s t → f s = f t) : (Op.read f).Agrees g ks ks :=
  fun s t h => ⟨congrArg Except.ok (hf s t h), h.forget, fun _ => h⟩

theorem Op.agrees_modify {f : State → State} (hf : ∀ s t, Agree g ks s t → Agree g ks' (f s) (f t)) :
    (Op.modify f).Agrees g ks ks' :=
  fun s t h => ⟨rfl, (hf s t h).forget, fun _ => hf s t h⟩

theorem Op.agrees_propagate (f : Failure) : (Op.propagate f : Op α).Agrees g ks ks' :=
  fun _ _ h => ⟨rfl, h.forget, nofun⟩

theorem Op.agrees_attempt {x : Op α} (hx : x.Agrees g ks ks') : (Op.attempt x).Agrees g ks [] := fun s t h => by
  obtain ⟨hres, hfail, -⟩ := hx s t h
  exact ⟨congrArg Except.ok hres, hfail, fun _ => hfail⟩

theorem Op.Agrees.forget {x : Op α} (hx : x.Agrees g ks ks') : x.Agrees g ks [] := fun s t h =>
  have ⟨hres, hfail, _⟩ := hx s t h
  ⟨hres, hfail, fun _ => hfail⟩

theorem agrees_raise {ctx : Option (Fin 16)} {k : ErrorKind} {loc extra : Half} :
    (raise ctx k loc extra : Op α).Agrees g ks ks' :=
  fun _ _ h => ⟨rfl, (h.report _ _ _ _).forget, nofun⟩

theorem agrees_delay (d : Nat) : (delay d).Agrees g ks ks :=
  Op.agrees_modify fun _ _ h => h.emit rfl rfl

theorem agrees_cfg : (Op.read State.cfg).Agrees g ks ks := Op.agrees_read fun _ _ h => h.cfg

end Combinators

section Bridge
variable {ctx : Option (Fin 16)} {g : Group} {ks : List (Fin 9)}

theorem bridgeWrite_agrees (loc : Half) (wb : List Byte) : (bridgeWrite ctx g loc wb).Agrees g ks ks := by
  intro s t h
  have ht := h.transacted wb 0
  rcases bridgeWrite_cases ctx g loc wb s with ⟨b0, b1, hs, es⟩ | ⟨code, hs, es⟩ <;>
    rcases bridgeWrite_cases ctx g loc wb t with ⟨c0, c1, ht', et⟩ | ⟨code', ht', et⟩ <;>
    rw [h.transport, ht'] at hs <;> cases hs <;> rw [es, et]
  · exact ⟨rfl, ht.forget, fun _ => ht⟩
  · exact ⟨rfl, (ht.report _ _ _ _).forget, nofun⟩

theorem bridgeRead_agrees (loc : Half) : (bridgeRead ctx g loc).Agrees g ks ks := by
  intro s t h
  have ht := h.transacted [] 1
  rcases bridgeRead_cases ctx g loc s with ⟨b0, b1, hs, es⟩ | ⟨code, hs, es⟩ <;>
    rcases bridgeRead_cases ctx g loc t with ⟨c0, c1, ht', et⟩ | ⟨code', ht', et⟩ <;>
    rw [h.transport, ht'] at hs <;> cases hs <;> rw [es, et]
  · exact ⟨rfl, ht.forget, fun _ => ht⟩
  · exact ⟨rfl, (ht.report _ _ _ _).forget, nofun⟩

theorem readStatus_agrees : (Op.read fun s => (s.bridge g).status).Agrees g ks ks :=
  Op.agrees_read fun _ _ h => by rw [h.bridge]

theorem pollLoop_agrees (cmd1 : Byte) (left i : Nat) : (pollLoop ctx g cmd1 left i).Agrees g ks ks := by
  induction left generalizing i with
  | zero => exact Op.agrees_bind readStatus_agrees fun st => agrees_raise
  | succ n ih =>
    refine Op.agrees_bind (bridgeRead_agrees _) fun st => ?_
    refine Op.agrees_bind (Op.agrees_modify fun _ _ h => h.setBridge _) fun _ => Op.agrees_bind agrees_cfg fun cfg => ?_
    split
    · exact Op.agrees_bind (agrees_delay _) fun _ => ih _
    · split
      · exact agrees_raise
      · exact Op.agrees_pure _

theorem sendCommand_agrees (cmd1 cmd2 : Byte) : (sendCommand ctx g cmd1 cmd2).Agrees g ks ks := by
  refine Op.agrees_bind (bridgeWrite_agrees _ _) fun _ => Op.agrees_bind agrees_cfg fun cfg => ?_
  split
  · exact Op.agrees_pure _
  · refine Op.agrees_bind (Op.agrees_modify fun s t h => ?_) fun _ => pollLoop_agrees _ _ _
    rw [h.bridge]
    exact h.setBridge _

theorem oneWireReset_agrees : (oneWireReset ctx g).Agrees g ks ks :=
  Op.agrees_bind agrees_cfg fun _ => sendCommand_agrees _ _

theorem writeByte_agrees (b : Byte) : (writeByte ctx g b).Agrees g ks ks :=
  Op.agrees_bind agrees_cfg fun _ => sendCommand_agrees _ _

theorem readByte_agrees : (readByte ctx g).Agrees g ks ks :=
  Op.agrees_bind agrees_cfg fun _ => Op.agrees_bind (sendCommand_agrees _ _) fun _ =>
    Op.agrees_bind (sendCommand_agrees _ _) fun _ => bridgeRead_agrees _

theorem selectChannel_agrees (w v : Byte) : (selectChannel ctx g w v).Agrees g ks ks := by
  refine Op.agrees_bind agrees_cfg fun _ => Op.agrees_bind (sendCommand_agrees _ _) fun _ => ?_
  refine Op.agrees_bind (bridgeRead_agrees _) fun rb => ?_
  split
  · exact Op.agrees_pure _
  · exact agrees_raise

theorem resetAndConfigure_agrees (force : Bool) : (resetAndConfigure ctx g force).Agrees g ks ks := by
  cases force with
  | false => exact Op.agrees_pure _
  | true =>
    refine Op.agrees_bind agrees_cfg fun _ => Op.agrees_bind (sendCommand_agrees _ _) fun _ => ?_
    refine Op.agrees_bind (sendCommand_agrees _ _) fun _ => Op.agrees_bind (bridgeRead_agrees _) fun rb => ?_
    split
    · exact Op.agrees_pure _
    · exact agrees_raise

/-- The buffers agree on the entries that have been read into them. -/
theorem readIntoBuf_agrees (js : List (Fin 9)) : (readIntoBuf ctx g js).Agrees g ks (js.reverse ++ ks) := by
  induction js generalizing ks with
  | nil => exact Op.agrees_pure _
  | cons j js ih =>
    rw [List.reverse_cons, List.append_assoc]
    exact Op.agrees_bind readByte_agrees fun b =>
      Op.agrees_bind (Op.agrees_modify fun _ _ h => h.setBuf j b) fun _ => ih

theorem bufPrefix_eq_map (s : State) (n : Nat) : bufPrefix s n = ((List.finRange 9).take n).map fun k => s.buf[k] := by
  rw [bufPrefix, List.map_take]
  congr 1
  apply List.ext_getElem <;> simp

/-- The CRC test that ends a read sequence, on buffers that agree up to the CRC byte. -/
theorem checkBufCrc_agrees (n : Nat) (loc : Half) (hpayload : ∀ k ∈ (List.finRange 9).take n, k ∈ ks)
    (hcrc : Fin.ofNat 9 n ∈ ks) : (checkBufCrc ctx n loc).Agrees g ks ks := by
  refine Op.agrees_bind (Op.agrees_read fun s t h => ?_) fun c =>
    Op.agrees_bind (Op.agrees_read fun s t h => h.buf _ hcrc) fun received => ?_
  · rw [bufPrefix_eq_map, bufPrefix_eq_map, List.map_congr_left fun k hk => h.buf k (hpayload k hk)]
  · split
    · exact Op.agrees_pure _
    · exact agrees_raise

/-- `read_rom` fills the entries of BUF that it answers from (spec/41_bridge_sequences.md R120). -/
theorem readRom_agrees : (readRom ctx g).Agrees g [] [] := by
  refine Op.Agrees.forget (ks' := romIndices.reverse ++ []) ?_
  refine Op.agrees_bind agrees_cfg fun cfg => Op.agrees_bind oneWireReset_agrees fun _ => ?_
  refine Op.agrees_bind (writeByte_agrees _) fun _ => Op.agrees_bind (readIntoBuf_agrees romIndices) fun _ => ?_
  refine Op.agrees_bind (checkBufCrc_agrees _ _ (by decide) (by decide)) fun _ => Op.agrees_read fun s t h => ?_
  have hread : ∀ k : Fin 8, k.castSucc ∈ romIndices.reverse ++ [] := by decide
  refine Vector.ext fun k hk => ?_
  have hbyte := h.buf _ (hread ⟨k, hk⟩)
  interval_cases k <;> exact hbyte

/-- The short check reads the status byte of the group's own bridge. -/
theorem checkShort_agrees : (checkShort ctx g).Agrees g ks ks := by
  refine Op.agrees_bind agrees_cfg fun cfg => Op.agrees_bind readStatus_agrees fun st => ?_
  split
  · exact agrees_raise
  · exact Op.agrees_pure _

/-- `retrieve_scratchpad` fills the whole of BUF (spec/41_bridge_sequences.md R124). -/
theorem retrieveScratchpad_agrees : (retrieveScratchpad ctx g).Agrees g [] [] := by
  refine Op.Agrees.forget (ks' := scratchpadIndices.reverse ++ []) ?_
  refine Op.agrees_bind agrees_cfg fun cfg => Op.agrees_bind oneWireReset_agrees fun _ => ?_
  refine Op.agrees_bind checkShort_agrees fun _ => ?_
  refine Op.agrees_bind (writeByte_agrees _) fun _ => Op.agrees_bind (writeByte_agrees _) fun _ => ?_
  refine Op.agrees_bind (readIntoBuf_agrees scratchpadIndices) fun _ => ?_
  refine Op.agrees_bind (checkBufCrc_agrees _ _ (by decide) (by decide)) fun _ => Op.agrees_read fun s t h => ?_
  have hall : ∀ k, k ∈ scratchpadIndices.reverse ++ [] := by decide
  exact Vector.ext fun k hk => h.buf ⟨k, hk⟩ (hall _)

theorem copyPoll_agrees (left : Nat) : (copyPoll ctx g left).Agrees g ks ks := by
  induction left with
  | zero => exact agrees_raise
  | succ n ih =>
    refine Op.agrees_bind readByte_agrees fun b => ?_
    split
    · exact ih
    · exact Op.agrees_pure _

theorem configureProbe_agrees (bits : Nat) : (configureProbe ctx g bits).Agrees g ks ks := by
  refine Op.agrees_bind agrees_cfg fun cfg => Op.agrees_bind oneWireReset_agrees fun _ => ?_
  iterate 5 refine Op.agrees_bind (writeByte_agrees _) fun _ => ?_
  refine Op.agrees_bind oneWireReset_agrees fun _ => ?_
  iterate 2 refine Op.agrees_bind (writeByte_agrees _) fun _ => ?_
  exact Op.agrees_bind (agrees_delay _) fun _ => Op.agrees_bind oneWireReset_agrees fun _ => copyPoll_agrees _

theorem triggerConversion_agrees : (triggerConversion ctx g).Agrees g ks ks :=
  Op.agrees_bind agrees_cfg fun _ => Op.agrees_bind oneWireReset_agrees fun _ =>
    Op.agrees_bind (writeByte_agrees _) fun _ => writeByte_agrees _

end Bridge

/-! ### A probe of the group -/

/-- A change that neither reads nor writes the decoded fields. -/
structure KeepsDecoded (f : Probe → Probe) : Prop where
  whole : ∀ p b, f (p.withWhole b) = (f p).withWhole b
  celsius : ∀ p, (f p).celsiusSign = p.celsiusSign ∧ (f p).celsiusWhole = p.celsiusWhole ∧
    (f p).celsiusFractionTenths = p.celsiusFractionTenths

theorem Probe.Alike.map {c : Config} {p q : Probe} (h : p.Alike c q) {f : Probe → Probe} (hf : KeepsDecoded f) :
    (f p).Alike c (f q) := by
  obtain ⟨hsign, hwhole, htenths⟩ := hf.celsius p
  refine ⟨?_, fun hsmall => ?_⟩
  · rw [h.eq_withWhole, hf.whole]
    rfl
  · rw [hsign, hwhole, htenths] at hsmall
    rw [h.2 hsmall]

/-- Readings of the same scratchpad make probes alike: their Fahrenheit whole part is the same unless it is above 255
(spec/43_temperature.md R151). -/
theorem Probe.Alike.withReading {c : Config} {p q : Probe} (h : p.Alike c q) {sp : Vector Byte 9} {r : Fin 4}
    {v w : Reading} (hv : IsReading c sp r v) (hw : IsReading c sp r w) :
    (p.withReading v).Alike c (q.withReading w) := by
  have hdigit : (v.cFrac.setWidth 8).toNat = v.cFrac.toNat := by
    rw [BitVec.toNat_setWidth]
    omega
  obtain ⟨hvc, hvs, hvf, hvw⟩ := hv
  obtain ⟨hwc, hws, hwf, hww⟩ := hw
  have hcelsius := hwc.trans hvc.symm
  simp only [Prod.mk.injEq] at hcelsius
  obtain ⟨hsign, hwhole, hfrac⟩ := hcelsius
  rw [hsign, hwhole, hfrac] at hws hwf hww
  rw [h.eq_withWhole]
  refine ⟨?_, fun hsmall => ?_⟩
  · simp only [Probe.withReading, Probe.withWhole, hsign, hwhole, hfrac, hvs, hvf, hws, hwf]
  · simp only [Probe.withReading, hdigit] at hsmall
    have hbyte : v.fWhole = w.fWhole := BitVec.eq_of_toNat_eq ((hvw hsmall).trans (hww hsmall).symm)
    simp only [Probe.withReading, Probe.withWhole, hsign, hwhole, hfrac, hvs, hvf, hws, hwf, hbyte]

section OwnProbe
variable {i : Fin 16} {s t : State}

/-- A read of a field of PROBE[i] other than the Fahrenheit whole part. -/
theorem readProbe_agrees {α : Type} {f : Probe → α} (hf : ∀ p b, f (p.withWhole b) = f p) :
    (Op.read fun s => f (s.probe i)).Agrees (probeGroup i) [] [] :=
  Op.agrees_read fun s t h => by rw [(h.probes i rfl).eq_withWhole, hf]

/-- A write of fields of PROBE[i] other than the decoded ones. -/
theorem writeProbe_agrees {g : Group} {f : Probe → Probe} (hf : KeepsDecoded f) :
    (Op.modify fun s => s.updateProbe i f).Agrees g [] [] :=
  Op.agrees_modify fun _ _ h => h.updateProbe i fun _ _ hp => hp.map hf

theorem setPhase_agrees (p : ProbePhase) : (setPhase i p).Agrees (probeGroup i) [] [] :=
  writeProbe_agrees ⟨fun _ _ => rfl, fun _ => ⟨rfl, rfl, rfl⟩⟩

theorem identifyProbe_agrees : (identifyProbe i).Agrees (probeGroup i) [] [] := by
  refine Op.agrees_bind (readProbe_agrees (f := Probe.romKnown) fun _ _ => rfl) fun known => ?_
  split
  · exact setPhase_agrees _
  · refine Op.agrees_bind (Op.agrees_attempt readRom_agrees) fun r => ?_
    cases r with
    | ok bytes =>
      exact Op.agrees_bind (writeProbe_agrees ⟨fun _ _ => rfl, fun _ => ⟨rfl, rfl, rfl⟩⟩) fun _ => setPhase_agrees _
    | error f => exact Op.agrees_pure _

theorem configureStep_agrees : (configureStep i).Agrees (probeGroup i) [] [] := by
  refine Op.agrees_bind (readProbe_agrees (f := Probe.configured) fun _ _ => rfl) fun done => ?_
  split
  · exact Op.agrees_pure _
  · refine Op.agrees_bind (Op.agrees_read fun _ _ h => by rw [State.activeBits, h.activeRes]; rfl) fun bits => ?_
    refine Op.agrees_bind (Op.agrees_attempt (configureProbe_agrees (ks := []) bits)) fun r => ?_
    cases r with
    | ok _ => exact writeProbe_agrees ⟨fun _ _ => rfl, fun _ => ⟨rfl, rfl, rfl⟩⟩
    | error f =>
      exact Op.agrees_bind (writeProbe_agrees ⟨fun _ _ => rfl, fun _ => ⟨rfl, rfl, rfl⟩⟩) fun _ =>
        Op.agrees_propagate f

/-- The steps of `initiate_all` for a probe of the group (spec/44_probe_manager.md R166). -/
theorem initiateSteps_agrees : (initiateSteps i).Agrees (probeGroup i) [] [] := by
  refine Op.agrees_bind (writeProbe_agrees ⟨fun _ _ => rfl, fun _ => ⟨rfl, rfl, rfl⟩⟩) fun _ => ?_
  refine Op.agrees_bind (resetAndConfigure_agrees _) fun _ => Op.agrees_bind (setPhase_agrees _) fun _ => ?_
  refine Op.agrees_bind agrees_cfg fun cfg => Op.agrees_bind (selectChannel_agrees _ _) fun _ => ?_
  refine Op.agrees_bind (setPhase_agrees _) fun _ => Op.agrees_bind identifyProbe_agrees fun _ => ?_
  refine Op.agrees_bind configureStep_agrees fun _ => Op.agrees_bind (setPhase_agrees _) fun _ => ?_
  exact Op.agrees_bind triggerConversion_agrees fun _ => setPhase_agrees _

theorem Agree.recordFailure {g : Group} (h : Agree g [] s t) (i : Fin 16) (k : ErrorKind) (o : ErrorOrigin) :
    Agree g [] (recordFailure i k o s) (recordFailure i k o t) :=
  h.updateProbe i fun _ _ hp => hp.map (f := fun p => { p with lastError := k, errorOrigin := o, phase := .errored })
    ⟨fun _ _ => rfl, fun _ => ⟨rfl, rfl, rfl⟩⟩

theorem initiateProbe_agrees (h : Agree (probeGroup i) [] s t) :
    Agree (probeGroup i) [] (initiateProbe s i) (initiateProbe t i) := by
  obtain ⟨hres, hagree, -⟩ := initiateSteps_agrees s t h
  unfold initiateProbe
  rcases hs : (initiateSteps i).run s with ⟨f | _, s'⟩ <;> rcases ht : (initiateSteps i).run t with ⟨f' | _, t'⟩ <;>
    rw [hs, ht] at hres hagree <;> cases hres
  · exact hagree.recordFailure i _ _
  · exact hagree

/-- Steps 1 and 2 of `get_all` for a probe of the group (spec/44_probe_manager.md R169). -/
theorem fetchScratchpad_agrees : (fetchScratchpad i).Agrees (probeGroup i) [] [] :=
  Op.agrees_bind agrees_cfg fun _ => Op.agrees_bind (selectChannel_agrees _ _) fun _ => retrieveScratchpad_agrees

/-- Drawing free Fahrenheit whole parts is not seen by the group. -/
theorem Agree.freeDraws {g : Group} (h : Agree g [] s t) (n m : Nat) :
    Agree g [] { s with env := { s.env with freeDraws := n } } { t with env := { t.env with freeDraws := m } } :=
  ⟨h.cfg, h.activeRes, h.transport, h.bridge, h.buf, h.probes, h.events⟩

/-- Two decodes of the same scratchpad fail alike, or answer readings of it (spec/43_temperature.md R145). -/
theorem decodeScratchpad_alike (ctx : Option (Fin 16)) (sp : Vector Byte 9) (r : Fin 4) (hcfg : s.cfg = t.cfg) :
    (∃ f, (decodeScratchpad ctx sp r).run s = (.error f, s.report ctx f.kind f.loc f.extra) ∧
      (decodeScratchpad ctx sp r).run t = (.error f, t.report ctx f.kind f.loc f.extra)) ∨
    ∃ v w n m, (decodeScratchpad ctx sp r).run s = (.ok v, { s with env := { s.env with freeDraws := n } }) ∧
      (decodeScratchpad ctx sp r).run t = (.ok w, { t with env := { t.env with freeDraws := m } }) ∧
      IsReading s.cfg sp r v ∧ IsReading s.cfg sp r w := by
  rcases decodeScratchpad_cases ctx sp r s with ⟨hecho, es⟩ | ⟨hecho, hbytes, es⟩ | ⟨hecho, h5, h7, v, n, es, hv, -⟩ <;>
    rcases decodeScratchpad_cases ctx sp r t with
      ⟨hecho', et⟩ | ⟨hecho', hbytes', et⟩ | ⟨hecho', h5', h7', w, m, et, hw, -⟩ <;>
    rw [← hcfg] at hecho'
  · rw [hcfg] at es
    exact .inl ⟨_, es, et⟩
  · exact absurd hecho' hecho
  · exact absurd hecho' hecho
  · exact absurd hecho hecho'
  · exact .inl ⟨_, es, et⟩
  · exact absurd hbytes (by simp [h5', h7'])
  · exact absurd hecho hecho'
  · exact absurd hbytes' (by simp [h5, h7])
  · rw [← hcfg] at hw
    exact .inr ⟨v, w, n, m, es, et, hv, hw⟩

/-- Step 3 of `get_all` for the same scratchpad (spec/44_probe_manager.md R169, R170). -/
theorem decodeStep_agrees {g : Group} (sp : Vector Byte 9) (h : Agree g [] s t) :
    Agree g [] (decodeStep i sp s) (decodeStep i sp t) := by
  have hindex : s.activeIndex = t.activeIndex := by rw [State.activeIndex, h.activeRes, State.activeIndex]
  unfold decodeStep
  rw [← hindex]
  rcases decodeScratchpad_alike (some i) sp s.activeIndex h.cfg with
    ⟨f, es, et⟩ | ⟨v, w, n, m, es, et, hv, hw⟩ <;> rw [es, et]
  · exact (h.report _ _ _ _).recordFailure i _ _
  · exact (h.freeDraws n m).updateProbe i fun _ _ hp => hp.withReading hv hw

theorem getProbe_agrees (h : Agree (probeGroup i) [] s t) :
    Agree (probeGroup i) [] (getProbe s i).1 (getProbe t i).1 := by
  have heligible : (t.probe i).eligible = (s.probe i).eligible := by rw [(h.probes i rfl).eq_withWhole]; rfl
  unfold getProbe
  rw [heligible]
  split
  · obtain ⟨hres, hagree, -⟩ := fetchScratchpad_agrees s t h
    rcases hs : (fetchScratchpad i).run s with ⟨f | sp, s'⟩ <;>
      rcases ht : (fetchScratchpad i).run t with ⟨f' | sp', t'⟩ <;> rw [hs, ht] at hres hagree <;> cases hres
    · exact hagree.recordFailure i _ _
    · exact decodeStep_agrees sp hagree
  · exact h

end OwnProbe

/-! ### A probe of the other group -/

/-- From `s` to `t` nothing of group g changes, and no transaction is made on its transport. -/
structure Unseen (g : Group) (s t : State) : Prop where
  cfg : t.cfg = s.cfg
  activeRes : t.activeRes = s.activeRes
  transport : t.transport (.grp g) = s.transport (.grp g)
  bridge : t.bridge g = s.bridge g
  probes : ∀ i, probeGroup i = g → t.probe i = s.probe i
  events : t.env.events.filter (Event.onTransport (.grp g)) = s.env.events.filter (Event.onTransport (.grp g))

/-- What the group does not see may differ. -/
theorem Agree.unseen {g : Group} {s s' t t' : State} (h : Agree g [] s t) (hs : Unseen g s s') (ht : Unseen g t t') :
    Agree g [] s' t' where
  cfg := hs.cfg.trans (h.cfg.trans ht.cfg.symm)
  activeRes := hs.activeRes.trans (h.activeRes.trans ht.activeRes.symm)
  transport := hs.transport.trans (h.transport.trans ht.transport.symm)
  bridge := hs.bridge.trans (h.bridge.trans ht.bridge.symm)
  buf := nofun
  probes := fun i hi => by
    rw [hs.probes i hi, ht.probes i hi, hs.cfg]
    exact h.probes i hi
  events := hs.events.trans (h.events.trans ht.events.symm)

/-- No transaction is made on the transport of group g. -/
def NoTransaction (g : Group) (s t : State) : Prop :=
  t.env.events.filter (Event.onTransport (.grp g)) = s.env.events.filter (Event.onTransport (.grp g))

theorem noTransaction_of_event {g : Group} {s t : State} {e : Event} (h : t.env.events = e :: s.env.events)
    (he : e.onTransport (.grp g) = false) : NoTransaction g s t := by
  rw [NoTransaction, h, List.filter_cons_of_neg (by simp [he])]

/-- The bridge operations of the other group make their transactions on its own transport (spec/20_memory.md R54). -/
theorem noTransaction_steps (ctx : Option (Fin 16)) {g g' : Group} (hg : g' ≠ g) :
    BridgeSteps ctx g' (NoTransaction g) fun _ => NoTransaction g where
  refl _ := rfl
  trans h h' := h'.trans h
  transE h h' := h'.trans h
  setBuf _ _ _ := rfl
  setBridge _ _ _ := rfl
  resetPolls _ := rfl
  delay _ _ := noTransaction_of_event rfl rfl
  report _ _ _ _ _ _ := noTransaction_of_event rfl rfl
  write _ _ _ _ _ := noTransaction_of_event rfl (by simpa [Event.onTransport] using hg)
  read _ _ _ := noTransaction_of_event rfl (by simpa [Event.onTransport] using hg)

theorem decodeScratchpad_noTransaction (ctx : Option (Fin 16)) (g : Group) (sp : Vector Byte 9) (r : Fin 4) :
    (decodeScratchpad ctx sp r).Keeps (NoTransaction g) := by
  intro s
  rcases decodeScratchpad_cases ctx sp r s with ⟨-, e⟩ | ⟨-, -, e⟩ | ⟨-, -, -, v, n, e, -⟩ <;> rw [e]
  · exact noTransaction_of_event rfl rfl
  · exact noTransaction_of_event rfl rfl
  · exact (rfl : NoTransaction g s _)

/-- Processing a probe of the other group is not seen (spec/44_probe_manager.md R172). -/
theorem ProbeFrame.unseen {i : Fin 16} {g : Group} {s t : State} (h : ProbeFrame i s t) (hg : probeGroup i ≠ g)
    (hevents : NoTransaction g s t) : Unseen g s t where
  cfg := h.cfg
  activeRes := h.activeRes
  transport := h.transport_ne hg.symm
  bridge := by
    rw [State.bridge, h]
    exact PerGroup.get_set_ne _ _ hg.symm
  probes := fun j hj => h.probe_ne fun e => hg (e ▸ hj)
  events := hevents

theorem initiateProbe_unseen {i : Fin 16} {g : Group} (hg : probeGroup i ≠ g) (s : State) :
    Unseen g s (initiateProbe s i) :=
  (initiateProbe_frame s i).unseen hg (initiateProbe_keeps (noTransaction_steps (some i) hg) (fun _ _ => rfl) s)

theorem getProbe_unseen {i : Fin 16} {g : Group} (hg : probeGroup i ≠ g) (s : State) :
    Unseen g s (getProbe s i).1 :=
  (getProbe_frame s i).unseen hg
    (getProbe_keeps (noTransaction_steps (some i) hg) (fun _ _ => rfl) (decodeScratchpad_noTransaction (some i) g) s)

/-! ### The cycle commands -/

/-- A cycle keeps the agreement on a group: each probe of the group is processed alike, and the others are not seen
(spec/44_probe_manager.md R165, R172). -/
theorem foldl_agrees {g : Group} {f : State → Fin 16 → State}
    (hown : ∀ i s t, Agree (probeGroup i) [] s t → Agree (probeGroup i) [] (f s i) (f t i))
    (hother : ∀ i s, probeGroup i ≠ g → Unseen g s (f s i)) (is : List (Fin 16)) {s t : State} (h : Agree g [] s t) :
    Agree g [] (is.foldl f s) (is.foldl f t) := by
  induction is generalizing s t with
  | nil => exact h
  | cons i is ih =>
    refine ih ?_
    by_cases hg : probeGroup i = g
    · subst hg
      exact hown i s t h
    · exact h.unseen (hother i s hg) (hother i t hg)

/-- States that differ only in the transport of the other group agree. -/
theorem agree_setTransport_other (g : Group) (s : State) (x : Transport) :
    Agree g [] s (s.setTransport (.grp g.other) x) where
  cfg := rfl
  activeRes := rfl
  transport := (State.transport_setTransport_ne s x (by cases g <;> decide)).symm
  bridge := rfl
  buf := nofun
  probes := fun i _ => Probe.Alike.refl s.cfg (s.probe i)
  events := rfl

/-- The end of a cycle command leaves what the groups see (spec/60_exceptions.md R203). -/
theorem Agree.endCycle {g : Group} {s t : State} (h : Agree g [] s t) : Agree g [] (endCycle s) (endCycle t) :=
  ⟨h.cfg, h.activeRes, h.transport, h.bridge, h.buf, h.probes, h.events⟩

/-- A cycle command keeps the agreement on a group. -/
theorem exec_cycle_agrees {i : Instr} (hi : i = .pmInitiateAll ∨ i = .pmGetAll) {g : Group} {s s' t t' : State}
    (h : Agree g [] s t) (hs : exec i s = .next s') (ht : exec i t = .next t') : Agree g [] s' t' := by
  rcases hi with rfl | rfl
  · rw [← Host.Outcome.next.inj hs, ← Host.Outcome.next.inj ht]
    exact (foldl_agrees (fun _ _ _ => initiateProbe_agrees) (fun _ s hg => initiateProbe_unseen hg s) _ h).endCycle
  · rw [exec_pmGetAll_next hs, exec_pmGetAll_next ht, getProbes_eq_foldl, getProbes_eq_foldl]
    exact (foldl_agrees (f := fun s i => (getProbe s i).1) (fun _ _ _ => getProbe_agrees)
      (fun _ s hg => getProbe_unseen hg s) _ h).endCycle

/-- Settles O51: the two runs keep the agreement on the group (`exec_cycle_agrees`) in which they begin. -/
theorem groupsDoNotInterfere : Obligations.GroupsDoNotInterfere := by
  intro i g s₁ s₂ t₁ t₂ x hi hs h₁ h₂
  subst hs
  have hagree := exec_cycle_agrees hi (agree_setTransport_other g s₁ x) h₁ h₂
  obtain ⟨hcfg, n₁, hn₁, -⟩ := exec_emitsLegal h₁
  obtain ⟨-, n₂, hn₂, -⟩ := exec_emitsLegal h₂
  refine ⟨hagree.transport, hagree.bridge, fun k hk => ?_, n₁, n₂, hn₁, hn₂, ?_⟩
  · rw [groupProbes_eq_filter] at hk
    have hk' : probeGroup k = g := by simpa using hk
    have halike := hagree.probes k hk'
    rwa [hcfg] at halike
  · have hevents := hagree.events
    rw [hn₁, hn₂, List.filter_append, List.filter_append] at hevents
    exact List.append_cancel_right hevents

end Sys2Proof.Machine

/-! PROOFS. The trimmed average of a channel's samples: the accumulators as sums and extremes of lists of numbers, and
the bounds of the average (spec/45_adc.md R185, R186). -/

namespace Sys2Proof.Machine

/-! ### Accumulators -/

/-- A counted sample goes into the least, the greatest, the sum and the count (spec/45_adc.md R185). -/
theorem AdcAcc.add_values (a : AdcAcc) (x : BitVec 12) :
    (a.add x).low.toNat = min a.low.toNat x.toNat ∧ (a.add x).high.toNat = max a.high.toNat x.toNat ∧
      (a.add x).sum = a.sum + BitVec.ofNat 32 x.toNat := by
  refine ⟨?_, ?_, ?_⟩
  · simp only [AdcAcc.add]
    split <;> omega
  · simp only [AdcAcc.add]
    split <;> omega
  · simp only [AdcAcc.add, BitVec.ofNat_toNat]

/-- Samples accumulate into their minimum, maximum, sum and number. -/
theorem AdcAcc.foldl_add_values (xs : List (BitVec 12)) (a : AdcAcc) :
    (xs.foldl AdcAcc.add a).low.toNat = (xs.map BitVec.toNat).foldl min a.low.toNat ∧
      (xs.foldl AdcAcc.add a).high.toNat = (xs.map BitVec.toNat).foldl max a.high.toNat ∧
      (xs.foldl AdcAcc.add a).sum = a.sum + BitVec.ofNat 32 (xs.map BitVec.toNat).sum ∧
      (xs.foldl AdcAcc.add a).count = a.count + xs.length := by
  induction xs generalizing a with
  | nil => simp
  | cons x xs ih =>
    obtain ⟨hlow, hhigh, hsum, hcount⟩ := ih (a.add x)
    obtain ⟨hlow', hhigh', hsum'⟩ := a.add_values x
    simp only [List.foldl_cons, List.map_cons, List.sum_cons, List.length_cons]
    refine ⟨by rw [hlow, hlow'], by rw [hhigh, hhigh'], ?_, ?_⟩
    · rw [hsum, hsum', BitVec.ofNat_add, BitVec.add_assoc]
    · rw [hcount, AdcAcc.add_count]
      omega

theorem sampleCode_le {xs : List (BitVec 12)} {n : Nat} (hn : n ∈ xs.map BitVec.toNat) : n ≤ 4095 := by
  obtain ⟨x, -, rfl⟩ := List.mem_map.mp hn
  exact Nat.le_of_lt_succ x.isLt

/-- The sum of 65535 samples at most does not overflow its 32 bits (spec/45_adc.md R186). -/
theorem AdcAcc.sum_of_samples {xs : List (BitVec 12)} (h : xs.length ≤ 65535) :
    (xs.foldl AdcAcc.add AdcAcc.start).sum.toNat = (xs.map BitVec.toNat).sum := by
  have hle : (xs.map BitVec.toNat).sum ≤ xs.length * 4095 := by
    simpa using List.sum_le_card_nsmul (xs.map BitVec.toNat) 4095 fun _ => sampleCode_le
  obtain ⟨-, -, hsum, -⟩ := AdcAcc.foldl_add_values xs AdcAcc.start
  have hzero : AdcAcc.start.sum = 0#32 := rfl
  rw [hsum, hzero, BitVec.zero_add, BitVec.toNat_ofNat]
  omega

/-! ### The least and the greatest sample taken out -/

/-- What is left of a sum without its extremes lies, sample by sample, between the bounds of the samples: of the old
extremes and a new sample the middle one joins what is left (spec/45_adc.md R186). -/
theorem sum_between_of_foldl_extremes {lo hi : Nat} (l : List Nat) (hl : ∀ x ∈ l, lo ≤ x ∧ x ≤ hi) (m M S k : Nat)
    (hm : lo ≤ m) (hmM : m ≤ M) (hM : M ≤ hi) (hlow : m + M + k * lo ≤ S) (hhigh : S ≤ m + M + k * hi) :
    l.foldl min m + l.foldl max M + (k + l.length) * lo ≤ S + l.sum ∧
      S + l.sum ≤ l.foldl min m + l.foldl max M + (k + l.length) * hi := by
  induction l generalizing m M S k with
  | nil => exact ⟨hlow, hhigh⟩
  | cons x l ih =>
    obtain ⟨hxlo, hxhi⟩ := hl x List.mem_cons_self
    have hk : ∀ b, (k + 1) * b = k * b + b := fun b => Nat.succ_mul k b
    have := ih (fun y hy => hl y (List.mem_cons_of_mem x hy)) (min m x) (max M x) (S + x) (k + 1)
      (by omega) (by omega) (by omega) (by rw [hk]; omega) (by rw [hk]; omega)
    simpa only [List.foldl_cons, List.sum_cons, List.length_cons, Nat.add_assoc, Nat.add_comm 1] using this

/-- The average without the extremes lies between the bounds of the samples (spec/45_adc.md R186). -/
theorem trimmedQuotient_between {lo hi : Nat} {l : List Nat} (h3 : 3 ≤ l.length)
    (hl : ∀ x ∈ l, lo ≤ x ∧ x ≤ hi) (h12 : ∀ x ∈ l, x ≤ 4095) :
    lo ≤ (l.sum - l.foldl min 4095 - l.foldl max 0) / (l.length - 2) ∧
      (l.sum - l.foldl min 4095 - l.foldl max 0) / (l.length - 2) ≤ hi := by
  match l, h3, hl, h12 with
  | x :: y :: l, h3, hl, h12 =>
    obtain ⟨hx, hy, hl⟩ : (lo ≤ x ∧ x ≤ hi) ∧ (lo ≤ y ∧ y ≤ hi) ∧ ∀ z ∈ l, lo ≤ z ∧ z ≤ hi := by simpa using hl
    obtain ⟨hx12, hy12, -⟩ : x ≤ 4095 ∧ y ≤ 4095 ∧ ∀ z ∈ l, z ≤ 4095 := by simpa using h12
    obtain ⟨hlow, hhigh⟩ := sum_between_of_foldl_extremes l hl (min (min 4095 x) y) (max (max 0 x) y) (x + y) 0
      (by omega) (by omega) (by omega) (by omega) (by omega)
    have hpos : 0 < l.length := Nat.lt_of_add_lt_add_right (n := 2) h3
    have hlength : (x :: y :: l).length - 2 = l.length := rfl
    rw [Nat.zero_add] at hlow hhigh
    rw [hlength]
    simp only [List.foldl_cons, List.sum_cons]
    constructor
    · rw [Nat.le_div_iff_mul_le hpos, Nat.mul_comm lo]
      omega
    · apply Nat.div_le_of_le_mul
      omega

/-- The trimmed average of the samples, as a number: it loses nothing in its 16 bits (spec/45_adc.md R186). -/
theorem trimmedAverage_of_samples {xs : List (BitVec 12)} (h3 : 3 ≤ xs.length) (h : xs.length ≤ 65535) :
    (trimmedAverage xs.length (xs.foldl AdcAcc.add AdcAcc.start)).toNat =
      ((xs.map BitVec.toNat).sum - (xs.map BitVec.toNat).foldl min 4095 - (xs.map BitVec.toNat).foldl max 0) /
        (xs.length - 2) := by
  obtain ⟨hlow, hhigh, -, -⟩ := AdcAcc.foldl_add_values xs AdcAcc.start
  have hle := (trimmedQuotient_between (lo := 0) (l := xs.map BitVec.toNat) (by simpa using h3)
    (fun _ hn => ⟨Nat.zero_le _, sampleCode_le hn⟩) fun _ => sampleCode_le).2
  rw [List.length_map] at hle
  rw [trimmedAverage, AdcAcc.sum_of_samples h, hlow, hhigh, BitVec.toNat_ofNat]
  exact Nat.mod_eq_of_lt (Nat.lt_of_le_of_lt hle (by decide))

/-- Settles O55: the average as a number (`trimmedAverage_of_samples`) lies between the bounds of the samples. -/
theorem trimmedAverageWithinSamples : Obligations.TrimmedAverageWithinSamples := by
  intro xs lo hi h3 h hxs
  have hcodes : ∀ n ∈ xs.map BitVec.toNat, lo ≤ n ∧ n ≤ hi := by simpa using hxs
  have := trimmedQuotient_between (by simpa using h3) hcodes fun _ => sampleCode_le
  rwa [List.length_map, ← trimmedAverage_of_samples h3 h] at this

end Sys2Proof.Machine

/-! PROOFS. ADC_PASS uses T[ADC] alone (spec/45_adc.md R190). -/

namespace Sys2Proof.Machine

/-- Relations that compose and hold of every elementary change of a sampling pass: a transaction on T[ADC], the record
of a failed attempt, a write of the sampler's registers, and the end of the command (spec/45_adc.md R185). -/
structure PassSteps (R : State → State → Prop) : Prop extends Composes R where
  transact : ∀ s x wb rc a, R s ((s.setTransport .adc x).emit (.transact .adc s.cfg.adcAddr wb rc a))
  report : ∀ s k loc extra, R s (s.report none k loc extra)
  setAdc : ∀ s a, R s (s.setAdc a)
  endCommand : ∀ s r, R s (endCommand r s)

section
variable {R : State → State → Prop} (h : PassSteps R)
include h

theorem adcSample_passSteps (c : Fin 8) (s : State) : R s ((adcSample c).run s).2 := by
  have hselected : R s (adcSelected c s) := h.transact s _ _ _ _
  have hread : R s (adcReadBack (adcSelected c s)) := h.trans hselected (h.transact _ _ _ _ _)
  rcases adcSample_cases c s with ⟨_, _, e⟩ | ⟨_, _, _, _, _, e⟩ | ⟨_, _, _, _, _, _, e⟩ <;> rw [e]
  · exact h.trans hselected (h.report _ _ _ _)
  · exact h.trans hread (h.report _ _ _ _)
  · exact h.trans hread (h.setAdc _ _)

theorem adcClose_passSteps (c : Fin 8) (s : State) : R s (adcClose c s) := by
  unfold adcClose
  dsimp only
  split
  · exact h.setAdc _ _
  · exact h.trans (h.setAdc _ _) (h.endCommand _ _)

theorem adcRound_passSteps (c : Fin 8) (s : State) : R s (adcRound c s) := by
  have hsample : R s (if (s.adcAcc c).count < s.cfg.adcSamples then ((adcSample c).run s).2 else s) := by
    split
    · exact adcSample_passSteps h c s
    · exact h.refl s
  unfold adcRound
  generalize (if (s.adcAcc c).count < s.cfg.adcSamples then ((adcSample c).run s).2 else s) = s' at hsample ⊢
  dsimp only
  split
  · exact hsample
  · exact h.trans hsample (adcClose_passSteps h c s')

theorem continueCommand_passSteps (s : State) : R s (continueCommand s) := by
  unfold continueCommand
  split
  · exact adcRound_passSteps h _ s
  · exact h.refl s

theorem adcPlay_passSteps (n : Nat) (s : State) : R s (adcPlay n s) := by
  induction n generalizing s with
  | zero => exact h.refl s
  | succ n ih =>
    unfold adcPlay
    split
    · exact h.trans (adcRound_passSteps h _ s) (ih _)
    · exact h.refl s

end

/-- What a pass may do by its isolation: PROBE, BR_*, TD_*, BUF and the groups' transports stay, and no transaction on
them is added (spec/45_adc.md R190). -/
structure AdcOnly (s t : State) : Prop where
  probes : t.probes = s.probes
  bridges : t.bridges = s.bridges
  td : t.td = s.td
  buf : t.buf = s.buf
  transport : ∀ g, t.transport (.grp g) = s.transport (.grp g)
  events : ∃ new, NewEvents s t new ∧ ∀ (g : Group), ∀ e ∈ new, e.onTransport (.grp g) = false

theorem adcOnly_refl (s : State) : AdcOnly s s := ⟨rfl, rfl, rfl, rfl, fun _ => rfl, [], rfl, nofun⟩

theorem adcOnly_trans {s t u : State} (h : AdcOnly s t) (h' : AdcOnly t u) : AdcOnly s u := by
  obtain ⟨new, hnew, hoff⟩ := h.events
  obtain ⟨new', hnew', hoff'⟩ := h'.events
  refine ⟨h'.probes.trans h.probes, h'.bridges.trans h.bridges, h'.td.trans h.td, h'.buf.trans h.buf,
    fun g => (h'.transport g).trans (h.transport g), new' ++ new, ?_, fun g e he => ?_⟩
  · rw [NewEvents, hnew', hnew, List.append_assoc]
  · exact (List.mem_append.mp he).elim (hoff' g e) (hoff g e)

/-- The port's state, the result registers and the sampler are no part of what the isolation speaks of. -/
theorem adcOnly_registers (s : State) (p : CpState) (r : ResultRegs) (a : Adc) :
    AdcOnly s { s with cpState := p, res := r, adc := a } :=
  ⟨rfl, rfl, rfl, rfl, fun _ => rfl, [], rfl, nofun⟩

theorem adcOnly_report (s : State) (k : ErrorKind) (loc extra : Half) : AdcOnly s (s.report none k loc extra) :=
  ⟨rfl, rfl, rfl, rfl, fun _ => rfl, [_], rfl, fun _ _ he => by rw [List.mem_singleton.mp he]; rfl⟩

theorem adcOnly_transact (s : State) (x : Transport) (addr : BitVec 7) (wb : List Byte) (rc : Nat) (a : Answer) :
    AdcOnly s ((s.setTransport .adc x).emit (.transact .adc addr wb rc a)) :=
  ⟨rfl, rfl, rfl, rfl, fun _ => State.transport_setTransport_ne s x nofun, [_], rfl,
    fun _ _ he => by rw [List.mem_singleton.mp he]; rfl⟩

theorem adcOnly_passSteps : PassSteps AdcOnly where
  refl := adcOnly_refl
  trans := adcOnly_trans
  transact s x wb rc a := adcOnly_transact s x s.cfg.adcAddr wb rc a
  report := adcOnly_report
  setAdc s a := adcOnly_registers s s.cpState s.res a
  endCommand s r := by
    rw [endCommand_eq]
    exact adcOnly_registers s _ _ s.adc

/-- Settles O56: every elementary change of a pass uses T[ADC] alone, so the command and its later rounds do. -/
theorem adcIsIsolated : Obligations.AdcIsIsolated := by
  intro s t h
  have hst : AdcOnly s t := by
    rcases h with h | ⟨hreset, hrunning, h⟩
    · cases h
      have hbegin : AdcOnly s (adcBegin 0 { s with cpState := .running }) := adcOnly_registers s .running s.res _
      exact adcOnly_trans hbegin (adcPlay_passSteps adcOnly_passSteps _ _)
    · rw [step_of_running hreset hrunning] at h
      cases h
      exact continueCommand_passSteps adcOnly_passSteps s
  exact ⟨hst.probes, hst.bridges, hst.td, hst.buf, hst.transport .g0, hst.transport .g1, hst.events⟩

end Sys2Proof.Machine

/-! PROOFS. A sampling pass on a transport that answers errors (spec/45_adc.md R189). -/

namespace Sys2Proof.Machine

/-- Nothing has been counted between `s` and `t`: the sampler, the result registers, the port's state and what decides
the next step are as they were (spec/45_adc.md R185, R189). -/
structure NothingCounted (s t : State) : Prop where
  cfg : t.cfg = s.cfg
  cpState : t.cpState = s.cpState
  res : t.res = s.res
  adc : t.adc = s.adc
  resetRequest : t.env.resetRequest = s.env.resetRequest

theorem nothingCounted_composes : Composes NothingCounted where
  refl _ := ⟨rfl, rfl, rfl, rfl, rfl⟩
  trans h h' := ⟨h'.cfg.trans h.cfg, h'.cpState.trans h.cpState, h'.res.trans h.res, h'.adc.trans h.adc,
    h'.resetRequest.trans h.resetRequest⟩

/-- What keeps a channel short of its samples (spec/45_adc.md R185). -/
theorem NothingCounted.count_lt {s t : State} (h : NothingCounted s t) {c : Fin 8}
    (hcount : (s.adcAcc c).count < s.cfg.adcSamples) : (t.adcAcc c).count < t.cfg.adcSamples := by
  rwa [State.adcAcc, h.adc, h.cfg]

/-- A round whose next answer is an error counts nothing and takes that answer (spec/45_adc.md R185). -/
theorem adcRound_nothingCounted {c : Fin 8} {s : State} (hcount : (s.adcAcc c).count < s.cfg.adcSamples) {code : Half}
    (h : (Transport.draw .adc (s.transport .adc)).1 = .err code) :
    NothingCounted s (adcRound c s) ∧
      (adcRound c s).transport .adc = (Transport.draw .adc (s.transport .adc)).2 := by
  rw [adcRound_fails c s hcount h]
  exact ⟨⟨rfl, rfl, rfl, rfl, rfl⟩, State.transport_setTransport_same s .adc _⟩

/-- While an answer is listed and the pass is not over, one more round is played (log entry 2). -/
theorem adcPlay_succ {c : Fin 8} {s : State} {a : Answer} {rest : List Answer} (hchannel : s.adc.channel = some c)
    (hanswers : (s.transport .adc).answers = a :: rest) (n : Nat) : adcPlay (n + 1) s = adcPlay n (adcRound c s) := by
  have h : s.env.transports.tadc.answers = a :: rest := hanswers
  simp only [adcPlay, hchannel, h]

/-- A pass that is over plays no round. -/
theorem adcPlay_of_no_channel {s : State} (hchannel : s.adc.channel = none) (n : Nat) : adcPlay n s = s := by
  cases n with
  | zero => rfl
  | succ n => simp only [adcPlay, hchannel]

/-- The rounds of n listed errors count nothing and leave no answer listed (spec/45_adc.md R189). -/
theorem adcPlay_of_fails {c : Fin 8} {m : Nat} (n : Nat) {s : State} (hchannel : s.adc.channel = some c)
    (hcount : (s.adcAcc c).count < s.cfg.adcSamples) (hn : (s.transport .adc).answers.length = n)
    (hfails : Transport.Fails .adc (n + m) (s.transport .adc)) :
    NothingCounted s (adcPlay n s) ∧ ((adcPlay n s).transport .adc).answers = [] ∧
      Transport.Fails .adc m ((adcPlay n s).transport .adc) := by
  induction n generalizing s with
  | zero =>
    rw [Nat.zero_add] at hfails
    exact ⟨nothingCounted_composes.refl s, List.eq_nil_of_length_eq_zero hn, hfails⟩
  | succ n ih =>
    rw [Nat.add_right_comm] at hfails
    obtain ⟨⟨code, herr⟩, hfails⟩ := hfails
    obtain ⟨a, rest, hanswers⟩ := List.exists_cons_of_length_eq_add_one hn
    obtain ⟨hkept, htransport⟩ := adcRound_nothingCounted hcount herr
    have hrest : (Transport.draw .adc (s.transport .adc)).2.answers.length = n := by
      rw [Transport.draw_listed _ _ _ _ hanswers]
      simpa [hanswers] using hn
    rw [← htransport] at hfails hrest
    obtain ⟨hkept', hend⟩ := ih (by rw [hkept.adc, hchannel]) (hkept.count_lt hcount) hrest hfails
    rw [adcPlay_succ hchannel hanswers]
    exact ⟨nothingCounted_composes.trans hkept hkept', hend⟩

/-- A run whose first step goes on from there. -/
theorem core_run_succ {s t : State} (h : step s = .next t) (n : Nat) :
    Sys2Proof.core.run (n + 1) s = Sys2Proof.core.run n t := by
  have h' : Sys2Proof.core.step s = .next t := h
  simp only [Host.Core.run, h']

/-- A step of a pass in progress is one round of its channel (log entry 2). -/
theorem step_of_channel {c : Fin 8} {s : State} (hreset : s.env.resetRequest = .none) (hrunning : s.cpState = .running)
    (hchannel : s.adc.channel = some c) : step s = .next (adcRound c s) := by
  rw [step_of_running hreset hrunning]
  simp only [continueCommand, hchannel]

/-- Any number of steps of a running pass on failing answers counts nothing: there is no retry bound
(spec/45_adc.md R189). -/
theorem run_of_fails {c : Fin 8} (n : Nat) {s : State} (hreset : s.env.resetRequest = .none)
    (hrunning : s.cpState = .running) (hchannel : s.adc.channel = some c)
    (hcount : (s.adcAcc c).count < s.cfg.adcSamples) (hfails : Transport.Fails .adc n (s.transport .adc)) :
    ∃ u : State, Sys2Proof.core.run n s = .next u ∧ NothingCounted s u := by
  induction n generalizing s with
  | zero => exact ⟨s, rfl, nothingCounted_composes.refl s⟩
  | succ n ih =>
    obtain ⟨⟨code, herr⟩, hfails⟩ := hfails
    obtain ⟨hkept, htransport⟩ := adcRound_nothingCounted hcount herr
    rw [← htransport] at hfails
    obtain ⟨u, hrun, hkept'⟩ := ih (by rw [hkept.resetRequest, hreset]) (by rw [hkept.cpState, hrunning])
      (by rw [hkept.adc, hchannel]) (hkept.count_lt hcount) hfails
    exact ⟨u, (core_run_succ (step_of_channel hreset hrunning hchannel) n).trans hrun, nothingCounted_composes.trans hkept hkept'⟩

/-- A channel that has just begun is short of its samples (spec/45_adc.md R185). -/
theorem adcBegin_count_lt (c : Fin 8) (s : State) :
    ((adcBegin c s).adcAcc c).count < (adcBegin c s).cfg.adcSamples := by
  have hsamples := adcSamples_range s.cfg
  have hstart : (adcBegin c s).adcAcc c = AdcAcc.start := by simp [adcBegin, State.adcAcc]
  rw [hstart]
  exact Nat.lt_of_lt_of_le (by decide) hsamples.1

/-- Settles O54: the command plays the listed errors, later steps take one each, and none of them counts anything. -/
theorem adcPassHasNoRetryBound : Obligations.AdcPassHasNoRetryBound := by
  intro n s hreset
  refine ⟨fun hfails => ?_, fun hrunning ⟨c, hchannel, hcount⟩ hfails => ?_⟩
  · obtain ⟨hplayed, hanswers, hfails'⟩ := adcPlay_of_fails (s := adcBegin 0 { s with cpState := .running })
      (s.transport .adc).answers.length rfl (adcBegin_count_lt _ _) rfl hfails
    obtain ⟨u, hrun, hmore⟩ := run_of_fails n (hplayed.resetRequest.trans hreset) hplayed.cpState
      (congrArg Adc.channel hplayed.adc) (hplayed.count_lt (adcBegin_count_lt _ _)) hfails'
    have hrun' := nothingCounted_composes.trans hplayed hmore
    refine ⟨_, u, rfl, hanswers, hrun, ?_⟩
    rintro v (rfl | rfl)
    · exact ⟨hplayed.cpState, hplayed.res, hplayed.adc⟩
    · exact ⟨hrun'.cpState, hrun'.res, hrun'.adc⟩
  · obtain ⟨u, hrun, hkept⟩ := run_of_fails n hreset hrunning hchannel hcount hfails
    exact ⟨u, hrun, hkept.cpState.trans hrunning, hkept.res, hkept.adc⟩

end Sys2Proof.Machine

/-! PROOFS. A sampling pass on a listed script of attempts: one attempt, one channel, the whole pass
(spec/45_adc.md R185 to R187). -/

namespace Sys2Proof.Machine

/-! ### Closing a channel -/

/-- The sampler when a pass ends: the averages are published, no channel is in progress (spec/45_adc.md R187). -/
def Adc.published (a : Adc) : Adc where
  acc := a.acc
  avg := a.avg
  dishH := #v[a.avg[0], a.avg[1], a.avg[2], a.avg[3]]
  dishV := #v[a.avg[4], a.avg[5], a.avg[6], a.avg[7]]
  hDiff := differential #v[a.avg[0], a.avg[1], a.avg[2], a.avg[3]]
  vDiff := differential #v[a.avg[4], a.avg[5], a.avg[6], a.avg[7]]
  channel := none

theorem adcFinish_eq (s : State) :
    adcFinish s = { s with cpState := .idle, res := okResult s.res.value, adc := s.adc.published } := rfl

/-- The pass comes to channel k, or after the last one to its end (spec/45_adc.md R185). -/
def adcEnter (k : Nat) (s : State) : State := if h : k < 8 then adcBegin ⟨k, h⟩ s else adcFinish s

theorem adcEnter_of_lt {k : Nat} (h : k < 8) (s : State) : adcEnter k s = adcBegin ⟨k, h⟩ s := dif_pos h

theorem adcEnter_eight (s : State) : adcEnter 8 s = adcFinish s := rfl

/-- Closing a channel writes its average, and the pass comes to the next one (spec/45_adc.md R185, R186). -/
theorem adcClose_eq (c : Fin 8) (s : State) :
    adcClose c s = adcEnter (c.val + 1)
      (s.setAdc { s.adc with avg := s.adc.avg.set c (trimmedAverage s.cfg.adcSamples (s.adcAcc c)) }) := rfl

section
variable {s t : State} {a : Adc} {rest : List Answer} {l : List Event}

theorem Sampled.setAdc (h : Sampled s t a rest l) (a' : Adc) : Sampled s (t.setAdc a') a' rest l :=
  ⟨congrArg (State.setAdc · a') h.1, h.2.congr rfl rfl⟩

/-- `t` is `s` after the attempts that end a pass: success in the result registers, the port IDLE, the sampler's
registers as given, T[ADC]'s listed answers down to `rest`, the events of `Trace` added, and nothing else changed. -/
def PassEnded (s t : State) (a : Adc) (rest : List Answer) (l : List Event) : Prop :=
  t = { s with
    cpState := .idle
    res := okResult s.res.value
    adc := a
    env := { s.env with
      transports := { s.env.transports with tadc := { s.env.transports.tadc with answers := rest } }
      events := t.env.events } } ∧
  Trace s t l

theorem PassEnded.cpState (h : PassEnded s t a rest l) : t.cpState = .idle := by rw [h.1]
theorem PassEnded.res (h : PassEnded s t a rest l) : t.res = okResult s.res.value := by rw [h.1]
theorem PassEnded.adc (h : PassEnded s t a rest l) : t.adc = a := by rw [h.1]

/-- What attempts and the end of a pass leave unchanged (spec/45_adc.md R185, R190). -/
def AttemptFrame (s t : State) (rest : List Answer) : Prop :=
  t = { s with
    cpState := t.cpState
    res := t.res
    adc := t.adc
    env := { s.env with
      transports := { s.env.transports with tadc := { s.env.transports.tadc with answers := rest } }
      events := t.env.events } }

theorem Sampled.frame (h : Sampled s t a rest l) : AttemptFrame s t rest := by
  rw [AttemptFrame, h.cpState, h.res, h.adc]
  exact h.1

theorem PassEnded.frame (h : PassEnded s t a rest l) : AttemptFrame s t rest := by
  rw [AttemptFrame, h.cpState, h.res, h.adc]
  exact h.1

/-- The end of a pass publishes and ends the command with success (spec/45_adc.md R185, R187). -/
theorem Sampled.adcFinish {p : CpState} (h : Sampled { s with cpState := p } t a rest l) :
    PassEnded s (adcFinish t) a.published rest l := by
  obtain ⟨h, htrace⟩ := h
  refine ⟨?_, htrace.congr rfl rfl⟩
  rw [adcFinish_eq]
  generalize t.env.events = ev at h
  rw [h]

end

/-! ### One attempt -/

/-- The 12-bit sample of an attempt (spec/30_encoding.md R91). -/
def AdcAttempt.data : AdcAttempt → Option (BitVec 12)
  | .selectFails _ => none
  | .readFails _ _ => none
  | .sample _ d => some (adcCode d.1 d.2)

theorem AdcAttempt.code_eq (x : AdcAttempt) : x.code = x.data.map BitVec.toNat := by
  cases x with
  | selectFails _ => rfl
  | readFails _ _ => rfl
  | sample _ d => exact congrArg some (adcCode_toNat d.1 d.2).symm

theorem AdcAttempt.acc_eq (x : AdcAttempt) (a : AdcAcc) : x.acc a = x.data.elim a a.add := by
  cases x <;> rfl

theorem AdcAttempt.answers_eq_cons (x : AdcAttempt) : ∃ a rest, x.answers = a :: rest := by
  cases x <;> exact ⟨_, _, rfl⟩

/-- The codes of some attempts are their samples as numbers. -/
theorem filterMap_code_eq (xs : List AdcAttempt) :
    xs.filterMap AdcAttempt.code = (xs.filterMap AdcAttempt.data).map BitVec.toNat := by
  rw [List.map_filterMap]
  exact congrArg (List.filterMap · xs) (funext AdcAttempt.code_eq)

/-- Accumulators are determined by their values as numbers. -/
theorem AdcAcc.eq_of_values {a b : AdcAcc} (hlow : a.low.toNat = b.low.toNat) (hhigh : a.high.toNat = b.high.toNat)
    (hsum : a.sum = b.sum) (hcount : a.count = b.count) : a = b := by
  cases a
  cases b
  rw [AdcAcc.mk.injEq]
  exact ⟨BitVec.eq_of_toNat_eq hlow, BitVec.eq_of_toNat_eq hhigh, hsum, hcount⟩

/-- What a counted code does to the accumulators determines them (spec/45_adc.md R185). -/
theorem AdcAttempt.eq_acc_of_some {x : AdcAttempt} {code : Nat} (h : x.code = some code) {a b : AdcAcc}
    (hlow : b.low.toNat = min a.low.toNat code) (hhigh : b.high.toNat = max a.high.toNat code)
    (hsum : b.sum = a.sum + BitVec.ofNat 32 code) (hcount : b.count = a.count + 1) : b = x.acc a := by
  obtain ⟨hlow', hhigh', hsum', hcount'⟩ := AdcAttempt.acc_of_some h a
  exact AdcAcc.eq_of_values (hlow.trans hlow'.symm) (hhigh.trans hhigh'.symm) (hsum.trans hsum'.symm)
    (hcount.trans hcount'.symm)

/-- An attempt on its script leaves the pass at its channel, or closes the channel and comes to the next one or to the
end of the pass (spec/45_adc.md R185, R186). -/
theorem adcRound_script_cases (c : Fin 8) (x : AdcAttempt) (s : State) {rest : List Answer}
    (hcount : (s.adcAcc c).count < s.cfg.adcSamples) (hanswers : (s.transport .adc).answers = x.answers ++ rest) :
    let acc := x.acc (s.adcAcc c)
    let avg := s.adc.avg.set c (trimmedAverage s.cfg.adcSamples acc)
    (acc.count < s.cfg.adcSamples ∧
      Sampled s (adcRound c s) { s.adc with acc := s.adc.acc.set c acc } rest (x.events s.cfg c)) ∨
    (s.cfg.adcSamples ≤ acc.count ∧ ∃ d : Fin 8, d.val = c.val + 1 ∧
      Sampled s (adcRound c s)
        { s.adc with acc := (s.adc.acc.set c acc).set d AdcAcc.start, avg := avg, channel := some d } rest
        (x.events s.cfg c)) ∨
    (s.cfg.adcSamples ≤ acc.count ∧ c = 7 ∧
      PassEnded s (adcRound c s) ({ s.adc with acc := s.adc.acc.set c acc, avg := avg } : Adc).published rest
        (x.events s.cfg c)) := by
  obtain ⟨t, ht, hround⟩ := adcRound_script c x s hcount hanswers
  have hacc : t.adcAcc c = x.acc (s.adcAcc c) := by simp [State.adcAcc, ht.adc]
  dsimp only
  rw [hround]
  split
  next hmore => exact .inl ⟨hmore, ht⟩
  next hdone =>
    have hclosed := ht.setAdc { t.adc with avg := t.adc.avg.set c (trimmedAverage t.cfg.adcSamples (t.adcAcc c)) }
    rw [adcClose_eq]
    generalize t.setAdc _ = u at hclosed ⊢
    rw [hacc, ht.adc, ht.cfg] at hclosed
    by_cases hnext : c.val + 1 < 8
    · refine .inr (.inl ⟨Nat.le_of_not_lt hdone, ⟨c.val + 1, hnext⟩, rfl, ?_⟩)
      rw [adcEnter_of_lt hnext, adcBegin, hclosed.adc]
      exact hclosed.setAdc _
    · obtain rfl : c = 7 := Fin.ext (by omega)
      exact .inr (.inr ⟨Nat.le_of_not_lt hdone, rfl, Sampled.adcFinish (p := s.cpState) hclosed⟩)

/-- Settles O53: a round on its script (`adcRound_script_cases`), and the channel it closes when the count is
reached. -/
theorem adcAttemptOfRunningPass : Obligations.AdcAttemptOfRunningPass := by
  intro s c x rest hreset hrunning hchannel hcount hanswers
  have hfailed : x.code = none → (x.acc (s.adcAcc c)).count < s.cfg.adcSamples := fun hnone => by
    rwa [AdcAttempt.acc_of_none hnone]
  refine ⟨adcRound c s, step_of_channel hreset hrunning hchannel, ?_⟩
  rcases adcRound_script_cases c x s hcount hanswers with ⟨hmore, h⟩ | ⟨hdone, d, hd, h⟩ | ⟨hdone, hlast, h⟩
  · refine ⟨h.frame, h.2, fun hnone => ⟨h.cpState.trans hrunning, h.res, ?_⟩,
      fun code acc avg hcode hlow hhigh hsum hcnt _ => ?_⟩
    · rw [h.adc, AdcAttempt.acc_of_none hnone]
      simp [State.adcAcc]
    · obtain rfl := AdcAttempt.eq_acc_of_some hcode hlow hhigh hsum hcnt
      exact ⟨fun _ => ⟨h.cpState.trans hrunning, h.res, h.adc⟩, fun e => absurd e (Nat.ne_of_lt hmore),
        fun e => absurd e (Nat.ne_of_lt hmore)⟩
  · refine ⟨h.frame, h.2, fun hnone => absurd (hfailed hnone) (Nat.not_lt.mpr hdone),
      fun code acc avg hcode hlow hhigh hsum hcnt havg => ?_⟩
    obtain rfl := AdcAttempt.eq_acc_of_some hcode hlow hhigh hsum hcnt
    subst havg
    refine ⟨fun hmore => absurd hmore (Nat.not_lt.mpr hdone), fun _ d' hd' => ?_, fun _ hlast => ?_⟩
    · obtain rfl : d' = d := Fin.ext (hd'.trans hd.symm)
      exact ⟨h.cpState.trans hrunning, h.res, h.adc⟩
    · omega
  · refine ⟨h.frame, h.2, fun hnone => absurd (hfailed hnone) (Nat.not_lt.mpr hdone),
      fun code acc avg hcode hlow hhigh hsum hcnt havg => ?_⟩
    obtain rfl := AdcAttempt.eq_acc_of_some hcode hlow hhigh hsum hcnt
    subst havg
    refine ⟨fun hmore => absurd hmore (Nat.not_lt.mpr hdone), fun _ d hd => ?_,
      fun _ _ => ⟨h.cpState, h.res, h.adc⟩⟩
    omega

/-! ### One channel -/

/-- The accumulators of a channel after its attempts in a pass (spec/45_adc.md R185). -/
def channelAcc (xs : List AdcAttempt) : AdcAcc := (xs.filterMap AdcAttempt.data).foldl AdcAcc.add AdcAcc.start

theorem AdcAttempt.acc_count (x : AdcAttempt) (a : AdcAcc) :
    (x.acc a).count = a.count + ([x].filterMap AdcAttempt.data).length := by
  rw [AdcAttempt.acc_eq]
  cases h : x.data <;> simp [h, AdcAcc.add_count]

/-- The samples of a list of attempts accumulate one attempt after the other. -/
theorem foldl_data_cons (x : AdcAttempt) (xs : List AdcAttempt) (a : AdcAcc) :
    ((x :: xs).filterMap AdcAttempt.data).foldl AdcAcc.add a =
      (xs.filterMap AdcAttempt.data).foldl AdcAcc.add (x.acc a) := by
  rw [AdcAttempt.acc_eq]
  cases h : x.data <;> simp [h]

/-- Attempts of which the last one is a sample have samples. -/
theorem eq_nil_of_no_samples {xs : List AdcAttempt} (hlast : ∀ x ∈ xs.getLast?, x.data.isSome = true)
    (h : (xs.filterMap AdcAttempt.data).length = 0) : xs = [] := by
  by_contra hne
  have hsome := hlast _ (List.getLast?_eq_some_getLast hne)
  rw [List.length_eq_zero_iff, List.filterMap_eq_nil_iff] at h
  rw [h _ (List.getLast_mem hne)] at hsome
  cases hsome

/-- The attempts that complete a channel, played round by round: all are counted or recorded in order, and then the
channel is closed (spec/45_adc.md R185). -/
theorem adcPlay_attempts {c : Fin 8} (xs : List AdcAttempt) {s : State} {rest : List Answer} (n : Nat)
    (hchannel : s.adc.channel = some c) (hmore : (s.adcAcc c).count < s.cfg.adcSamples)
    (hcount : (s.adcAcc c).count + (xs.filterMap AdcAttempt.data).length = s.cfg.adcSamples)
    (hlast : ∀ x ∈ xs.getLast?, x.data.isSome = true)
    (hanswers : (s.transport .adc).answers = xs.flatMap AdcAttempt.answers ++ rest) :
    ∃ t, Sampled s t
        { s.adc with acc := s.adc.acc.set c ((xs.filterMap AdcAttempt.data).foldl AdcAcc.add (s.adcAcc c)) } rest
        (xs.flatMap (AdcAttempt.events s.cfg c)) ∧
      adcPlay (xs.length + n) s = adcPlay n (adcClose c t) := by
  induction xs generalizing s with
  | nil => exact absurd hcount (Nat.ne_of_lt hmore)
  | cons x xs ih =>
    obtain ⟨a, as, ha⟩ := x.answers_eq_cons
    rw [List.flatMap_cons, List.append_assoc] at hanswers
    obtain ⟨t, ht, hround⟩ := adcRound_script c x s hmore hanswers
    have hplay : adcPlay ((x :: xs).length + n) s = adcPlay (xs.length + n) (adcRound c s) := by
      rw [List.length_cons, Nat.add_right_comm]
      exact adcPlay_succ hchannel (hanswers.trans (by rw [ha]; rfl)) _
    have hacc : t.adcAcc c = x.acc (s.adcAcc c) := by simp [State.adcAcc, ht.adc]
    have hlast' : ∀ y ∈ xs.getLast?, y.data.isSome = true := fun y hy => by
      refine hlast y ?_
      rw [List.getLast?_cons, Option.mem_def.mp hy]
      rfl
    have hcount' : (x.acc (s.adcAcc c)).count + (xs.filterMap AdcAttempt.data).length = s.cfg.adcSamples := by
      rw [AdcAttempt.acc_count, Nat.add_assoc, ← List.length_append, ← List.filterMap_append]
      exact hcount
    rw [hplay, hround, foldl_data_cons, List.flatMap_cons]
    split
    next hmore' =>
      obtain ⟨u, hu, hplay'⟩ := ih (s := t) (by rw [ht.adc, hchannel]) (by rwa [hacc, ht.cfg])
        (by rwa [hacc, ht.cfg]) hlast' ht.answers
      rw [hacc, ht.adc, ht.cfg] at hu
      simp only [Vector.set_set] at hu
      exact ⟨u, ht.trans hu, hplay'⟩
    next hdone =>
      obtain rfl := eq_nil_of_no_samples hlast' (by omega)
      exact ⟨t, by simpa using ht, by rw [List.length_nil, Nat.zero_add]⟩

/-- A channel of a pass on its script: its accumulators and its average, and the pass comes to the next channel
(spec/45_adc.md R185, R186). -/
theorem adcPlay_channel (c : Fin 8) {xs : List AdcAttempt} {s : State} {rest : List Answer} (n : Nat)
    (hcount : (xs.filterMap AdcAttempt.data).length = s.cfg.adcSamples)
    (hlast : ∀ x ∈ xs.getLast?, x.data.isSome = true)
    (hanswers : (s.transport .adc).answers = xs.flatMap AdcAttempt.answers ++ rest) :
    ∃ t, Sampled s t
        { s.adc with
          acc := s.adc.acc.set c (channelAcc xs)
          avg := s.adc.avg.set c (trimmedAverage s.cfg.adcSamples (channelAcc xs))
          channel := some c } rest
        (xs.flatMap (AdcAttempt.events s.cfg c)) ∧
      adcPlay (xs.length + n) (adcBegin c s) = adcPlay n (adcEnter (c.val + 1) t) := by
  have hbegin := (Sampled.refl s).setAdc { s.adc with acc := s.adc.acc.set c AdcAcc.start, channel := some c }
  have hstart : (adcBegin c s).adcAcc c = AdcAcc.start := by simp [adcBegin, State.adcAcc]
  obtain ⟨t, ht, hplay⟩ := adcPlay_attempts xs (s := adcBegin c s) n rfl (adcBegin_count_lt c s)
    (by rw [hstart]; simpa [adcBegin, AdcAcc.start] using hcount) hlast hanswers
  have hacc : t.adcAcc c = channelAcc xs := by
    rw [State.adcAcc, ht.adc, hstart]
    exact Vector.getElem_set_self _
  have hclosed := ((hbegin.trans ht).setAdc
    { t.adc with avg := t.adc.avg.set c (trimmedAverage t.cfg.adcSamples (t.adcAcc c)) })
  rw [adcClose_eq] at hplay
  refine ⟨_, ?_, hplay⟩
  generalize t.setAdc _ = u at hclosed ⊢
  rw [hacc, ht.cfg, ht.adc, hstart] at hclosed
  simpa [adcBegin, channelAcc] using hclosed

/-! ### The whole pass -/

/-- The channels from channel k on are k and those after it. -/
theorem drop_finRange {k : Nat} (h : k < 8) :
    (List.finRange 8).drop k = ⟨k, h⟩ :: (List.finRange 8).drop (k + 1) := by
  rw [List.drop_eq_getElem_cons (by simpa using h)]
  simp

/-- The channels of a pass from channel k on, on their scripts: each gets its accumulators and its average, the channels
before k keep theirs, and the pass comes to its end (spec/45_adc.md R185, R186). -/
theorem adcPlay_channels {x : Fin 8 → List AdcAttempt} {rest : List Answer} {cfg : Config}
    (hcount : ∀ c, ((x c).filterMap AdcAttempt.data).length = cfg.adcSamples)
    (hlast : ∀ c, ∀ a ∈ (x c).getLast?, a.data.isSome = true) {k j : Nat} (hk : k + j = 8) {s : State} (n : Nat)
    (hcfg : s.cfg = cfg)
    (hanswers : (s.transport .adc).answers =
      (((List.finRange 8).drop k).flatMap fun c => (x c).flatMap AdcAttempt.answers) ++ rest) :
    ∃ (t : State) (a : Adc),
      Sampled s t a rest (((List.finRange 8).drop k).flatMap fun c => (x c).flatMap (AdcAttempt.events cfg c)) ∧
      adcPlay ((((List.finRange 8).drop k).flatMap x).length + n) (adcEnter k s) = adcPlay n (adcFinish t) ∧
      (∀ d : Fin 8, d.val < k → a.acc[d] = s.adc.acc[d] ∧ a.avg[d] = s.adc.avg[d]) ∧
      ∀ d : Fin 8, k ≤ d.val →
        a.acc[d] = channelAcc (x d) ∧ a.avg[d] = trimmedAverage cfg.adcSamples (channelAcc (x d)) := by
  induction j generalizing k s with
  | zero =>
    obtain rfl : k = 8 := hk
    have hnil : (List.finRange 8).drop 8 = [] := rfl
    rw [hnil, List.flatMap_nil, List.nil_append] at hanswers
    simp only [hnil, List.flatMap_nil]
    refine ⟨s, s.adc, hanswers ▸ Sampled.refl s, ?_, fun d _ => ⟨rfl, rfl⟩, fun d hd => absurd d.isLt (by omega)⟩
    rw [List.length_nil, Nat.zero_add, adcEnter_eight]
  | succ j ih =>
    have hlt : k < 8 := by omega
    subst hcfg
    rw [drop_finRange hlt] at hanswers ⊢
    rw [List.flatMap_cons, List.append_assoc] at hanswers
    obtain ⟨t, ht, hplay⟩ := adcPlay_channel ⟨k, hlt⟩
      ((((List.finRange 8).drop (k + 1)).flatMap x).length + n) (hcount _) (hlast _) hanswers
    obtain ⟨u, a, hu, hplay', hbefore, hafter⟩ := ih (by omega) ht.cfg ht.answers
    refine ⟨u, a, ?_, ?_, fun d hd => ?_, fun d hd => ?_⟩
    · rw [List.flatMap_cons]
      exact ht.trans hu
    · rw [List.flatMap_cons, List.length_append, Nat.add_assoc, adcEnter_of_lt hlt, hplay, hplay']
    · obtain ⟨hacc, havg⟩ := hbefore d (by omega)
      have hne : k ≠ d.val := by omega
      rw [hacc, havg, ht.adc]
      simp [hne]
    · rcases Nat.eq_or_lt_of_le hd with rfl | hd
      · obtain ⟨hacc, havg⟩ := hbefore d (by omega)
        rw [hacc, havg, ht.adc]
        simp
      · exact hafter d hd

/-- Every attempt takes an answer. -/
theorem length_le_answers (xs : List AdcAttempt) : xs.length ≤ (xs.flatMap AdcAttempt.answers).length := by
  induction xs with
  | nil => exact Nat.zero_le _
  | cons x xs ih =>
    obtain ⟨a, as, ha⟩ := x.answers_eq_cons
    rw [List.flatMap_cons, ha, List.length_append, List.length_cons, List.length_cons]
    omega

/-- ADC_PASS on the scripts of its channels plays them to the end of the pass (spec/45_adc.md R185 to R187). -/
theorem exec_adcPass_script {x : Fin 8 → List AdcAttempt} {rest : List Answer} {s : State}
    (hcount : ∀ c, ((x c).filterMap AdcAttempt.data).length = s.cfg.adcSamples)
    (hlast : ∀ c, ∀ a ∈ (x c).getLast?, a.data.isSome = true)
    (hanswers : (s.transport .adc).answers =
      ((List.finRange 8).flatMap fun c => (x c).flatMap AdcAttempt.answers) ++ rest) :
    ∃ (t : State) (a : Adc), exec .adcPass s = .next t ∧
      PassEnded s t a.published rest ((List.finRange 8).flatMap fun c => (x c).flatMap (AdcAttempt.events s.cfg c)) ∧
      ∀ d : Fin 8, a.acc[d] = channelAcc (x d) ∧ a.avg[d] = trimmedAverage s.cfg.adcSamples (channelAcc (x d)) := by
  have hrounds : ((List.finRange 8).flatMap x).length ≤ (s.transport .adc).answers.length := by
    have := length_le_answers ((List.finRange 8).flatMap x)
    rw [List.flatMap_assoc] at this
    rw [hanswers, List.length_append]
    omega
  obtain ⟨extra, hextra⟩ := Nat.exists_eq_add_of_le hrounds
  obtain ⟨t, a, ht, hplay, -, hvalues⟩ :=
    adcPlay_channels hcount hlast (k := 0) (j := 8) rfl (s := { s with cpState := .running }) extra rfl hanswers
  refine ⟨adcFinish t, a, ?_, ht.adcFinish, fun d => hvalues d (Nat.zero_le _)⟩
  calc exec .adcPass s
      = .next (adcPlay (s.transport .adc).answers.length (adcEnter 0 { s with cpState := .running })) := rfl
    _ = .next (adcPlay extra (adcFinish t)) := by
      rw [hextra]
      exact congrArg _ hplay
    _ = .next (adcFinish t) := by rw [adcPlay_of_no_channel rfl]

/-- The accumulators and the average of a channel from the codes of its attempts (spec/45_adc.md R185, R186). -/
theorem channelAcc_values {xs : List AdcAttempt} {codes : List Nat} {samples : Nat}
    (hcodes : codes = xs.filterMap AdcAttempt.code) (hlength : codes.length = samples) (h3 : 3 ≤ samples)
    (hmax : samples ≤ 65535) :
    (channelAcc xs).low.toNat = codes.foldl min 4095 ∧ (channelAcc xs).high.toNat = codes.foldl max 0 ∧
      (channelAcc xs).sum.toNat = codes.sum ∧ (channelAcc xs).count = samples ∧
      (trimmedAverage samples (channelAcc xs)).toNat =
        (codes.sum - codes.foldl min 4095 - codes.foldl max 0) / (samples - 2) ∧
      (trimmedAverage samples (channelAcc xs)).toNat ≤ 4095 := by
  rw [filterMap_code_eq] at hcodes
  subst hcodes
  rw [List.length_map] at hlength
  subst hlength
  obtain ⟨hlow, hhigh, -, hcount⟩ := AdcAcc.foldl_add_values (xs.filterMap AdcAttempt.data) AdcAcc.start
  refine ⟨hlow, hhigh, AdcAcc.sum_of_samples hmax, ?_, trimmedAverage_of_samples h3 hmax, ?_⟩
  · rw [channelAcc, hcount]
    exact Nat.zero_add _
  · exact (trimmedAverageWithinSamples _ 0 4095 h3 hmax fun x _ => ⟨Nat.zero_le _, Nat.le_of_lt_succ x.isLt⟩).2

/-- The differential of 12-bit voltages is exact in its 16 bits (spec/45_adc.md R187). -/
theorem differential_toInt {v : Vector Half 4} (h : ∀ j : Fin 4, v[j].toNat ≤ 4095) :
    (differential v).toInt = (v[0].toNat + v[2].toNat : Int) - (v[1].toNat + v[3].toNat) := by
  have h0 : v[0].toNat ≤ 4095 := h 0
  have h1 : v[1].toNat ≤ 4095 := h 1
  have h2 : v[2].toNat ≤ 4095 := h 2
  have h3 : v[3].toNat ≤ 4095 := h 3
  rw [differential, BitVec.toInt_ofInt]
  exact Int.bmod_eq_of_le (by omega) (by omega)

/-- Settles O52: the pass on the scripts of its channels (`exec_adcPass_script`), each channel's values from its codes
(`channelAcc_values`). -/
theorem adcPassCompletes : Obligations.AdcPassCompletes := by
  intro s x rest codes hcodes hlength hlast hanswers
  have hsamples := adcSamples_range s.cfg
  have hdata : ∀ c, ((x c).filterMap AdcAttempt.data).length = s.cfg.adcSamples := fun c => by
    rw [← hlength c, hcodes c, filterMap_code_eq, List.length_map]
  have hlast' : ∀ c, ∀ a ∈ (x c).getLast?, a.data.isSome = true := fun c a ha => by
    simpa [AdcAttempt.code_eq] using hlast c a ha
  have hvalues := fun c => channelAcc_values (hcodes c) (hlength c) hsamples.1 hsamples.2
  obtain ⟨t, a, hexec, ht, hchannels⟩ := exec_adcPass_script hdata hlast' hanswers
  have havg : ∀ d : Fin 8, a.avg[d].toNat ≤ 4095 := fun d => by
    obtain ⟨-, -, -, -, -, hle⟩ := hvalues d
    rwa [(hchannels d).2]
  refine ⟨t, hexec, ?_, ht.2, ?_, fun c => ?_, fun j => ?_, ?_, ?_⟩
  · rw [ht.adc]
    exact ht.1
  · rw [ht.adc]
    rfl
  · obtain ⟨hlow, hhigh, hsum, hcount, hmean, -⟩ := hvalues c
    obtain ⟨hacc, hav⟩ := hchannels c
    have hacc' : t.adcAcc c = channelAcc (x c) := by rw [State.adcAcc, ht.adc]; exact hacc
    have hav' : t.adc.avg[c] = trimmedAverage s.cfg.adcSamples (channelAcc (x c)) := by rw [ht.adc]; exact hav
    rw [hacc', hav']
    exact ⟨hlow, hhigh, hsum, hcount, hmean⟩
  · rw [ht.adc]
    fin_cases j <;> exact ⟨rfl, rfl⟩
  · rw [ht.adc]
    refine differential_toInt fun j => ?_
    fin_cases j
    exacts [havg 0, havg 1, havg 2, havg 3]
  · rw [ht.adc]
    refine differential_toInt fun j => ?_
    fin_cases j
    exacts [havg 4, havg 5, havg 6, havg 7]

end Sys2Proof.Machine

/-! PROOFS. Where failures are located (spec/60_exceptions.md R201): an operation fails only at a row of the location
table, and a sampling pass ends only with success. -/

namespace Sys2Proof.Machine

/-! ### Failures of an operation -/

/-- The failure stands in the location table, wherever the operation went (spec/60_exceptions.md R201). -/
abbrev InTable (f : Failure) (_ _ : State) : Prop := (f.kind.code, f.loc) ∈ locationTable

/-- An operation that fails only at rows of the location table. -/
abbrev Op.FailsInTable {α : Type} (x : Op α) : Prop := x.Ends (fun _ _ => True) InTable

theorem inTable_endsCompose : EndsCompose (fun _ _ => True) InTable where
  refl _ := trivial
  trans _ _ := trivial
  transE _ h := h

/-- A bridge operation fails only at rows of the table that are not the decoder's. -/
theorem inTable_steps (ctx : Option (Fin 16)) (g : Group) : BridgeSteps ctx g (fun _ _ => True) InTable where
  toEndsCompose := inTable_endsCompose
  setBuf _ _ _ := trivial
  setBridge _ _ _ := trivial
  resetPolls _ := trivial
  delay _ _ := trivial
  report _ _ _ _ _ hl := List.mem_of_mem_filter hl
  write _ _ _ _ _ := trivial
  read _ _ _ := trivial

theorem modify_failsInTable (f : State → State) : (Op.modify f).FailsInTable := Op.ends_modify fun _ => trivial

theorem raise_failsInTable {ctx : Option (Fin 16)} {k : ErrorKind} {loc extra : Half}
    (h : (k.code, loc) ∈ locationTable) : (raise ctx k loc extra : Op Unit).FailsInTable :=
  ends_raise fun _ => h

theorem crcValidate_failsInTable (p : Nat) : (crcValidate p).FailsInTable := by
  have hE := inTable_endsCompose
  refine Op.ends_bind hE (Op.ends_read hE _) fun c => Op.ends_bind hE (Op.ends_read hE _) fun received => ?_
  refine Op.ends_bind hE (modify_failsInTable _) fun _ => ?_
  split
  · exact Op.ends_pure hE _
  · exact raise_failsInTable (by decide)

theorem decodeScratchpad_failsInTable (ctx : Option (Fin 16)) (sp : Vector Byte 9) (r : Fin 4) :
    (decodeScratchpad ctx sp r).FailsInTable := by
  intro s
  rcases decodeScratchpad_cases ctx sp r s with ⟨-, e⟩ | ⟨-, -, e⟩ | ⟨-, -, -, v, n, e, -⟩ <;> rw [e]
  · exact (by decide : ((8, 0x2001) : BitVec 4 × Half) ∈ locationTable)
  · exact (by decide : ((9, 0x2002) : BitVec 4 × Half) ∈ locationTable)
  · trivial

theorem tdDecode_failsInTable (r : Fin 4) : (tdDecode r).FailsInTable := by
  have hE := inTable_endsCompose
  refine Op.ends_bind hE (Op.ends_read hE _) fun sp => ?_
  exact Op.ends_bind hE (decodeScratchpad_failsInTable none sp r) fun v => modify_failsInTable _

theorem tdCToF_failsInTable (sign : Bool) (whole tenths : Nat) : (tdCToF sign whole tenths).FailsInTable := by
  have hE := inTable_endsCompose
  refine Op.ends_bind hE (Op.ends_read hE _) fun cfg => Op.ends_bind hE (fun s => ?_) fun fw => modify_failsInTable _
  rcases storedWhole_cases (fahrenheit cfg sign whole tenths).whole s with ⟨-, e⟩ | ⟨-, e⟩ <;> rw [e] <;> trivial

theorem setResolution_failsInTable (x : Byte) : (setResolution x).FailsInTable := fun s => by
  rw [run_setResolution]
  trivial

/-! ### The result registers of a command that has ended -/

/-- RES_KIND and RES_LOC hold success, a row of the location table, or the illegal command of the word
(spec/60_exceptions.md R201). -/
def Located (cmd : Word) (r : ResultRegs) : Prop :=
  (r.kind, r.loc) = (0, 0) ∨ (r.kind, r.loc) ∈ locationTable ∨
    (r.kind, r.loc) = (11, (0xFF : Byte) ++ (cmd.extractLsb' 24 8 : Byte))

theorem runCommand_located {x : Op Unit} (hx : x.FailsInTable) (cmd : Word) (s : State) :
    Located cmd (runCommand x s).res := by
  rcases runCommand_cases x s with ⟨t, -, e⟩ | ⟨f, t, hrun, e⟩ <;> rw [e]
  · exact .inl rfl
  · exact .inr (.inl (hx.error hrun))

theorem illegalCommand_located (s : State) : Located s.cmd (illegalCommand s).res := .inr (.inr rfl)

theorem ifLegal_located {i : Instr} {x : Op Unit} (hx : x.FailsInTable) {s t : State}
    (h : ifLegal i s (.next (runCommand x s)) = .next t) : Located s.cmd t.res := by
  rcases ifLegal_cases i s (.next (runCommand x s)) with e | e <;> rw [e] at h <;> cases h
  · exact illegalCommand_located s
  · exact runCommand_located hx _ s

/-! ### A sampling pass -/

/-- A pass that is not over has written neither the port's state nor the result registers; one that is over has ended
with success (spec/45_adc.md R185). -/
def GoesOnOrSucceeds (s t : State) : Prop :=
  (t.cpState = s.cpState ∧ t.res = s.res) ∨ (t.res.kind, t.res.loc) = (0, 0)

theorem goesOnOrSucceeds_composes : Composes GoesOnOrSucceeds where
  refl _ := .inl ⟨rfl, rfl⟩
  trans := by
    rintro s t u hst (⟨hcp, hres⟩ | hok)
    · rw [GoesOnOrSucceeds, hcp, hres]
      exact hst
    · exact .inr hok

theorem adcSample_goesOnOrSucceeds (c : Fin 8) (s : State) : GoesOnOrSucceeds s ((adcSample c).run s).2 := by
  rcases (adcSample_passFrame c s).2 with hres | hres
  · exact .inl ⟨adcSample_cpState c s, hres⟩
  · exact .inr (by rw [hres]; rfl)

theorem adcClose_goesOnOrSucceeds (c : Fin 8) (s : State) : GoesOnOrSucceeds s (adcClose c s) := by
  unfold adcClose
  dsimp only
  split
  · exact .inl ⟨rfl, rfl⟩
  · exact .inr rfl

/-- A round makes an attempt or finds the count reached, and then it leaves the channel open or closes it
(spec/45_adc.md R185). -/
theorem adcRound_cases (c : Fin 8) (s : State) :
    ∃ s', (s' = ((adcSample c).run s).2 ∨ s' = s) ∧ (adcRound c s = s' ∨ adcRound c s = adcClose c s') :=
  ⟨_, ite_eq_or_eq _ _ _, ite_eq_or_eq _ _ _⟩

theorem adcRound_goesOnOrSucceeds (c : Fin 8) (s : State) : GoesOnOrSucceeds s (adcRound c s) := by
  obtain ⟨s', hattempt, hround⟩ := adcRound_cases c s
  have hsample : GoesOnOrSucceeds s s' := by
    rcases hattempt with rfl | rfl
    · exact adcSample_goesOnOrSucceeds c s
    · exact goesOnOrSucceeds_composes.refl s'
  rcases hround with e | e <;> rw [e]
  · exact hsample
  · exact goesOnOrSucceeds_composes.trans hsample (adcClose_goesOnOrSucceeds c s')

theorem continueCommand_goesOnOrSucceeds (s : State) : GoesOnOrSucceeds s (continueCommand s) := by
  unfold continueCommand
  split
  · exact adcRound_goesOnOrSucceeds _ s
  · exact goesOnOrSucceeds_composes.refl s

theorem adcPlay_goesOnOrSucceeds (n : Nat) (s : State) : GoesOnOrSucceeds s (adcPlay n s) := by
  induction n generalizing s with
  | zero => exact goesOnOrSucceeds_composes.refl s
  | succ n ih =>
    unfold adcPlay
    split
    · exact goesOnOrSucceeds_composes.trans (adcRound_goesOnOrSucceeds _ s) (ih _)
    · exact goesOnOrSucceeds_composes.refl s

/-- A pass that leaves the port IDLE has ended with success. -/
theorem GoesOnOrSucceeds.success {s t : State} (h : GoesOnOrSucceeds s t) (hrunning : s.cpState = .running)
    (hidle : t.cpState = .idle) : (t.res.kind, t.res.loc) = (0, 0) := by
  rcases h with ⟨hcp, -⟩ | hok
  · rw [hcp, hrunning] at hidle
    cases hidle
  · exact hok

/-! ### Every command -/

theorem exec_located {i : Instr} {s t : State} (h : exec i s = .next t) (hidle : t.cpState = .idle) :
    Located s.cmd t.res := by
  cases i using Instr.byFamily with
  | bufLoad k v => exact ifLegal_located (modify_failsInTable _) h
  | crcCompute n => exact ifLegal_located (modify_failsInTable _) h
  | crcValidate n => exact ifLegal_located (crcValidate_failsInTable _) h
  | setLogging f => exact ifLegal_located (modify_failsInTable _) h
  | bridge g i hi =>
    rcases exec_bridge hi s with e | ⟨x, e, hx, -⟩ <;> rw [e] at h <;> cases h
    · exact illegalCommand_located s
    · exact runCommand_located (hx (inTable_steps none g) fun _ _ => trivial) _ s
  | tdDecode a =>
    rcases exec_tdDecode_cases a s with e | e | e <;> rw [e] at h <;> cases h
    · exact illegalCommand_located s
    · exact runCommand_located (tdDecode_failsInTable _) _ s
  | tdCToF n w f => exact ifLegal_located (tdCToF_failsInTable n _ _) h
  | pmInitiateAll =>
    rw [← Host.Outcome.next.inj h]
    exact .inl rfl
  | pmGetAll =>
    rw [exec_pmGetAll_next h]
    exact .inl rfl
  | pmSetResolution x =>
    cases h
    exact runCommand_located (setResolution_failsInTable x) _ s
  | adcPass =>
    cases h
    have hbegin : (adcBegin 0 { s with cpState := .running }).cpState = .running := rfl
    exact .inl ((adcPlay_goesOnOrSucceeds _ _).success hbegin hidle)

/-- Settles O39: a command fails only at a row of the table or as the illegal command, and a later round that ends its
pass ends it with success. -/
theorem failureLocationsAreTheTable : Obligations.FailureLocationsAreTheTable := by
  intro i s t h hidle
  rcases h with h | ⟨hreset, hrunning, h⟩
  · exact exec_located h hidle
  · rw [step_of_running hreset hrunning] at h
    cases h
    exact .inl ((continueCommand_goesOnOrSucceeds s).success hrunning hidle)

end Sys2Proof.Machine

/-! PROOFS. Steps never stop under a legal configuration and NEG_MODE = ONES_COMPLEMENT (spec/60_exceptions.md R203);
the trace record of an accepted command (R207) and the flag it depends on (R206). -/

namespace Sys2Proof.Machine

/-! ### Completion -/

theorem ifLegal_completes (i : Instr) (s t : State) : ∃ u, ifLegal i s (.next t) = .next u :=
  (ifLegal_cases i s (.next t)).elim (fun h => ⟨_, h⟩) fun h => ⟨_, h⟩

/-- Only a decode under another NEG_MODE is refused (spec/43_temperature.md R149), so under ONES_COMPLEMENT every
command answers a next state. -/
theorem exec_completes {s : State} (hmode : s.cfg.negMode = .onesComplement) (i : Instr) :
    ∃ t, exec i s = .next t := by
  cases i using Instr.byFamily with
  | bufLoad | crcCompute | crcValidate | setLogging | tdCToF => exact ifLegal_completes _ s _
  | bridge g i hi => exact (exec_bridge hi s).elim (fun h => ⟨_, h⟩) fun ⟨_, h, _⟩ => ⟨_, h⟩
  | tdDecode a =>
    change ∃ t, execTdDecode a s = .next t
    simp only [execTdDecode, hmode]
    exact ifLegal_completes _ s _
  | pmGetAll => exact ⟨_, exec_pmGetAll hmode⟩
  | pmInitiateAll | pmSetResolution | adcPass => exact ⟨_, rfl⟩

/-- The reset input stops nothing (spec/70_reset_and_hazards.md R227). -/
theorem underReset_completes (s t : State) : ∃ u, underReset s (.next t) = .next u := by
  cases hreset : s.env.resetRequest with
  | within n => exact ⟨_, underReset_within hreset⟩
  | none | now => exact ⟨t, underReset_of_ne (fun n => by simp [hreset]) _⟩

/-- The port refuses no word under a legal configuration (spec/93_implementation_defined.md X15). -/
theorem fetch_ne_badConfiguration {s : State} (hlegal : s.cfg.legal = true) : fetch s ≠ .badConfiguration := by
  simp only [fetch, if_pos hlegal]
  repeat' split
  all_goals nofun

theorem acceptCommand_cfg (w : Word) (s : State) : (acceptCommand w s).cfg = s.cfg := by
  unfold acceptCommand traceCommand
  split <;> rfl

/-- Settles O12: the port fetches anything but a bad configuration, and what it then does is never refused. -/
theorem everyStepCompletes : Obligations.EveryStepCompletes := by
  intro s hlegal hmode
  rw [step]
  cases hfetch : fetch s with
  | reset => exact ⟨_, rfl⟩
  | running => exact underReset_completes s _
  | waiting => exact ⟨_, rfl⟩
  | badConfiguration => exact absurd hfetch (fetch_ne_badConfiguration hlegal)
  | command w i =>
    obtain ⟨t, ht⟩ := exec_completes (s := acceptCommand w s) (by rw [acceptCommand_cfg, hmode]) i
    dsimp only
    rw [ht]
    exact underReset_completes s t
  | illegal w => exact underReset_completes s _

/-! ### The trace record and its flag -/

theorem acceptCommand_quiet {s : State} (h : s.logVerbose = false) (w : Word) : acceptCommand w s = latchWord w s :=
  if_neg (by simp [latchWord, h])

theorem acceptCommand_verbose {s : State} (h : s.logVerbose = true) (w : Word) :
    acceptCommand w s = (latchWord w s).report none .none (locCode (opField w) 0) (w.setWidth 16) :=
  if_pos h

/-- Settles O6: the step runs the command on the state in which its word is accepted (`stepRunsDecodedCommand`). -/
theorem verboseTraceOnAcceptance : Obligations.VerboseTraceOnAcceptance := by
  intro s w ws i hreset hidle hlegal hwords hdecode
  obtain ⟨hstep, -⟩ := stepRunsDecodedCommand s w ws i hreset hidle hlegal hwords hdecode
  have hextra : w.setWidth 16 = w.extractLsb' 0 16 := BitVec.setWidth_eq_extractLsb' (by decide)
  refine ⟨fun hquiet => ?_, fun hverbose => ⟨Config.freeMessage s.env.events.length, ?_⟩⟩
  · rw [hstep, acceptCommand_quiet hquiet]
  · rw [hstep, acceptCommand_verbose hverbose, hextra]
    rfl

/-- SET_LOGGING with a legal flag (spec/60_exceptions.md R206). -/
theorem exec_setLogging {f : Byte} (h : (Instr.setLogging f).wf = true) (s : State) :
    exec (.setLogging f) s = .next { s with logVerbose := f == 1, res := okResult s.res.value, cpState := .idle } :=
  ifLegal_of_wf h s _

/-- Settles O18: 0 and 1 are the legal flags. -/
theorem setLoggingWritesFlag : Obligations.SetLoggingWritesFlag := fun s =>
  ⟨exec_setLogging (by decide) s, exec_setLogging (by decide) s⟩

end Sys2Proof.Machine

/-! PROOFS. Reset (spec/70_reset_and_hazards.md R225, R227): the reset values, a reset between steps and inside one; and
the refusal of an illegal configuration (spec/93_implementation_defined.md X15). -/

namespace Sys2Proof.Machine

/-! ### The reset state -/

theorem State.reset_probe (i : Fin 16) : State.reset.probe i = Probe.reset := by
  simp [State.probe, State.reset]

/-- A reset of the reset state leaves it as it is. -/
theorem applyReset_reset : applyReset State.reset = State.reset := rfl

/-- Settles O58: a reset leaves the invariant (`applyReset_inv`), and the reset state is what a reset leaves. -/
theorem resetSatisfiesInv : Obligations.ResetSatisfiesInv := by
  have h : (applyReset State.reset).Inv := applyReset_inv State.reset
  rwa [applyReset_reset] at h

/-- Settles O10: the single items by definition, the entries of the indexed ones from the constant vectors. -/
theorem resetValues : Obligations.ResetValues := by
  refine ⟨rfl, rfl, rfl, rfl, rfl, rfl, fun k => ?buf, rfl, rfl, fun g => ?bridge, fun i => ?probe, rfl, fun c => ?adc,
    fun j => ?dish, rfl, rfl⟩
  case buf => simp [State.reset]
  case bridge => cases g <;> rfl
  case probe =>
    rw [State.reset_probe]
    rfl
  case adc => simp [State.reset, State.adcAcc, Adc.reset, AdcAcc.start]
  case dish => simp [State.reset, Adc.reset]

/-! ### A configuration that is refused -/

/-- In IDLE a word under an illegal configuration is not taken, unless a reset is asked for at once
(spec/93_implementation_defined.md X15). -/
theorem fetch_badConfiguration {s : State} {w : Word} {ws : List Word} (hreset : s.env.resetRequest ≠ .now)
    (hidle : s.cpState = .idle) (hillegal : s.cfg.legal = false) (hwords : s.env.hostWrites = w :: ws) :
    fetch s = .badConfiguration := by
  simp [fetch, hreset, hidle, hwords, hillegal]

/-- Settles O11: the port fetches a bad configuration, which a step refuses. -/
theorem illegalConfigurationRefused : Obligations.IllegalConfigurationRefused := by
  intro s hreset hidle hwritten hillegal
  obtain ⟨w, ws, hwords⟩ := List.exists_cons_of_ne_nil hwritten
  simp only [step, fetch_badConfiguration hreset hidle hillegal hwords]

/-! ### The reset input -/

/-- A reset asked for now is taken before anything else (R227). -/
theorem step_of_reset_now {s : State} (h : s.env.resetRequest = .now) : step s = .next (applyReset s) := by
  have hfetch : fetch s = .reset := if_pos h
  simp only [step, hfetch]

section Within
variable {n : Nat} {s t : State} (hreset : s.env.resetRequest = .within n)
include hreset

/-- A reset that is due inside a command lands in the command that the port runs (R227). -/
theorem step_command_within {w : Word} {ws : List Word} {i : Instr} (hidle : s.cpState = .idle)
    (hlegal : s.cfg.legal = true) (hwords : s.env.hostWrites = w :: ws) (hdecode : decode w = .ok i)
    (hexec : exec i (acceptCommand w s) = .next t) : step s = .next (landReset n s t) := by
  rw [step_of_fetch_command (fetch_command (by simp [hreset]) hidle hlegal hwords hdecode), hexec,
    underReset_within hreset]

/-- A reset that is due inside a command lands in the illegal command, when the port takes an illegal word (R227). -/
theorem step_illegal_within {w : Word} {ws : List Word} {e : DecodeReject} (hidle : s.cpState = .idle)
    (hlegal : s.cfg.legal = true) (hwords : s.env.hostWrites = w :: ws) (hdecode : decode w = .error e) :
    step s = .next (landReset n s (illegalCommand (latchWord w s))) := by
  have hfetch : fetch s = .illegal w := fetch_illegal (by simp [hreset]) hidle hlegal hwords hdecode
  simp only [step, hfetch, underReset_within hreset]

/-- A reset that is due inside a command lands in the round of a running pass (R227). -/
theorem step_running_within (hrunning : s.cpState = .running) :
    step s = .next (landReset n s (continueCommand s)) := by
  have hfetch : fetch s = .running := by simp [fetch, hreset, hrunning]
  simp only [step, hfetch, underReset_within hreset]

end Within

/-- Settles O9: a step under a reset due within n events lands the reset in what it runs, and nothing that it runs
changes the configuration; what landing does is `landReset_cut` and `landReset_later`. -/
theorem resetRequestEntersResetState : Obligations.ResetRequestEntersResetState := by
  refine ⟨fun s hnow => step_of_reset_now hnow, fun n s t new hreset hnew hruns => ?_⟩
  have hstep : step s = .next (landReset n s t) ∧ t.cfg = s.cfg := by
    rcases hruns with
      ⟨hidle, hlegal, w, ws, hwords, ⟨i, hdecode, hexec⟩ | ⟨e, hdecode, rfl⟩⟩ | ⟨hrunning, rfl⟩
    · exact ⟨step_command_within hreset hidle hlegal hwords hdecode hexec,
        (exec_owned hexec).cfg.trans (acceptCommand_cfg w s)⟩
    · exact ⟨step_illegal_within hreset hidle hlegal hwords hdecode, rfl⟩
    · exact ⟨step_running_within hreset hrunning, (continueCommand_emitsLegal s).1⟩
  obtain ⟨hstep, hcfg⟩ := hstep
  exact ⟨fun hn => ⟨_, hstep, landReset_cut hnew hcfg hn⟩, fun hn => by rw [hstep, landReset_later hnew hn]⟩

end Sys2Proof.Machine

/-! PROOFS. The transactions of every command but ADC_PASS are bounded (spec/41_bridge_sequences.md R125,
spec/70_reset_and_hazards.md R233, R237): each operation within a budget of transactions. -/

namespace Sys2Proof.Machine

/-! ### Budgets -/

/-- Between `s` and `t` the configuration stays, events are only added, and at most `n` of them are transactions. -/
def TransactsAtMost (n : Nat) (s t : State) : Prop :=
  t.cfg = s.cfg ∧ ∃ new, NewEvents s t new ∧ new.countP Event.isTransact ≤ n

theorem transactsAtMost_of_events_eq {s t : State} (n : Nat) (hcfg : t.cfg = s.cfg)
    (hevents : t.env.events = s.env.events) : TransactsAtMost n s t :=
  ⟨hcfg, [], hevents, Nat.zero_le n⟩

theorem transactsAtMost_of_event {s t : State} {e : Event} (n : Nat) (hcfg : t.cfg = s.cfg)
    (hevents : t.env.events = e :: s.env.events) (he : e.isTransact = false) : TransactsAtMost n s t :=
  ⟨hcfg, [e], hevents, by simp [he]⟩

theorem transactsAtMost_of_transact {s t : State} {e : Event} (hcfg : t.cfg = s.cfg)
    (hevents : t.env.events = e :: s.env.events) : TransactsAtMost 1 s t :=
  ⟨hcfg, [e], hevents, List.countP_le_length⟩

theorem TransactsAtMost.mono {m n : Nat} {s t : State} (h : TransactsAtMost m s t) (hmn : m ≤ n) :
    TransactsAtMost n s t := by
  obtain ⟨hcfg, new, hnew, hcount⟩ := h
  exact ⟨hcfg, new, hnew, hcount.trans hmn⟩

theorem TransactsAtMost.trans {m n : Nat} {s t u : State} (h : TransactsAtMost m s t) (h' : TransactsAtMost n t u) :
    TransactsAtMost (m + n) s u := by
  obtain ⟨hcfg, new, hnew, hcount⟩ := h
  obtain ⟨hcfg', new', hnew', hcount'⟩ := h'
  refine ⟨hcfg'.trans hcfg, new' ++ new, by rw [NewEvents, hnew', hnew, List.append_assoc], ?_⟩
  rw [List.countP_append]
  omega

/-- What causes no event spends nothing. -/
theorem TransactsAtMost.quiet {n : Nat} {s t u : State} (h : TransactsAtMost n s t) (hcfg : u.cfg = t.cfg)
    (hevents : u.env.events = t.env.events) : TransactsAtMost n s u :=
  h.trans (transactsAtMost_of_events_eq 0 hcfg hevents)

/-- Run under the configuration `c`, the operation stays within a budget of `n` transactions, with success or
failure. -/
def Op.Within {α : Type} (c : Config) (n : Nat) (x : Op α) : Prop :=
  ∀ s, s.cfg = c → TransactsAtMost n s (x.run s).2

section Budget
variable {α β : Type} {c : Config} {m n : Nat}

theorem Op.Within.mono {x : Op α} (h : x.Within c m) (hmn : m ≤ n) : x.Within c n :=
  fun s hs => (h s hs).mono hmn

theorem Op.within_pure (a : α) : (pure a : Op α).Within c n := fun _ _ => transactsAtMost_of_events_eq n rfl rfl

/-- A first operation spends `m` of the budget, and what is left is for the rest. -/
theorem Op.Within.bind {x : Op α} {f : α → Op β} (hx : x.Within c m) (hm : m ≤ n)
    (hf : ∀ a, (f a).Within c (n - m)) : (x >>= f).Within c n := by
  intro s hs
  have h := hx s hs
  rw [Op.run_bind]
  rcases hrun : x.run s with ⟨e | a, t⟩ <;> rw [hrun] at h
  · exact h.mono hm
  · have hcfg : t.cfg = c := h.1.trans hs
    exact (h.trans (hf a t hcfg)).mono (by omega)

/-- An operation without transactions leaves the whole budget to the rest. -/
theorem Op.Within.andThen {x : Op α} {f : α → Op β} (hx : x.Within c 0) (hf : ∀ a, (f a).Within c n) :
    (x >>= f).Within c n :=
  hx.bind (Nat.zero_le n) hf

theorem Op.within_read (f : State → α) : (Op.read f).Within c n := fun _ _ => transactsAtMost_of_events_eq n rfl rfl

theorem Op.within_read_cfg {f : Config → Op β} (hf : (f c).Within c n) : (Op.read State.cfg >>= f).Within c n := by
  intro s hs
  rw [Op.run_read_bind, hs]
  exact hf s hs

theorem Op.within_modify {f : State → State} (hcfg : ∀ s, (f s).cfg = s.cfg)
    (hevents : ∀ s, (f s).env.events = s.env.events) : (Op.modify f).Within c n :=
  fun s _ => transactsAtMost_of_events_eq n (hcfg s) (hevents s)

theorem Op.within_propagate (f : Failure) : (Op.propagate f : Op α).Within c n :=
  fun _ _ => transactsAtMost_of_events_eq n rfl rfl

theorem Op.Within.attempt {x : Op α} (hx : x.Within c n) : (Op.attempt x).Within c n := hx

theorem setBuf_within (k : Fin 9) (v : Byte) : (Op.modify fun s => s.setBuf k v).Within c n :=
  Op.within_modify (fun _ => rfl) fun _ => rfl

theorem setResValue_within (f : State → Byte) : (Op.modify fun s => s.setResValue (f s)).Within c n :=
  Op.within_modify (fun _ => rfl) fun _ => rfl

theorem setLogVerbose_within (f : Bool) : (Op.modify fun s => s.setLogVerbose f).Within c n :=
  Op.within_modify (fun _ => rfl) fun _ => rfl

theorem raise_within (ctx : Option (Fin 16)) (k : ErrorKind) (loc extra : Half) :
    (raise ctx k loc extra : Op α).Within c n :=
  fun _ _ => transactsAtMost_of_event n rfl rfl rfl

theorem delay_within (d : Nat) : (delay d).Within c n := fun _ _ => transactsAtMost_of_event n rfl rfl rfl

theorem transact_within (t : TransportId) (addr : BitVec 7) (wbytes : List Byte) (rcount : Nat) :
    (transact t addr wbytes rcount).Within c 1 :=
  fun _ _ => transactsAtMost_of_transact rfl rfl

end Budget

/-! ### Bridge operations (spec/41_bridge_sequences.md R125) -/

section Bridge
variable {c : Config} {n : Nat} (ctx : Option (Fin 16)) (g : Group)

theorem bridgeWrite_within (loc : Half) (wbytes : List Byte) : (bridgeWrite ctx g loc wbytes).Within c 1 := by
  refine (Op.within_read _).andThen fun addr => (transact_within _ addr wbytes 0).bind le_rfl fun a => ?_
  cases a with
  | ok => exact Op.within_pure _
  | err code => exact raise_within ctx _ loc code

theorem bridgeRead_within (loc : Half) : (bridgeRead ctx g loc).Within c 1 := by
  refine (Op.within_read _).andThen fun addr => (transact_within _ addr [] 1).bind le_rfl fun a => ?_
  cases a with
  | ok b => exact Op.within_pure b
  | err code => exact raise_within ctx _ loc code

theorem setBridge_within (f : State → Bridge) : (Op.modify fun s => s.setBridge g (f s)).Within c n :=
  Op.within_modify (fun _ => rfl) fun _ => rfl

/-- Each of the polls that may still be made is one transaction (spec/40_bridge.md R100). -/
theorem pollLoop_within (cmd1 : Byte) (left i : Nat) : (pollLoop ctx g cmd1 left i).Within c left := by
  induction left generalizing i with
  | zero => exact (Op.within_read _).andThen fun _ => raise_within ctx _ _ _
  | succ left ih =>
    refine (bridgeRead_within ctx g _).bind (Nat.le_add_left 1 left) fun st => ?_
    refine (setBridge_within g fun _ => ⟨st, i⟩).andThen fun _ => (Op.within_read _).andThen fun cfg => ?_
    split
    · exact (delay_within _).andThen fun _ => ih (i + 1)
    · split
      · exact raise_within ctx _ _ _
      · exact Op.within_pure _

/-- One write and at most 600 polls (spec/40_bridge.md R100). -/
theorem sendCommand_within (cmd1 cmd2 : Byte) : (sendCommand ctx g cmd1 cmd2).Within c 601 := by
  refine (bridgeWrite_within ctx g _ _).bind (by decide) fun _ => (Op.within_read _).andThen fun cfg => ?_
  split
  · exact Op.within_pure _
  · exact (setBridge_within g _).andThen fun _ => pollLoop_within ctx g cmd1 _ _

/-- An immediate command is one write (spec/40_bridge.md R100). -/
theorem sendCommand_within_of_immediate {cmd1 : Byte} (himm : c.immediate cmd1 = true) (cmd2 : Byte) :
    (sendCommand ctx g cmd1 cmd2).Within c 1 := by
  refine (bridgeWrite_within ctx g _ _).bind le_rfl fun _ => Op.within_read_cfg ?_
  rw [if_pos himm]
  exact Op.within_pure _

theorem oneWireReset_within : (oneWireReset ctx g).Within c 601 :=
  (Op.within_read _).andThen fun _ => sendCommand_within ctx g _ _

theorem writeByte_within (b : Byte) : (writeByte ctx g b).Within c 601 :=
  (Op.within_read _).andThen fun _ => sendCommand_within ctx g _ _

theorem readByte_within : (readByte ctx g).Within c 603 := by
  have himm : c.immediate c.cmdSetReadPtr = true := by simp [Config.immediate]
  refine Op.within_read_cfg ((sendCommand_within ctx g _ _).bind (by decide) fun _ => ?_)
  refine (sendCommand_within_of_immediate ctx g himm _).bind (by decide) fun _ => ?_
  exact bridgeRead_within ctx g _

theorem selectChannel_within (w v : Byte) : (selectChannel ctx g w v).Within c 2 := by
  have himm : c.immediate c.cmdChannelSelect = true := by simp [Config.immediate]
  refine Op.within_read_cfg ((sendCommand_within_of_immediate ctx g himm w).bind (by decide) fun _ => ?_)
  refine (bridgeRead_within ctx g _).bind le_rfl fun rb => ?_
  split
  · exact Op.within_pure _
  · exact raise_within ctx _ _ _

/-- No transaction without force (spec/40_bridge.md R105). -/
theorem resetAndConfigure_within (force : Bool) :
    (resetAndConfigure ctx g force).Within c (if force then 603 else 0) := by
  cases force with
  | false => exact Op.within_pure _
  | true =>
    have himm : c.immediate c.cmdWriteConfig = true := by simp [Config.immediate]
    change (resetAndConfigure ctx g true).Within c 603
    refine Op.within_read_cfg ((sendCommand_within ctx g _ _).bind (by decide) fun _ => ?_)
    refine (sendCommand_within_of_immediate ctx g himm _).bind (by decide) fun _ => ?_
    refine (bridgeRead_within ctx g _).bind (by decide) fun rb => ?_
    split
    · exact Op.within_pure _
    · exact raise_within ctx _ _ _

theorem readIntoBuf_within (ks : List (Fin 9)) : (readIntoBuf ctx g ks).Within c (ks.length * 603) := by
  induction ks with
  | nil => exact Op.within_pure _
  | cons k ks ih =>
    have hlength : (k :: ks).length * 603 - 603 = ks.length * 603 := by
      rw [List.length_cons, Nat.succ_mul, Nat.add_sub_cancel]
    refine (readByte_within ctx g).bind (Nat.le_mul_of_pos_left 603 (Nat.succ_pos _)) fun b => ?_
    rw [hlength]
    exact (setBuf_within k b).andThen fun _ => ih

theorem checkBufCrc_within (k : Nat) (loc : Half) : (checkBufCrc ctx k loc).Within c n := by
  refine (Op.within_read _).andThen fun crc => (Op.within_read _).andThen fun received => ?_
  split
  · exact Op.within_pure _
  · exact raise_within ctx _ _ _

theorem readRom_within : (readRom ctx g).Within c (2 * 601 + 8 * 603) := by
  refine (Op.within_read _).andThen fun cfg => (oneWireReset_within ctx g).bind (by decide) fun _ => ?_
  refine (writeByte_within ctx g _).bind (by decide) fun _ => ?_
  refine (readIntoBuf_within ctx g romIndices).bind (by decide) fun _ => ?_
  exact (checkBufCrc_within ctx 7 _).andThen fun _ => Op.within_read _

theorem copyPoll_within (left : Nat) : (copyPoll ctx g left).Within c (left * 603) := by
  induction left with
  | zero => exact raise_within ctx _ _ _
  | succ left ih =>
    have hleft : (left + 1) * 603 - 603 = left * 603 := by rw [Nat.succ_mul, Nat.add_sub_cancel]
    refine (readByte_within ctx g).bind (Nat.le_mul_of_pos_left 603 (Nat.succ_pos left)) fun b => ?_
    rw [hleft]
    split
    · exact ih
    · exact Op.within_pure _

theorem configureProbe_within (bits : Nat) : (configureProbe ctx g bits).Within c (10 * 601 + 10000 * 603) := by
  refine (Op.within_read _).andThen fun cfg => (oneWireReset_within ctx g).bind (by decide) fun _ => ?_
  iterate 5 refine (writeByte_within ctx g _).bind (by decide) fun _ => ?_
  refine (oneWireReset_within ctx g).bind (by decide) fun _ => ?_
  iterate 2 refine (writeByte_within ctx g _).bind (by decide) fun _ => ?_
  refine (delay_within _).andThen fun _ => (oneWireReset_within ctx g).bind (by decide) fun _ => ?_
  exact copyPoll_within ctx g Config.copyPollLimit

theorem triggerConversion_within : (triggerConversion ctx g).Within c (3 * 601) := by
  refine (Op.within_read _).andThen fun cfg => (oneWireReset_within ctx g).bind (by decide) fun _ => ?_
  exact (writeByte_within ctx g _).bind (by decide) fun _ => writeByte_within ctx g _

theorem checkShort_within : (checkShort ctx g).Within c n := by
  refine (Op.within_read _).andThen fun cfg => (Op.within_read _).andThen fun st => ?_
  split
  · exact raise_within ctx _ _ _
  · exact Op.within_pure _

theorem retrieveScratchpad_within : (retrieveScratchpad ctx g).Within c (3 * 601 + 9 * 603) := by
  refine (Op.within_read _).andThen fun cfg => (oneWireReset_within ctx g).bind (by decide) fun _ => ?_
  refine (checkShort_within ctx g).andThen fun _ => ?_
  iterate 2 refine (writeByte_within ctx g _).bind (by decide) fun _ => ?_
  refine (readIntoBuf_within ctx g scratchpadIndices).bind (by decide) fun _ => ?_
  exact (checkBufCrc_within ctx 8 _).andThen fun _ => Op.within_read _

end Bridge

/-! ### Operations without ports -/

section Portless
variable {c : Config} {n : Nat}

theorem crcValidate_within (p : Nat) : (crcValidate p).Within c n := by
  refine (Op.within_read _).andThen fun crc => (Op.within_read _).andThen fun received => ?_
  refine (setResValue_within fun _ => crc).andThen fun _ => ?_
  split
  · exact Op.within_pure _
  · exact raise_within none _ _ _

theorem decodeScratchpad_within (ctx : Option (Fin 16)) (sp : Vector Byte 9) (r : Fin 4) :
    (decodeScratchpad ctx sp r).Within c n := by
  intro s _
  rcases decodeScratchpad_cases ctx sp r s with ⟨-, e⟩ | ⟨-, -, e⟩ | ⟨-, -, -, v, k, e, -⟩ <;> rw [e]
  · exact transactsAtMost_of_event n rfl rfl rfl
  · exact transactsAtMost_of_event n rfl rfl rfl
  · exact transactsAtMost_of_events_eq n rfl rfl

theorem tdDecode_within (r : Fin 4) : (tdDecode r).Within c n :=
  (Op.within_read _).andThen fun sp => (decodeScratchpad_within none sp r).andThen fun _ =>
    Op.within_modify (fun _ => rfl) fun _ => rfl

theorem storedWhole_within (whole : Nat) : (storedWhole whole).Within c n := by
  intro s _
  rcases storedWhole_cases whole s with ⟨-, e⟩ | ⟨-, e⟩ <;> rw [e] <;> exact transactsAtMost_of_events_eq n rfl rfl

theorem tdCToF_within (sign : Bool) (whole tenths : Nat) : (tdCToF sign whole tenths).Within c n :=
  (Op.within_read _).andThen fun _ => (storedWhole_within _).andThen fun _ =>
    Op.within_modify (fun _ => rfl) fun _ => rfl

theorem setResolution_within (x : Byte) : (setResolution x).Within c n := by
  intro s _
  rw [run_setResolution]
  dsimp only
  split
  · exact transactsAtMost_of_events_eq n rfl rfl
  · split
    · exact transactsAtMost_of_event n rfl rfl rfl
    · exact transactsAtMost_of_events_eq n rfl rfl

end Portless

/-! ### The cycle commands (spec/70_reset_and_hazards.md R237) -/

/-- The budget of probe i in `initiate_all`: the chip reset for the leaders alone, the channel select, the ROM read, the
configuration and the trigger (spec/44_probe_manager.md R166). -/
def initiateBudget (i : Fin 16) : Nat :=
  (if isLeader i then 603 else 0) + (2 + (2 * 601 + 8 * 603) + (10 * 601 + 10000 * 603) + 3 * 601)

section Cycle
variable {c : Config} {n : Nat}

theorem updateProbe_within (i : Fin 16) (f : State → Probe → Probe) :
    (Op.modify fun s => s.updateProbe i (f s)).Within c n :=
  Op.within_modify (fun _ => rfl) fun _ => rfl

theorem setPhase_within (i : Fin 16) (p : ProbePhase) : (setPhase i p).Within c n := updateProbe_within i _

theorem identifyProbe_within (i : Fin 16) : (identifyProbe i).Within c (2 * 601 + 8 * 603) := by
  refine (Op.within_read _).andThen fun known => ?_
  split
  · exact setPhase_within i _
  · refine (readRom_within (some i) (probeGroup i)).attempt.bind le_rfl fun r => ?_
    cases r with
    | ok bytes => exact (updateProbe_within i _).andThen fun _ => setPhase_within i _
    | error f => exact Op.within_pure _

theorem configureStep_within (i : Fin 16) : (configureStep i).Within c (10 * 601 + 10000 * 603) := by
  refine (Op.within_read _).andThen fun done => ?_
  split
  · exact Op.within_pure _
  · refine (Op.within_read _).andThen fun bits => ?_
    refine (configureProbe_within (some i) (probeGroup i) bits).attempt.bind le_rfl fun r => ?_
    cases r with
    | ok _ => exact updateProbe_within i _
    | error f => exact (updateProbe_within i _).andThen fun _ => Op.within_propagate f

theorem initiateSteps_within (i : Fin 16) : (initiateSteps i).Within c (initiateBudget i) := by
  have hleft : initiateBudget i - (if isLeader i then 603 else 0) =
      2 + (2 * 601 + 8 * 603) + (10 * 601 + 10000 * 603) + 3 * 601 := by
    rw [initiateBudget, Nat.add_sub_cancel_left]
  refine (updateProbe_within i _).andThen fun _ => ?_
  refine (resetAndConfigure_within (some i) (probeGroup i) _).bind (Nat.le_add_right _ _) fun _ => ?_
  rw [hleft]
  refine (setPhase_within i _).andThen fun _ => (Op.within_read _).andThen fun cfg => ?_
  refine (selectChannel_within (some i) (probeGroup i) _ _).bind (by decide) fun _ => ?_
  refine (setPhase_within i _).andThen fun _ => (identifyProbe_within i).bind (by decide) fun _ => ?_
  refine (configureStep_within i).bind (by decide) fun _ => (setPhase_within i _).andThen fun _ => ?_
  exact (triggerConversion_within (some i) (probeGroup i)).bind (by decide) fun _ => setPhase_within i _

theorem initiateProbe_transactsAtMost (s : State) (i : Fin 16) :
    TransactsAtMost (initiateBudget i) s (initiateProbe s i) := by
  have h := initiateSteps_within i s rfl
  unfold initiateProbe
  split <;> rename_i hrun <;> rw [hrun] at h
  · exact h
  · exact h.quiet rfl rfl

theorem fetchScratchpad_within (i : Fin 16) : (fetchScratchpad i).Within c (2 + (3 * 601 + 9 * 603)) := by
  refine (Op.within_read _).andThen fun cfg => ?_
  refine (selectChannel_within (some i) (probeGroup i) _ _).bind (by decide) fun _ => ?_
  exact retrieveScratchpad_within (some i) (probeGroup i)

theorem decodeStep_transactsAtMost (i : Fin 16) (sp : Vector Byte 9) (s : State) :
    TransactsAtMost 0 s (decodeStep i sp s) := by
  have h := decodeScratchpad_within (n := 0) (some i) sp s.activeIndex s rfl
  unfold decodeStep
  split <;> rename_i hrun <;> rw [hrun] at h <;> exact h.quiet rfl rfl

theorem getProbe_transactsAtMost (s : State) (i : Fin 16) :
    TransactsAtMost (2 + (3 * 601 + 9 * 603)) s (getProbe s i).1 := by
  have h := fetchScratchpad_within i s rfl
  unfold getProbe
  split
  · split <;> rename_i hrun <;> rw [hrun] at h
    · exact h.trans (decodeStep_transactsAtMost i _ _)
    · exact h.quiet rfl rfl
  · exact transactsAtMost_of_events_eq _ rfl rfl

/-- A cycle makes at most the transactions of its probes together. -/
theorem foldl_transactsAtMost {f : State → Fin 16 → State} {budget : Fin 16 → Nat}
    (hf : ∀ s i, TransactsAtMost (budget i) s (f s i)) (is : List (Fin 16)) (s : State) :
    TransactsAtMost (is.map budget).sum s (is.foldl f s) := by
  induction is generalizing s with
  | nil => exact transactsAtMost_of_events_eq 0 rfl rfl
  | cons i is ih => exact (hf s i).trans (ih (f s i))

end Cycle

/-! ### Every command but ADC_PASS -/

section Commands
variable {m n : Nat} {x : Op Unit} {s t : State}

theorem runCommand_transactsAtMost (hx : x.Within s.cfg n) : TransactsAtMost n s (runCommand x s) := by
  rw [runCommand_eq]
  exact (hx s rfl).quiet rfl rfl

theorem TransactsAtMost.endCycle (h : TransactsAtMost n s t) : TransactsAtMost n s (endCycle t) := h.quiet rfl rfl

theorem illegalCommand_transactsAtMost (n : Nat) (s : State) : TransactsAtMost n s (illegalCommand s) :=
  runCommand_transactsAtMost (raise_within none _ _ _)

/-- A command that runs an operation makes the operation's transactions. -/
theorem next_transactsAtMost (hx : x.Within s.cfg m) (hbound : some m = some n)
    (h : (Host.Outcome.next (runCommand x s) : Host.Outcome State Fault Refusal) = .next t) :
    TransactsAtMost n s t := by
  cases hbound
  cases h
  exact runCommand_transactsAtMost hx

/-- The illegal command makes no transaction. -/
theorem ifLegal_transactsAtMost {i : Instr} (hx : x.Within s.cfg m) (hbound : some m = some n)
    (h : ifLegal i s (.next (runCommand x s)) = .next t) : TransactsAtMost n s t := by
  rcases ifLegal_cases i s (.next (runCommand x s)) with e | e <;> rw [e] at h
  · cases h
    exact illegalCommand_transactsAtMost n s
  · exact next_transactsAtMost hx hbound h

end Commands

/-- Each command stays within its bound: that of its operation, or of its sixteen probes together
(spec/70_reset_and_hazards.md R237). -/
theorem exec_transactsAtMost {i : Instr} {n : Nat} {s t : State} (hbound : transactionBound i = some n)
    (h : exec i s = .next t) : TransactsAtMost n s t := by
  cases i with
  | bufLoad k v => exact ifLegal_transactsAtMost (setBuf_within _ v) hbound h
  | crcCompute k => exact ifLegal_transactsAtMost (setResValue_within _) hbound h
  | crcValidate p => exact ifLegal_transactsAtMost (crcValidate_within _) hbound h
  | setLogging f => exact ifLegal_transactsAtMost (setLogVerbose_within _) hbound h
  | brSend g a b => exact next_transactsAtMost (sendCommand_within none g a b) hbound h
  | brResetCfg g force =>
    have hforce : (if (force == 1) = true then 603 else 0) ≤ 603 := by split <;> decide
    exact ifLegal_transactsAtMost ((resetAndConfigure_within none g (force == 1)).mono hforce) hbound h
  | brSelect g w v => exact next_transactsAtMost (selectChannel_within none g w v) hbound h
  | br1wReset g => exact next_transactsAtMost (oneWireReset_within none g) hbound h
  | brWriteByte g b => exact next_transactsAtMost (writeByte_within none g b) hbound h
  | brReadByte g =>
    exact next_transactsAtMost ((readByte_within none g).bind le_rfl fun b => setResValue_within _) hbound h
  | brReadRom g =>
    exact next_transactsAtMost ((readRom_within none g).bind le_rfl fun _ => Op.within_pure _) hbound h
  | brConfigProbe g bits => exact ifLegal_transactsAtMost (configureProbe_within none g _) hbound h
  | brTriggerConv g => exact next_transactsAtMost (triggerConversion_within none g) hbound h
  | brRetrieveSp g =>
    exact next_transactsAtMost ((retrieveScratchpad_within none g).bind le_rfl fun _ => Op.within_pure _) hbound h
  | tdDecode r =>
    rcases exec_tdDecode_cases r s with e | e | e <;> rw [e] at h
    · cases h
      exact illegalCommand_transactsAtMost n s
    · exact next_transactsAtMost (tdDecode_within _) hbound h
    · cases h
  | tdCToF sign whole tenths => exact ifLegal_transactsAtMost (tdCToF_within sign _ _) hbound h
  | pmInitiateAll =>
    have hsum : (probeIndices.map initiateBudget).sum ≤ n := by
      rw [← Option.some.inj hbound]
      decide
    have hcycle := (foldl_transactsAtMost initiateProbe_transactsAtMost probeIndices s).mono hsum
    rw [← Host.Outcome.next.inj h]
    exact hcycle.endCycle
  | pmGetAll =>
    have hsum : (probeIndices.map fun _ => 2 + (3 * 601 + 9 * 603)).sum ≤ n := by
      rw [← Option.some.inj hbound]
      decide
    have hcycle := (foldl_transactsAtMost getProbe_transactsAtMost probeIndices s).mono hsum
    rw [exec_pmGetAll_next h, getProbes_eq_foldl]
    exact hcycle.endCycle
  | pmSetResolution r => exact next_transactsAtMost (setResolution_within r) hbound h
  | adcPass => cases hbound

/-- Settles O37: every operation stays within its budget of transactions, and each command's budget is its bound. -/
theorem transactionsAreBounded : Obligations.TransactionsAreBounded := by
  intro i n s t hbound h
  obtain ⟨-, hnew⟩ := exec_transactsAtMost hbound h
  exact hnew

end Sys2Proof.Machine
